-- ==== Sys2Proof/Word.lean ====
section
/-!
DEFINITION. The one word type of the model.  The 2440 has no registers of bits: what its manual treats as bits is the
byte on a serial link (10.1) and the 16-bit number field of a line record (R112).  Every other quantity is an integer
(00_scope, section 5, Arithmetic) and is a Nat or, where it may be negative, an Int.
-/

namespace Sys2Proof

/-- One byte of a frame (10.1). -/
abbrev Byte := BitVec 8

/-- The 16-bit field in which a line record carries a ticket or group number (R112, R165). -/
abbrev Number := BitVec 16

end Sys2Proof
end

