-- ==== Sys2Proof/Syntax.lean ====
section
/-!
DEFINITION. The commands: one constructor for each row of spec/opcode_table.json, in the table's order.

A command is one whole, indivisible step of the part (95_what_each_step_holds).  Three kinds are told apart by what they
carry.  A frame or record that arrives from outside carries its content as operands.  A host request (IDENTIFY to
SEND_SHORT, and UNKNOWN_KIND) carries none: its step is the decoder taking the first frame of the input buffer (R172),
and its operands are the tag and the body bytes of that frame, which HOST_FRAME_ARRIVAL put there.  An event of the part
itself (an expiry, an engine visit, the end of a frame) carries the number of the unit it happens at, where there is more
than one.
-/

namespace Sys2Proof

/-- The twenty-five line links (00_scope, section 2): one for each station terminal and one for the pass terminal. -/
inductive LineId where
  | station (x : Nat)
  | pass
  deriving DecidableEq, Repr

/-- The commands of the part, one for each row of the table. -/
inductive Instr where
  /-- RESET (R185): power-on or the reset pin.  Operands: the levels of the 25 presence inputs when the reset ends
  (R128, R166), station inputs S0 to S23 first. -/
  | reset (stationLevels : List Bool) (passLevel : Bool)
  /-- CLOCK_TICK (R62): one second passes. -/
  | clockTick
  /-- HOST_FRAME_ARRIVAL (R169): the host line delivers these bytes to the receiver, the first byte first. -/
  | hostFrameArrival (bytes : List Byte)
  /-- HOST_FRAME_END (R175): the frame that the host transmitter is sending ends. -/
  | hostFrameEnd
  /-- UNKNOWN_KIND (R174): the decoder takes a frame whose kind is no host request code. -/
  | unknownKind
  /-- IDENTIFY (R183). -/
  | identify
  /-- RESTART (R184). -/
  | restart
  /-- SET_CLOCK (R64). -/
  | setClock
  /-- QUERY_CLOCK (R65). -/
  | queryClock
  /-- BEGIN_SERVICE (R178, R179). -/
  | beginService
  /-- END_SERVICE (R180, R181). -/
  | endService
  /-- DEFINE_STATION (R105). -/
  | defineStation
  /-- DEFINE_COMPONENT (R2). -/
  | defineComponent
  /-- DEFINE_COURSE (R5). -/
  | defineCourse
  /-- DEFINE_FLOOR (R18). -/
  | defineFloor
  /-- SET_TABLE (R20). -/
  | setTable
  /-- MARK_TABLES (R28). -/
  | markTables
  /-- RESTOCK (R7). -/
  | restock
  /-- QUERY_STATION (R127). -/
  | queryStation
  /-- QUERY_COMPONENT (R8). -/
  | queryComponent
  /-- QUERY_TABLE (R22). -/
  | queryTable
  /-- QUERY_WAVE (R60). -/
  | queryWave
  /-- QUERY_GROUP (R167). -/
  | queryGroup
  /-- QUERY_TICKET (R102). -/
  | queryTicket
  /-- STAGE_WAVE (R36). -/
  | stageWave
  /-- RELEASE_WAVE (R41). -/
  | releaseWave
  /-- HOLD_WAVE (R48). -/
  | holdWave
  /-- RESUME_WAVE (R51). -/
  | resumeWave
  /-- CANCEL_WAVE (R55). -/
  | cancelWave
  /-- REARM_STATION (R138). -/
  | rearmStation
  /-- REFIRE from the host (R156). -/
  | refire
  /-- SEND_SHORT (R159). -/
  | sendShort
  /-- STAGING_LAPSE (R39) of the wave. -/
  | stagingLapse (wave : Nat)
  /-- RELEASE_VISIT (R45): the release engine's next visit. -/
  | releaseVisit
  /-- FIRE_EXPIRY (R90) at the present reading. -/
  | fireExpiry
  /-- LOAD_SAMPLE (R132) of the station. -/
  | loadSample (station : Nat)
  /-- DIE_EXPIRY (R151) of the group. -/
  | dieExpiry (group : Nat)
  /-- PICKUP_EXPIRY (R161) of the group. -/
  | pickupExpiry (group : Nat)
  /-- READY (R114) from the terminal of the station, naming a ticket. -/
  | ready (station : Nat) (ticket : Number)
  /-- SPOIL (R115) from the terminal of the station, naming a ticket. -/
  | spoil (station : Nat) (ticket : Number)
  /-- RESYNC (R120) from the terminal of the station. -/
  | resync (station : Nat)
  /-- LINE_FRAME_DISCARD (R112, R165): the line delivers these bytes, which its receiver judges. -/
  | lineFrameDiscard (line : LineId) (bytes : List Byte)
  /-- PICKED (R160) from the pass terminal. -/
  | picked (group : Number)
  /-- REFIRE from the pass terminal (R158). -/
  | passRefire (group ticket : Number)
  /-- RESYNC from the pass terminal (R165, R166). -/
  | passResync
  /-- PRESENCE_FALL (R124) of the station's presence input. -/
  | presenceFall (station : Nat)
  /-- PRESENCE_RISE (R125) of the station's presence input. -/
  | presenceRise (station : Nat)
  /-- PASS_PRESENCE_FALL (R166). -/
  | passPresenceFall
  /-- PASS_PRESENCE_RISE (R166). -/
  | passPresenceRise
  /-- LINE_FRAME_END (R121): the frame being sent on the line ends. -/
  | lineFrameEnd (line : LineId)
  /-- REFRESH_RUN_END (R121): the refresh run being sent on the line ends. -/
  | refreshRunEnd (line : LineId)
  /-- REFRESH_BEGIN (R122): a pending refresh begins on the line. -/
  | refreshBegin (line : LineId)
  deriving DecidableEq, Repr

end Sys2Proof
end

