-- ==== Sys2Proof/Decode.lean ====
section
/-!
DEFINITION. The commands that words spell by the bits of spec/opcode_table.json.  The table gives no row any bits (every
row's "fields" is empty), since the 2440's commands are frames, records, events and pin changes; so no word spells a
command.  The frames' own codes are read by Machine/Operands.lean and Machine/Link.lean.
-/

namespace Sys2Proof

/-- The command that an `nbits`-bit word spells by the table's bits: none for every word (log 22). -/
def decodeTableWord (_nbits _w : Nat) : Option Instr :=
  none

end Sys2Proof
end

