-- ==== Sys2Proof/Config.lean ====
section
/-!
DEFINITION. The fixed sizes and limits of the part: the capacity table of 00_scope, section 3.2, and the fixed
numbers that the rules name.  The manual leaves no value of this part to an implementation, so nothing here is
free.
-/

namespace Sys2Proof

/-- The largest reading of the service clock (R62). -/
abbrev Config.clockMax : Nat := 16777215

/-- Cooking stations S0..S23. -/
abbrev Config.stations : Nat := 24

/-- Component records 0..511 (R1). -/
abbrev Config.components : Nat := 512

/-- Course plans 0..127 (R4). -/
abbrev Config.courses : Nat := 128

/-- Table records 0..399 (R17). -/
abbrev Config.tables : Nat := 400

/-- Wave records 0..63 (R34). -/
abbrev Config.waves : Nat := 64

/-- Ticket pool entries 0..4095 (R83). -/
abbrev Config.tickets : Nat := 4096

/-- Plate-group pool entries 0..1023 (R146). -/
abbrev Config.groups : Nat := 1024

/-- Places of the host input buffer (R171). -/
abbrev Config.inputBuffer : Nat := 4

/-- Places of the reply queue (R175). -/
abbrev Config.replyQueue : Nat := 4

/-- Places of the notice queue (R175). -/
abbrev Config.noticeQueue : Nat := 64

/-- Places of a line output queue (R121). -/
abbrev Config.lineQueue : Nat := 32

/-- The ceiling of a tracked stock count (R1). -/
abbrev Config.stockMax : Nat := 9999

/-- The ceiling of a load accumulator (R130). -/
abbrev Config.accumulatorMax : Nat := 65535

/-- The ceiling of a reported lateness (R71, R72). -/
abbrev Config.latenessMax : Nat := 65535

/-- The value at which the sequence counter holds (R85). -/
abbrev Config.seqMax : Nat := 4294967295

/-- The stretch of a NORMAL station, in 64ths (R130). -/
abbrev Config.normalStretch : Nat := 64

/-- Seconds after which a staged wave lapses (R39). -/
abbrev Config.lapse : Nat := 600

/-- Seconds between two load samples of one station (R131). -/
abbrev Config.samplePeriod : Nat := 5

/-- The largest stagger; a larger one is clamped (R37). -/
abbrev Config.staggerMax : Nat := 120

/-- The pickup limit after reset and when BEGIN_SERVICE leaves it out (R179, R185). -/
abbrev Config.pickupDefault : Nat := 90

/-- The start byte of a frame (10.1). -/
abbrev Config.startByte : BitVec 8 := 0xC3#8

/-- IDENTIFY's vendor code (R183). -/
abbrev Config.vendorCode : Nat := 0x45

/-- IDENTIFY's part code (R183). -/
abbrev Config.partCode : Nat := 2440

/-- IDENTIFY's revision (R183). -/
abbrev Config.revision : Nat := 3

end Sys2Proof
end

