-- ==== Sys2Proof/Machine/State.lean ====
section
/-!
DEFINITION. The state of the 2440 as plain data, and its value right after reset.  Every piece of state that the spec
names is a field; INVENTORY.md lists them with their rules.
-/

namespace Sys2Proof.Machine

/-! ## Stores -/

/-- Numbered records, of which only some are present: a list of (number, record) pairs with strictly rising numbers.
A record that the spec calls undefined, FREE or not live is absent. -/
abbrev Store (α : Type) := List (Nat × α)

/-! ## The host link (R169 to R185) -/

/-- The service mode (R177). -/
inductive Mode where
  | setup
  | service
  deriving DecidableEq, Repr

/-- A good frame as the receiver hands it on: kind, tag and body (R169). -/
structure Frame where
  kind : Byte
  tag : Byte
  body : List Byte
  deriving DecidableEq, Repr

/-- A receiver's state (R169).  A collecting receiver holds the length byte and the bytes taken since. -/
inductive Receiver where
  | hunting
  | awaitingLength
  | collecting (length : Byte) (taken : List Byte)
  deriving DecidableEq, Repr

/-- Whether the decoder takes requests, or has been stopped by an accepted RESTART (R184). -/
inductive Decoder where
  | taking
  | stopped
  deriving DecidableEq, Repr

/-- The reasons of a refused reply (R173). -/
inductive Reason where
  | unknownKind | malformed | range | mode | noSuch | state | busy | noTickets | noGroups | noStock | empty | tooHot
  deriving DecidableEq, Repr

/-- The qualifiers of an accepted reply (R173). -/
structure Qualifiers where
  late : Bool := false
  clipped : Bool := false
  clamped : Bool := false
  stockShort : Bool := false
  deriving DecidableEq, Repr

/-! ## The menu store (R1 to R16) -/

/-- A defined component record (R1).  `stock` absent: untracked. -/
structure Component where
  station : Nat
  cookTime : Nat
  holdWindow : Nat
  stock : Option Nat
  lowLevel : Option Nat
  deriving DecidableEq, Repr

/-! ## The floor map (R17 to R33) -/

/-- One entry of a table's substitution list (R19). -/
structure Substitution where
  source : Nat
  target : Nat
  count : Nat
  deriving DecidableEq, Repr

/-- A table record (2.2).  `liveCourses` is a set, held in ascending order. -/
structure TableRecord where
  covers : Nat := 0
  mark : Nat := 0
  substitutions : List Substitution := []
  liveCourses : List Nat := []
  deriving DecidableEq, Repr

/-- A region's shape with its placement fields (R24). -/
inductive Placement where
  | rect (row column width height : Nat)
  | linear (start count : Nat)
  deriving DecidableEq, Repr

/-- The walking orders (R24, R26, R27). -/
inductive WalkOrder where
  | forward | reverse | snake
  deriving DecidableEq, Repr

/-- A region as the host sent it, unclipped (R24, R34). -/
structure Region where
  placement : Placement
  order : WalkOrder
  deriving DecidableEq, Repr

/-- The floor: its size, 0 by 0 while it is undefined (R17), and its table records.  A table whose record holds the reset
values (R33) is absent from the store. -/
structure Floor where
  rows : Nat := 0
  columns : Nat := 0
  tables : Store TableRecord := []
  deriving DecidableEq, Repr

/-! ## The wave table and the release engine (R34 to R61) -/

/-- The states of a wave (chapter 3). -/
inductive WaveState where
  | free | staged | releasing | active | held
  deriving DecidableEq, Repr

/-- The plan counts of a wave (R34). -/
structure PlanCounts where
  visited : Nat := 0
  skippedEmpty : Nat := 0
  skippedMarked : Nat := 0
  skippedBusy : Nat := 0
  groups : Nat := 0
  tickets : Nat := 0
  deriving DecidableEq, Repr

/-- The release counts of a wave (R34). -/
structure ReleaseCounts where
  groups : Nat := 0
  tickets : Nat := 0
  fired : Nat := 0
  maxLateness : Nat := 0
  deriving DecidableEq, Repr

/-- The ending counts of a wave (R34, R58). -/
structure EndingCounts where
  served : Nat := 0
  short : Nat := 0
  cancelled : Nat := 0
  deriving DecidableEq, Repr

/-- The record of a wave that is not FREE (R34). -/
structure Wave where
  state : WaveState
  course : Nat
  region : Region
  skipMark : Option Nat
  goTime : Nat
  stagger : Nat
  stagedAt : Nat
  holdSince : Option Nat := none
  plan : PlanCounts := {}
  release : ReleaseCounts := {}
  ending : EndingCounts := {}
  reservedTickets : Nat := 0
  reservedGroups : Nat := 0
  deriving DecidableEq, Repr

/-- A served table with the ticket list kept for it at acceptance (R42): (component, quantity) pairs in list order. -/
structure ServedTable where
  table : Nat
  tickets : List (Nat × Nat)
  deriving DecidableEq, Repr

/-- The release engine's status (R44). -/
inductive EngineStatus where
  | idle | running | done | aborted
  deriving DecidableEq, Repr

/-- The release engine (R44): while RUNNING, `plan` is the wave's served list and `next` the position of the next visit
in it, which is that table's order index. -/
structure Engine where
  status : EngineStatus := .idle
  wave : Option Nat := none
  plan : List ServedTable := []
  next : Nat := 0
  deriving DecidableEq, Repr

/-! ## Tickets and plate groups (R80 to R103, R145 to R168) -/

/-- The states of a live ticket (R81). -/
inductive TicketState where
  | calendared | blocked | queued | onLine | ready | dead | withdrawn
  deriving DecidableEq, Repr

/-- A live ticket's record (R80); its number is its key in the store. -/
structure Ticket where
  wave : Nat
  group : Nat
  table : Nat
  component : Nat
  homeStation : Nat
  station : Nat
  quantity : Nat
  goTime : Nat
  fireTime : Int
  dueReady : Int
  firedAt : Option Nat := none
  lateness : Nat := 0
  seq : Nat
  generation : Nat := 0
  rush : Bool := false
  state : TicketState
  position : Option Nat := none
  readyAt : Option Nat := none
  deriving DecidableEq, Repr

/-- The counts of a pool (R83, R146). -/
structure Pool where
  free : Nat
  reserved : Nat
  live : Nat
  deriving DecidableEq, Repr

/-- The states of a live plate group (chapter 8). -/
inductive GroupState where
  | pending | assembling | complete
  deriving DecidableEq, Repr

/-- The causes of a failed automatic remake (R154). -/
inductive EscalationCause where
  | generation | noTickets | noStock
  deriving DecidableEq, Repr

/-- What asked for a failed automatic remake (R154). -/
inductive RemakeSource where
  | die | spoil
  deriving DecidableEq, Repr

/-- A live plate group's record (R145); its number is its key in the store. -/
structure Group where
  wave : Nat
  table : Nat
  course : Nat
  orderIndex : Nat
  goTime : Nat
  covers : Nat
  tickets : List Nat := []
  state : GroupState := .pending
  short : Bool := false
  escalated : Bool := false
  escalationCause : Option EscalationCause := none
  dieAt : Option Nat := none
  pickupAt : Option Nat := none
  unpickedReported : Bool := false
  deriving DecidableEq, Repr

/-! ## Line links (R112, R113, R121, R164) -/

/-- A line link's connected state (R124). -/
inductive Presence where
  | present | absent
  deriving DecidableEq, Repr

/-- The load states (R130). -/
inductive LoadState where
  | normal | derated | tripped
  deriving DecidableEq, Repr

/-- The status that GROUP_UP shows for a slot (R164). -/
inductive SlotStatus where
  | waiting | ready | dead | withdrawn
  deriving DecidableEq, Repr

/-- One slot of a GROUP_UP (R164). -/
structure Slot where
  ticket : Nat
  component : Nat
  quantity : Nat
  status : SlotStatus
  deriving DecidableEq, Repr

/-- The records that the part sends on line links: six kinds to a station terminal (R113), then eight to the pass
terminal (R164). -/
inductive LineRecord where
  /-- SHOW. -/
  | showTicket (ticket table component quantity : Nat) (dueReady : Int) (rush : Bool) (generation : Nat)
  /-- LINE. -/
  | lineTicket (ticket position : Nat)
  /-- DONE. -/
  | doneTicket (ticket : Nat)
  /-- PULL. -/
  | pullTicket (ticket : Nat)
  /-- STALE from a station: the ticket number and the kind code of the record answered. -/
  | stale (ticket : Nat) (kind : Byte)
  /-- STATION. -/
  | stationStatus (load : LoadState) (stretch queueCount queueLimit : Nat)
  /-- GROUP_UP. -/
  | groupUp (group table course wave : Nat) (short escalated : Bool) (slots : List Slot)
  /-- ARRIVE. -/
  | arrive (group ticket : Nat)
  /-- GO. -/
  | go (group : Nat) (short : Bool)
  /-- WAIT. -/
  | waitGroup (group : Nat)
  /-- DYING. -/
  | dying (group ticket : Nat)
  /-- WITHDRAW. -/
  | withdrawGroup (group : Nat)
  /-- STALE on the pass line: the kind code answered, the group and, for REFIRE, the ticket. -/
  | passStale (kind : Byte) (group : Nat) (ticket : Option Nat)
  /-- PASS. -/
  | passRun (groups : Nat)
  deriving DecidableEq, Repr

/-- A line transmitter (R121): a refresh run is sent whole. -/
inductive LineTx where
  | idle
  | sending (r : LineRecord)
  | refreshing (run : List LineRecord)
  deriving DecidableEq, Repr

/-- One line link (R104, R121, R122, R124, R128). -/
structure Line where
  presence : Presence := .absent
  queue : List LineRecord := []
  tx : LineTx := .idle
  refreshPending : Bool := false
  receiver : Receiver := .hunting
  deriving DecidableEq, Repr

/-! ## Stations and load records (R104, R130) -/

/-- The configuration of a defined station (R104). -/
structure StationConfig where
  positions : Nat
  queueLimit : Nat
  carry : Nat
  alternate : Option Nat
  derateLevel : Nat
  tripLevel : Nat
  coolStep : Nat
  derateStretch : Nat
  deriving DecidableEq, Repr

/-- A station's load record (R130).  The stretch follows from the state and is not stored. -/
structure LoadRecord where
  accumulator : Nat := 0
  state : LoadState := .normal
  nextSample : Option Nat := none
  deriving DecidableEq, Repr

/-- One station controller (R104): `config` absent means undefined.  The queue is its rush class followed by its ordinary
class (R107). -/
structure Station where
  config : Option StationConfig := none
  line : Line := {}
  rushQueue : List Nat := []
  ordinaryQueue : List Nat := []
  positions : List (Option Nat) := []
  blocked : List Nat := []
  load : LoadRecord := {}
  deriving DecidableEq, Repr

/-! ## What the part sends the host (R173, R176) -/

/-- Where the offer of a refired ticket's copy ended (R157): a station, or absent for BLOCKED. -/
abbrev OfferEnd := Option Nat

/-- A slot of a QUERY_GROUP reply (R167). -/
structure SlotReport where
  ticket : Nat
  component : Nat
  quantity : Nat
  generation : Nat
  rush : Bool
  state : TicketState
  deriving DecidableEq, Repr

/-- How a SEND_SHORT ended (R159). -/
inductive ShortOutcome where
  | shortGo | cancelled
  deriving DecidableEq, Repr

/-- The figures of an accepted reply, as its request's rule names them. -/
inductive Figures where
  /-- No figures (R3, R5, R18, R21, R106, R184). -/
  | noFigures
  /-- IDENTIFY (R183): the fixed figures and the mode. -/
  | identity (mode : Mode)
  /-- SET_CLOCK (R64). -/
  | clockSet (reading : Nat)
  /-- QUERY_CLOCK (R65). -/
  | clockReading (reading : Nat) (saturated : Bool)
  /-- BEGIN_SERVICE (R179). -/
  | serviceBegun (pickupLimit reading definedStations : Nat)
  /-- END_SERVICE (R181). -/
  | serviceEnded (waves groups tickets : Nat)
  /-- MARK_TABLES (R28). -/
  | tablesMarked (changed : Nat) (clippedSize : Option (Nat × Nat))
  /-- RESTOCK (R7). -/
  | restocked (component count : Nat)
  /-- QUERY_STATION (R127). -/
  | stationReport (config : StationConfig) (presence : Presence) (load : LoadState) (accumulator stretch queued rush onLine
      blocked records : Nat) (refreshPending : Bool)
  /-- QUERY_COMPONENT (R8). -/
  | componentReport (record : Component)
  /-- QUERY_TABLE (R22). -/
  | tableReport (row column : Nat) (record : TableRecord)
  /-- QUERY_WAVE (R60); the record is absent for a FREE wave. -/
  | waveReport (status : EngineStatus) (engineWave nextVisit : Option Nat) (record : Option Wave)
  /-- QUERY_GROUP (R167); the record is absent for an entry that is not live. -/
  | groupReport (group : Nat) (record : Option (Group × List SlotReport)) (pool : Pool)
  /-- QUERY_TICKET (R102); the record is absent for an entry that is not live. -/
  | ticketReport (ticket : Nat) (record : Option Ticket) (pool : Pool)
  /-- STAGE_WAVE (R38). -/
  | staged (plan : PlanCounts) (earliestFire : Int) (latestGo stagger : Nat) (clippedSize : Option (Nat × Nat))
  /-- RELEASE_WAVE (R43). -/
  | released (groups tickets : Nat) (earliestFire : Int)
  /-- HOLD_WAVE (R48). -/
  | held (exposed : Nat)
  /-- RESUME_WAVE (R54). -/
  | resumed (retimed kept fired : Nat)
  /-- CANCEL_WAVE (R57). -/
  | waveCancelled (groups tickets : Nat)
  /-- REARM_STATION (R139). -/
  | rearmed (station : Nat) (load : LoadState) (accumulator stretch retimed fired : Nat)
  /-- REFIRE (R157). -/
  | refired (ticket generation : Nat) (offerEnd : OfferEnd)
  /-- SEND_SHORT (R159). -/
  | sentShort (outcome : ShortOutcome) (withdrawn ready : Nat)
  deriving DecidableEq, Repr

/-- The outcome of a request (R173). -/
inductive Answer where
  | accepted (qualifiers : Qualifiers) (figures : Figures)
  | refused (reason : Reason)
  deriving DecidableEq, Repr

/-- A reply (R173): the request's tag and kind byte, and the answer. -/
structure Reply where
  tag : Byte
  kind : Byte
  answer : Answer
  deriving DecidableEq, Repr

/-- The reasons of WAVE_DONE (R57, R59). -/
inductive DoneReason where
  | served | cancelled
  deriving DecidableEq, Repr

/-- The causes of STOCK_OUT (R13). -/
inductive StockOutCause where
  | emptied | short
  deriving DecidableEq, Repr

/-- The causes of STATION_STATE (R124, R136). -/
inductive StationCause where
  | load | presence
  deriving DecidableEq, Repr

/-- The cause and details of a LINK_ERROR (R170, R171). -/
inductive LinkFault where
  /-- BAD_FRAME (LENGTH): the length byte received. -/
  | badLength (length : Byte)
  /-- BAD_FRAME (CHECK): the length and the sum found. -/
  | badCheck (length sum : Byte)
  /-- OVERRUN: the discarded frame's kind and tag. -/
  | overrun (kind tag : Byte)
  deriving DecidableEq, Repr

/-- The notices (R176). -/
inductive Notice where
  | waveLapsed (wave course stagedAt : Nat)
  | waveReleased (wave groups tickets fired maxLateness : Nat)
  | waveDone (wave : Nat) (reason : DoneReason) (released served short cancelled : Nat)
  | stationState (station : Nat) (cause : StationCause) (presence : Presence) (before after : LoadState)
      (accumulator retimed fired : Nat)
  | groupDying (group wave table dead remade : Nat)
  | groupEscalated (group wave table ticket component : Nat) (cause : EscalationCause) (source : RemakeSource)
  | groupUnpicked (group wave table : Nat) (short : Bool) (pickupAt : Nat)
  | stockLow (component count lowLevel : Nat)
  | stockOut (component : Nat) (cause : StockOutCause) (count need : Nat)
  | linkError (fault : LinkFault)
  deriving DecidableEq, Repr

/-- A notice as it stands in the queue: its contents and its lost field (R176). -/
structure QueuedNotice where
  lost : Bool
  notice : Notice
  deriving DecidableEq, Repr

/-- The host link's transmitter (R175). -/
inductive HostTx where
  | idle
  | reply (r : Reply)
  | notice (n : QueuedNotice)
  deriving DecidableEq, Repr

/-- The host link block (R185). -/
structure HostLink where
  mode : Mode := .setup
  receiver : Receiver := .hunting
  input : List Frame := []
  decoder : Decoder := .taking
  replies : List Reply := []
  notices : List QueuedNotice := []
  lost : Bool := false
  tx : HostTx := .idle
  seq : Nat := 0
  pickupLimit : Nat := Config.pickupDefault
  deriving DecidableEq, Repr

/-- The rate strap pins (00_scope, section 7): true is high. -/
structure Straps where
  strap1 : Bool := false
  strap0 : Bool := false
  deriving DecidableEq, Repr

/-! ## The machine -/

/-- The state of the part, and the queue of commands that wait for it. -/
structure State where
  /-- The commands waiting, first in, first out. -/
  pending : List Instr
  /-- The service clock (R62). -/
  clock : Nat
  /-- The host link block (R185). -/
  link : HostLink
  /-- The defined component records (R1). -/
  components : Store Component
  /-- The defined course plans (R4). -/
  courses : Store (List Nat)
  /-- The floor map (R17). -/
  floor : Floor
  /-- The records of the waves that are not FREE (R34). -/
  waves : Store Wave
  /-- The release engine (R44). -/
  engine : Engine
  /-- The live tickets (R80). -/
  tickets : Store Ticket
  /-- The ticket pool's counts (R83). -/
  ticketPool : Pool
  /-- The calendar (R88). -/
  calendar : List Nat
  /-- The frozen waves, in ascending order (R91). -/
  frozen : List Nat
  /-- The station controllers S0 to S23 (R104). -/
  stations : List Station
  /-- The live plate groups (R145). -/
  groups : Store Group
  /-- The plate-group pool's counts (R146). -/
  groupPool : Pool
  /-- The pass terminal's line link (R164). -/
  passLine : Line
  /-- The rate strap pins (00_scope, section 7). -/
  straps : Straps
  deriving DecidableEq, Repr

/-- The part right after reset (R16, R33, R61, R62, R103, R128, R144, R166, R168, R185).
DESIGN CHOICE: every presence input is low, so every line is ABSENT (log 9); both rate straps are low (log 10). -/
def State.reset : State where
  pending := []
  clock := 0
  link := {}
  components := []
  courses := []
  floor := {}
  waves := []
  engine := {}
  tickets := []
  ticketPool := { free := Config.tickets, reserved := 0, live := 0 }
  calendar := []
  frozen := []
  stations := List.replicate Config.stations {}
  groups := []
  groupPool := { free := Config.groups, reserved := 0, live := 0 }
  passLine := {}
  straps := {}

/-! ## The other outcomes of a step -/

/-- Why a step stops. -/
inductive Fault where
  /-- A command names a station, line, wave or group that the part does not have, or a RESET does not give the levels of
  24 station inputs (`Instr.wellFormed` is false).  Raised by the meanings of the commands that name a unit.  Safe: no such
  event can happen to the part. -/
  | noSuchUnit
  deriving DecidableEq, Repr

/-- Why a step is refused. -/
inductive Refusal where
  /-- The command has no meaning yet.  Raised by `exec` alone, in the arm of a command not modelled; no arm of this model
  raises it.  Safe. -/
  | notModelled (mnemonic : String)
  deriving DecidableEq, Repr

/-- What a command answers. -/
abbrev Result := Host.Outcome State Fault Refusal

end Sys2Proof.Machine
end

