-- ==== Sys2Proof/Machine/Store.lean ====
section
/-!
DEFINITION. Operations on stores of numbered records and on ordered lists of numbers.
-/

namespace Sys2Proof.Machine

/-- The record of number `n`, if it is present. -/
def Store.get? {α : Type} : Store α → Nat → Option α
  | [], _ => none
  | (k, a) :: rest, n => if k = n then some a else Store.get? rest n

/-- The store with record `n` written, at its place in ascending order. -/
def Store.set {α : Type} : Store α → Nat → α → Store α
  | [], n, a => [(n, a)]
  | (k, b) :: rest, n, a =>
    if n < k then (n, a) :: (k, b) :: rest
    else if n = k then (n, a) :: rest
    else (k, b) :: Store.set rest n a

/-- The store without record `n`. -/
def Store.erase {α : Type} (m : Store α) (n : Nat) : Store α :=
  m.filter fun e => decide (e.1 ≠ n)

/-- The store with record `n`, if present, changed by `f`. -/
def Store.update {α : Type} (m : Store α) (n : Nat) (f : α → α) : Store α :=
  match m.get? n with
  | some a => m.set n (f a)
  | none => m

/-- The numbers of the records present, in the store's order. -/
def Store.keys {α : Type} (m : Store α) : List Nat :=
  m.map Prod.fst

/-- The first number at or above `n` whose record is absent, looked for among `fuel + 1` numbers. -/
def Store.firstAbsentFrom {α : Type} (m : Store α) : Nat → Nat → Nat
  | 0, n => n
  | fuel + 1, n => if (m.get? n).isSome then Store.firstAbsentFrom m fuel (n + 1) else n

/-- The lowest number whose record is absent: the lowest-numbered entry that is not live (R84, R146).  As many numbers as
the store has records are looked at before the last, so one of them is absent. -/
def Store.firstAbsent {α : Type} (m : Store α) : Nat :=
  m.firstAbsentFrom m.length 0

/-- The canonical form: strictly rising numbers. -/
def Store.rising {α : Type} : Store α → Bool
  | [] => true
  | [_] => true
  | (k, _) :: (l, b) :: rest => decide (k < l) && Store.rising ((l, b) :: rest)

/-- A list with `t` put before the first entry that it stands before. -/
def insertBefore (before : Nat → Nat → Bool) (t : Nat) : List Nat → List Nat
  | [] => [t]
  | u :: rest => if before t u then t :: u :: rest else u :: insertBefore before t rest

/-- A list put in the order of `before`, by insertion. -/
def sortBefore (before : Nat → Nat → Bool) (l : List Nat) : List Nat :=
  l.foldl (fun sorted t => insertBefore before t sorted) []

/-- A list without `t`. -/
def removeNumber (t : Nat) (l : List Nat) : List Nat :=
  l.filter fun u => decide (u ≠ t)

/-- A set of numbers, held in ascending order, with `n` added. -/
def insertNumber (n : Nat) : List Nat → List Nat
  | [] => [n]
  | k :: rest => if n < k then n :: k :: rest else if n = k then k :: rest else k :: insertNumber n rest

end Sys2Proof.Machine
end

