-- ==== Sys2Proof/Machine/Ops.lean ====
section
/-!
DEFINITION. The named operations that several blocks share: access to the records of State, the notice queue, the reply
queue and the host transmitter, the pools, the sequence counter, and the stock draws and returns of chapter 1.
-/

namespace Sys2Proof.Machine

/-! ## Access to records -/

/-- The controller of station `x`; for a number the part does not have, a controller in its reset state. -/
def station (s : State) (x : Nat) : Station :=
  s.stations.getD x {}

/-- The state with the controller of station `x` changed by `f`. -/
def updStation (x : Nat) (f : Station → Station) (s : State) : State :=
  { s with stations := s.stations.modify x f }

/-- The record of ticket `t`, if it is live. -/
def ticket? (s : State) (t : Nat) : Option Ticket :=
  s.tickets.get? t

/-- The state with the record of ticket `t` written. -/
def setTicket (t : Nat) (tk : Ticket) (s : State) : State :=
  { s with tickets := s.tickets.set t tk }

/-- The state with the record of ticket `t`, if live, changed by `f`. -/
def updTicket (t : Nat) (f : Ticket → Ticket) (s : State) : State :=
  { s with tickets := s.tickets.update t f }

/-- The record of plate group `g`, if it is live. -/
def group? (s : State) (g : Nat) : Option Group :=
  s.groups.get? g

/-- The state with the record of group `g`, if live, changed by `f`. -/
def updGroup (g : Nat) (f : Group → Group) (s : State) : State :=
  { s with groups := s.groups.update g f }

/-- The record of wave `w`, if it is not FREE. -/
def wave? (s : State) (w : Nat) : Option Wave :=
  s.waves.get? w

/-- The state of wave `w`: FREE when it has no record (R34). -/
def waveState (s : State) (w : Nat) : WaveState :=
  match wave? s w with
  | some wv => wv.state
  | none => .free

/-- The state with the record of wave `w`, if not FREE, changed by `f`. -/
def updWave (w : Nat) (f : Wave → Wave) (s : State) : State :=
  { s with waves := s.waves.update w f }

/-- The record of table `t`: the reset record when none is listed (R33). -/
def tableRecord (s : State) (t : Nat) : TableRecord :=
  (s.floor.tables.get? t).getD {}

/-- The state with the record of table `t` written; a record of reset values is not listed. -/
def setTableRecord (t : Nat) (r : TableRecord) (s : State) : State :=
  { s with floor := { s.floor with
      tables := if r = {} then s.floor.tables.erase t else s.floor.tables.set t r } }

/-- The state with component `c`'s stock count written (the component is tracked). -/
def setStock (c count : Nat) (s : State) : State :=
  { s with components := s.components.update c fun r => { r with stock := some count } }

/-- The stock count of component `c`: absent for an untracked or undefined component (R1). -/
def stockOf (s : State) (c : Nat) : Option Nat :=
  (s.components.get? c).bind Component.stock

/-- The line link of `l`. -/
def lineOf (s : State) : LineId → Line
  | .station x => (station s x).line
  | .pass => s.passLine

/-- The state with line link `l` changed by `f`. -/
def updLine (l : LineId) (f : Line → Line) (s : State) : State :=
  match l with
  | .station x => updStation x (fun st => { st with line := f st.line }) s
  | .pass => { s with passLine := f s.passLine }

/-! ## The notice queue, the reply queue and the host transmitter (R175, R176) -/

/-- A notice is produced: it joins the queue with the lost field as the lost flag stands and clears the flag, or, with the
queue full, it is not queued and the flag is set (R176). -/
def pushNotice (n : Notice) (s : State) : State :=
  if s.link.notices.length < Config.noticeQueue then
    { s with link := { s.link with notices := s.link.notices ++ [⟨s.link.lost, n⟩], lost := false } }
  else
    { s with link := { s.link with lost := true } }

/-- A reply joins the reply queue (R175). -/
def pushReply (r : Reply) (s : State) : State :=
  { s with link := { s.link with replies := s.link.replies ++ [r] } }

/-- The transmitter chooses: the oldest reply, otherwise the oldest notice, otherwise it becomes idle (R175). -/
def chooseHostFrame (s : State) : State :=
  match s.link.replies, s.link.notices with
  | r :: rest, _ => { s with link := { s.link with replies := rest, tx := .reply r } }
  | [], n :: rest => { s with link := { s.link with notices := rest, tx := .notice n } }
  | [], [] => { s with link := { s.link with tx := .idle } }

/-- The end of an event: an idle transmitter with a reply or notice waiting begins a frame (R175).
DEDUCED: it begins when the event is over, since of a reply and notices queued by one event the reply is sent first, unsafe
(log 5). -/
def settle (s : State) : State :=
  match s.link.tx with
  | .idle => chooseHostFrame s
  | .reply _ => s
  | .notice _ => s

/-! ## Pools and the sequence counter (R83, R85, R146) -/

/-- RELEASE_WAVE accepted: `n` entries from free to reserved. -/
def Pool.reserve (n : Nat) (p : Pool) : Pool :=
  { p with free := p.free - min n p.free, reserved := p.reserved + min n p.free }

/-- The end of a release or a cancel: `n` entries from reserved to free. -/
def Pool.unreserve (n : Nat) (p : Pool) : Pool :=
  { p with free := p.free + min n p.reserved, reserved := p.reserved - min n p.reserved }

/-- A release visit creates a ticket or a group: one entry from reserved to live. -/
def Pool.liveFromReserved (p : Pool) : Pool :=
  { p with reserved := p.reserved - min 1 p.reserved, live := p.live + min 1 p.reserved }

/-- A remake copy is created: one entry from free to live. -/
def Pool.liveFromFree (p : Pool) : Pool :=
  { p with free := p.free - min 1 p.free, live := p.live + min 1 p.free }

/-- A ticket or a group is freed: one entry from live to free. -/
def Pool.release (p : Pool) : Pool :=
  { p with free := p.free + min 1 p.live, live := p.live - min 1 p.live }

/-- The sequence counter after one ticket creation: it holds at its ceiling (R85). -/
def nextSeq (seq : Nat) : Nat :=
  if seq < Config.seqMax then seq + 1 else seq

/-! ## Stock (R9 to R15) -/

/-- A successful draw of `q` portions from a tracked component whose count `n` covers it, with its notices: STOCK_LOW when
the draw crosses the low level (R12), then STOCK_OUT (EMPTIED) when it empties the count (R13). -/
def drawTracked (c q n : Nat) (low : Option Nat) (s : State) : State :=
  let s := setStock c (n - q) s
  let s := match low with
    | some l => if l < n ∧ n - q ≤ l then pushNotice (.stockLow c (n - q) l) s else s
    | none => s
  if 0 < n ∧ n - q = 0 then pushNotice (.stockOut c .emptied 0 q) s else s

/-- A draw of `q` portions of component `c` that is known to be covered; an untracked component is passed over. -/
def drawStock (c q : Nat) (s : State) : State :=
  match s.components.get? c with
  | some r =>
    match r.stock with
    | some n => drawTracked c q n r.lowLevel s
    | none => s
  | none => s

/-- The component's count does not cover `q` portions; an untracked component is never short (R9, R11). -/
def isShort (s : State) (c q : Nat) : Bool :=
  match stockOf s c with
  | some n => decide (n < q)
  | none => false

/-- The STOCK_OUT (SHORT) notice of a refused draw, with the unchanged count (R13). -/
def noticeShort (c q : Nat) (s : State) : State :=
  pushNotice (.stockOut c .short ((stockOf s c).getD 0) q) s

/-- The wave draw (R10): all or nothing, in ascending component order.  Answers whether it was made; a refused draw queues a
STOCK_OUT (SHORT) for each short component and changes no count. -/
def waveDraw (need : Store Nat) (s : State) : State × Bool :=
  let shortOnes := need.filter fun e => isShort s e.1 e.2
  if shortOnes.isEmpty then (need.foldl (fun s e => drawStock e.1 e.2 s) s, true)
  else (shortOnes.foldl (fun s e => noticeShort e.1 e.2 s) s, false)

/-- The copy draw (R11).  Answers whether it succeeded. -/
def copyDraw (c q : Nat) (s : State) : State × Bool :=
  if isShort s c q then (noticeShort c q s, false) else (drawStock c q s, true)

/-- A return of `q` portions, saturating at 9999; nothing for an untracked component, and no notice (R14). -/
def returnStock (c q : Nat) (s : State) : State :=
  match stockOf s c with
  | some n => setStock c (min Config.stockMax (n + q)) s
  | none => s

/-! ## Pins -/

/-- The serial rate that the straps select for all links, in baud (00_scope, section 7). -/
def baudRate (p : Straps) : Nat :=
  match p.strap1, p.strap0 with
  | false, false => 115200
  | false, true => 460800
  | true, false => 921600
  | true, true => 1843200

end Sys2Proof.Machine
end

