-- ==== Sys2Proof/Machine/Timing.lean ====
section
/-!
DEFINITION. The fire-time arithmetic of chapter 4: stretch, effective cook time, due-ready time, fire time, lateness, and
the order (fire_time, seq, ticket number) that the calendar and the blocked lists use.
-/

namespace Sys2Proof.Machine

/-- The stretch of a station controller: 64 while NORMAL, its derate stretch otherwise (R130). -/
def stretchOf (st : Station) : Nat :=
  match st.load.state, st.config with
  | .normal, _ => Config.normalStretch
  | .derated, some c => c.derateStretch
  | .tripped, some c => c.derateStretch
  | .derated, none => Config.normalStretch
  | .tripped, none => Config.normalStretch

/-- The stretch of station `x` (R130). -/
def stretch (s : State) (x : Nat) : Nat :=
  stretchOf (station s x)

/-- The carry time of station `x` (R104). -/
def carry (s : State) (x : Nat) : Nat :=
  match (station s x).config with
  | some c => c.carry
  | none => 0

/-- The cook time of component `c` (R1). -/
def cookTime (s : State) (c : Nat) : Nat :=
  match s.components.get? c with
  | some r => r.cookTime
  | none => 0

/-- The hold window of component `c`; 0 is untimed (R1). -/
def holdWindow (s : State) (c : Nat) : Nat :=
  match s.components.get? c with
  | some r => r.holdWindow
  | none => 0

/-- The home station of component `c` (R1). -/
def componentStation (s : State) (c : Nat) : Nat :=
  match s.components.get? c with
  | some r => r.station
  | none => 0

/-- The effective cook time: the cook time times the stretch, over 64, rounded up (R69). -/
def effectiveCook (d σ : Nat) : Nat :=
  (d * σ + 63) / 64

/-- The due-ready time for station `x` and go time `g` (R70). -/
def dueReadyAt (s : State) (x g : Nat) : Int :=
  (g : Int) - (carry s x : Int)

/-- The fire time of component `c` for station `x` and go time `g`, with the station's carry and stretch as they stand
(R70). -/
def fireTimeAt (s : State) (x c g : Nat) : Int :=
  (g : Int) - (carry s x : Int) - (effectiveCook (cookTime s c) (stretch s x) : Int)

/-- The seconds by which `now` is behind the time `f`: 0 when it is not, saturated at 65,535 (R71, R72). -/
def behind (now : Nat) (f : Int) : Nat :=
  min Config.latenessMax ((now : Int) - f).toNat

/-- The order index's go time of a wave (R67). -/
def goTimeAt (goTime stagger i : Nat) : Nat :=
  goTime + i * stagger

/-- The key order of two tickets: fire time, then seq, then ticket number (R85, R88). -/
def keyBefore (a : Ticket) (m : Nat) (b : Ticket) (n : Nat) : Bool :=
  if a.fireTime = b.fireTime then
    if a.seq = b.seq then decide (m < n) else decide (a.seq < b.seq)
  else decide (a.fireTime < b.fireTime)

/-- The calendar order of two ticket numbers (R88). -/
def calendarBefore (s : State) (m n : Nat) : Bool :=
  match ticket? s m, ticket? s n with
  | some a, some b => keyBefore a m b n
  | some _, none => true
  | none, some _ => false
  | none, none => false

/-- The order of a blocked list: the rush class ahead of the ordinary class, each by its keys (R96). -/
def blockedBefore (s : State) (m n : Nat) : Bool :=
  match ticket? s m, ticket? s n with
  | some a, some b => if a.rush = b.rush then keyBefore a m b n else a.rush
  | some _, none => true
  | none, some _ => false
  | none, none => false

/-- A ticket is frozen while its wave is in the frozen set (R91). -/
def isFrozen (s : State) (t : Nat) : Bool :=
  match ticket? s t with
  | some tk => s.frozen.contains tk.wave
  | none => false

/-- The ticket joins the calendar at the place its keys give it, becoming CALENDARED (R89). -/
def joinCalendar (t : Nat) (s : State) : State :=
  let s := updTicket t (fun tk => { tk with state := .calendared }) s
  { s with calendar := insertBefore (calendarBefore s) t s.calendar }

/-- The ticket leaves the calendar. -/
def leaveCalendar (t : Nat) (s : State) : State :=
  { s with calendar := removeNumber t s.calendar }

/-- The ticket joins its home station's blocked list at the place its keys give it, becoming BLOCKED with its home station
as its station (R94, R96). -/
def joinBlocked (t : Nat) (s : State) : State :=
  match ticket? s t with
  | some tk =>
    let s := setTicket t { tk with state := .blocked, station := tk.homeStation } s
    updStation tk.homeStation (fun st => { st with blocked := insertBefore (blockedBefore s) t st.blocked }) s
  | none => s

/-- The ticket leaves the blocked list of station `x`. -/
def leaveBlocked (x t : Nat) (s : State) : State :=
  updStation x (fun st => { st with blocked := removeNumber t st.blocked }) s

end Sys2Proof.Machine
end

