-- ==== Sys2Proof/Machine/Formats.lean ====
section
/-!
DEFINITION. The bytes of every frame that the part sends (chapter 10): frames, kind codes, code fields, and the bodies of
replies, notices and line records.  Bodies that 10.4 does not table are laid out by R188 from the field list of their rule;
log 12 gives the readings this takes.
-/

namespace Sys2Proof.Machine

/-! ## Numbers and frames (R186) -/

/-- One byte. -/
def le1 (n : Nat) : List Byte :=
  [BitVec.ofNat 8 n]

/-- Two bytes, little-endian. -/
def le2 (n : Nat) : List Byte :=
  [BitVec.ofNat 8 n, BitVec.ofNat 8 (n / 256)]

/-- Four bytes, little-endian. -/
def le4 (n : Nat) : List Byte :=
  [BitVec.ofNat 8 n, BitVec.ofNat 8 (n / 256), BitVec.ofNat 8 (n / 65536), BitVec.ofNat 8 (n / 16777216)]

/-- Four bytes of a time that can be negative: two's complement (R186). -/
def leSigned (i : Int) : List Byte :=
  le4 (BitVec.ofInt 32 i).toNat

/-- A flag: 0 clear, 1 set (R188). -/
def flag (b : Bool) : List Byte :=
  if b then [1#8] else [0#8]

/-- A list: its count, then its entries (R188). -/
def leList {α : Type} (entry : α → List Byte) (l : List α) : List Byte :=
  le1 l.length ++ l.flatMap entry

/-- A presence byte: bit 0 for the first optional field (R188). -/
def presenceByte (bits : List Bool) : List Byte :=
  le1 (bits.foldr (fun b n => (if b then 1 else 0) + 2 * n) 0)

/-- An optional field's bytes: none when it is absent. -/
def optional {α : Type} (field : α → List Byte) (o : Option α) : List Byte :=
  match o with
  | some a => field a
  | none => []

/-- The sum of bytes, modulo 256. -/
def byteSum (bs : List Byte) : Byte :=
  bs.foldr (fun b n => b + n) 0#8

/-- The bytes that a frame's check byte covers besides itself: length, kind, tag, body (10.1). -/
def Frame.covered (f : Frame) : List Byte :=
  BitVec.ofNat 8 (f.body.length + 2) :: f.kind :: f.tag :: f.body

/-- A frame on the wire: start byte, covered bytes, and the check byte that brings their sum to 0 modulo 256 (R186). -/
def Frame.bytes (f : Frame) : List Byte :=
  Config.startByte :: (f.covered ++ [-byteSum f.covered])

/-! ## Kind codes (R187) -/

/-- The host request codes run from IDENTIFY 0x01 to SEND_SHORT 0x1B without a gap. -/
def isRequestCode (k : Byte) : Bool :=
  decide (1 ≤ k.toNat ∧ k.toNat ≤ 27)

/-- A notice's kind code. -/
def Notice.code : Notice → Byte
  | .waveLapsed _ _ _ => 0x90#8
  | .waveReleased _ _ _ _ _ => 0x91#8
  | .waveDone _ _ _ _ _ _ => 0x92#8
  | .stationState _ _ _ _ _ _ _ _ => 0x93#8
  | .groupDying _ _ _ _ _ => 0x94#8
  | .groupEscalated _ _ _ _ _ _ _ => 0x95#8
  | .groupUnpicked _ _ _ _ _ => 0x96#8
  | .stockLow _ _ _ => 0x97#8
  | .stockOut _ _ _ _ => 0x98#8
  | .linkError _ => 0x99#8

/-- A line record's kind code. -/
def LineRecord.code : LineRecord → Byte
  | .showTicket _ _ _ _ _ _ _ => 0xA0#8
  | .lineTicket _ _ => 0xA1#8
  | .doneTicket _ => 0xA2#8
  | .pullTicket _ => 0xA3#8
  | .stale _ _ => 0xA4#8
  | .stationStatus _ _ _ _ => 0xA5#8
  | .groupUp _ _ _ _ _ _ _ => 0xD0#8
  | .arrive _ _ => 0xD1#8
  | .go _ _ => 0xD2#8
  | .waitGroup _ => 0xD3#8
  | .dying _ _ => 0xD4#8
  | .withdrawGroup _ => 0xD5#8
  | .passStale _ _ _ => 0xD6#8
  | .passRun _ => 0xD7#8

/-! ## Code fields (R190) -/

/-- The reason codes. -/
def Reason.code : Reason → Nat
  | .unknownKind => 1
  | .malformed => 2
  | .range => 3
  | .mode => 4
  | .noSuch => 5
  | .state => 6
  | .busy => 7
  | .noTickets => 8
  | .noGroups => 9
  | .noStock => 10
  | .empty => 11
  | .tooHot => 12

/-- The mode codes. -/
def Mode.code : Mode → Nat
  | .setup => 0
  | .service => 1

/-- The walk order codes. -/
def WalkOrder.code : WalkOrder → Nat
  | .forward => 0
  | .reverse => 1
  | .snake => 2

/-- The load state codes. -/
def LoadState.code : LoadState → Nat
  | .normal => 0
  | .derated => 1
  | .tripped => 2

/-- The presence codes. -/
def Presence.code : Presence → Nat
  | .absent => 0
  | .present => 1

/-- The STATION_STATE cause codes. -/
def StationCause.code : StationCause → Nat
  | .load => 0
  | .presence => 1

/-- The wave state codes. -/
def WaveState.code : WaveState → Nat
  | .free => 0
  | .staged => 1
  | .releasing => 2
  | .active => 3
  | .held => 4

/-- The engine status codes. -/
def EngineStatus.code : EngineStatus → Nat
  | .idle => 0
  | .running => 1
  | .done => 2
  | .aborted => 3

/-- The WAVE_DONE reason codes. -/
def DoneReason.code : DoneReason → Nat
  | .served => 0
  | .cancelled => 1

/-- The ticket state codes. -/
def TicketState.code : TicketState → Nat
  | .calendared => 0
  | .blocked => 1
  | .queued => 2
  | .onLine => 3
  | .ready => 4
  | .dead => 5
  | .withdrawn => 6

/-- The group state codes. -/
def GroupState.code : GroupState → Nat
  | .pending => 0
  | .assembling => 1
  | .complete => 2

/-- The GROUP_UP slot status codes. -/
def SlotStatus.code : SlotStatus → Nat
  | .waiting => 0
  | .ready => 1
  | .dead => 2
  | .withdrawn => 3

/-- The escalation cause codes. -/
def EscalationCause.code : EscalationCause → Nat
  | .generation => 0
  | .noTickets => 1
  | .noStock => 2

/-- The escalation source codes. -/
def RemakeSource.code : RemakeSource → Nat
  | .die => 0
  | .spoil => 1

/-- The STOCK_OUT cause codes. -/
def StockOutCause.code : StockOutCause → Nat
  | .emptied => 0
  | .short => 1

/-- The SEND_SHORT outcome codes. -/
def ShortOutcome.code : ShortOutcome → Nat
  | .shortGo => 0
  | .cancelled => 1

/-- The qualifier byte: bit 0 LATE, bit 1 CLIPPED, bit 2 CLAMPED, bit 3 STOCK_SHORT (R189). -/
def Qualifiers.byte (q : Qualifiers) : List Byte :=
  presenceByte [q.late, q.clipped, q.clamped, q.stockShort]

/-! ## Reply bodies (R188, R189) -/

/-- The eight bytes of a region (R188). -/
def regionBytes (r : Region) : List Byte :=
  match r.placement with
  | .rect row column width height => le1 0 ++ le1 r.order.code ++ le2 row ++ le2 column ++ le1 width ++ le1 height
  | .linear start count => le1 1 ++ le1 r.order.code ++ le2 start ++ le2 count ++ le1 0 ++ le1 0

/-- A clipped size: two two-byte numbers, width and height or count and 0, as R189 lays them out for STAGE_WAVE's reply.
DEDUCED: the same layout in MARK_TABLES's reply (R28), which section 10.4 does not table and where R188 taken by range would give
width and height one byte each, unsafe (log 12). -/
def sizeBytes (p : Nat × Nat) : List Byte :=
  le2 p.1 ++ le2 p.2

/-- The three counts of a pool. -/
def poolBytes (p : Pool) : List Byte :=
  le2 p.free ++ le2 p.reserved ++ le2 p.live

/-- The fields of a wave that is not FREE, in R60's order, each optional field in its place (log 12). -/
def waveBytes (wv : Wave) : List Byte :=
  le1 wv.course ++ regionBytes wv.region ++ optional le1 wv.skipMark ++ le4 wv.goTime ++ le1 wv.stagger ++ le4 wv.stagedAt
    ++ (if wv.state = .staged then le4 (wv.stagedAt + Config.lapse) else []) ++ optional le4 wv.holdSince
    ++ le2 wv.plan.visited ++ le2 wv.plan.skippedEmpty ++ le2 wv.plan.skippedMarked ++ le2 wv.plan.skippedBusy
    ++ le2 wv.plan.groups ++ le2 wv.plan.tickets
    ++ le2 wv.release.groups ++ le2 wv.release.tickets ++ le2 wv.release.fired ++ le2 wv.release.maxLateness
    ++ le2 wv.ending.served ++ le2 wv.ending.short ++ le2 wv.ending.cancelled
    ++ le2 (wv.release.groups - wv.ending.served - wv.ending.short - wv.ending.cancelled)
    ++ le2 wv.reservedTickets ++ le2 wv.reservedGroups

/-- The state that a QUERY_WAVE reply reports: FREE for a wave without a record. -/
def reportedState : Option Wave → WaveState
  | some wv => wv.state
  | none => .free

/-- The fields of a live group, in R145's order, the list with each slot's figures (R167, log 12). -/
def groupBytes (g : Nat) (gr : Group) (slots : List SlotReport) : List Byte :=
  le2 g ++ le1 gr.wave ++ le2 gr.table ++ le1 gr.course ++ le2 gr.orderIndex ++ le4 gr.goTime ++ le1 gr.covers
    ++ leList (fun sl => le2 sl.ticket ++ le2 sl.component ++ le1 sl.quantity ++ le1 sl.generation ++ flag sl.rush
        ++ le1 sl.state.code) slots
    ++ le1 gr.state.code ++ flag gr.short ++ flag gr.escalated ++ optional (fun c => le1 c.code) gr.escalationCause
    ++ optional le4 gr.dieAt ++ optional le4 gr.pickupAt ++ flag gr.unpickedReported

/-- The fields of a live ticket, in R80's order (R102, log 12). -/
def ticketBytes (t : Nat) (tk : Ticket) : List Byte :=
  le2 t ++ le1 tk.wave ++ le2 tk.group ++ le2 tk.table ++ le2 tk.component ++ le1 tk.homeStation ++ le1 tk.station
    ++ le1 tk.quantity ++ le4 tk.goTime ++ leSigned tk.fireTime ++ leSigned tk.dueReady ++ optional le4 tk.firedAt
    ++ le2 tk.lateness ++ le4 tk.seq ++ le1 tk.generation ++ flag tk.rush ++ le1 tk.state.code
    ++ optional le1 tk.position ++ optional le4 tk.readyAt

/-- The figures of an accepted reply, laid out from their rules' field lists (R188, R189).  DEDUCED, unsafe (log 12): in QUERY_COMPONENT's,
"whether the component is tracked" (R8) is a flag byte of its own, and the presence byte of count and low_level follows it. -/
def Figures.bytes : Figures → List Byte
  | .noFigures => []
  | .identity mode =>
    le1 Config.vendorCode ++ le2 Config.partCode ++ le1 Config.revision ++ le1 Config.stations ++ le2 Config.components
      ++ le1 Config.courses ++ le2 Config.tables ++ le1 Config.waves ++ le2 Config.tickets ++ le2 Config.groups
      ++ le1 mode.code
  | .clockSet reading => le4 reading
  | .clockReading reading saturated => le4 reading ++ flag saturated
  | .serviceBegun limit reading stations => le2 limit ++ le4 reading ++ le1 stations
  | .serviceEnded waves groups tickets => le1 waves ++ le2 groups ++ le2 tickets
  | .tablesMarked changed size => le2 changed ++ presenceByte [size.isSome] ++ optional sizeBytes size
  | .restocked component count => le2 component ++ le2 count
  | .stationReport c presence load a σ queued rush onLine blocked records pending =>
    le1 c.positions ++ le1 c.queueLimit ++ le2 c.carry ++ le2 c.derateLevel ++ le2 c.tripLevel ++ le2 c.coolStep
      ++ le1 c.derateStretch ++ le1 presence.code ++ le1 load.code ++ le2 a ++ le1 σ ++ le1 queued ++ le1 rush ++ le1 onLine
      ++ le2 blocked ++ le1 records ++ flag pending ++ presenceByte [c.alternate.isSome] ++ optional le1 c.alternate
  | .componentReport r =>
    le1 r.station ++ le2 r.cookTime ++ le2 r.holdWindow ++ flag r.stock.isSome
      ++ presenceByte [r.stock.isSome, r.lowLevel.isSome] ++ optional le2 r.stock ++ optional le2 r.lowLevel
  | .tableReport row column r =>
    le1 row ++ le1 column ++ le1 r.covers ++ le1 r.mark
      ++ leList (fun e => le2 e.source ++ le2 e.target ++ le1 e.count) r.substitutions ++ leList le1 r.liveCourses
  | .waveReport status engineWave nextVisit record =>
    le1 status.code ++ le1 (reportedState record).code
      ++ presenceByte [engineWave.isSome, nextVisit.isSome, record.isSome, (record.bind Wave.skipMark).isSome,
          decide (reportedState record = .staged), (record.bind Wave.holdSince).isSome]
      ++ optional le1 engineWave ++ optional le2 nextVisit ++ optional waveBytes record
  | .groupReport g record pool =>
    poolBytes pool
      ++ presenceByte [record.isSome, (record.bind fun r => r.1.escalationCause).isSome,
          (record.bind fun r => r.1.dieAt).isSome, (record.bind fun r => r.1.pickupAt).isSome]
      ++ optional (fun r => groupBytes g r.1 r.2) record
  | .ticketReport t record pool =>
    poolBytes pool
      ++ presenceByte [record.isSome, (record.bind Ticket.firedAt).isSome, (record.bind Ticket.position).isSome,
          (record.bind Ticket.readyAt).isSome]
      ++ optional (ticketBytes t) record
  | .staged plan earliest latest stagger size =>
    le2 plan.visited ++ le2 plan.skippedEmpty ++ le2 plan.skippedMarked ++ le2 plan.skippedBusy ++ le2 plan.groups
      ++ le2 plan.tickets ++ leSigned earliest ++ le4 latest ++ le1 stagger ++ presenceByte [size.isSome]
      ++ optional sizeBytes size
  | .released groups tickets earliest => le2 groups ++ le2 tickets ++ leSigned earliest
  | .held exposed => le2 exposed
  | .resumed retimed kept fired => le2 retimed ++ le2 kept ++ le2 fired
  | .waveCancelled groups tickets => le2 groups ++ le2 tickets
  | .rearmed x load a σ retimed fired => le1 x ++ le1 load.code ++ le2 a ++ le1 σ ++ le2 retimed ++ le2 fired
  | .refired ticket generation offerEnd => le2 ticket ++ le1 generation ++ le1 (offerEnd.getD 255)
  | .sentShort outcome withdrawn ready => le1 outcome.code ++ le1 withdrawn ++ le1 ready

/-- A reply's body: the four-byte header, then the figures of an accepted reply (R189). -/
def Reply.body (r : Reply) : List Byte :=
  match r.answer with
  | .accepted q f => r.kind :: 0#8 :: 0#8 :: (q.byte ++ f.bytes)
  | .refused reason => [r.kind, 1#8, BitVec.ofNat 8 reason.code, 0#8]

/-- A reply's frame: the reply code, and the request's tag (R173, R187). -/
def Reply.frame (r : Reply) : Frame :=
  ⟨0x80#8, r.tag, r.body⟩

/-! ## Notice bodies (R189) -/

/-- The fields of a notice, after the lost byte, laid out from its rule's field list (R188, R189).  DEDUCED, unsafe (log 12): WAVE_DONE's stand in
R57's order, wave before reason, for either reason, though R59 lists the reason first. -/
def Notice.fields : Notice → List Byte
  | .waveLapsed wave course stagedAt => le1 wave ++ le1 course ++ le4 stagedAt
  | .waveReleased wave groups tickets fired lateness => le1 wave ++ le2 groups ++ le2 tickets ++ le2 fired ++ le2 lateness
  | .waveDone wave reason released served short cancelled =>
    le1 wave ++ le1 reason.code ++ le2 released ++ le2 served ++ le2 short ++ le2 cancelled
  | .stationState x cause presence before after a retimed fired =>
    le1 x ++ le1 cause.code ++ le1 presence.code ++ le1 before.code ++ le1 after.code ++ le2 a ++ le2 retimed ++ le2 fired
  | .groupDying group wave table dead remade => le2 group ++ le1 wave ++ le2 table ++ le1 dead ++ le1 remade
  | .groupEscalated group wave table ticket component cause source =>
    le2 group ++ le1 wave ++ le2 table ++ le2 ticket ++ le2 component ++ le1 cause.code ++ le1 source.code
  | .groupUnpicked group wave table short pickupAt => le2 group ++ le1 wave ++ le2 table ++ flag short ++ le4 pickupAt
  | .stockLow component count low => le2 component ++ le2 count ++ le2 low
  | .stockOut component cause count need => le2 component ++ le1 cause.code ++ le2 count ++ le2 need
  | .linkError (.badLength length) => le1 0 ++ presenceByte [true, false, false] ++ le1 0 ++ [length]
  | .linkError (.badCheck length sum) => le1 0 ++ presenceByte [true, true, false] ++ le1 1 ++ [length] ++ [sum]
  | .linkError (.overrun kind tag) => le1 1 ++ presenceByte [false, false, true] ++ [kind] ++ [tag]

/-- A queued notice's frame: the notice's code, tag 0, the lost byte and the fields (R186, R189). -/
def QueuedNotice.frame (n : QueuedNotice) : Frame :=
  ⟨n.notice.code, 0#8, flag n.lost ++ n.notice.fields⟩

/-! ## Line record bodies (R188, R189) -/

/-- The body of a line record. -/
def LineRecord.body : LineRecord → List Byte
  | .showTicket ticket table component quantity due rush generation =>
    le2 ticket ++ le2 table ++ le2 component ++ le1 quantity ++ leSigned due ++ flag rush ++ le1 generation
  | .lineTicket ticket position => le2 ticket ++ le1 position
  | .doneTicket ticket => le2 ticket
  | .pullTicket ticket => le2 ticket
  | .stale ticket kind => le2 ticket ++ [kind]
  | .stationStatus load σ queued limit => le1 load.code ++ le1 σ ++ le1 queued ++ le1 limit
  | .groupUp group table course wave short escalated slots =>
    le2 group ++ le2 table ++ le1 course ++ le1 wave ++ flag short ++ flag escalated
      ++ leList (fun sl => le2 sl.ticket ++ le2 sl.component ++ le1 sl.quantity ++ le1 sl.status.code) slots
  | .arrive group ticket => le2 group ++ le2 ticket
  | .go group short => le2 group ++ flag short
  | .waitGroup group => le2 group
  | .dying group ticket => le2 group ++ le2 ticket
  | .withdrawGroup group => le2 group
  | .passStale kind group ticket => [kind] ++ le2 group ++ presenceByte [ticket.isSome] ++ optional le2 ticket
  | .passRun groups => le2 groups

/-- A line record's frame, with tag 0 (R113, R164). -/
def LineRecord.frame (r : LineRecord) : Frame :=
  ⟨r.code, 0#8, r.body⟩

end Sys2Proof.Machine
end

