-- ==== Sys2Proof/Machine/Lines.lean ====
section
/-!
DEFINITION. The line output queue and the line transmitter, the same on every line (R121 to R123, R166), and the
contents of the refresh runs (R122, R166).
-/

namespace Sys2Proof.Machine

/-- The number of QUEUED tickets at a station controller. -/
def queueCount (st : Station) : Nat :=
  st.rushQueue.length + st.ordinaryQueue.length

/-- The whole queue, head first: the rush class ahead of the ordinary class (R107). -/
def wholeQueue (st : Station) : List Nat :=
  st.rushQueue ++ st.ordinaryQueue

/-- The SHOW record of ticket `t` (R109). -/
def showRecord (t : Nat) (tk : Ticket) : LineRecord :=
  .showTicket t tk.table tk.component tk.quantity tk.dueReady tk.rush tk.generation

/-- The STATION record of station `x` as it stands (R113, R126). -/
def stationRecord (s : State) (x : Nat) : LineRecord :=
  let st := station s x
  .stationStatus st.load.state (stretchOf st) (queueCount st) (match st.config with | some c => c.queueLimit | none => 0)

/-- SHOW and LINE of the cook positions from number `i` on, in ascending position order (R122). -/
def positionRecords (s : State) : Nat → List (Option Nat) → List LineRecord
  | _, [] => []
  | i, none :: rest => positionRecords s (i + 1) rest
  | i, some t :: rest =>
    match ticket? s t with
    | some tk => showRecord t tk :: .lineTicket t i :: positionRecords s (i + 1) rest
    | none => positionRecords s (i + 1) rest

/-- The refresh run of a station terminal (R122). -/
def stationRun (s : State) (x : Nat) : List LineRecord :=
  let st := station s x
  stationRecord s x :: (positionRecords s 0 st.positions
    ++ (wholeQueue st).filterMap fun t => (ticket? s t).map (showRecord t))

/-- The status that GROUP_UP shows for a ticket state (R164). -/
def slotStatus : TicketState → SlotStatus
  | .calendared => .waiting
  | .blocked => .waiting
  | .queued => .waiting
  | .onLine => .waiting
  | .ready => .ready
  | .dead => .dead
  | .withdrawn => .withdrawn

/-- The GROUP_UP record of group `g`, with its list as it stands (R164). -/
def groupUpRecord (s : State) (g : Nat) (gr : Group) : LineRecord :=
  .groupUp g gr.table gr.course gr.wave gr.short gr.escalated
    (gr.tickets.filterMap fun t => (ticket? s t).map fun tk => ⟨t, tk.component, tk.quantity, slotStatus tk.state⟩)

/-- The refresh run of the pass terminal (R166): PENDING groups are not in it. -/
def passRunRecords (s : State) : List LineRecord :=
  let shown := s.groups.filter fun e => decide (e.2.state ≠ .pending)
  let complete := s.groups.filter fun e => decide (e.2.state = .complete)
  .passRun shown.length :: ((shown.map fun e => groupUpRecord s e.1 e.2) ++ complete.map fun e => .go e.1 e.2.short)

/-- The snapshot that a refresh of line `l` sends. -/
def refreshRun (s : State) : LineId → List LineRecord
  | .station x => stationRun s x
  | .pass => passRunRecords s

/-- A pending refresh begins, if this is a moment at which the transmitter is idle with the queue empty: the snapshot is
taken, refresh_pending is cleared and the run is being sent (R122). -/
def beginRefresh (l : LineId) (s : State) : State :=
  let ln := lineOf s l
  if ln.tx = .idle ∧ ln.queue = [] ∧ ln.refreshPending = true then
    let run := refreshRun s l
    updLine l (fun ln => { ln with refreshPending := false, tx := .refreshing run }) s
  else s

/-- The transmitter of line `l` is free: it takes the next record, or begins a pending refresh, or is idle (R121). -/
def chooseLineFrame (l : LineId) (s : State) : State :=
  match (lineOf s l).queue with
  | r :: rest => updLine l (fun ln => { ln with queue := rest, tx := .sending r }) s
  | [] => beginRefresh l (updLine l (fun ln => { ln with tx := .idle }) s)

/-- An idle transmitter takes the next record, or begins a pending refresh, at once.
DEDUCED: also within an event, since a refresh asked for with the transmitter idle begins before the same event's drain
(R125), unsafe (log 6). -/
def startLine (l : LineId) (s : State) : State :=
  if (lineOf s l).tx = .idle then chooseLineFrame l s else s

/-- A refresh is asked for: the queue is cleared and refresh_pending set; the refresh begins at once if the transmitter is
idle (R122). -/
def askRefresh (l : LineId) (s : State) : State :=
  beginRefresh l (updLine l (fun ln => { ln with queue := [], refreshPending := true }) s)

/-- A record is produced for the terminal of line `l`: queued when the line is PRESENT, no refresh is pending and the queue
has room (R121); an overflow when the queue is full (R123); otherwise not queued. -/
def sendRecord (l : LineId) (r : LineRecord) (s : State) : State :=
  let ln := lineOf s l
  if ln.presence = .present ∧ ln.refreshPending = false then
    if ln.queue.length < Config.lineQueue then
      startLine l (updLine l (fun ln => { ln with queue := ln.queue ++ [r] }) s)
    else askRefresh l s
  else s

/-- Records produced one after another. -/
def sendRecords (l : LineId) (rs : List LineRecord) (s : State) : State :=
  rs.foldl (fun s r => sendRecord l r s) s

end Sys2Proof.Machine
end

