-- ==== Sys2Proof/Machine/Offers.lean ====
section
/-!
DEFINITION. Tickets at the stations and in the fire calendar: the ability to take a ticket, entry, leaving, offering,
draining (chapters 5 and 6), re-timing (4.7) and withdrawal (5.6), as operations that the commands share.
-/

namespace Sys2Proof.Machine

/-! ## Stations (R93, R107 to R111) -/

/-- A station controller can take a ticket: defined, not TRIPPED, PRESENT, and its queue below its limit (R93). -/
def ableToTake (st : Station) : Bool :=
  match st.config with
  | some c =>
    decide (st.load.state ≠ .tripped) && decide (st.line.presence = .present) && decide (queueCount st < c.queueLimit)
  | none => false

/-- Station `x` can take a ticket (R93). -/
def canTake (s : State) (x : Nat) : Bool :=
  ableToTake (station s x)

/-- The lowest-numbered free position among these, counted from `i`. -/
def lowestFree : Nat → List (Option Nat) → Option Nat
  | _, [] => none
  | i, none :: _ => some i
  | i, some _ :: rest => lowestFree (i + 1) rest

/-- A ticket joins the queue at the end of its class (R107). -/
def joinQueue (t : Nat) (rush : Bool) (st : Station) : Station :=
  if rush then { st with rushQueue := st.rushQueue ++ [t] }
  else { st with ordinaryQueue := st.ordinaryQueue ++ [t] }

/-- The times that an entry into station `x` writes (R72), and fired_at, set at the first entry (R94). -/
def entryTimes (s : State) (x : Nat) (tk : Ticket) : Ticket :=
  { tk with
    station := x
    dueReady := dueReadyAt s x tk.goTime
    lateness := behind s.clock (fireTimeAt s x tk.component tk.goTime)
    firedAt := some (tk.firedAt.getD s.clock) }

/-- A ticket enters station `x`: its times are written, and it takes the lowest free position, with SHOW and LINE, or joins
the queue, with SHOW (R72, R94, R109). -/
def enterStation (t x : Nat) (s : State) : State :=
  match ticket? s t with
  | none => s
  | some tk =>
    let tk := entryTimes s x tk
    match lowestFree 0 (station s x).positions with
    | some i =>
      let s := setTicket t { tk with state := .onLine, position := some i } s
      let s := updStation x (fun st => { st with positions := st.positions.set i (some t) }) s
      sendRecords (.station x) [showRecord t tk, .lineTicket t i] s
    | none =>
      let s := setTicket t { tk with state := .queued } s
      let s := updStation x (joinQueue t tk.rush) s
      sendRecord (.station x) (showRecord t tk) s

/-- The queue head of station `x` moves into the freed position `i`, with LINE.  Answers whether a ticket moved (R110). -/
def moveHead (x i : Nat) (s : State) : State × Bool :=
  match wholeQueue (station s x) with
  | [] => (s, false)
  | h :: _ =>
    let s := updStation x (fun st =>
      { st with
        rushQueue := removeNumber h st.rushQueue
        ordinaryQueue := removeNumber h st.ordinaryQueue
        positions := st.positions.set i (some h) }) s
    let s := updTicket h (fun tk => { tk with state := .onLine, position := some i }) s
    (sendRecord (.station x) (.lineTicket h i) s, true)

/-- A QUEUED or ON_LINE ticket leaves its station: it leaves the queue or frees its position, the record `r` (DONE or PULL) is
produced, and the head moves into a freed position.  Answers whether the queue lost a ticket (R110, R111). -/
def leaveStation (t : Nat) (tk : Ticket) (r : LineRecord) (s : State) : State × Bool :=
  let x := tk.station
  match tk.state, tk.position with
  | .queued, _ =>
    let s := updStation x (fun st =>
      { st with
        rushQueue := removeNumber t st.rushQueue
        ordinaryQueue := removeNumber t st.ordinaryQueue }) s
    (sendRecord (.station x) r s, true)
  | .onLine, some i =>
    let s := updStation x (fun st => { st with positions := st.positions.set i none }) s
    moveHead x i (sendRecord (.station x) r s)
  | _, _ => (s, false)

/-! ## Offers and drains (R94 to R99) -/

/-- An offer, taken whole: to the home station, then to the alternate its record names, otherwise the ticket blocks in the
home station's list (R94).  The ticket has left its former place.  Answers the station entered, if one was. -/
def offer (t : Nat) (s : State) : State × OfferEnd :=
  match ticket? s t with
  | none => (s, none)
  | some tk =>
    let h := tk.homeStation
    if canTake s h then (enterStation t h s, some h)
    else
      match (station s h).config.bind StationConfig.alternate with
      | some a => if canTake s a then (enterStation t a s, some a) else (joinBlocked t s, none)
      | none => (joinBlocked t s, none)

/-- Offers made one after another, in the order given (R95). -/
def offerAll (ts : List Nat) (s : State) : State :=
  ts.foldl (fun s t => (offer t s).1) s

/-- The drain's visit to the blocked list of station `y`: the first ticket that is not frozen is offered, until one blocks
again, which stays at its place, or none is left (R98).  A list of `fuel` tickets needs at most `fuel` offers. -/
def drainList : Nat → Nat → State → State
  | 0, _, s => s
  | fuel + 1, y, s =>
    match (station s y).blocked.find? fun t => !isFrozen s t with
    | none => s
    | some t =>
      match offer t (leaveBlocked y t s) with
      | (s, some _) => drainList fuel y s
      | (_, none) => s

/-- The stations whose record names `x` as alternate, in ascending order. -/
def stationsNaming (s : State) (x : Nat) : List Nat :=
  (List.range Config.stations).filter fun y => decide ((station s y).config.bind StationConfig.alternate = some x)

/-- The drain for station `x`: its own blocked list, then those of the stations that name it as alternate (R98). -/
def drain (x : Nat) (s : State) : State :=
  (x :: stationsNaming s x).foldl (fun s y => drainList (station s y).blocked.length y s) s

/-- The drain made after an event at station `x`, if the event was a queue departure (R97). -/
def drainIf (departed : Bool) (x : Nat) (s : State) : State :=
  if departed then drain x s else s

/-! ## Re-timing (R74, R75) -/

/-- The ticket's fire time computed anew for station `x` with the go time it has (R74). -/
def refreshFireTime (x t : Nat) (s : State) : State :=
  match ticket? s t with
  | some tk => setTicket t { tk with fireTime := fireTimeAt s x tk.component tk.goTime } s
  | none => s

/-- The CALENDARED tickets whose station is `x`, in calendar order. -/
def calendaredAt (s : State) (x : Nat) : List Nat :=
  s.calendar.filter fun t => decide ((ticket? s t).map Ticket.station = some x)

/-- The ticket's fire time has come: at or before now (R71). -/
def isDue (s : State) (t : Nat) : Bool :=
  match ticket? s t with
  | some tk => decide (tk.fireTime ≤ (s.clock : Int))
  | none => false

/-- The re-timing of station `x`: every CALENDARED ticket there is recomputed and placed, and those of waves not HELD whose
new fire time has come leave the calendar and are offered in order (R74, R75).  Answers the re-timed and the fired-at-once
counts. -/
def retime (x : Nat) (s : State) : State × Nat × Nat :=
  let ts := calendaredAt s x
  let s := ts.foldl (fun s t => refreshFireTime x t s) s
  let s := { s with calendar := sortBefore (calendarBefore s) s.calendar }
  let due := (calendaredAt s x).filter fun t => isDue s t && !isFrozen s t
  let s := due.foldl (fun s t => leaveCalendar t s) s
  (offerAll due s, ts.length, due.length)

/-! ## Freeing and withdrawal (R87, R100) -/

/-- A ticket is freed: it leaves its group's list, its entry returns to the free count and its record is cleared (R87). -/
def freeTicket (t : Nat) (s : State) : State :=
  match ticket? s t with
  | none => s
  | some tk =>
    let s := updGroup tk.group (fun gr => { gr with tickets := removeNumber t gr.tickets }) s
    { s with tickets := s.tickets.erase t, ticketPool := s.ticketPool.release }

/-- What a withdrawal undoes, by the state it finds (R100): the ticket leaves its place, its quantity returns to stock unless
a station has begun it, and its station terminal is sent PULL.  Answers the station to drain for, if its queue lost a
ticket. -/
def undoTicket (t : Nat) (tk : Ticket) (s : State) : State × Option Nat :=
  match tk.state with
  | .calendared => (returnStock tk.component tk.quantity (leaveCalendar t s), none)
  | .blocked => (returnStock tk.component tk.quantity (leaveBlocked tk.homeStation t s), none)
  | .queued =>
    let (s, departed) := leaveStation t tk (.pullTicket t) s
    (returnStock tk.component tk.quantity s, if departed then some tk.station else none)
  | .onLine =>
    let (s, departed) := leaveStation t tk (.pullTicket t) s
    (s, if departed then some tk.station else none)
  | .ready => (s, none)
  | .dead => (s, none)
  | .withdrawn => (s, none)

/-- The drain that ends a withdrawal, if its undoing was a queue departure. -/
def drainAfter (at? : Option Nat) (s : State) : State :=
  match at? with
  | some x => drain x s
  | none => s

/-- Withdraw and free (R100), for a cancel: the ticket is treated by its state and freed. -/
def withdrawFree (t : Nat) (s : State) : State :=
  match ticket? s t with
  | none => s
  | some tk =>
    let (s, at?) := undoTicket t tk s
    drainAfter at? (freeTicket t s)

/-- Withdraw and keep (R100), for SEND_SHORT: a ticket that is neither READY nor WITHDRAWN is treated by its state and
becomes WITHDRAWN, live in its slot. -/
def withdrawKeep (t : Nat) (s : State) : State :=
  match ticket? s t with
  | none => s
  | some tk =>
    match tk.state with
    | .ready => s
    | .withdrawn => s
    | _ =>
      let (s, at?) := undoTicket t tk s
      let s := updTicket t (fun tk => { tk with state := .withdrawn, position := none, readyAt := none }) s
      drainAfter at? s

end Sys2Proof.Machine
end

