-- ==== Sys2Proof/Machine/Remakes.lean ====
section
/-!
DEFINITION. Plate groups at the pass as operations that commands share: arrival, completion, die times, remakes, the
freeing of a group and its report to the wave table (chapter 8, R23, R58, R59, R86).
-/

namespace Sys2Proof.Machine

/-! ## Completion and die times (R148 to R150) -/

/-- GROUP_UP for group `g` with its list as it stands (R164). -/
def sendGroupUp (g : Nat) (s : State) : State :=
  match group? s g with
  | some gr => sendRecord .pass (groupUpRecord s g gr) s
  | none => s

/-- Ticket `t` is live and its state is `st`. -/
def ticketIs (s : State) (st : TicketState) (t : Nat) : Bool :=
  decide ((ticket? s t).map Ticket.state = some st)

/-- Every ticket of the list is READY or WITHDRAWN and at least one is READY (R149). -/
def listComplete (s : State) (ts : List Nat) : Bool :=
  ts.all (fun t => ticketIs s .ready t || ticketIs s .withdrawn t) && ts.any (ticketIs s .ready)

/-- The completion test (R149): an ASSEMBLING group whose list meets the condition becomes COMPLETE, with GO and its pickup
time. -/
def completionTest (g : Nat) (s : State) : State :=
  match group? s g with
  | none => s
  | some gr =>
    if gr.state = .assembling ∧ listComplete s gr.tickets = true then
      let s := updGroup g (fun gr =>
        { gr with
          state := .complete
          dieAt := none
          pickupAt := some (s.clock + s.link.pickupLimit)
          unpickedReported := false }) s
      sendRecord .pass (.go g gr.short) s
    else s

/-- The moment at which a READY ticket with a hold window outlasts it (R150). -/
def dieTime (s : State) (t : Nat) : Option Nat :=
  match ticket? s t with
  | some tk =>
    match tk.state, tk.readyAt with
    | .ready, some r => if 0 < holdWindow s tk.component then some (r + holdWindow s tk.component) else none
    | _, _ => none
  | none => none

/-- The earlier of two times, either of which may be absent. -/
def earlier : Option Nat → Option Nat → Option Nat
  | some a, some b => some (min a b)
  | some a, none => some a
  | none, b => b

/-- The earliest die time over the READY tickets of the list (R150). -/
def earliestDie (s : State) (ts : List Nat) : Option Nat :=
  ts.foldl (fun found t => earlier found (dieTime s t)) none

/-- die_at of group `g` is recomputed (R150). -/
def recomputeDie (g : Nat) (s : State) : State :=
  updGroup g (fun gr => { gr with dieAt := earliestDie s gr.tickets }) s

/-- A READY report is taken for the ticket's group (R148). -/
def groupArrival (g t : Nat) (s : State) : State :=
  match group? s g with
  | none => s
  | some gr =>
    let s := if gr.state = .pending then
        sendGroupUp g (updGroup g (fun gr => { gr with state := .assembling }) s)
      else s
    completionTest g (recomputeDie g (sendRecord .pass (.arrive g t) s))

/-! ## Remake copies (R79, R86, R152 to R154, R157) -/

/-- How the request for a remake copy ended (R86). -/
inductive CopyResult where
  /-- The copy's ticket number and where its offer ended. -/
  | made (ticket : Nat) (offerEnd : OfferEnd)
  | noTickets
  | noStock
  deriving DecidableEq, Repr

/-- The record of a copy of `tk`: rush, one generation on, with its times computed for the home station (R79, R86).  Its
state is written by the offer that follows at once; until then it reads BLOCKED, which no event sees. -/
def copyOf (s : State) (tk : Ticket) : Ticket :=
  { tk with
    station := tk.homeStation
    fireTime := fireTimeAt s tk.homeStation tk.component tk.goTime
    dueReady := dueReadyAt s tk.homeStation tk.goTime
    firedAt := none
    lateness := 0
    seq := s.link.seq
    generation := tk.generation + 1
    rush := true
    state := .blocked
    position := none
    readyAt := none }

/-- A new ticket's record is written in entry `n` and the sequence counter is raised (R85, R86). -/
def createTicket (n : Nat) (tk : Ticket) (s : State) : State :=
  { setTicket n tk s with link := { s.link with seq := nextSeq s.link.seq } }

/-- A list with `n` in the slot of `t`. -/
def replaceSlot (t n : Nat) (ts : List Nat) : List Nat :=
  ts.map fun u => if u = t then n else u

/-- The request for a remake copy of live ticket `t` with record `tk`, answered in the order pool, stock, copy (R86).  The copy
takes the lowest entry not live while the replaced ticket still holds its own (log 15), takes its slot, and is offered at
once. -/
def requestCopy (t : Nat) (tk : Ticket) (s : State) : State × CopyResult :=
  if s.ticketPool.free = 0 then (s, .noTickets)
  else
    match copyDraw tk.component tk.quantity s with
    | (s, false) => (s, .noStock)
    | (s, true) =>
      let n := s.tickets.firstAbsent
      let s := createTicket n (copyOf s tk) s
      let s := { s with ticketPool := s.ticketPool.liveFromFree }
      let s := updGroup tk.group (fun gr => { gr with tickets := replaceSlot t n gr.tickets }) s
      let s := freeTicket t s
      let (s, offerEnd) := offer n s
      (s, .made n offerEnd)

/-- An automatic remake fails: the ticket stays DEAD, the group is escalated and GROUP_ESCALATED is queued (R154). -/
def escalate (g t : Nat) (tk : Ticket) (cause : EscalationCause) (source : RemakeSource) (s : State) : State :=
  let s := updGroup g (fun gr => { gr with escalated := true, escalationCause := some cause }) s
  pushNotice (.groupEscalated g tk.wave tk.table t tk.component cause source) s

/-- An automatic remake of DEAD ticket `t` of group `g` (R152).  Answers whether the copy was made. -/
def automaticRemake (g t : Nat) (source : RemakeSource) (s : State) : State × Bool :=
  match ticket? s t with
  | none => (s, false)
  | some tk =>
    if 2 < tk.generation + 1 then (escalate g t tk .generation source s, false)
    else
      match requestCopy t tk s with
      | (s, .made _ _) => (s, true)
      | (s, .noTickets) => (escalate g t tk .noTickets source s, false)
      | (s, .noStock) => (escalate g t tk .noStock source s, false)

/-- Automatic remakes asked for one after another; answers how many copies were made. -/
def automaticRemakes (g : Nat) (source : RemakeSource) (ts : List Nat) (s : State) : State × Nat :=
  ts.foldl (fun r t => match automaticRemake g t source r.1 with | (s, made) => (s, if made then r.2 + 1 else r.2)) (s, 0)

/-- The ticket's hold window has run out: READY, and its die time is at or before now (R151). -/
def hasDied (s : State) (t : Nat) : Bool :=
  match dieTime s t with
  | some d => decide (d ≤ s.clock)
  | none => false

/-- A READY ticket becomes DEAD, with DYING (R151). -/
def makeDead (g t : Nat) (s : State) : State :=
  sendRecord .pass (.dying g t) (updTicket t (fun tk => { tk with state := .dead, readyAt := none }) s)

/-- The die expiry of group `g`, whole (R151). -/
def dieExpiry (g : Nat) (s : State) : State :=
  match group? s g with
  | none => s
  | some gr =>
    let dying := gr.tickets.filter (hasDied s)
    let s := dying.foldl (fun s t => makeDead g t s) s
    let (s, remade) := automaticRemakes g .die dying s
    let s := sendGroupUp g s
    let s := pushNotice (.groupDying g gr.wave gr.table dying.length remade) s
    completionTest g (recomputeDie g s)

/-- Group `g` has a die time that the clock has reached (R63). -/
def dieDue (s : State) (g : Nat) : Bool :=
  match (group? s g).bind Group.dieAt with
  | some d => decide (d ≤ s.clock)
  | none => false

/-- The group's change after a REFIRE's copy has been made (R157): an ASSEMBLING group is shown again, a COMPLETE one returns to
ASSEMBLING with WAIT, and a die time that has already passed is taken at once (R150). -/
def refireGroup (g : Nat) (s : State) : State :=
  match group? s g with
  | none => s
  | some gr =>
    match gr.state with
    | .pending => s
    | .assembling => completionTest g (recomputeDie g (sendGroupUp g s))
    | .complete =>
      let s := updGroup g (fun gr =>
        { gr with state := .assembling, pickupAt := none, unpickedReported := false }) s
      let s := sendGroupUp g (sendRecord .pass (.waitGroup g) s)
      let s := completionTest g (recomputeDie g s)
      if dieDue s g then dieExpiry g s else s

/-! ## Freeing a group and its ending (R23, R35, R58, R59, R163) -/

/-- How a plate group ended (R58). -/
inductive Ending where
  | served | short | cancelled
  deriving DecidableEq, Repr

/-- The course joins the table's live course set (R23). -/
def addLiveCourse (t course : Nat) (s : State) : State :=
  let r := tableRecord s t
  setTableRecord t { r with liveCourses := insertNumber course r.liveCourses } s

/-- The course leaves the table's live course set (R23). -/
def removeLiveCourse (t course : Nat) (s : State) : State :=
  let r := tableRecord s t
  setTableRecord t { r with liveCourses := removeNumber course r.liveCourses } s

/-- The wave's live group count (R34). -/
def liveGroupCount (wv : Wave) : Nat :=
  wv.release.groups - wv.ending.served - wv.ending.short - wv.ending.cancelled

/-- The wave becomes FREE: its record is cleared and it leaves the frozen set (R35, R91). -/
def freeWave (w : Nat) (s : State) : State :=
  { s with waves := s.waves.erase w, frozen := removeNumber w s.frozen }

/-- The wave becomes FREE and WAVE_DONE is queued with the figures of the cleared record (R57, R59). -/
def endWave (w : Nat) (reason : DoneReason) (s : State) : State :=
  match wave? s w with
  | none => s
  | some wv =>
    pushNotice (.waveDone w reason wv.release.groups wv.ending.served wv.ending.short wv.ending.cancelled) (freeWave w s)

/-- The completion of R59: an ACTIVE or HELD wave with no live group becomes FREE with WAVE_DONE (SERVED). -/
def completeWave (w : Nat) (s : State) : State :=
  match wave? s w with
  | none => s
  | some wv =>
    if (wv.state = .active ∨ wv.state = .held) ∧ liveGroupCount wv = 0 then endWave w .served s else s

/-- The ending counts with one more of this ending (R58). -/
def countEnding (how : Ending) (e : EndingCounts) : EndingCounts :=
  match how with
  | .served => { e with served := e.served + 1 }
  | .short => { e with short := e.short + 1 }
  | .cancelled => { e with cancelled := e.cancelled + 1 }

/-- The wave table takes the report of a freed group (R58). -/
def reportEnding (w : Nat) (how : Ending) (s : State) : State :=
  updWave w (fun wv => { wv with ending := countEnding how wv.ending }) s

/-- A group is freed (R163), up to the wave's completion: its remaining tickets are freed, its course leaves the table, its
entry returns, WITHDRAW is sent if it was shown and not picked, and its ending is reported. -/
def freeGroup (g : Nat) (how : Ending) (s : State) : State :=
  match group? s g with
  | none => s
  | some gr =>
    let s := gr.tickets.foldl (fun s t => freeTicket t s) s
    let s := removeLiveCourse gr.table gr.course s
    let s := { s with groups := s.groups.erase g, groupPool := s.groupPool.release }
    let s := if gr.state ≠ .pending ∧ how = .cancelled then sendRecord .pass (.withdrawGroup g) s else s
    reportEnding gr.wave how s

end Sys2Proof.Machine
end

