-- ==== Sys2Proof/Machine/Walks.lean ====
section
/-!
DEFINITION. Regions and their walks (2.3, 2.5), substitution quantities (2.6), and the plan of a wave: served tables,
stock need and earliest fire time (3.2, 3.3).
-/

namespace Sys2Proof.Machine

/-! ## Regions (R24 to R27) -/

/-- The floor is defined (R17). -/
def floorDefined (f : Floor) : Bool :=
  decide (f.rows ≠ 0)

/-- The number of tables on the floor (R17). -/
def floorSize (f : Floor) : Nat :=
  f.rows * f.columns

/-- The region is valid against the floor (R24). -/
def regionValid (f : Floor) (r : Region) : Bool :=
  match r.placement with
  | .rect row column width height =>
    decide (1 ≤ width ∧ width ≤ 40 ∧ 1 ≤ height ∧ height ≤ 40 ∧ row < f.rows ∧ column < f.columns)
  | .linear start count => decide (1 ≤ count ∧ count ≤ 400 ∧ start < floorSize f)

/-- The region's extent cut at the floor edge (R25). -/
def clipPlacement (f : Floor) : Placement → Placement
  | .rect row column width height => .rect row column (min width (f.columns - column)) (min height (f.rows - row))
  | .linear start count => .linear start (min count (floorSize f - start))

/-- The size of an extent as a reply gives it: width and height, or count and 0 (R189). -/
def placementSize : Placement → Nat × Nat
  | .rect _ _ width height => (width, height)
  | .linear _ count => (count, 0)

/-- The clipped size, when the region was cut (R25).  DEDUCED: a reply gives no size of a region that needed no cut, unsafe (log 12): R25
says that "its size is reported as given", and R28, R38 and R188 give a size in the reply with CLIPPED alone; the region of a wave is
reported as it was given by QUERY_WAVE (R60). -/
def clippedSize (f : Floor) (r : Region) : Option (Nat × Nat) :=
  let cut := clipPlacement f r.placement
  if cut = r.placement then none else some (placementSize cut)

/-- The row segments of an extent on a floor of `columns` columns, from the origin row downward, each left to right (R26,
R27). -/
def segments (columns : Nat) : Placement → List (List Nat)
  | .rect row column width height =>
    (List.range height).map fun k => (List.range width).map fun j => (row + k) * columns + column + j
  | .linear start count =>
    (List.range ((start + count - 1) / columns + 1 - start / columns)).map fun k =>
      ((List.range columns).map fun j => (start / columns + k) * columns + j).filter
        fun t => decide (start ≤ t ∧ t < start + count)

/-- Segments walked with alternating direction, the first left to right when `ltr` (R27). -/
def snakeFrom (ltr : Bool) : List (List Nat) → List Nat
  | [] => []
  | seg :: rest => (if ltr then seg else seg.reverse) ++ snakeFrom (!ltr) rest

/-- The tables of a region in walking order, on the clipped extent (R25 to R27). -/
def walkOrder (f : Floor) (r : Region) : List Nat :=
  let segs := segments f.columns (clipPlacement f r.placement)
  match r.order with
  | .forward => segs.flatten
  | .reverse => segs.flatten.reverse
  | .snake => snakeFrom true segs

/-! ## Walks for a wave (R29, R30) -/

/-- Why a table is skipped, in the order of the tests, or that it is served (R29). -/
inductive Visit where
  | skippedEmpty | skippedMarked | skippedBusy | served
  deriving DecidableEq, Repr

/-- The three skip tests on a table record (R29). -/
def skipTest (course : Nat) (skipMark : Option Nat) (r : TableRecord) : Visit :=
  if r.covers = 0 then .skippedEmpty
  else if skipMark = some r.mark then .skippedMarked
  else if r.liveCourses.contains course then .skippedBusy
  else .served

/-- The outcome of a wave's walk at table `t`. -/
def visitOf (s : State) (course : Nat) (skipMark : Option Nat) (t : Nat) : Visit :=
  skipTest course skipMark (tableRecord s t)

/-- The served tables of a walk, in walking order (R30). -/
def servedTables (s : State) (course : Nat) (skipMark : Option Nat) (r : Region) : List Nat :=
  (walkOrder s.floor r).filter fun t => decide (visitOf s course skipMark t = .served)

/-- How many tables of a walk have this outcome. -/
def visitCount (s : State) (course : Nat) (skipMark : Option Nat) (r : Region) (v : Visit) : Nat :=
  ((walkOrder s.floor r).filter fun t => decide (visitOf s course skipMark t = v)).length

/-! ## Substitution quantities (R31, R32) -/

/-- The sum of the counts of these entries. -/
def countSum (es : List Substitution) : Nat :=
  es.foldl (fun n e => n + e.count) 0

/-- The entries that apply: those whose `from` is in the plan (R31). -/
def applyingEntries (plan : List Nat) (es : List Substitution) : List Substitution :=
  es.filter fun e => plan.contains e.source

/-- The quantity of planned component `c` at a table of these covers (R31). -/
def plannedQuantity (plan : List Nat) (covers : Nat) (es : List Substitution) (c : Nat) : Nat :=
  covers - countSum (es.filter fun e => decide (e.source = c))
    + countSum ((applyingEntries plan es).filter fun e => decide (e.target = c))

/-- The quantity of substitute component `c`, one not in the plan (R31). -/
def substituteQuantity (plan : List Nat) (es : List Substitution) (c : Nat) : Nat :=
  countSum ((applyingEntries plan es).filter fun e => decide (e.target = c))

/-- The substitute components, each where its first applying entry stands (R32). -/
def substitutes (plan : List Nat) (es : List Substitution) : List Nat :=
  (applyingEntries plan es).foldl
    (fun cs e => if plan.contains e.target || cs.contains e.target then cs else cs ++ [e.target]) []

/-- A group's ticket list: (component, quantity) pairs, planned components first, then substitutes, each with a quantity above
0 (R32). -/
def ticketList (plan : List Nat) (r : TableRecord) : List (Nat × Nat) :=
  ((plan.map fun c => (c, plannedQuantity plan r.covers r.substitutions c))
    ++ (substitutes plan r.substitutions).map fun c => (c, substituteQuantity plan r.substitutions c)).filter
      fun e => decide (0 < e.2)

/-! ## The plan of a wave (R36 to R43, R68) -/

/-- The course plan's list; empty while it is undefined (R4). -/
def coursePlan (s : State) (course : Nat) : List Nat :=
  (s.courses.get? course).getD []

/-- The served tables with their ticket lists (R30, R42). -/
def plannedTables (s : State) (course : Nat) (served : List Nat) : List ServedTable :=
  served.map fun t => ⟨t, ticketList (coursePlan s course) (tableRecord s t)⟩

/-- The last go time of `n` served tables lies within the clock's range; with none the test passes (R68). -/
def lastGoInRange (goTime stagger n : Nat) : Bool :=
  decide (n = 0 ∨ goTimeAt goTime stagger (n - 1) ≤ Config.clockMax)

/-- The plan counts of a walk (R37, R42). -/
def planCounts (s : State) (course : Nat) (skipMark : Option Nat) (r : Region) (plan : List ServedTable) : PlanCounts where
  visited := (walkOrder s.floor r).length
  skippedEmpty := visitCount s course skipMark r .skippedEmpty
  skippedMarked := visitCount s course skipMark r .skippedMarked
  skippedBusy := visitCount s course skipMark r .skippedBusy
  groups := plan.length
  tickets := plan.foldl (fun n v => n + v.tickets.length) 0

/-- The planned fire times of one served table's tickets, each at its component's station (R38, R66). -/
def tableFireTimes (s : State) (goTime : Nat) (v : ServedTable) : List Int :=
  v.tickets.map fun e => fireTimeAt s (componentStation s e.1) e.1 goTime

/-- The planned fire times of the tables from order index `i` on. -/
def planFireTimes (s : State) (goTime stagger : Nat) : Nat → List ServedTable → List Int
  | _, [] => []
  | i, v :: rest => tableFireTimes s (goTimeAt goTime stagger i) v ++ planFireTimes s goTime stagger (i + 1) rest

/-- The smallest of these times; 0 for none, which a plan with a served table never gives (R31, log 18). -/
def earliestOf : List Int → Int
  | [] => 0
  | f :: fs => fs.foldl min f

/-- The earliest planned fire time (R38, R43). -/
def earliestFire (s : State) (goTime stagger : Nat) (plan : List ServedTable) : Int :=
  earliestOf (planFireTimes s goTime stagger 0 plan)

/-- A wave's stock need: for each tracked component, in ascending order, the sum of its planned quantities (R9). -/
def stockNeed (s : State) (plan : List ServedTable) : Store Nat :=
  (plan.flatMap ServedTable.tickets).foldl
    (fun need e =>
      match stockOf s e.1 with
      | some _ => need.set e.1 ((need.get? e.1).getD 0 + e.2)
      | none => need) []

/-- The stock test (R9): short if any tracked component's count is less than its need. -/
def needShort (s : State) (need : Store Nat) : Bool :=
  need.any fun e => isShort s e.1 e.2

/-! ## The live groups of a wave -/

/-- The order index of group `g`. -/
def orderIndexOf (s : State) (g : Nat) : Nat :=
  match group? s g with
  | some gr => gr.orderIndex
  | none => 0

/-- The live groups of wave `w` in ascending order index. -/
def waveGroups (s : State) (w : Nat) : List Nat :=
  sortBefore (fun a b => decide (orderIndexOf s a < orderIndexOf s b))
    ((s.groups.filter fun e => decide (e.2.wave = w)).map Prod.fst)

/-- The ticket list of group `g`. -/
def groupTickets (s : State) (g : Nat) : List Nat :=
  match group? s g with
  | some gr => gr.tickets
  | none => []

end Sys2Proof.Machine
end

