-- ==== Sys2Proof/Machine/Releases.lean ====
section
/-!
DEFINITION. The wave operations that several commands share: the engine's visits, the staging lapse, the cancellation of a
wave, and the load monitor's samples and changes of load state (chapters 3 and 7).
-/

namespace Sys2Proof.Machine

/-! ## Lapse (R39) -/

/-- Wave `w` is STAGED and its staging lapse has been reached (R39, R63). -/
def lapseDue (s : State) (w : Nat) : Bool :=
  match wave? s w with
  | some wv => decide (wv.state = .staged ∧ wv.stagedAt + Config.lapse ≤ s.clock)
  | none => false

/-- The lapse expiry of wave `w`, if it is due (R39, R40). -/
def stagingLapse (w : Nat) (s : State) : State :=
  match wave? s w with
  | none => s
  | some wv =>
    if lapseDue s w then pushNotice (.waveLapsed w wv.course wv.stagedAt) (freeWave w s) else s

/-! ## The release engine (R44, R45, R47) -/

/-- A new ticket of a release visit (R45, R85).  Its state is written by the placing that follows at once; until then it reads
BLOCKED, which no event sees. -/
def releasedTicket (s : State) (w g table goTime : Nat) (e : Nat × Nat) : Ticket :=
  let home := componentStation s e.1
  { wave := w
    group := g
    table := table
    component := e.1
    homeStation := home
    station := home
    quantity := e.2
    goTime := goTime
    fireTime := fireTimeAt s home e.1 goTime
    dueReady := dueReadyAt s home goTime
    seq := s.link.seq
    state := .blocked }

/-- One ticket of a visit is created and placed: calendared if its fire time is after now, otherwise fired at once, with the
wave's release counts (R45, R71). -/
def createReleased (w g table goTime : Nat) (e : Nat × Nat) (s : State) : State :=
  let n := s.tickets.firstAbsent
  let tk := releasedTicket s w g table goTime e
  let s := createTicket n tk s
  let s := { s with ticketPool := s.ticketPool.liveFromReserved }
  let s := updGroup g (fun gr => { gr with tickets := gr.tickets ++ [n] }) s
  let s := updWave w (fun wv =>
    { wv with
      reservedTickets := wv.reservedTickets - 1
      release := { wv.release with tickets := wv.release.tickets + 1 } }) s
  if (s.clock : Int) < tk.fireTime then joinCalendar n s
  else
    let s := updWave w (fun wv =>
      { wv with release :=
          { wv.release with
            fired := wv.release.fired + 1
            maxLateness := max wv.release.maxLateness (behind s.clock tk.fireTime) } }) s
    (offer n s).1

/-- The visit to served table `v` with order index `i`: group, live course, tickets (R45, R147). -/
def visitTable (w i : Nat) (wv : Wave) (v : ServedTable) (s : State) : State :=
  let g := s.groups.firstAbsent
  let goTime := goTimeAt wv.goTime wv.stagger i
  let gr : Group :=
    { wave := w, table := v.table, course := wv.course, orderIndex := i, goTime := goTime,
      covers := (tableRecord s v.table).covers }
  let s := { s with groups := s.groups.set g gr, groupPool := s.groupPool.liveFromReserved }
  let s := updWave w (fun wv =>
    { wv with
      reservedGroups := wv.reservedGroups - 1
      release := { wv.release with groups := wv.release.groups + 1 } }) s
  let s := addLiveCourse v.table wv.course s
  v.tickets.foldl (fun s e => createReleased w g v.table goTime e s) s

/-- Whatever is left of a wave's reservations returns to the free pools (R47, R55). -/
def returnReservations (w : Nat) (s : State) : State :=
  match wave? s w with
  | none => s
  | some wv =>
    let s :=
      { s with
        ticketPool := s.ticketPool.unreserve wv.reservedTickets
        groupPool := s.groupPool.unreserve wv.reservedGroups }
    updWave w (fun wv => { wv with reservedTickets := 0, reservedGroups := 0 }) s

/-- The end of a release (R47). -/
def endRelease (w : Nat) (s : State) : State :=
  let s := returnReservations w s
  let s := updWave w (fun wv => { wv with state := .active }) s
  let s := { s with engine := { status := .done, wave := some w, plan := [], next := 0 } }
  let s := match wave? s w with
    | some wv =>
      pushNotice (.waveReleased w wv.release.groups wv.release.tickets wv.release.fired wv.release.maxLateness) s
    | none => s
  completeWave w s

/-- The release engine's next visit, and the end of the release after the last one (R45, R47). -/
def releaseVisit (s : State) : State :=
  match s.engine.status, s.engine.wave with
  | .running, some w =>
    match wave? s w with
    | none => s
    | some wv =>
      let i := s.engine.next
      match s.engine.plan[i]? with
      | none => endRelease w s
      | some v =>
        let s := visitTable w i wv v s
        let s := { s with engine := { s.engine with next := i + 1 } }
        if s.engine.plan.length ≤ i + 1 then endRelease w s else s
  | _, _ => s

/-! ## Cancellation (R15, R55 to R57) -/

/-- The quantities computed at acceptance for one served table return to stock (R15). -/
def returnTable (v : ServedTable) (s : State) : State :=
  v.tickets.foldl (fun s e => returnStock e.1 e.2 s) s

/-- A cancel stops the engine of a RELEASING wave: ABORTED, the stock of the tables not visited returned, and the rest of the
reservations returned (R15, R55). -/
def stopEngine (w : Nat) (s : State) : State :=
  if waveState s w = .releasing then
    let unvisited := s.engine.plan.drop s.engine.next
    let s := { s with engine := { status := .aborted, wave := some w, plan := [], next := 0 } }
    returnReservations w (unvisited.foldl (fun s v => returnTable v s) s)
  else s

/-- A live group is withdrawn: its tickets in list order, and then it is freed as cancelled (R56, R163). -/
def withdrawGroup (g : Nat) (s : State) : State :=
  freeGroup g .cancelled ((groupTickets s g).foldl (fun s t => withdrawFree t s) s)

/-- The cancellation of wave `w`, not FREE: the engine is stopped, the live groups are withdrawn in ascending order index, and
the wave becomes FREE with WAVE_DONE (CANCELLED) (R55 to R57).  Answers the groups and the tickets withdrawn. -/
def cancelWave (w : Nat) (s : State) : State × Nat × Nat :=
  let s := stopEngine w s
  let gs := waveGroups s w
  let tickets := gs.foldl (fun n g => n + (groupTickets s g).length) 0
  let s := gs.foldl (fun s g => withdrawGroup g s) s
  (endWave w .cancelled s, gs.length, tickets)

/-! ## Fire expiry (R90) -/

/-- The tickets that the present reading's fire expiry takes: CALENDARED, fire time equal to now, wave not frozen, in calendar
order (R90). -/
def expiring (s : State) : List Nat :=
  s.calendar.filter fun t => decide ((ticket? s t).map Ticket.fireTime = some (s.clock : Int)) && !isFrozen s t

/-- The fire expiry at the present reading (R90): each ticket leaves the calendar and is offered, whole, before the next. -/
def fireExpiry (s : State) : State :=
  (expiring s).foldl (fun s t => (offer t (leaveCalendar t s)).1) s

/-! ## Pickup expiry (R161) -/

/-- The pickup expiry of group `g`, if it is COMPLETE and its pickup time has been reached (R63, R161). -/
def pickupExpiry (g : Nat) (s : State) : State :=
  match group? s g with
  | none => s
  | some gr =>
    match gr.state, gr.pickupAt with
    | .complete, some p =>
      if p ≤ s.clock then
        let s := pushNotice (.groupUnpicked g gr.wave gr.table gr.short p) s
        updGroup g (fun gr => { gr with pickupAt := none, unpickedReported := true }) s
      else s
    | _, _ => s

/-- The die expiry of group `g`, if its die time has been reached (R63, R151). -/
def dieExpiryIfDue (g : Nat) (s : State) : State :=
  if dieDue s g then dieExpiry g s else s

/-! ## The load monitor (R131 to R136, R143) -/

/-- A change between these load states changes the stretch: one of them, and not the other, is NORMAL (R74, R134). -/
def stretchChanges (before after : LoadState) : Bool :=
  decide (before = .normal) != decide (after = .normal)

/-- A change of load state of station `x`, carried through (R135): state, re-timing when the stretch changed, drain when the
change is out of TRIPPED, STATION record, STATION_STATE notice.  Answers the re-timed and fired-at-once counts. -/
def changeLoad (x : Nat) (after : LoadState) (s : State) : State × Nat × Nat :=
  let before := (station s x).load.state
  let s := updStation x (fun st => { st with load := { st.load with state := after } }) s
  let (s, retimed, fired) :=
    if stretchChanges before after then retime x s else (s, 0, 0)
  let s := if before = .tripped then drain x s else s
  let s := sendRecord (.station x) (stationRecord s x) s
  let st := station s x
  (pushNotice (.stationState x .load st.line.presence before after st.load.accumulator retimed fired) s, retimed, fired)

/-- The demand of station `x`: its live QUEUED and ON_LINE tickets (R132). -/
def demand (s : State) (x : Nat) : Nat :=
  (s.tickets.filter fun e =>
    decide (e.2.station = x ∧ (e.2.state = .queued ∨ e.2.state = .onLine))).length

/-- The accumulator after a sample that finds demand `u` (R132). -/
def sampledAccumulator (c : StationConfig) (a u : Nat) : Nat :=
  if c.positions < u then min Config.accumulatorMax (a + (u - c.positions) * (u - c.positions))
  else a - c.coolStep

/-- The load state that a sample leaves, from the state it finds and the new accumulator (R133). -/
def evaluateLoad (c : StationConfig) (a : Nat) : LoadState → LoadState
  | .normal => if c.tripLevel ≤ a then .tripped else if c.derateLevel ≤ a then .derated else .normal
  | .derated => if c.tripLevel ≤ a then .tripped else if a ≤ c.derateLevel / 2 then .normal else .derated
  | .tripped => .tripped

/-- A load sample of station `x` is due: in SERVICE, at a defined station whose next_sample has been reached (R63, R131). -/
def sampleDue (s : State) (x : Nat) : Bool :=
  match s.link.mode, (station s x).config, (station s x).load.nextSample with
  | .service, some _, some t => decide (t ≤ s.clock)
  | _, _, _ => false

/-- The load sample of station `x`, if it is due (R131 to R133, R135). -/
def loadSample (x : Nat) (s : State) : State :=
  match (station s x).config with
  | none => s
  | some c =>
    if sampleDue s x then
      let a := sampledAccumulator c (station s x).load.accumulator (demand s x)
      let s := updStation x (fun st =>
        { st with load :=
            { st.load with accumulator := a, nextSample := some (s.clock + Config.samplePeriod) } }) s
      let before := (station s x).load.state
      let after := evaluateLoad c a before
      if after = before then s else (changeLoad x after s).1
    else s

/-- The load monitor ends its service at station `x` (R143). -/
def endLoad (x : Nat) (s : State) : State :=
  let s := updStation x (fun st => { st with load := { st.load with accumulator := 0, nextSample := none } }) s
  if (station s x).load.state = .normal then s else (changeLoad x .normal s).1

/-! ## Expiries at one reading (R63) -/

/-- Every expiry that is due at the present reading is taken, each as an event of its own: lapses in ascending wave number, the
fire expiry, load samples in ascending station number, die expiries and then pickup expiries in ascending group number.
DESIGN CHOICE: this order, among those the manual allows (R131), unsafe (log 4). -/
def takeDueExpiries (s : State) : State :=
  let s := (List.range Config.waves).foldl (fun s w => settle (stagingLapse w s)) s
  let s := settle (fireExpiry s)
  let s := (List.range Config.stations).foldl (fun s x => settle (loadSample x s)) s
  let s := s.groups.keys.foldl (fun s g => settle (dieExpiryIfDue g s)) s
  s.groups.keys.foldl (fun s g => settle (pickupExpiry g s)) s

end Sys2Proof.Machine
end

