-- ==== Sys2Proof/WellFormed.lean ====
section
/-!
DEFINITION. Which commands name units that the part has (00_scope, section 3.2): the station of a station event is
S0..S23, the wave of a lapse 0..63, the group of an expiry 0..1023, and a RESET gives a level for each of the 24 station
presence inputs.  A number that a record carries in a field is not judged here: a number that names nothing live is a
matter of the rules (R112, R165).
-/

namespace Sys2Proof

/-- The line is one of the 25 that the part has. -/
def LineId.inPart : LineId → Bool
  | .station x => decide (x < Config.stations)
  | .pass => true

/-- Every unit that the command names exists. -/
def Instr.wellFormed : Instr → Bool
  | .reset levels _ => decide (levels.length = Config.stations)
  | .stagingLapse w => decide (w < Config.waves)
  | .loadSample x => decide (x < Config.stations)
  | .dieExpiry g => decide (g < Config.groups)
  | .pickupExpiry g => decide (g < Config.groups)
  | .ready x _ => decide (x < Config.stations)
  | .spoil x _ => decide (x < Config.stations)
  | .resync x => decide (x < Config.stations)
  | .lineFrameDiscard l _ => l.inPart
  | .presenceFall x => decide (x < Config.stations)
  | .presenceRise x => decide (x < Config.stations)
  | .lineFrameEnd l => l.inPart
  | .refreshRunEnd l => l.inPart
  | .refreshBegin l => l.inPart
  | .clockTick => true
  | .hostFrameArrival _ => true
  | .hostFrameEnd => true
  | .unknownKind => true
  | .identify => true
  | .restart => true
  | .setClock => true
  | .queryClock => true
  | .beginService => true
  | .endService => true
  | .defineStation => true
  | .defineComponent => true
  | .defineCourse => true
  | .defineFloor => true
  | .setTable => true
  | .markTables => true
  | .restock => true
  | .queryStation => true
  | .queryComponent => true
  | .queryTable => true
  | .queryWave => true
  | .queryGroup => true
  | .queryTicket => true
  | .stageWave => true
  | .releaseWave => true
  | .holdWave => true
  | .resumeWave => true
  | .cancelWave => true
  | .rearmStation => true
  | .refire => true
  | .sendShort => true
  | .releaseVisit => true
  | .fireExpiry => true
  | .picked _ => true
  | .passRefire _ _ => true
  | .passResync => true
  | .passPresenceFall => true
  | .passPresenceRise => true

end Sys2Proof
end

