-- ==== Sys2Proof/Machine/Link.lean ====
section
/-!
DEFINITION. The receivers (R169, R170), the input buffer (R171), the decoder's taking of a request (R172, R173), and the
reset of the whole part (R185).
-/

namespace Sys2Proof.Machine

/-! ## Receivers (R169) -/

/-- What a receiver makes of a byte, besides its next state. -/
inductive Judged where
  /-- Nothing yet. -/
  | nothing
  /-- A good frame has arrived. -/
  | good (f : Frame)
  /-- A frame is discarded, with the details of LINK_ERROR (R170). -/
  | bad (fault : LinkFault)
  deriving DecidableEq, Repr

/-- A frame that has arrived is judged by its check byte: `taken` holds kind, tag, body and check byte (R169). -/
def judgeFrame (length : Byte) (taken : List Byte) : Judged :=
  let sum := byteSum (length :: taken)
  if sum = 0#8 then
    match taken with
    | kind :: tag :: rest => .good ⟨kind, tag, rest.dropLast⟩
    | _ => .bad (.badCheck length sum)
  else .bad (.badCheck length sum)

/-- The receiver takes one byte (R169). -/
def receiveByte (b : Byte) : Receiver → Receiver × Judged
  | .hunting => if b = Config.startByte then (.awaitingLength, .nothing) else (.hunting, .nothing)
  | .awaitingLength =>
    if 2 ≤ b.toNat ∧ b.toNat ≤ 250 then (.collecting b [], .nothing) else (.hunting, .bad (.badLength b))
  | .collecting length taken =>
    let taken := taken ++ [b]
    if taken.length = length.toNat + 1 then (.hunting, judgeFrame length taken)
    else (.collecting length taken, .nothing)

/-! ## The input buffer (R170, R171) -/

/-- A good frame joins the input buffer, or overruns a full one (R171). -/
def takeGood (f : Frame) (s : State) : State :=
  if s.link.input.length < Config.inputBuffer then
    { s with link := { s.link with input := s.link.input ++ [f] } }
  else pushNotice (.linkError (.overrun f.kind f.tag)) s

/-- What the host link does with the judgement of its receiver: a good frame goes to the input buffer, a bad one raises LINK_ERROR
(R170, R171).  A frame judged is an event of its own, at whose end an idle transmitter begins a frame (R175, log 5). -/
def takeJudged (j : Judged) (s : State) : State :=
  match j with
  | .nothing => s
  | .bad fault => settle (pushNotice (.linkError fault) s)
  | .good f => settle (takeGood f s)

/-- The host link takes one byte from the line. -/
def hostByte (b : Byte) (s : State) : State :=
  let r := receiveByte b s.link.receiver
  takeJudged r.2 { s with link := { s.link with receiver := r.1 } }

/-! ## The decoder (R172 to R174) -/

/-- The first frame of the input buffer, when the decoder can take it: it takes requests and the reply queue has a free place
(R172, R184). -/
def decoderFrame (s : State) : Option Frame :=
  match s.link.decoder with
  | .stopped => none
  | .taking => if s.link.replies.length < Config.replyQueue then s.link.input.head? else none

/-- The decoder takes the first frame, `f`: it leaves the buffer, the request is checked and acts as `handle` says, and its
reply is queued with the request's tag and kind, all as one event (R172, R173). -/
def takeFrame (f : Frame) (handle : List Byte → State → State × Answer) (s : State) : State :=
  let r := handle f.body { s with link := { s.link with input := s.link.input.tail } }
  settle (pushReply ⟨f.tag, f.kind, r.2⟩ r.1)

/-- The step of the host request of kind `kind`: the decoder takes the first frame of the input buffer, if it can take one and
that frame is of this kind; otherwise this step is not the part's next one and nothing happens (R172, log 2). -/
def takeRequest (kind : Byte) (handle : List Byte → State → State × Answer) (s : State) : State :=
  match decoderFrame s with
  | some f => if f.kind = kind then takeFrame f handle s else s
  | none => s

/-- A refusal, which changes no state (R173). -/
def refuse (r : Reason) (s : State) : State × Answer :=
  (s, .refused r)

/-- An acceptance with no qualifier. -/
def accept (f : Figures) (s : State) : State × Answer :=
  (s, .accepted {} f)

/-! ## Reset (R128, R166, R185) -/

/-- The presence that a presence input's level gives. -/
def presenceOf (level : Bool) : Presence :=
  if level then .present else .absent

/-- The part after a reset, with these levels at the presence inputs; the waiting commands and the strap pins are not the
part's to reset. -/
def resetPart (levels : List Presence) (passLevel : Presence) (s : State) : State :=
  { State.reset with
    pending := s.pending
    straps := s.straps
    stations := (List.range Config.stations).map fun x => { line := { presence := levels.getD x .absent } }
    passLine := { presence := passLevel } }

/-- The reset that ends a RESTART (R184): presence keeps following its inputs. -/
def resetKeepingPresence (s : State) : State :=
  resetPart (s.stations.map fun st => st.line.presence) s.passLine.presence s

end Sys2Proof.Machine
end

