-- ==== Sys2Proof/Machine/Operands.lean ====
section
/-!
DEFINITION. The operand forms of the host requests: the body layouts of R188 and R189, read from bytes.  A reader answers
nothing for a body that is MALFORMED: its length differs from what its counts and presence bytes give, a presence byte
sets a bit beyond the optional fields, a code field holds no defined code (R190), or a LINEAR region's last two bytes are
not 0.  Ranges are judged by the requests.
-/

namespace Sys2Proof.Machine

/-! ## Numbers (little-endian, R186) -/

/-- A one-byte number. -/
def num1 (a : Byte) : Nat :=
  a.toNat

/-- A two-byte number. -/
def num2 (a b : Byte) : Nat :=
  a.toNat + 256 * b.toNat

/-- A four-byte number. -/
def num4 (a b c d : Byte) : Nat :=
  a.toNat + 256 * b.toNat + 65536 * c.toNat + 16777216 * d.toNat

/-- The two-byte number of a line record's ticket or group field. -/
def numberOf (a b : Byte) : Number :=
  b ++ a

/-! ## Codes (R190) -/

/-- A region's walk order code. -/
def orderOfCode (c : Byte) : Option WalkOrder :=
  if c = 0#8 then some .forward else if c = 1#8 then some .reverse else if c = 2#8 then some .snake else none

/-- RESTOCK's operations (R7). -/
inductive RestockOp where
  | add | set
  deriving DecidableEq, Repr

/-- A RESTOCK operation code. -/
def restockOfCode (c : Byte) : Option RestockOp :=
  if c = 0#8 then some .add else if c = 1#8 then some .set else none

/-- MARK_TABLES' operations with the parameters they use (R28). -/
inductive MarkOp where
  | setMark (m : Nat)
  | replace (a b : Nat)
  | clear
  deriving DecidableEq, Repr

/-- A MARK_TABLES operation code with its two parameters; one that the operation does not use is not examined (R28). -/
def markOfCode (c a b : Byte) : Option MarkOp :=
  if c = 0#8 then some (.setMark (num1 a))
  else if c = 1#8 then some (.replace (num1 a) (num1 b))
  else if c = 2#8 then some .clear
  else none

/-- The eight bytes of a region (R188). -/
def readRegion (shape order p0 p1 q0 q1 u v : Byte) : Option Region :=
  match orderOfCode order with
  | none => none
  | some o =>
    if shape = 0#8 then some ⟨.rect (num2 p0 p1) (num2 q0 q1) (num1 u) (num1 v), o⟩
    else if shape = 1#8 ∧ u = 0#8 ∧ v = 0#8 then some ⟨.linear (num2 p0 p1) (num2 q0 q1), o⟩
    else none

/-! ## Bodies -/

/-- An empty body: IDENTIFY, RESTART, QUERY_CLOCK. -/
def readEmpty : List Byte → Option Unit
  | [] => some ()
  | _ => none

/-- A body of one one-byte number: END_SERVICE's force, a wave, a station. -/
def readOne : List Byte → Option Nat
  | [a] => some (num1 a)
  | _ => none

/-- A body of one two-byte number: a component, a table, a group, a ticket. -/
def readTwo : List Byte → Option Nat
  | [a, b] => some (num2 a b)
  | _ => none

/-- A body of one four-byte number: SET_CLOCK's value. -/
def readFour : List Byte → Option Nat
  | [a, b, c, d] => some (num4 a b c d)
  | _ => none

/-- REFIRE: a group and a ticket (R156). -/
def readRefire : List Byte → Option (Nat × Nat)
  | [a, b, c, d] => some (num2 a b, num2 c d)
  | _ => none

/-- BEGIN_SERVICE: the optional pickup limit (R178). -/
def readBegin : List Byte → Option (Option Nat)
  | [p] => if p = 0#8 then some none else none
  | [p, a, b] => if p = 1#8 then some (some (num2 a b)) else none
  | _ => none

/-- DEFINE_STATION: the station number and its configuration (R105). -/
def readStation : List Byte → Option (Nat × StationConfig)
  | [x, k, q, c0, c1, d0, d1, t0, t1, s0, s1, w, p] =>
    if p = 0#8 then
      some (num1 x, ⟨num1 k, num1 q, num2 c0 c1, none, num2 d0 d1, num2 t0 t1, num2 s0 s1, num1 w⟩)
    else none
  | [x, k, q, c0, c1, d0, d1, t0, t1, s0, s1, w, p, a] =>
    if p = 1#8 then
      some (num1 x, ⟨num1 k, num1 q, num2 c0 c1, some (num1 a), num2 d0 d1, num2 t0 t1, num2 s0 s1, num1 w⟩)
    else none
  | _ => none

/-- DEFINE_COMPONENT: the component number and its record (R2). -/
def readComponent : List Byte → Option (Nat × Component)
  | [c0, c1, x, d0, d1, w0, w1, p] =>
    if p = 0#8 then some (num2 c0 c1, ⟨num1 x, num2 d0 d1, num2 w0 w1, none, none⟩) else none
  | [c0, c1, x, d0, d1, w0, w1, p, a, b] =>
    if p = 1#8 then some (num2 c0 c1, ⟨num1 x, num2 d0 d1, num2 w0 w1, some (num2 a b), none⟩)
    else if p = 2#8 then some (num2 c0 c1, ⟨num1 x, num2 d0 d1, num2 w0 w1, none, some (num2 a b)⟩)
    else none
  | [c0, c1, x, d0, d1, w0, w1, p, a, b, l0, l1] =>
    if p = 3#8 then some (num2 c0 c1, ⟨num1 x, num2 d0 d1, num2 w0 w1, some (num2 a b), some (num2 l0 l1)⟩)
    else none
  | _ => none

/-- A list of exactly this many two-byte numbers. -/
def readNumbers : Nat → List Byte → Option (List Nat)
  | 0, [] => some []
  | n + 1, a :: b :: rest => (readNumbers n rest).map fun ns => num2 a b :: ns
  | _, _ => none

/-- DEFINE_COURSE: the course number and the list of components (R5). -/
def readCourse : List Byte → Option (Nat × List Nat)
  | c :: n :: rest => (readNumbers (num1 n) rest).map fun ns => (num1 c, ns)
  | _ => none

/-- DEFINE_FLOOR: rows and columns (R18). -/
def readFloor : List Byte → Option (Nat × Nat)
  | [r, c] => some (num1 r, num1 c)
  | _ => none

/-- A list of exactly this many substitution entries. -/
def readEntries : Nat → List Byte → Option (List Substitution)
  | 0, [] => some []
  | n + 1, a :: b :: c :: d :: k :: rest => (readEntries n rest).map fun es => ⟨num2 a b, num2 c d, num1 k⟩ :: es
  | _, _ => none

/-- SET_TABLE's fields (R20). -/
structure TableForm where
  table : Nat
  covers : Nat
  mark : Nat
  entries : List Substitution
  deriving DecidableEq, Repr

/-- SET_TABLE (R20). -/
def readTable : List Byte → Option TableForm
  | t0 :: t1 :: c :: m :: n :: rest =>
    (readEntries (num1 n) rest).map fun es => ⟨num2 t0 t1, num1 c, num1 m, es⟩
  | _ => none

/-- MARK_TABLES: a region and an operation (R28). -/
def readMarks : List Byte → Option (Region × MarkOp)
  | [r0, r1, r2, r3, r4, r5, r6, r7, op, a, b] =>
    match readRegion r0 r1 r2 r3 r4 r5 r6 r7, markOfCode op a b with
    | some r, some o => some (r, o)
    | _, _ => none
  | _ => none

/-- RESTOCK: component, operation, amount (R7). -/
def readRestock : List Byte → Option (Nat × RestockOp × Nat)
  | [c0, c1, op, a, b] => (restockOfCode op).map fun o => (num2 c0 c1, o, num2 a b)
  | _ => none

/-- STAGE_WAVE's fields (R36). -/
structure StageForm where
  wave : Nat
  course : Nat
  region : Region
  goTime : Nat
  stagger : Nat
  skipMark : Option Nat
  deriving DecidableEq, Repr

/-- STAGE_WAVE (R189). -/
def readStage : List Byte → Option StageForm
  | [w, c, r0, r1, r2, r3, r4, r5, r6, r7, g0, g1, g2, g3, d, p] =>
    if p = 0#8 then
      (readRegion r0 r1 r2 r3 r4 r5 r6 r7).map fun r => ⟨num1 w, num1 c, r, num4 g0 g1 g2 g3, num1 d, none⟩
    else none
  | [w, c, r0, r1, r2, r3, r4, r5, r6, r7, g0, g1, g2, g3, d, p, m] =>
    if p = 1#8 then
      (readRegion r0 r1 r2 r3 r4 r5 r6 r7).map fun r => ⟨num1 w, num1 c, r, num4 g0 g1 g2 g3, num1 d, some (num1 m)⟩
    else none
  | _ => none

/-- RESUME_WAVE: the wave and the optional new go time (R189). -/
def readResume : List Byte → Option (Nat × Option Nat)
  | [w, p] => if p = 0#8 then some (num1 w, none) else none
  | [w, p, g0, g1, g2, g3] => if p = 1#8 then some (num1 w, some (num4 g0 g1 g2 g3)) else none
  | _ => none

end Sys2Proof.Machine
end

