-- ==== Sys2Proof/Machine/Definitions.lean ====
section
/-!
DEFINITION. DEFINE_STATION, DEFINE_COMPONENT, DEFINE_COURSE, DEFINE_FLOOR, SET_TABLE, MARK_TABLES and RESTOCK.
-/

namespace Sys2Proof.Machine

/-- Every field of a DEFINE_STATION lies in its range (R105). -/
def stationFormInRange (x : Nat) (c : StationConfig) : Bool :=
  decide (x < Config.stations ∧ 1 ≤ c.positions ∧ c.positions ≤ 16 ∧ 2 ≤ c.queueLimit ∧ c.queueLimit ≤ 255
    ∧ c.carry ≤ 600 ∧ 1 ≤ c.derateLevel ∧ c.derateLevel ≤ 65534 ∧ c.derateLevel < c.tripLevel ∧ c.tripLevel ≤ 65535
    ∧ 1 ≤ c.coolStep ∧ c.coolStep ≤ 4095 ∧ 65 ≤ c.derateStretch ∧ c.derateStretch ≤ 128)
  && (match c.alternate with
      | some a => decide (a < Config.stations ∧ a ≠ x)
      | none => true)

/-- DEFINE_STATION's effect: the whole configuration is written, with k empty positions, and a PRESENT terminal is refreshed
(R106). -/
def defineStation (x : Nat) (c : StationConfig) (s : State) : State :=
  let s := updStation x (fun st => { st with config := some c, positions := List.replicate c.positions none }) s
  if (station s x).line.presence = .present then askRefresh (.station x) s else s

/-- DEFINE_STATION's checks and effect (R105, R106). -/
def defineStationRequest (body : List Byte) (s : State) : State × Answer :=
  match readStation body with
  | none => refuse .malformed s
  | some (x, c) =>
    if stationFormInRange x c = false then refuse .range s
    else if s.link.mode = .service then refuse .mode s
    else accept .noFigures (defineStation x c s)

/-- DEFINE_STATION (R105, R106). -/
def execDefineStation (s : State) : Result :=
  .next (takeRequest 0x07#8 defineStationRequest s)

/-- Every field of a DEFINE_COMPONENT lies in its range (R2). -/
def componentFormInRange (c : Nat) (r : Component) : Bool :=
  decide (c < Config.components ∧ r.station < Config.stations ∧ 1 ≤ r.cookTime ∧ r.cookTime ≤ 5400 ∧ r.holdWindow ≤ 900)
  && (match r.stock with
      | some n => decide (n ≤ Config.stockMax)
      | none => r.lowLevel.isNone)
  && (match r.lowLevel with
      | some l => decide (1 ≤ l ∧ l ≤ 9999)
      | none => true)

/-- DEFINE_COMPONENT's checks and effect (R2, R3). -/
def defineComponentRequest (body : List Byte) (s : State) : State × Answer :=
  match readComponent body with
  | none => refuse .malformed s
  | some (c, r) =>
    if componentFormInRange c r = false then refuse .range s
    else if s.link.mode = .service then refuse .mode s
    else if (station s r.station).config.isNone then refuse .noSuch s
    else accept .noFigures { s with components := s.components.set c r }

/-- DEFINE_COMPONENT (R2, R3). -/
def execDefineComponent (s : State) : Result :=
  .next (takeRequest 0x08#8 defineComponentRequest s)

/-- The component is defined (R6). -/
def componentDefined (s : State) (c : Nat) : Bool :=
  (s.components.get? c).isSome

/-- Every field of a DEFINE_COURSE lies in its range (R5). -/
def courseFormInRange (p : Nat) (cs : List Nat) : Bool :=
  decide (p < Config.courses ∧ 1 ≤ cs.length ∧ cs.length ≤ 8 ∧ cs.Nodup) && cs.all fun c => decide (c < Config.components)

/-- DEFINE_COURSE's checks and effect (R5). -/
def defineCourseRequest (body : List Byte) (s : State) : State × Answer :=
  match readCourse body with
  | none => refuse .malformed s
  | some (p, cs) =>
    if courseFormInRange p cs = false then refuse .range s
    else if s.link.mode = .service then refuse .mode s
    else if cs.all (componentDefined s) = false then refuse .noSuch s
    else accept .noFigures { s with courses := s.courses.set p cs }

/-- DEFINE_COURSE (R5). -/
def execDefineCourse (s : State) : Result :=
  .next (takeRequest 0x0A#8 defineCourseRequest s)

/-- DEFINE_FLOOR's checks and effect (R18): the new size, and every table record reset. -/
def defineFloorRequest (body : List Byte) (s : State) : State × Answer :=
  match readFloor body with
  | none => refuse .malformed s
  | some (rows, columns) =>
    if rows < 1 ∨ 40 < rows ∨ columns < 1 ∨ 40 < columns ∨ Config.tables < rows * columns then refuse .range s
    else if s.link.mode = .service then refuse .mode s
    else accept .noFigures { s with floor := { rows := rows, columns := columns, tables := [] } }

/-- DEFINE_FLOOR (R18). -/
def execDefineFloor (s : State) : Result :=
  .next (takeRequest 0x0B#8 defineFloorRequest s)

/-- The four constraints on a substitution list at a table of these covers (R19). -/
def substitutionsValid (covers : Nat) (es : List Substitution) : Bool :=
  es.all (fun e => decide (e.target ≠ e.source ∧ 1 ≤ e.count ∧ e.count ≤ 16))
  && decide ((es.map fun e => (e.source, e.target)).Nodup)
  && es.all (fun e => decide (countSum (es.filter fun d => decide (d.source = e.source)) ≤ covers))

/-- Every field of a SET_TABLE lies in its range (R20). -/
def tableFormInRange (f : TableForm) : Bool :=
  decide (f.table < Config.tables ∧ f.covers ≤ 16 ∧ f.mark ≤ 15 ∧ f.entries.length ≤ 4)
  && f.entries.all (fun e => decide (e.source < Config.components ∧ e.target < Config.components))
  && substitutionsValid f.covers f.entries

/-- SET_TABLE's checks and effect (R20, R21). -/
def setTableRequest (body : List Byte) (s : State) : State × Answer :=
  match readTable body with
  | none => refuse .malformed s
  | some f =>
    if tableFormInRange f = false then refuse .range s
    else if floorSize s.floor ≤ f.table then refuse .noSuch s
    else if f.entries.all (fun e => componentDefined s e.source && componentDefined s e.target) = false then refuse .noSuch s
    else if (tableRecord s f.table).liveCourses ≠ [] then refuse .state s
    else if s.engine.status = .running then refuse .busy s
    else
      accept .noFigures (setTableRecord f.table
        { tableRecord s f.table with covers := f.covers, mark := f.mark, substitutions := f.entries } s)

/-- SET_TABLE (R20, R21). -/
def execSetTable (s : State) : Result :=
  .next (takeRequest 0x0C#8 setTableRequest s)

/-- The parameters that the operation uses are marks 0..15 (R28). -/
def markOpInRange : MarkOp → Bool
  | .setMark m => decide (m ≤ 15)
  | .replace a b => decide (a ≤ 15 ∧ b ≤ 15)
  | .clear => true

/-- A table's mark after the operation (R28). -/
def newMark (op : MarkOp) (mark : Nat) : Nat :=
  match op with
  | .setMark m => m
  | .replace a b => if mark = a then b else mark
  | .clear => 0

/-- The operation applied to one table (R28). -/
def markTable (op : MarkOp) (s : State) (t : Nat) : State :=
  let r := tableRecord s t
  setTableRecord t { r with mark := newMark op r.mark } s

/-- MARK_TABLES' checks and effect, with the number of tables whose mark changes (R28). -/
def markTablesRequest (body : List Byte) (s : State) : State × Answer :=
  match readMarks body with
  | none => refuse .malformed s
  | some (r, op) =>
    if markOpInRange op = false then refuse .range s
    else if regionValid s.floor r = false then refuse .range s
    else if s.engine.status = .running then refuse .busy s
    else
      let ts := walkOrder s.floor r
      let changed := ts.filter fun t => decide (newMark op (tableRecord s t).mark ≠ (tableRecord s t).mark)
      let size := clippedSize s.floor r
      (ts.foldl (markTable op) s, .accepted { clipped := size.isSome } (.tablesMarked changed.length size))

/-- MARK_TABLES (R28). -/
def execMarkTables (s : State) : Result :=
  .next (takeRequest 0x0D#8 markTablesRequest s)

/-- RESTOCK's checks and effect (R7). -/
def restockRequest (body : List Byte) (s : State) : State × Answer :=
  match readRestock body with
  | none => refuse .malformed s
  | some (c, op, n) =>
    if Config.components ≤ c ∨ (op = .set ∧ Config.stockMax < n) then refuse .range s
    else
      match s.components.get? c with
      | none => refuse .noSuch s
      | some r =>
        match r.stock, op with
        | none, _ => refuse .state s
        | some _, .set => accept (.restocked c n) (setStock c n s)
        | some m, .add =>
          let count := min Config.stockMax (m + n)
          (setStock c count s, .accepted { clamped := decide (Config.stockMax < m + n) } (.restocked c count))

/-- RESTOCK (R7). -/
def execRestock (s : State) : Result :=
  .next (takeRequest 0x0E#8 restockRequest s)

end Sys2Proof.Machine
end

