-- ==== Sys2Proof/Machine/Expiries.lean ====
section
/-!
DEFINITION. STAGING_LAPSE, RELEASE_VISIT, FIRE_EXPIRY, LOAD_SAMPLE, DIE_EXPIRY and PICKUP_EXPIRY.  An expiry whose time the clock has
not reached, and a visit of an engine that is not RUNNING, do not happen: the command leaves the state as it is (R63, log 3).
-/

namespace Sys2Proof.Machine

/-- STAGING_LAPSE (R39, R40). -/
def execStagingLapse (w : Nat) (s : State) : Result :=
  if w < Config.waves then .next (settle (stagingLapse w s)) else .fault .noSuchUnit

/-- RELEASE_VISIT (R45, R47). -/
def execReleaseVisit (s : State) : Result :=
  .next (settle (releaseVisit s))

/-- FIRE_EXPIRY (R90). -/
def execFireExpiry (s : State) : Result :=
  .next (settle (fireExpiry s))

/-- LOAD_SAMPLE (R131 to R133, R135). -/
def execLoadSample (x : Nat) (s : State) : Result :=
  if x < Config.stations then .next (settle (loadSample x s)) else .fault .noSuchUnit

/-- DIE_EXPIRY (R151). -/
def execDieExpiry (g : Nat) (s : State) : Result :=
  if g < Config.groups then .next (settle (dieExpiryIfDue g s)) else .fault .noSuchUnit

/-- PICKUP_EXPIRY (R161). -/
def execPickupExpiry (g : Nat) (s : State) : Result :=
  if g < Config.groups then .next (settle (pickupExpiry g s)) else .fault .noSuchUnit

end Sys2Proof.Machine
end

