-- ==== Sys2Proof/Machine/GroupRequests.lean ====
section
/-!
DEFINITION. REFIRE and SEND_SHORT from the host (R156, R157, R159).
-/

namespace Sys2Proof.Machine

/-- A ticket that a REFIRE can name: READY or DEAD, of generation at most 2 (R156, R158). -/
def refirable (tk : Ticket) : Bool :=
  decide ((tk.state = .ready ∨ tk.state = .dead) ∧ tk.generation ≤ 2)

/-- The copy that a REFIRE asks for, with the group's change once it is made (R157). -/
def refireTicket (g t : Nat) (tk : Ticket) (s : State) : State × CopyResult :=
  match requestCopy t tk s with
  | (s, .made n offerEnd) => (refireGroup g s, .made n offerEnd)
  | (s, .noTickets) => (s, .noTickets)
  | (s, .noStock) => (s, .noStock)

/-- The ticket `t` as a member of live group `g`'s list, if it is one (R156, R158). -/
def groupTicket (s : State) (g t : Nat) : Option Ticket :=
  if (groupTickets s g).contains t then ticket? s t else none

/-- REFIRE's checks and effect (R156, R157). -/
def refireRequest (body : List Byte) (s : State) : State × Answer :=
  match readRefire body with
  | none => refuse .malformed s
  | some (g, t) =>
    if Config.groups ≤ g ∨ Config.tickets ≤ t then refuse .range s
    else if s.link.mode = .setup then refuse .mode s
    else
      match groupTicket s g t with
      | none => refuse .noSuch s
      | some tk =>
        if refirable tk = false then refuse .state s
        else
          match refireTicket g t tk s with
          | (s, .made n offerEnd) => accept (.refired n (tk.generation + 1) offerEnd) s
          | (s, .noTickets) => refuse .noTickets s
          | (s, .noStock) => refuse .noStock s

/-- REFIRE (R156, R157). -/
def execRefire (s : State) : Result :=
  .next (takeRequest 0x1A#8 refireRequest s)

/-- An accepted SEND_SHORT of group `g` (R159): the short flag, the withdrawals in list order, and then the short completion or
the freeing as cancelled. -/
def sendShort (g : Nat) (gr : Group) (s : State) : State × ShortOutcome :=
  let s := updGroup g (fun gr => { gr with short := true }) s
  let s := gr.tickets.foldl (fun s t => withdrawKeep t s) s
  if gr.tickets.any (ticketIs s .ready) then (completionTest g (sendGroupUp g s), .shortGo)
  else (completeWave gr.wave (freeGroup g .cancelled s), .cancelled)

/-- SEND_SHORT's checks and effect, with the number of tickets withdrawn (log 14) and the number READY (R159). -/
def sendShortRequest (body : List Byte) (s : State) : State × Answer :=
  match readTwo body with
  | none => refuse .malformed s
  | some g =>
    if Config.groups ≤ g then refuse .range s
    else if s.link.mode = .setup then refuse .mode s
    else
      match group? s g with
      | none => refuse .noSuch s
      | some gr =>
        if gr.state = .complete then refuse .state s
        else
          let withdrawn := (gr.tickets.filter fun t => !ticketIs s .ready t && !ticketIs s .withdrawn t).length
          let ready := (gr.tickets.filter (ticketIs s .ready)).length
          match sendShort g gr s with
          | (s, outcome) => accept (.sentShort outcome withdrawn ready) s

/-- SEND_SHORT (R159). -/
def execSendShort (s : State) : Result :=
  .next (takeRequest 0x1B#8 sendShortRequest s)

end Sys2Proof.Machine
end

