-- ==== Sys2Proof/Machine/HostFrames.lean ====
section
/-!
DEFINITION. HOST_FRAME_ARRIVAL, HOST_FRAME_END and UNKNOWN_KIND.
-/

namespace Sys2Proof.Machine

/-- HOST_FRAME_ARRIVAL (R169 to R171, R175): the receiver takes the bytes one at a time; each frame they complete is judged, a good
one goes to the input buffer, and an idle transmitter begins what the frame queued before the next byte is taken (log 8). -/
def execHostFrameArrival (bytes : List Byte) (s : State) : Result :=
  .next (bytes.foldl (fun s b => hostByte b s) s)

/-- The reply of an accepted RESTART (R184). -/
def isRestartReply (r : Reply) : Bool :=
  match r.answer with
  | .accepted _ _ => decide (r.kind = 0x02#8)
  | .refused _ => false

/-- HOST_FRAME_END (R175, R184): the transmitter chooses its next frame, or, at the end of an accepted RESTART's reply, the part
performs its reset.  An idle transmitter has no frame to end (log 3). -/
def execHostFrameEnd (s : State) : Result :=
  match s.link.tx with
  | .idle => .next s
  | .notice _ => .next (chooseHostFrame s)
  | .reply r =>
    if isRestartReply r ∧ s.link.decoder = .stopped then .next (resetKeepingPresence s)
    else .next (chooseHostFrame s)

/-- UNKNOWN_KIND (R174): the decoder takes a frame whose kind is no host request code and refuses it, without looking at the
body. -/
def execUnknownKind (s : State) : Result :=
  match decoderFrame s with
  | some f => if isRequestCode f.kind then .next s else .next (takeFrame f (fun _ => refuse .unknownKind) s)
  | none => .next s

end Sys2Proof.Machine
end

