-- ==== Sys2Proof/Machine/LineLinks.lean ====
section
/-!
DEFINITION. The presence inputs (R124, R125, R166) and the line transmitters (R121, R122).
-/

namespace Sys2Proof.Machine

/-- A line whose presence input falls: ABSENT, with its queue and refresh_pending cleared; the frame or run being sent is
completed (R124, R166). -/
def lineFalls (l : LineId) (s : State) : State :=
  updLine l (fun ln => { ln with presence := .absent, queue := [], refreshPending := false }) s

/-- A line whose presence input rises: PRESENT. -/
def lineRises (l : LineId) (s : State) : State :=
  updLine l (fun ln => { ln with presence := .present }) s

/-- STATION_STATE with cause PRESENCE (R124, R125). -/
def noticePresence (x : Nat) (s : State) : State :=
  let st := station s x
  pushNotice (.stationState x .presence st.line.presence st.load.state st.load.state st.load.accumulator 0 0) s

/-- The presence input of station `x` falls (R124); one that is low already cannot fall (log 3). -/
def presenceFalls (x : Nat) (s : State) : State :=
  if (station s x).line.presence = .present then
    let s := lineFalls (.station x) s
    if (station s x).config.isSome then noticePresence x s else s
  else s

/-- The presence input of station `x` rises (R125); one that is high already cannot rise (log 3). -/
def presenceRises (x : Nat) (s : State) : State :=
  if (station s x).line.presence = .absent then
    let s := lineRises (.station x) s
    if (station s x).config.isSome then noticePresence x (drain x (askRefresh (.station x) s)) else s
  else s

/-- PRESENCE_FALL (R124). -/
def execPresenceFall (x : Nat) (s : State) : Result :=
  if x < Config.stations then .next (settle (presenceFalls x s)) else .fault .noSuchUnit

/-- PRESENCE_RISE (R125). -/
def execPresenceRise (x : Nat) (s : State) : Result :=
  if x < Config.stations then .next (settle (presenceRises x s)) else .fault .noSuchUnit

/-- PASS_PRESENCE_FALL (R166). -/
def execPassPresenceFall (s : State) : Result :=
  if s.passLine.presence = .present then .next (lineFalls .pass s) else .next s

/-- PASS_PRESENCE_RISE (R166). -/
def execPassPresenceRise (s : State) : Result :=
  if s.passLine.presence = .absent then .next (askRefresh .pass (lineRises .pass s)) else .next s

/-- LINE_FRAME_END (R121): the transmitter takes the next record, or begins a pending refresh, or becomes idle.  A transmitter that
is not sending a frame has none to end (log 3). -/
def execLineFrameEnd (l : LineId) (s : State) : Result :=
  if l.inPart then
    match (lineOf s l).tx with
    | .sending _ => .next (chooseLineFrame l s)
    | .idle => .next s
    | .refreshing _ => .next s
  else .fault .noSuchUnit

/-- REFRESH_RUN_END (R121, R122). -/
def execRefreshRunEnd (l : LineId) (s : State) : Result :=
  if l.inPart then
    match (lineOf s l).tx with
    | .refreshing _ => .next (chooseLineFrame l s)
    | .idle => .next s
    | .sending _ => .next s
  else .fault .noSuchUnit

/-- REFRESH_BEGIN (R122): a pending refresh begins, if the transmitter is idle with the queue empty. -/
def execRefreshBegin (l : LineId) (s : State) : Result :=
  if l.inPart then .next (beginRefresh l s) else .fault .noSuchUnit

end Sys2Proof.Machine
end

