-- ==== Sys2Proof/Machine/LineRecords.lean ====
section
/-!
DEFINITION. The records that the terminals send: READY, SPOIL and RESYNC from a station (R112 to R120), PICKED, REFIRE and RESYNC from
the pass (R158, R160, R165, R166), and the frames that a line discards.
-/

namespace Sys2Proof.Machine

/-! ## Station records -/

/-- Station `x` takes records from its line: it is defined and PRESENT (R112). -/
def stationListens (s : State) (x : Nat) : Bool :=
  (station s x).config.isSome && decide ((station s x).line.presence = .present)

/-- The ticket that a READY or SPOIL at station `x` applies to: live, its station `x`, QUEUED or ON_LINE (R114, R115). -/
def atStation (s : State) (x t : Nat) : Option Ticket :=
  match ticket? s t with
  | some tk =>
    if tk.station = x ∧ (tk.state = .queued ∨ tk.state = .onLine) then some tk else none
  | none => none

/-- An applying READY, in the order of R111 (R114). -/
def applyReady (x t : Nat) (tk : Ticket) (s : State) : State :=
  let s := updTicket t (fun tk => { tk with state := .ready, readyAt := some s.clock, position := none }) s
  let (s, departed) := leaveStation t tk (.doneTicket t) s
  drainIf departed x (groupArrival tk.group t s)

/-- READY taken by station `x` (R112, R114, R116). -/
def takeReady (x t : Nat) (s : State) : State :=
  if stationListens s x then
    match atStation s x t with
    | some tk => applyReady x t tk s
    | none => sendRecord (.station x) (.stale t 0xB0#8) s
  else s

/-- What the pass controller does after a SPOIL's remake or its failure (R153). -/
def showSpoil (g : Nat) (s : State) : State :=
  match group? s g with
  | none => s
  | some gr => if gr.state = .assembling then completionTest g (sendGroupUp g s) else s

/-- An applying SPOIL, in the order of R111 (R115, R153). -/
def applySpoil (x t : Nat) (tk : Ticket) (s : State) : State :=
  let s := updTicket t (fun tk => { tk with state := .dead, position := none }) s
  let (s, departed) := leaveStation t tk (.doneTicket t) s
  let (s, _) := automaticRemake tk.group t .spoil s
  drainIf departed x (showSpoil tk.group s)

/-- SPOIL taken by station `x` (R112, R115, R116). -/
def takeSpoil (x t : Nat) (s : State) : State :=
  if stationListens s x then
    match atStation s x t with
    | some tk => applySpoil x t tk s
    | none => sendRecord (.station x) (.stale t 0xB1#8) s
  else s

/-- RESYNC taken by station `x` (R112, R120). -/
def takeResync (x : Nat) (s : State) : State :=
  if stationListens s x then askRefresh (.station x) s else s

/-! ## Pass records -/

/-- PICKED taken by the pass controller (R160, R165). -/
def takePicked (g : Nat) (s : State) : State :=
  if s.passLine.presence = .present then
    match group? s g with
    | some gr =>
      if gr.state = .complete then
        completeWave gr.wave (freeGroup g (if gr.short then .short else .served) s)
      else sendRecord .pass (.passStale 0xE0#8 g none) s
    | none => sendRecord .pass (.passStale 0xE0#8 g none) s
  else s

/-- REFIRE taken by the pass controller (R158, R165). -/
def takePassRefire (g t : Nat) (s : State) : State :=
  if s.passLine.presence = .present then
    match groupTicket s g t with
    | some tk =>
      if refirable tk then
        match refireTicket g t tk s with
        | (s, .made _ _) => s
        | (s, .noTickets) => sendRecord .pass (.passStale 0xE1#8 g (some t)) s
        | (s, .noStock) => sendRecord .pass (.passStale 0xE1#8 g (some t)) s
      else sendRecord .pass (.passStale 0xE1#8 g (some t)) s
    | none => sendRecord .pass (.passStale 0xE1#8 g (some t)) s
  else s

/-- RESYNC taken by the pass controller (R165, R166). -/
def takePassResync (s : State) : State :=
  if s.passLine.presence = .present then askRefresh .pass s else s

/-! ## The commands -/

/-- READY (R114). -/
def execReady (x : Nat) (t : Number) (s : State) : Result :=
  if x < Config.stations then .next (settle (takeReady x t.toNat s)) else .fault .noSuchUnit

/-- SPOIL (R115). -/
def execSpoil (x : Nat) (t : Number) (s : State) : Result :=
  if x < Config.stations then .next (settle (takeSpoil x t.toNat s)) else .fault .noSuchUnit

/-- RESYNC (R120). -/
def execResync (x : Nat) (s : State) : Result :=
  if x < Config.stations then .next (takeResync x s) else .fault .noSuchUnit

/-- PICKED (R160). -/
def execPicked (g : Number) (s : State) : Result :=
  .next (settle (takePicked g.toNat s))

/-- REFIRE from the pass terminal (R158). -/
def execPassRefire (g t : Number) (s : State) : Result :=
  .next (settle (takePassRefire g.toNat t.toNat s))

/-- RESYNC from the pass terminal (R166). -/
def execPassResync (s : State) : Result :=
  .next (takePassResync s)

/-! ## Frames that a line judges (R112, R165) -/

/-- A good frame that has arrived on line `l`: taken as the record it carries, or discarded because its kind is not one of the
line's or its body does not fit its kind (R112, R165, R187).  The tag is not examined. -/
def takeLineFrame (l : LineId) (f : Frame) (s : State) : State :=
  match l with
  | .station x =>
    if f.kind = 0xB0#8 then (match readTwo f.body with | some t => takeReady x t s | none => s)
    else if f.kind = 0xB1#8 then (match readTwo f.body with | some t => takeSpoil x t s | none => s)
    else if f.kind = 0xB2#8 then (match readEmpty f.body with | some _ => takeResync x s | none => s)
    else s
  | .pass =>
    if f.kind = 0xE0#8 then (match readTwo f.body with | some g => takePicked g s | none => s)
    else if f.kind = 0xE1#8 then (match readRefire f.body with | some (g, t) => takePassRefire g t s | none => s)
    else if f.kind = 0xE2#8 then (match readEmpty f.body with | some _ => takePassResync s | none => s)
    else s

/-- Line `l` delivers one byte to its receiver: a frame it completes is judged, and a bad one is discarded without a notice
(R112, R165). -/
def lineByte (l : LineId) (b : Byte) (s : State) : State :=
  let r := receiveByte b (lineOf s l).receiver
  let s := updLine l (fun ln => { ln with receiver := r.1 }) s
  match r.2 with
  | .nothing => s
  | .bad _ => s
  | .good f => settle (takeLineFrame l f s)

/-- LINE_FRAME_DISCARD (R112, R165): the bytes go through the line's receiver.  A frame that R112 or R165 discards has no effect; a
frame among the bytes that neither discards is taken as the record it is (log 7). -/
def execLineFrameDiscard (l : LineId) (bytes : List Byte) (s : State) : Result :=
  if l.inPart then .next (bytes.foldl (fun s b => lineByte l b s) s) else .fault .noSuchUnit

end Sys2Proof.Machine
end

