-- ==== Sys2Proof/Machine/PowerTime.lean ====
section
/-!
DEFINITION. RESET and CLOCK_TICK.
-/

namespace Sys2Proof.Machine

/-- RESET (R185, R128, R166): every block takes its reset state, a frame being sent is cut off, and presence takes the levels of
the presence inputs at the end of the reset.
DESIGN CHOICE: assertion and release of the pin are one event, unsafe (log 9). -/
def execReset (stationLevels : List Bool) (passLevel : Bool) (s : State) : Result :=
  if stationLevels.length = Config.stations then
    .next (resetPart (stationLevels.map presenceOf) (presenceOf passLevel) s)
  else .fault .noSuchUnit

/-- One second on a running clock; a saturated clock holds (R62). -/
def advanceClock (s : State) : State :=
  { s with clock := if s.clock < Config.clockMax then s.clock + 1 else s.clock }

/-- CLOCK_TICK (R62, R63): the expiries still due at the present reading are taken at that reading, then the clock advances.
DESIGN CHOICE: an expiry that no command has taken is taken by the tick, unsafe (log 4). -/
def execClockTick (s : State) : Result :=
  .next (advanceClock (takeDueExpiries s))

end Sys2Proof.Machine
end

