-- ==== Sys2Proof/Machine/Queries.lean ====
section
/-!
DEFINITION. QUERY_STATION, QUERY_COMPONENT, QUERY_TABLE, QUERY_WAVE, QUERY_GROUP and QUERY_TICKET.  A query changes nothing.
-/

namespace Sys2Proof.Machine

/-- The number of ON_LINE tickets at a station controller. -/
def onLineCount (st : Station) : Nat :=
  (st.positions.filter Option.isSome).length

/-- The figures of QUERY_STATION for a defined station (R127). -/
def stationFigures (c : StationConfig) (st : Station) : Figures :=
  .stationReport c st.line.presence st.load.state st.load.accumulator (stretchOf st) (queueCount st)
    st.rushQueue.length (onLineCount st) st.blocked.length st.line.queue.length st.line.refreshPending

/-- QUERY_STATION's checks and answer (R127). -/
def queryStationRequest (body : List Byte) (s : State) : State × Answer :=
  match readOne body with
  | none => refuse .malformed s
  | some x =>
    if Config.stations ≤ x then refuse .range s
    else
      match (station s x).config with
      | none => refuse .noSuch s
      | some c => accept (stationFigures c (station s x)) s

/-- QUERY_STATION (R127). -/
def execQueryStation (s : State) : Result :=
  .next (takeRequest 0x0F#8 queryStationRequest s)

/-- QUERY_COMPONENT's checks and answer (R8). -/
def queryComponentRequest (body : List Byte) (s : State) : State × Answer :=
  match readTwo body with
  | none => refuse .malformed s
  | some c =>
    if Config.components ≤ c then refuse .range s
    else
      match s.components.get? c with
      | none => refuse .noSuch s
      | some r => accept (.componentReport r) s

/-- QUERY_COMPONENT (R8). -/
def execQueryComponent (s : State) : Result :=
  .next (takeRequest 0x10#8 queryComponentRequest s)

/-- QUERY_TABLE's checks and answer (R22). -/
def queryTableRequest (body : List Byte) (s : State) : State × Answer :=
  match readTwo body with
  | none => refuse .malformed s
  | some t =>
    if Config.tables ≤ t then refuse .range s
    else if floorSize s.floor ≤ t then refuse .noSuch s
    else accept (.tableReport (t / s.floor.columns) (t % s.floor.columns) (tableRecord s t)) s

/-- QUERY_TABLE (R22). -/
def execQueryTable (s : State) : Result :=
  .next (takeRequest 0x11#8 queryTableRequest s)

/-- The order index of the engine's next visit, while it is RUNNING (R60). -/
def nextVisit (e : Engine) : Option Nat :=
  if e.status = .running then some e.next else none

/-- QUERY_WAVE's checks and answer (R60). -/
def queryWaveRequest (body : List Byte) (s : State) : State × Answer :=
  match readOne body with
  | none => refuse .malformed s
  | some w =>
    if Config.waves ≤ w then refuse .range s
    else accept (.waveReport s.engine.status s.engine.wave (nextVisit s.engine) (wave? s w)) s

/-- QUERY_WAVE (R60). -/
def execQueryWave (s : State) : Result :=
  .next (takeRequest 0x12#8 queryWaveRequest s)

/-- The slots of a group as QUERY_GROUP reports them (R167). -/
def slotReports (s : State) (ts : List Nat) : List SlotReport :=
  ts.filterMap fun t =>
    (ticket? s t).map fun tk => ⟨t, tk.component, tk.quantity, tk.generation, tk.rush, tk.state⟩

/-- QUERY_GROUP's checks and answer (R167). -/
def queryGroupRequest (body : List Byte) (s : State) : State × Answer :=
  match readTwo body with
  | none => refuse .malformed s
  | some g =>
    if Config.groups ≤ g then refuse .range s
    else accept (.groupReport g ((group? s g).map fun gr => (gr, slotReports s gr.tickets)) s.groupPool) s

/-- QUERY_GROUP (R167). -/
def execQueryGroup (s : State) : Result :=
  .next (takeRequest 0x09#8 queryGroupRequest s)

/-- QUERY_TICKET's checks and answer (R102). -/
def queryTicketRequest (body : List Byte) (s : State) : State × Answer :=
  match readTwo body with
  | none => refuse .malformed s
  | some t =>
    if Config.tickets ≤ t then refuse .range s
    else accept (.ticketReport t (ticket? s t) s.ticketPool) s

/-- QUERY_TICKET (R102). -/
def execQueryTicket (s : State) : Result :=
  .next (takeRequest 0x13#8 queryTicketRequest s)

end Sys2Proof.Machine
end

