-- ==== Sys2Proof/Machine/ServiceControl.lean ====
section
/-!
DEFINITION. IDENTIFY, RESTART, SET_CLOCK, QUERY_CLOCK, BEGIN_SERVICE and END_SERVICE: how the host link block and the clock check
and carry out each (R64, R65, R178 to R184).
-/

namespace Sys2Proof.Machine

/-- IDENTIFY's checks and answer (R183). -/
def identifyRequest (body : List Byte) (s : State) : State × Answer :=
  match readEmpty body with
  | none => refuse .malformed s
  | some _ => accept (.identity s.link.mode) s

/-- IDENTIFY (R183). -/
def execIdentify (s : State) : Result :=
  .next (takeRequest 0x01#8 identifyRequest s)

/-- RESTART's checks and acceptance: from here the decoder takes no further request (R184). -/
def restartRequest (body : List Byte) (s : State) : State × Answer :=
  match readEmpty body with
  | none => refuse .malformed s
  | some _ => accept .noFigures { s with link := { s.link with decoder := .stopped } }

/-- RESTART (R184): acceptance; the drain and the reset are HOST_FRAME_END's. -/
def execRestart (s : State) : Result :=
  .next (takeRequest 0x02#8 restartRequest s)

/-- SET_CLOCK's checks and effect (R64). -/
def setClockRequest (body : List Byte) (s : State) : State × Answer :=
  match readFour body with
  | none => refuse .malformed s
  | some v =>
    if Config.clockMax < v then refuse .range s
    else if s.link.mode = .service then refuse .mode s
    else accept (.clockSet v) { s with clock := v }

/-- SET_CLOCK (R64). -/
def execSetClock (s : State) : Result :=
  .next (takeRequest 0x03#8 setClockRequest s)

/-- QUERY_CLOCK's checks and answer (R65). -/
def queryClockRequest (body : List Byte) (s : State) : State × Answer :=
  match readEmpty body with
  | none => refuse .malformed s
  | some _ => accept (.clockReading s.clock (decide (s.clock = Config.clockMax))) s

/-- QUERY_CLOCK (R65). -/
def execQueryClock (s : State) : Result :=
  .next (takeRequest 0x04#8 queryClockRequest s)

/-- The load monitor's start at one station (R142). -/
def startLoad (now : Nat) (st : Station) : Station :=
  { st with load :=
      { accumulator := 0, state := .normal,
        nextSample := if st.config.isSome then some (now + Config.samplePeriod) else none } }

/-- The number of defined stations. -/
def definedStations (s : State) : Nat :=
  (s.stations.filter fun st => st.config.isSome).length

/-- A station's alternate, if it names one, is defined (R178). -/
def alternateDefined (s : State) (st : Station) : Bool :=
  match st.config.bind StationConfig.alternate with
  | some a => (station s a).config.isSome
  | none => true

/-- The STATE check of BEGIN_SERVICE (R178): the floor is defined, some station is, and every alternate is. -/
def serviceReady (s : State) : Bool :=
  floorDefined s.floor && decide (0 < definedStations s) && s.stations.all (alternateDefined s)

/-- BEGIN_SERVICE's effect (R142, R179). -/
def beginService (limit : Nat) (s : State) : State :=
  { s with
    link := { s.link with pickupLimit := limit, seq := 0, mode := .service }
    stations := s.stations.map (startLoad s.clock) }

/-- BEGIN_SERVICE's checks and effect (R178, R179). -/
def beginServiceRequest (body : List Byte) (s : State) : State × Answer :=
  match readBegin body with
  | none => refuse .malformed s
  | some given =>
    let limit := given.getD Config.pickupDefault
    if limit < 10 ∨ 600 < limit then refuse .range s
    else if s.link.mode = .service then refuse .mode s
    else if serviceReady s = false then refuse .state s
    else accept (.serviceBegun limit s.clock (definedStations s)) (beginService limit s)

/-- BEGIN_SERVICE (R178, R179). -/
def execBeginService (s : State) : Result :=
  .next (takeRequest 0x05#8 beginServiceRequest s)

/-- The cancellations of the teardown, in the order given; answers how many waves, groups and tickets (R181). -/
def cancelWaves (ws : List Nat) (s : State) : State × Nat × Nat × Nat :=
  ws.foldl
    (fun r w =>
      match cancelWave w r.1 with
      | (s, groups, tickets) => (s, r.2.1 + 1, r.2.2.1 + groups, r.2.2.2 + tickets))
    (s, 0, 0, 0)

/-- The waves that are not FREE, in ascending number (R61). -/
def wavesNotFree (s : State) : List Nat :=
  (List.range Config.waves).filter fun w => decide (waveState s w ≠ .free)

/-- The service teardown after the cancellations: the engine becomes IDLE, the load monitor ends its service at each station
in ascending number, and the mode becomes SETUP (R181). -/
def finishService (s : State) : State :=
  let s := { s with engine := {} }
  let s := (List.range Config.stations).foldl (fun s x => endLoad x s) s
  { s with link := { s.link with mode := .setup } }

/-- END_SERVICE's checks and teardown (R180, R181). -/
def endServiceRequest (body : List Byte) (s : State) : State × Answer :=
  match readOne body with
  | none => refuse .malformed s
  | some force =>
    if 1 < force then refuse .range s
    else if s.link.mode = .setup then refuse .mode s
    else if force = 0 ∧ wavesNotFree s ≠ [] then refuse .state s
    else
      match cancelWaves (wavesNotFree s) s with
      | (s, waves, groups, tickets) => accept (.serviceEnded waves groups tickets) (finishService s)

/-- END_SERVICE (R180, R181). -/
def execEndService (s : State) : Result :=
  .next (takeRequest 0x06#8 endServiceRequest s)

end Sys2Proof.Machine
end

