-- ==== Sys2Proof/Machine/WaveRequests.lean ====
section
/-!
DEFINITION. STAGE_WAVE, RELEASE_WAVE, HOLD_WAVE, RESUME_WAVE, CANCEL_WAVE (chapter 3) and REARM_STATION (chapter 7).
-/

namespace Sys2Proof.Machine

/-! ## STAGE_WAVE (R36 to R38) -/

/-- The stagger after clamping (R37). -/
def clampStagger (d : Nat) : Nat :=
  min d Config.staggerMax

/-- The fields of a STAGE_WAVE in range, the walk's last go time apart (R36; the go time's own range by R174 and R188, log 13). -/
def stageFormInRange (s : State) (f : StageForm) : Bool :=
  decide (f.wave < Config.waves ∧ f.course < Config.courses ∧ f.goTime ≤ Config.clockMax)
  && (match f.skipMark with
      | some m => decide (1 ≤ m ∧ m ≤ 15)
      | none => true)
  && regionValid s.floor f.region

/-- The record that an accepted STAGE_WAVE writes (R37). -/
def stagedWave (s : State) (f : StageForm) (plan : List ServedTable) : Wave where
  state := .staged
  course := f.course
  region := f.region
  skipMark := f.skipMark
  goTime := f.goTime
  stagger := clampStagger f.stagger
  stagedAt := s.clock
  plan := planCounts s f.course f.skipMark f.region plan

/-- The answer of an accepted STAGE_WAVE (R38). -/
def stageAnswer (s : State) (f : StageForm) (plan : List ServedTable) : Answer :=
  let earliest := earliestFire s f.goTime (clampStagger f.stagger) plan
  let size := clippedSize s.floor f.region
  .accepted
    { late := decide (earliest ≤ (s.clock : Int))
      clipped := size.isSome
      clamped := decide (Config.staggerMax < f.stagger)
      stockShort := needShort s (stockNeed s plan) }
    (.staged (planCounts s f.course f.skipMark f.region plan) earliest
      (goTimeAt f.goTime (clampStagger f.stagger) (plan.length - 1)) (clampStagger f.stagger) size)

/-- STAGE_WAVE's checks and effect (R36 to R38). -/
def stageWaveRequest (body : List Byte) (s : State) : State × Answer :=
  match readStage body with
  | none => refuse .malformed s
  | some f =>
    let served := servedTables s f.course f.skipMark f.region
    if stageFormInRange s f = false then refuse .range s
    else if lastGoInRange f.goTime (clampStagger f.stagger) served.length = false then refuse .range s
    else if s.link.mode = .setup then refuse .mode s
    else if (s.courses.get? f.course).isNone then refuse .noSuch s
    else if waveState s f.wave ≠ .free then refuse .state s
    else if served = [] then refuse .empty s
    else
      let plan := plannedTables s f.course served
      ({ s with waves := s.waves.set f.wave (stagedWave s f plan) }, stageAnswer s f plan)

/-- STAGE_WAVE (R36 to R38). -/
def execStageWave (s : State) : Result :=
  .next (takeRequest 0x14#8 stageWaveRequest s)

/-! ## RELEASE_WAVE (R41 to R43) -/

/-- The walk at RELEASE_WAVE: the stored region, course and skip_mark against the tables as they stand (R41). -/
def releasePlan (s : State) (wv : Wave) : List ServedTable :=
  plannedTables s wv.course (servedTables s wv.course wv.skipMark wv.region)

/-- The state once a release is accepted, its stock drawn: reservations, plan counts, RELEASING, and the engine RUNNING (R42,
R43).  `before` is the state in which the walk was made. -/
def startRelease (before : State) (w : Nat) (wv : Wave) (plan : List ServedTable) (s : State) : State :=
  let counts := planCounts before wv.course wv.skipMark wv.region plan
  let s := { s with ticketPool := s.ticketPool.reserve counts.tickets, groupPool := s.groupPool.reserve counts.groups }
  let s := updWave w (fun wv =>
    { wv with
      state := .releasing
      plan := counts
      release := {}
      reservedTickets := counts.tickets
      reservedGroups := counts.groups }) s
  { s with engine := { status := .running, wave := some w, plan := plan, next := 0 } }

/-- RELEASE_WAVE's resource checks and effect, once its earlier checks have passed (R41, R43). -/
def releaseStaged (w : Nat) (wv : Wave) (s : State) : State × Answer :=
  let plan := releasePlan s wv
  let counts := planCounts s wv.course wv.skipMark wv.region plan
  if s.engine.status = .running then refuse .busy s
  else if s.ticketPool.free < counts.tickets then refuse .noTickets s
  else if s.groupPool.free < counts.groups then refuse .noGroups s
  else
    match waveDraw (stockNeed s plan) s with
    | (drawn, false) => (drawn, .refused .noStock)
    | (drawn, true) =>
      let earliest := earliestFire s wv.goTime wv.stagger plan
      (startRelease s w wv plan drawn,
        .accepted { late := decide (earliest ≤ (s.clock : Int)) } (.released counts.groups counts.tickets earliest))

/-- RELEASE_WAVE's checks and effect (R41 to R43). -/
def releaseWaveRequest (body : List Byte) (s : State) : State × Answer :=
  match readOne body with
  | none => refuse .malformed s
  | some w =>
    if Config.waves ≤ w then refuse .range s
    else
      match wave? s w with
      | none => if s.link.mode = .setup then refuse .mode s else refuse .state s
      | some wv =>
        let n := (servedTables s wv.course wv.skipMark wv.region).length
        if wv.state = .staged ∧ lastGoInRange wv.goTime wv.stagger n = false then refuse .range s
        else if s.link.mode = .setup then refuse .mode s
        else if wv.state ≠ .staged then refuse .state s
        else if n = 0 then refuse .empty s
        else releaseStaged w wv s

/-- RELEASE_WAVE (R41 to R43). -/
def execReleaseWave (s : State) : Result :=
  .next (takeRequest 0x15#8 releaseWaveRequest s)

/-! ## HOLD_WAVE (R48) -/

/-- The wave's live tickets that a hold cannot stop: QUEUED, ON_LINE or READY (R48). -/
def exposedCount (s : State) (w : Nat) : Nat :=
  (s.tickets.filter fun e =>
    decide (e.2.wave = w ∧ (e.2.state = .queued ∨ e.2.state = .onLine ∨ e.2.state = .ready))).length

/-- The wave becomes HELD and frozen (R48, R91). -/
def holdWave (w : Nat) (s : State) : State :=
  let s := updWave w (fun wv => { wv with state := .held, holdSince := some s.clock }) s
  { s with frozen := insertNumber w s.frozen }

/-- HOLD_WAVE's checks and effect (R48). -/
def holdWaveRequest (body : List Byte) (s : State) : State × Answer :=
  match readOne body with
  | none => refuse .malformed s
  | some w =>
    if Config.waves ≤ w then refuse .range s
    else if s.link.mode = .setup then refuse .mode s
    else if waveState s w ≠ .active then refuse .state s
    else accept (.held (exposedCount s w)) (holdWave w s)

/-- HOLD_WAVE (R48). -/
def execHoldWave (s : State) : Result :=
  .next (takeRequest 0x16#8 holdWaveRequest s)

/-! ## RESUME_WAVE (R51 to R54) -/

/-- The resume go time before it is raised to now (R51). -/
def resumeGoAsked (s : State) (wv : Wave) (given : Option Nat) : Nat :=
  given.getD (wv.goTime + (s.clock - wv.holdSince.getD s.clock))

/-- The resume go time (R51). -/
def resumeGo (s : State) (wv : Wave) (given : Option Nat) : Nat :=
  max (resumeGoAsked s wv given) s.clock

/-- The largest order index among the wave's live groups (R51). -/
def largestIndex (s : State) (w : Nat) : Nat :=
  (waveGroups s w).foldl (fun m g => max m (orderIndexOf s g)) 0

/-- The optional new go time, if given, lies in its range (R51, R188, log 13). -/
def givenGoInRange (given : Option Nat) : Bool :=
  match given with
  | some v => decide (v ≤ Config.clockMax)
  | none => true

/-- A re-timed group: every ticket is CALENDARED or BLOCKED and none is a remake copy (R52). -/
def isRetimedGroup (s : State) (g : Nat) : Bool :=
  (groupTickets s g).all fun t =>
    match ticket? s t with
    | some tk => decide ((tk.state = .calendared ∨ tk.state = .blocked) ∧ tk.rush = false)
    | none => false

/-- A ticket of a re-timed group, recomputed for its home station with the new go time (R52). -/
def resumeTicket (goTime t : Nat) (s : State) : State :=
  match ticket? s t with
  | some tk =>
    setTicket t
      { tk with
        goTime := goTime
        fireTime := fireTimeAt s tk.homeStation tk.component goTime
        dueReady := dueReadyAt s tk.homeStation goTime } s
  | none => s

/-- A re-timed group takes its new go time, and its tickets theirs (R52, R67). -/
def resumeGroup (waveGo stagger g : Nat) (s : State) : State :=
  let goTime := goTimeAt waveGo stagger (orderIndexOf s g)
  let ts := groupTickets s g
  let s := updGroup g (fun gr => { gr with goTime := goTime }) s
  ts.foldl (fun s t => resumeTicket goTime t s) s

/-- The ticket leaves the calendar or its home station's blocked list, whichever holds it. -/
def leaveWaiting (t : Nat) (s : State) : State :=
  match ticket? s t with
  | some tk => leaveCalendar t (leaveBlocked tk.homeStation t s)
  | none => s

/-- The tickets of a re-timed group that are due: fire time at or before now (R52). -/
def retimedDue (s : State) (g : Nat) : List Nat :=
  (groupTickets s g).filter (isDue s)

/-- The BLOCKED tickets of a re-timed group that are not due, which enter the calendar (R52). -/
def retimedFromBlocked (s : State) (g : Nat) : List Nat :=
  (groupTickets s g).filter fun t => ticketIs s .blocked t && !isDue s t

/-- The tickets of a kept group that are due: CALENDARED with their fire time passed, and every BLOCKED one (R53). -/
def keptDue (s : State) (g : Nat) : List Nat :=
  (groupTickets s g).filter fun t => (ticketIs s .calendared t && isDue s t) || ticketIs s .blocked t

/-- The placing of a resumed wave's tickets and the firing of its due tickets in (fire_time, seq) order (R52 to R54).  The due
tickets all leave their places before the first is offered, which no offer can tell from one at a time.  Answers how many
fired. -/
def placeResumed (retimed kept : List Nat) (s : State) : State × Nat :=
  let s := { s with calendar := sortBefore (calendarBefore s) s.calendar }
  let moved := retimed.flatMap (retimedFromBlocked s)
  let due := sortBefore (calendarBefore s) (retimed.flatMap (retimedDue s) ++ kept.flatMap (keptDue s))
  let s := moved.foldl (fun s t => joinCalendar t (leaveWaiting t s)) s
  let s := due.foldl (fun s t => leaveWaiting t s) s
  (offerAll due s, due.length)

/-- An accepted RESUME_WAVE (R52 to R54).  Answers the re-timed, kept and fired counts. -/
def resumeWave (w : Nat) (wv : Wave) (goTime : Nat) (s : State) : State × Nat × Nat × Nat :=
  let s := updWave w (fun wv => { wv with goTime := goTime, holdSince := none, state := .active }) s
  let s := { s with frozen := removeNumber w s.frozen }
  let retimed := (waveGroups s w).filter (isRetimedGroup s)
  let kept := (waveGroups s w).filter fun g => !isRetimedGroup s g
  let s := retimed.foldl (fun s g => resumeGroup goTime wv.stagger g s) s
  match placeResumed retimed kept s with
  | (s, fired) => (s, retimed.length, kept.length, fired)

/-- RESUME_WAVE's checks and effect (R51 to R54). -/
def resumeWaveRequest (body : List Byte) (s : State) : State × Answer :=
  match readResume body with
  | none => refuse .malformed s
  | some (w, given) =>
    if Config.waves ≤ w ∨ givenGoInRange given = false then refuse .range s
    else
      match wave? s w with
      | none => if s.link.mode = .setup then refuse .mode s else refuse .state s
      | some wv =>
        let goTime := resumeGo s wv given
        if wv.state = .held ∧ Config.clockMax < goTimeAt goTime wv.stagger (largestIndex s w) then refuse .range s
        else if s.link.mode = .setup then refuse .mode s
        else if wv.state ≠ .held then refuse .state s
        else
          match resumeWave w wv goTime s with
          | (s', retimed, kept, fired) =>
            (s', .accepted
              { late := decide (0 < fired), clamped := decide (resumeGoAsked s wv given < s.clock) }
              (.resumed retimed kept fired))

/-- RESUME_WAVE (R51 to R54). -/
def execResumeWave (s : State) : Result :=
  .next (takeRequest 0x17#8 resumeWaveRequest s)

/-! ## CANCEL_WAVE (R55 to R57) -/

/-- CANCEL_WAVE's checks and effect (R55 to R57). -/
def cancelWaveRequest (body : List Byte) (s : State) : State × Answer :=
  match readOne body with
  | none => refuse .malformed s
  | some w =>
    if Config.waves ≤ w then refuse .range s
    else if s.link.mode = .setup then refuse .mode s
    else if waveState s w = .free then refuse .state s
    else
      match cancelWave w s with
      | (s, groups, tickets) => accept (.waveCancelled groups tickets) s

/-- CANCEL_WAVE (R55 to R57). -/
def execCancelWave (s : State) : Result :=
  .next (takeRequest 0x18#8 cancelWaveRequest s)

/-! ## REARM_STATION (R138, R139) -/

/-- The load state that a rearmed station takes (R139). -/
def rearmedLoad (c : StationConfig) (a : Nat) : LoadState :=
  if c.derateLevel / 2 < a then .derated else .normal

/-- REARM_STATION's checks and effect (R138, R139). -/
def rearmStationRequest (body : List Byte) (s : State) : State × Answer :=
  match readOne body with
  | none => refuse .malformed s
  | some x =>
    if Config.stations ≤ x then refuse .range s
    else if s.link.mode = .setup then refuse .mode s
    else
      match (station s x).config with
      | none => refuse .noSuch s
      | some c =>
        let a := (station s x).load.accumulator
        if (station s x).load.state ≠ .tripped then refuse .state s
        else if c.tripLevel ≤ a then refuse .tooHot s
        else
          match changeLoad x (rearmedLoad c a) s with
          | (s, retimed, fired) => accept (.rearmed x (rearmedLoad c a) a (stretch s x) retimed fired) s

/-- REARM_STATION (R138, R139). -/
def execRearmStation (s : State) : Result :=
  .next (takeRequest 0x19#8 rearmStationRequest s)

end Sys2Proof.Machine
end

