-- ==== Sys2Proof/Machine/Dispatch.lean ====
section
/-!
DEFINITION. The meaning of every command: one arm for each row of spec/opcode_table.json, in the table's order.
-/

namespace Sys2Proof.Machine

/-- The effect of a command on everything but the queue of waiting commands. -/
def exec (i : Instr) (s : State) : Host.Outcome State Fault Refusal :=
  match i with
  | .reset levels pass => Sys2Proof.Machine.execReset levels pass s
  | .clockTick => Sys2Proof.Machine.execClockTick s
  | .hostFrameArrival bytes => Sys2Proof.Machine.execHostFrameArrival bytes s
  | .hostFrameEnd => Sys2Proof.Machine.execHostFrameEnd s
  | .unknownKind => Sys2Proof.Machine.execUnknownKind s
  | .identify => Sys2Proof.Machine.execIdentify s
  | .restart => Sys2Proof.Machine.execRestart s
  | .setClock => Sys2Proof.Machine.execSetClock s
  | .queryClock => Sys2Proof.Machine.execQueryClock s
  | .beginService => Sys2Proof.Machine.execBeginService s
  | .endService => Sys2Proof.Machine.execEndService s
  | .defineStation => Sys2Proof.Machine.execDefineStation s
  | .defineComponent => Sys2Proof.Machine.execDefineComponent s
  | .defineCourse => Sys2Proof.Machine.execDefineCourse s
  | .defineFloor => Sys2Proof.Machine.execDefineFloor s
  | .setTable => Sys2Proof.Machine.execSetTable s
  | .markTables => Sys2Proof.Machine.execMarkTables s
  | .restock => Sys2Proof.Machine.execRestock s
  | .queryStation => Sys2Proof.Machine.execQueryStation s
  | .queryComponent => Sys2Proof.Machine.execQueryComponent s
  | .queryTable => Sys2Proof.Machine.execQueryTable s
  | .queryWave => Sys2Proof.Machine.execQueryWave s
  | .queryGroup => Sys2Proof.Machine.execQueryGroup s
  | .queryTicket => Sys2Proof.Machine.execQueryTicket s
  | .stageWave => Sys2Proof.Machine.execStageWave s
  | .releaseWave => Sys2Proof.Machine.execReleaseWave s
  | .holdWave => Sys2Proof.Machine.execHoldWave s
  | .resumeWave => Sys2Proof.Machine.execResumeWave s
  | .cancelWave => Sys2Proof.Machine.execCancelWave s
  | .rearmStation => Sys2Proof.Machine.execRearmStation s
  | .refire => Sys2Proof.Machine.execRefire s
  | .sendShort => Sys2Proof.Machine.execSendShort s
  | .stagingLapse w => Sys2Proof.Machine.execStagingLapse w s
  | .releaseVisit => Sys2Proof.Machine.execReleaseVisit s
  | .fireExpiry => Sys2Proof.Machine.execFireExpiry s
  | .loadSample x => Sys2Proof.Machine.execLoadSample x s
  | .dieExpiry g => Sys2Proof.Machine.execDieExpiry g s
  | .pickupExpiry g => Sys2Proof.Machine.execPickupExpiry g s
  | .ready x t => Sys2Proof.Machine.execReady x t s
  | .spoil x t => Sys2Proof.Machine.execSpoil x t s
  | .resync x => Sys2Proof.Machine.execResync x s
  | .lineFrameDiscard l bytes => Sys2Proof.Machine.execLineFrameDiscard l bytes s
  | .picked g => Sys2Proof.Machine.execPicked g s
  | .passRefire g t => Sys2Proof.Machine.execPassRefire g t s
  | .passResync => Sys2Proof.Machine.execPassResync s
  | .presenceFall x => Sys2Proof.Machine.execPresenceFall x s
  | .presenceRise x => Sys2Proof.Machine.execPresenceRise x s
  | .passPresenceFall => Sys2Proof.Machine.execPassPresenceFall s
  | .passPresenceRise => Sys2Proof.Machine.execPassPresenceRise s
  | .lineFrameEnd l => Sys2Proof.Machine.execLineFrameEnd l s
  | .refreshRunEnd l => Sys2Proof.Machine.execRefreshRunEnd l s
  | .refreshBegin l => Sys2Proof.Machine.execRefreshBegin l s

end Sys2Proof.Machine
end

