-- ==== Sys2Proof/Machine/Step.lean ====
section
/-!
DEFINITION. One step of the part: the command at the front of the queue is carried out.
-/

namespace Sys2Proof.Machine

/-- One step: the front command is carried out with the rest of the queue; with no command waiting the part idles.
DESIGN CHOICE: time too passes by a command, CLOCK_TICK, and an empty queue changes nothing, safe (log 1). -/
def step (s : State) : Host.Outcome State Fault Refusal :=
  match s.pending with
  | [] => .next s
  | c :: rest => exec c { s with pending := rest }

/-- The state with the command that the word spells, if it spells one, at the front of the queue. -/
def State.withFetchWord (s : State) (nbits w : Nat) : State :=
  match decodeTableWord nbits w with
  | some c => { s with pending := c :: s.pending }
  | none => s

end Sys2Proof.Machine
end

