-- ==== Sys2Proof/Safety.lean ====
section
/-!
DEFINITION. What the statements about the machine speak of: the situation a request meets and what its answer leaves, the
body bytes a host writes, and the invariants of the part's state.
-/

namespace Sys2Proof.Machine

/-! ## Requests (R172, R173) -/

/-- The decoder can take frame `f`, the first of the input buffer, with `rest` behind it (R172). -/
abbrev Takes (f : Frame) (rest : List Frame) (s : State) : Prop :=
  s.link.decoder = .taking ∧ s.link.replies.length < Config.replyQueue ∧ s.link.input = f :: rest

/-- The state with these frames left in the input buffer. -/
def dequeued (rest : List Frame) (s : State) : State :=
  { s with link := { s.link with input := rest } }

/-- The state `s` once frame `f` has left the input buffer and its one reply has been queued, at the end of the event (R172, R173,
R175). -/
def answered (f : Frame) (rest : List Frame) (a : Answer) (s : State) : State :=
  settle (pushReply ⟨f.tag, f.kind, a⟩ (dequeued rest s))

/-- The same for an acceptance without qualifiers. -/
def acceptedWith (f : Frame) (rest : List Frame) (figures : Figures) (s : State) : State :=
  answered f rest (.accepted {} figures) s

/-- The same for a refusal. -/
def refusedWith (f : Frame) (rest : List Frame) (r : Reason) (s : State) : State :=
  answered f rest (.refused r) s

/-- The kind code of the frame that a host request command takes (R187); none for the other commands. -/
def requestCode : Instr → Option Byte
  | .identify => some 0x01#8
  | .restart => some 0x02#8
  | .setClock => some 0x03#8
  | .queryClock => some 0x04#8
  | .beginService => some 0x05#8
  | .endService => some 0x06#8
  | .defineStation => some 0x07#8
  | .defineComponent => some 0x08#8
  | .queryGroup => some 0x09#8
  | .defineCourse => some 0x0A#8
  | .defineFloor => some 0x0B#8
  | .setTable => some 0x0C#8
  | .markTables => some 0x0D#8
  | .restock => some 0x0E#8
  | .queryStation => some 0x0F#8
  | .queryComponent => some 0x10#8
  | .queryTable => some 0x11#8
  | .queryWave => some 0x12#8
  | .queryTicket => some 0x13#8
  | .stageWave => some 0x14#8
  | .releaseWave => some 0x15#8
  | .holdWave => some 0x16#8
  | .resumeWave => some 0x17#8
  | .cancelWave => some 0x18#8
  | .rearmStation => some 0x19#8
  | .refire => some 0x1A#8
  | .sendShort => some 0x1B#8
  | .reset _ _ => none
  | .clockTick => none
  | .hostFrameArrival _ => none
  | .hostFrameEnd => none
  | .unknownKind => none
  | .stagingLapse _ => none
  | .releaseVisit => none
  | .fireExpiry => none
  | .loadSample _ => none
  | .dieExpiry _ => none
  | .pickupExpiry _ => none
  | .ready _ _ => none
  | .spoil _ _ => none
  | .resync _ => none
  | .lineFrameDiscard _ _ => none
  | .picked _ => none
  | .passRefire _ _ => none
  | .passResync => none
  | .presenceFall _ => none
  | .presenceRise _ => none
  | .passPresenceFall => none
  | .passPresenceRise => none
  | .lineFrameEnd _ => none
  | .refreshRunEnd _ => none
  | .refreshBegin _ => none

/-! ## Bodies as a host writes them (R188, R189) -/

/-- A DEFINE_STATION body (R105). -/
def stationBody (x : Nat) (c : StationConfig) : List Byte :=
  le1 x ++ le1 c.positions ++ le1 c.queueLimit ++ le2 c.carry ++ le2 c.derateLevel ++ le2 c.tripLevel ++ le2 c.coolStep
    ++ le1 c.derateStretch ++ presenceByte [c.alternate.isSome] ++ optional le1 c.alternate

/-- A DEFINE_COMPONENT body (R2). -/
def componentBody (c : Nat) (r : Component) : List Byte :=
  le2 c ++ le1 r.station ++ le2 r.cookTime ++ le2 r.holdWindow ++ presenceByte [r.stock.isSome, r.lowLevel.isSome]
    ++ optional le2 r.stock ++ optional le2 r.lowLevel

/-- A DEFINE_COURSE body (R5). -/
def courseBody (p : Nat) (cs : List Nat) : List Byte :=
  le1 p ++ leList le2 cs

/-- A SET_TABLE body (R20). -/
def tableBody (f : TableForm) : List Byte :=
  le2 f.table ++ le1 f.covers ++ le1 f.mark ++ leList (fun e => le2 e.source ++ le2 e.target ++ le1 e.count) f.entries

/-- A MARK_TABLES operation's code and two parameters (R28, R190); a parameter that is not used is written 0. -/
def markOpBytes : MarkOp → List Byte
  | .setMark m => le1 0 ++ le1 m ++ le1 0
  | .replace a b => le1 1 ++ le1 a ++ le1 b
  | .clear => le1 2 ++ le1 0 ++ le1 0

/-- A RESTOCK operation's code (R190). -/
def restockOpBytes : RestockOp → List Byte
  | .add => le1 0
  | .set => le1 1

/-- A STAGE_WAVE body (R189). -/
def stageBody (f : StageForm) : List Byte :=
  le1 f.wave ++ le1 f.course ++ regionBytes f.region ++ le4 f.goTime ++ le1 f.stagger ++ presenceByte [f.skipMark.isSome]
    ++ optional le1 f.skipMark

/-- A RESUME_WAVE body (R189). -/
def resumeBody (w : Nat) (given : Option Nat) : List Byte :=
  le1 w ++ presenceByte [given.isSome] ++ optional le4 given

/-- A BEGIN_SERVICE body (R178). -/
def beginBody (given : Option Nat) : List Byte :=
  presenceByte [given.isSome] ++ optional le2 given

/-- The optional number is absent or below `n`. -/
abbrev fitsBelow (n : Nat) (o : Option Nat) : Prop :=
  ∀ v ∈ o, v < n

/-- The fields of a placement fit their bytes (R188). -/
def placementFits : Placement → Prop
  | .rect row column width height => row < 65536 ∧ column < 65536 ∧ width < 256 ∧ height < 256
  | .linear start count => start < 65536 ∧ count < 65536

/-- The parameters of a MARK_TABLES operation fit their bytes (R188). -/
def markOpFits : MarkOp → Prop
  | .setMark m => m < 256
  | .replace a b => a < 256 ∧ b < 256
  | .clear => True

/-- The fields of a station's configuration fit their bytes (R188). -/
abbrev stationFits (x : Nat) (c : StationConfig) : Prop :=
  x < 256 ∧ c.positions < 256 ∧ c.queueLimit < 256 ∧ c.carry < 65536 ∧ c.derateLevel < 65536 ∧ c.tripLevel < 65536
    ∧ c.coolStep < 65536 ∧ c.derateStretch < 256 ∧ fitsBelow 256 c.alternate

/-- The fields of a component record fit their bytes (R188). -/
abbrev componentFits (c : Nat) (r : Component) : Prop :=
  c < 65536 ∧ r.station < 256 ∧ r.cookTime < 65536 ∧ r.holdWindow < 65536 ∧ fitsBelow 65536 r.stock ∧ fitsBelow 65536 r.lowLevel

/-- The fields of a SET_TABLE fit their bytes (R188). -/
abbrev tableFits (g : TableForm) : Prop :=
  g.table < 65536 ∧ g.covers < 256 ∧ g.mark < 256 ∧ g.entries.length < 256
    ∧ ∀ e ∈ g.entries, e.source < 65536 ∧ e.target < 65536 ∧ e.count < 256

/-- The fields of a STAGE_WAVE fit their bytes (R188). -/
def stageFits (g : StageForm) : Prop :=
  g.wave < 256 ∧ g.course < 256 ∧ g.goTime < 4294967296 ∧ g.stagger < 256 ∧ fitsBelow 256 g.skipMark
    ∧ placementFits g.region.placement

/-- Three bytes that spell a MARK_TABLES operation: its code and its parameters, one that it does not use holding anything (R28). -/
def spellsMarkOp : MarkOp → List Byte → Prop
  | .setMark m, b => ∃ unused, b = le1 0 ++ le1 m ++ [unused]
  | .replace m n, b => b = le1 1 ++ le1 m ++ le1 n
  | .clear, b => ∃ u v, b = le1 2 ++ [u, v]

/-- The body is laid out as the request's kind is: its length agrees with its counts and presence bytes, no presence bit stands beyond the
optional fields, every code is a defined one, and a LINEAR region ends in two bytes of 0.  A request whose body is not so laid out is
MALFORMED (R174, R188). -/
def LaidOut : Instr → List Byte → Prop
  | .identify, b | .restart, b | .queryClock, b => b = []
  | .setClock, b => ∃ v < 4294967296, b = le4 v
  | .beginService, b => ∃ given, fitsBelow 65536 given ∧ b = beginBody given
  | .endService, b | .queryStation, b | .queryWave, b | .releaseWave, b | .holdWave, b | .cancelWave, b | .rearmStation, b =>
    ∃ n < 256, b = le1 n
  | .queryComponent, b | .queryTable, b | .queryGroup, b | .queryTicket, b | .sendShort, b => ∃ n < 65536, b = le2 n
  | .defineStation, b => ∃ x c, stationFits x c ∧ b = stationBody x c
  | .defineComponent, b => ∃ c r, componentFits c r ∧ b = componentBody c r
  | .defineCourse, b => ∃ p cs, p < 256 ∧ cs.length < 256 ∧ (∀ c ∈ cs, c < 65536) ∧ b = courseBody p cs
  | .defineFloor, b => ∃ rows < 256, ∃ columns < 256, b = le1 rows ++ le1 columns
  | .setTable, b => ∃ g, tableFits g ∧ b = tableBody g
  | .markTables, b =>
    ∃ r op spelt, placementFits r.placement ∧ markOpFits op ∧ spellsMarkOp op spelt ∧ b = regionBytes r ++ spelt
  | .restock, b => ∃ c < 65536, ∃ n < 65536, ∃ op, b = le2 c ++ restockOpBytes op ++ le2 n
  | .stageWave, b => ∃ g, stageFits g ∧ b = stageBody g
  | .resumeWave, b => ∃ w < 256, ∃ given, fitsBelow 4294967296 given ∧ b = resumeBody w given
  | .refire, b => ∃ g < 65536, ∃ n < 65536, b = le2 g ++ le2 n
  | .reset _ _, _ | .clockTick, _ | .hostFrameArrival _, _ | .hostFrameEnd, _ | .unknownKind, _ | .stagingLapse _, _
  | .releaseVisit, _ | .fireExpiry, _ | .loadSample _, _ | .dieExpiry _, _ | .pickupExpiry _, _ | .ready _ _, _ | .spoil _ _, _
  | .resync _, _ | .lineFrameDiscard _ _, _ | .picked _, _ | .passRefire _ _, _ | .passResync, _ | .presenceFall _, _
  | .presenceRise _, _ | .passPresenceFall, _ | .passPresenceRise, _ | .lineFrameEnd _, _ | .refreshRunEnd _, _
  | .refreshBegin _, _ => True

/-! ## What an answer leaves, and what a wave needs -/

/-- The reply to frame `f` with answer `a` is the newest waiting in `t` while a frame is being sent, and is being sent when the
transmitter was idle with no reply waiting (R173, R175). -/
abbrev Answers (f : Frame) (a : Answer) (s t : State) : Prop :=
  (s.link.tx ≠ .idle → t.link.tx = s.link.tx ∧ t.link.replies = s.link.replies ++ [⟨f.tag, f.kind, a⟩])
    ∧ (s.link.tx = .idle → s.link.replies = [] → t.link.tx = .reply ⟨f.tag, f.kind, a⟩ ∧ t.link.replies = [])

/-- The portions of component `c` that serving these tables with this course takes (R9). -/
def plannedNeed (s : State) (course : Nat) (served : List Nat) (c : Nat) : Nat :=
  (((served.flatMap fun u => ticketList (coursePlan s course) (tableRecord s u)).filter fun e => decide (e.1 = c)).map
    Prod.snd).sum

/-- The portions of component `c` in these ticket lists (R9, R15). -/
def portions (c : Nat) (es : List (Nat × Nat)) : Nat :=
  ((es.filter fun e => decide (e.1 = c)).map Prod.snd).sum

/-- Component `c` is tracked and its count does not cover these portions (R9, R11). -/
abbrev Short (s : State) (c need : Nat) : Prop :=
  ∃ n ∈ stockOf s c, n < need

/-- Station `x` is able to take a ticket: defined, NORMAL or DERATED, PRESENT, and its queue below its limit (R93). -/
abbrev Able (s : State) (x : Nat) : Prop :=
  ∃ c ∈ (station s x).config, (station s x).load.state ≠ .tripped ∧ (station s x).line.presence = .present
    ∧ (station s x).rushQueue.length + (station s x).ordinaryQueue.length < c.queueLimit

/-- Ticket `t` is live with this state. -/
abbrev InState (s : State) (st : TicketState) (t : Nat) : Prop :=
  (ticket? s t).map Ticket.state = some st

/-! ## Records and notices (R12, R13, R121, R123, R176) -/

/-- What a record produced for the terminal makes of a sound line: not queued while ABSENT or with a refresh pending; an overflow behind 32
records; begun at an idle transmitter; and otherwise last in the queue (R121, R123). -/
def produced (r : LineRecord) (ln : Line) : Line :=
  if ln.presence = .absent ∨ ln.refreshPending = true then ln
  else if 32 ≤ ln.queue.length then { ln with queue := [], refreshPending := true }
  else if ln.tx = .idle then { ln with tx := .sending r }
  else { ln with queue := ln.queue ++ [r] }

/-- The state once these notices have been produced, one after another (R176). -/
def noticedAll (ns : List Notice) (s : State) : State :=
  ns.foldl (fun s n => pushNotice n s) s

/-- The notices of a draw of `q` portions of component `c` from a count of `n` that covers them (R12, R13). -/
def drawNotices (c q n : Nat) (low : Option Nat) : List Notice :=
  (low.toList.filterMap fun l => if l < n ∧ n - q ≤ l then some (.stockLow c (n - q) l) else none)
    ++ if 0 < n ∧ n - q = 0 then [.stockOut c .emptied 0 q] else []

/-- The notices of a wave draw of these portions of each component, which the counts cover, in ascending component order (R10, R12, R13). -/
def waveDrawNotices (s : State) (need : Nat → Nat) : List Notice :=
  s.components.flatMap fun e => e.2.stock.toList.flatMap fun n => drawNotices e.1 (need e.1) n e.2.lowLevel

/-- The notices of a wave draw that is refused: one for each short component, in ascending order (R10, R13). -/
def shortNotices (s : State) (need : Nat → Nat) : List Notice :=
  s.components.flatMap fun e => e.2.stock.toList.flatMap fun n =>
    if n < need e.1 then [.stockOut e.1 .short n (need e.1)] else []

/-- A return of `q` portions of component `c`: the count of a tracked component rises to at most 9999, and nothing else changes (R14). -/
def Returns (c q : Nat) (s t : State) : Prop :=
  t = { s with components := t.components }
    ∧ ∀ d, t.components.get? d = (s.components.get? d).map fun r =>
        if d = c then { r with stock := r.stock.map fun n => min 9999 (n + q) } else r

/-! ## Regions (R24, R25) -/

/-- The region is one that the RANGE check does not refuse on this floor: width, height and count from 1 to their maxima, and the origin or the
start on the floor (R24). -/
def RegionFits (fl : Floor) (r : Region) : Prop :=
  match r.placement with
  | .rect row column width height =>
    (1 ≤ width ∧ width ≤ 40) ∧ (1 ≤ height ∧ height ≤ 40) ∧ row < fl.rows ∧ column < fl.columns
  | .linear start count => (1 ≤ count ∧ count ≤ 400) ∧ start < fl.rows * fl.columns

/-- The clipped size that a reply with CLIPPED gives, and none where no cut is made: the width and the height of a RECT region, each cut to what the
floor leaves from the origin, and the count of a LINEAR one, with 0 in the second place (R25, R189; log 12). -/
def cutSize (fl : Floor) (r : Region) : Option (Nat × Nat) :=
  match r.placement with
  | .rect row column width height =>
    if fl.columns - column < width ∨ fl.rows - row < height then
      some (min width (fl.columns - column), min height (fl.rows - row))
    else none
  | .linear start count =>
    if fl.rows * fl.columns - start < count then some (fl.rows * fl.columns - start, 0) else none

/-! ## Walks of a wave (R29, R30) -/

/-- The plan counts of a wave's walk whose served tables and ticket lists are `plan`: the tables visited, those that each of R29's tests is the
first to skip, the groups and the tickets (R29, R30, R37, R42). -/
def walkCounts (s : State) (course : Nat) (skipMark : Option Nat) (r : Region) (plan : List ServedTable) : PlanCounts :=
  let walk := (walkOrder s.floor r).map (tableRecord s)
  { visited := walk.length
    skippedEmpty := (walk.filter fun u => decide (u.covers = 0)).length
    skippedMarked := (walk.filter fun u => decide (0 < u.covers ∧ skipMark = some u.mark)).length
    skippedBusy := (walk.filter fun u => decide (0 < u.covers ∧ skipMark ≠ some u.mark ∧ course ∈ u.liveCourses)).length
    groups := plan.length
    tickets := (plan.map fun v => v.tickets.length).sum }

/-! ## Refresh runs (R122, R164, R166) -/

/-- The records that show ticket `n`: SHOW (R109). -/
def shown (s : State) (n : Nat) : List LineRecord :=
  match ticket? s n with
  | some tk => [.showTicket n tk.table tk.component tk.quantity tk.dueReady tk.rush tk.generation]
  | none => []

/-- The refresh run of a station terminal: STATION, SHOW and LINE for each position taken, in ascending order, and SHOW for each QUEUED
ticket, head first (R122). -/
def stationRefresh (s : State) (x : Nat) (c : StationConfig) : List LineRecord :=
  let st := station s x
  .stationStatus st.load.state (if st.load.state = .normal then 64 else c.derateStretch)
      (st.rushQueue.length + st.ordinaryQueue.length) c.queueLimit
    :: ((st.positions.zipIdx.flatMap fun e => e.1.toList.flatMap fun n => shown s n ++ (shown s n).map fun _ => .lineTicket n e.2)
      ++ (st.rushQueue ++ st.ordinaryQueue).flatMap (shown s))

/-- GROUP_UP of group `g`: its fields, and for each slot the ticket, component, quantity and status (R164). -/
def groupShown (s : State) (g : Nat) (gr : Group) : LineRecord :=
  .groupUp g gr.table gr.course gr.wave gr.short gr.escalated
    (gr.tickets.flatMap fun n => (ticket? s n).toList.map fun tk =>
      { ticket := n, component := tk.component, quantity := tk.quantity,
        status := match tk.state with
          | .ready => .ready
          | .dead => .dead
          | .withdrawn => .withdrawn
          | .calendared => .waiting
          | .blocked => .waiting
          | .queued => .waiting
          | .onLine => .waiting })

/-- The refresh run of the pass terminal: PASS, GROUP_UP for each group not PENDING and GO for each COMPLETE group, each in ascending group
number (R166). -/
def passRefresh (s : State) : List LineRecord :=
  .passRun (s.groups.filter fun e => decide (e.2.state = .assembling ∨ e.2.state = .complete)).length
    :: ((s.groups.filter fun e => decide (e.2.state = .assembling ∨ e.2.state = .complete)).map fun e => groupShown s e.1 e.2)
    ++ (s.groups.filter fun e => decide (e.2.state = .complete)).map fun e => .go e.1 e.2.short

/-! ## Offers and drains (R72, R85, R88, R93 to R98, R109) -/

/-- Ticket `m` fires ahead of ticket `n`: by fire time, then seq, then number (R85, R88). -/
abbrev FiresAhead (s : State) (m n : Nat) : Prop :=
  ∃ a ∈ ticket? s m, ∃ b ∈ ticket? s n,
    a.fireTime < b.fireTime ∨ a.fireTime = b.fireTime ∧ (a.seq < b.seq ∨ a.seq = b.seq ∧ m < n)

/-- Ticket `m` stands ahead of ticket `n` in a blocked list: the rush class first, and in one class by the keys (R96). -/
abbrev BlockedAhead (s : State) (m n : Nat) : Prop :=
  ∃ a ∈ ticket? s m, ∃ b ∈ ticket? s n, a.rush = true ∧ b.rush = false ∨ a.rush = b.rush ∧ FiresAhead s m n

/-- Ticket `n` is frozen: its wave is in the frozen set (R91). -/
abbrev Frozen (s : State) (n : Nat) : Prop :=
  ∃ tk ∈ ticket? s n, tk.wave ∈ s.frozen

/-- `t` is `s` but for ticket `n`'s record and the controller of station `x`. -/
def OnlyAt (n x : Nat) (s t : State) : Prop :=
  t = { s with tickets := t.tickets, stations := t.stations } ∧ t.stations.length = s.stations.length
    ∧ (∀ m, m ≠ n → ticket? t m = ticket? s m) ∧ ∀ y, y ≠ x → station t y = station s y

/-- The record of a ticket whose times an entry into station `x` has written (R72, R94). -/
def entered (s : State) (x : Nat) (tk : Ticket) : Ticket :=
  { tk with
    station := x
    dueReady := (tk.goTime : Int) - carry s x
    lateness := min 65535 ((s.clock : Int) - fireTimeAt s x tk.component tk.goTime).toNat
    firedAt := some (tk.firedAt.getD s.clock) }

/-- Ticket `n`, which has left its former place, enters station `x`: at the lowest free cook position, with SHOW and LINE, or, with none free,
at the end of its class in the queue, with SHOW (R72, R94, R109). -/
def Enters (n x : Nat) (s t : State) : Prop :=
  OnlyAt n x s t ∧ ∃ tk, ticket? s n = some tk
    ∧ let now := entered s x tk
      let st := station s x
      let shows := LineRecord.showTicket n tk.table tk.component tk.quantity now.dueReady tk.rush tk.generation
      let i := st.positions.idxOf none
      if i < st.positions.length then
        ticket? t n = some { now with state := .onLine, position := some i }
          ∧ station t x =
            { st with
              positions := st.positions.set i (some n)
              line := produced (.lineTicket n i) (produced shows st.line) }
      else
        ticket? t n = some { now with state := .queued }
          ∧ station t x =
            { st with
              rushQueue := if tk.rush then st.rushQueue ++ [n] else st.rushQueue
              ordinaryQueue := if tk.rush then st.ordinaryQueue else st.ordinaryQueue ++ [n]
              line := produced shows st.line }

/-- Ticket `n`, which has left its former place, is BLOCKED in its home station's list, at the place its class and keys give it (R94, R96). -/
def Blocks (n : Nat) (s t : State) : Prop :=
  ∃ tk ahead behind, ticket? s n = some tk ∧ OnlyAt n tk.homeStation s t
    ∧ ticket? t n = some { tk with state := .blocked, station := tk.homeStation }
    ∧ (station s tk.homeStation).blocked = ahead ++ behind
    ∧ station t tk.homeStation = { station s tk.homeStation with blocked := ahead ++ n :: behind }
    ∧ (∀ m ∈ ahead, ¬BlockedAhead s n m) ∧ ∀ m ∈ behind.head?, BlockedAhead s n m

/-- A ticket of home station `h` goes to station `x`: to `h` if that is able, otherwise to the alternate if that is able (R93, R94). -/
abbrev GoesTo (s : State) (h x : Nat) : Prop :=
  Able s h ∧ x = h
    ∨ ¬Able s h ∧ Able s x ∧ (station s h).config.bind StationConfig.alternate = some x

/-- An offer of ticket `n`, which has left its former place: it enters the station it goes to, and blocks where there is none (R94). -/
def Offers (n : Nat) (s t : State) : Prop :=
  ∃ tk, ticket? s n = some tk
    ∧ ((∃ x, GoesTo s tk.homeStation x ∧ Enters n x s t) ∨ (¬∃ x, GoesTo s tk.homeStation x) ∧ Blocks n s t)

/-- Offers made one after another, in this order, each whole before the next (R95). -/
def OffersEach : List Nat → State → State → Prop
  | [], s, t => t = s
  | n :: ns, s, t => ∃ u, Offers n s u ∧ OffersEach ns u t

/-- A drain's visit to the blocked list of station `y`: the first ticket not frozen enters the station it goes to, and the next is looked at;
where there is no such ticket or station the visit ends, the list standing as it is (R98). -/
inductive DrainsList (y : Nat) : State → State → Prop where
  | noneLeft (s : State) : (∀ n ∈ (station s y).blocked, Frozen s n) → DrainsList y s s
  | blocksAgain (s : State) : (∃ n ∈ (station s y).blocked, ¬Frozen s n) → (¬∃ x, GoesTo s y x) → DrainsList y s s
  | enters (n x : Nat) (ahead behind : List Nat) (s u t : State) :
      (station s y).blocked = ahead ++ n :: behind → (∀ m ∈ ahead, Frozen s m) → ¬Frozen s n → GoesTo s y x →
      Enters n x { s with stations := s.stations.modify y fun st => { st with blocked := ahead ++ behind } } u →
      DrainsList y u t → DrainsList y s t

/-- Drains of these lists, one after another. -/
def DrainsEach : List Nat → State → State → Prop
  | [], s, t => t = s
  | y :: ys, s, t => ∃ u, DrainsList y s u ∧ DrainsEach ys u t

/-- The drain for station `x`: its own blocked list, then those of the stations that name it as alternate, in ascending number (R98). -/
def Drains (x : Nat) (s t : State) : Prop :=
  DrainsEach (x :: (List.range 24).filter fun y => decide ((station s y).config.bind StationConfig.alternate = some x)) s t

/-! ## Re-timing (R74, R75) -/

/-- The tickets of the calendar whose station is `x`. -/
def calendaredFor (s : State) (x : Nat) : List Nat :=
  s.calendar.filter fun n => (ticket? s n).any fun tk => decide (tk.station = x)

/-- The re-timing of station `x`: every CALENDARED ticket there takes the fire time of the new stretch; those of waves not HELD whose fire time
has come leave the calendar and are offered in ascending (fire time, seq); the calendar keeps the others in its order (R74, R75). -/
def Retimes (x : Nat) (s t : State) (retimed fired : Nat) : Prop :=
  ∃ (u : State) (due : List Nat),
    u = { s with tickets := u.tickets, calendar := u.calendar }
    ∧ (∀ n, ticket? u n = (ticket? s n).map fun tk =>
        if n ∈ calendaredFor s x then { tk with fireTime := fireTimeAt s x tk.component tk.goTime } else tk)
    ∧ (∀ n, n ∈ due ↔ n ∈ calendaredFor s x ∧ ¬Frozen s n ∧ ∃ tk ∈ ticket? u n, tk.fireTime ≤ (s.clock : Int))
    ∧ due.Pairwise (FiresAhead u) ∧ u.calendar.Pairwise (FiresAhead u)
    ∧ (∀ n, n ∈ u.calendar ↔ n ∈ s.calendar ∧ n ∉ due)
    ∧ OffersEach due u t ∧ retimed = (calendaredFor s x).length ∧ fired = due.length

/-! ## Withdrawal (R14, R87, R100, R163) -/

/-- What ticket `n`, whose record was `tk`, leaves at its place, before any drain: it stands in no place; the station it was QUEUED or ON_LINE at
is sent `r`, DONE or PULL; and the queue head, if there is one, moves into a freed position with LINE (R100, R110, R111). -/
def LeavesPlace (r : LineRecord) (n : Nat) (tk : Ticket) (s u : State) : Prop :=
  let st := station s tk.station
  let pulled := produced r st.line
  match tk.state, tk.position with
  | .calendared, _ => u = { s with calendar := s.calendar.filter fun m => decide (m ≠ n) }
  | .blocked, _ =>
    u = { s with stations := s.stations.modify tk.homeStation fun st =>
        { st with blocked := st.blocked.filter fun m => decide (m ≠ n) } }
  | .queued, _ =>
    u = { s with stations := s.stations.modify tk.station fun st =>
        { st with
          rushQueue := st.rushQueue.filter fun m => decide (m ≠ n)
          ordinaryQueue := st.ordinaryQueue.filter fun m => decide (m ≠ n)
          line := pulled } }
  | .onLine, some i =>
    match st.rushQueue ++ st.ordinaryQueue with
    | [] =>
      u = { s with stations := s.stations.modify tk.station fun st =>
          { st with positions := st.positions.set i none, line := pulled } }
    | h :: _ =>
      u = { s with stations := u.stations, tickets := u.tickets }
        ∧ u.stations = s.stations.modify tk.station (fun st =>
          { st with
            rushQueue := st.rushQueue.filter fun m => decide (m ≠ h)
            ordinaryQueue := st.ordinaryQueue.filter fun m => decide (m ≠ h)
            positions := st.positions.set i (some h)
            line := produced (.lineTicket h i) pulled })
        ∧ ∀ m, ticket? u m = (ticket? s m).map fun o =>
            if m = h then { o with state := .onLine, position := some i } else o
  | _, _ => u = s

/-- A ticket's leaving is a queue departure: it stood in the queue, or in a cook position with a queue behind it (R97). -/
abbrev Departs (tk : Ticket) (s : State) : Prop :=
  tk.state = .queued ∨ tk.state = .onLine ∧ tk.position ≠ none ∧ wholeQueue (station s tk.station) ≠ []

/-- The withdrawal of ticket `n`: it leaves its place; a CALENDARED, BLOCKED or QUEUED one returns its quantity to stock, any other returns
nothing; it is kept as WITHDRAWN (unless READY), or freed; and a queue departure drains for the station (R14, R87, R97, R100). -/
def Withdraws (keep : Bool) (n : Nat) (s t : State) : Prop :=
  ∃ (tk : Ticket) (u v w : State), ticket? s n = some tk ∧ (keep = true → tk.state ≠ .ready ∧ tk.state ≠ .withdrawn)
    ∧ LeavesPlace (.pullTicket n) n tk s u
    ∧ (tk.state = .calendared ∨ tk.state = .blocked ∨ tk.state = .queued → Returns tk.component tk.quantity u v)
    ∧ (tk.state ≠ .calendared ∧ tk.state ≠ .blocked ∧ tk.state ≠ .queued → v = u)
    ∧ (keep = true → w = { v with tickets := w.tickets }
        ∧ ∀ m, ticket? w m = (ticket? v m).map fun o =>
            if m = n then { o with state := .withdrawn, position := none, readyAt := none } else o)
    ∧ (keep = false → w = { v with tickets := w.tickets, groups := w.groups, ticketPool := w.ticketPool }
        ∧ (∀ m, ticket? w m = if m = n then none else ticket? v m)
        ∧ (∀ g, group? w g = (group? v g).map fun gr =>
            if g = tk.group then { gr with tickets := gr.tickets.filter fun m => decide (m ≠ n) } else gr)
        ∧ w.ticketPool = ⟨v.ticketPool.free + 1, v.ticketPool.reserved, v.ticketPool.live - 1⟩)
    ∧ if Departs tk s then Drains tk.station w t else t = w

/-- The withdrawals of a group's tickets in list order, each whole before the next; a withdraw and keep passes READY and WITHDRAWN tickets over
(R100). -/
def WithdrawsEach (keep : Bool) : List Nat → State → State → Prop
  | [], s, t => t = s
  | n :: ns, s, t =>
    ∃ u, (if keep = true ∧ (InState s .ready n ∨ InState s .withdrawn n) then u = s else Withdraws keep n s u)
      ∧ WithdrawsEach keep ns u t

/-- Group `g` is freed as cancelled: the tickets still in its list are freed, its course leaves its table's live set, its entry returns, a group
that was shown is sent WITHDRAW, and its wave counts it (R58, R87, R163). -/
def FreesCancelled (g : Nat) (s t : State) : Prop :=
  ∃ gr, group? s g = some gr
    ∧ t = { s with
        tickets := t.tickets
        ticketPool := ⟨s.ticketPool.free + gr.tickets.length, s.ticketPool.reserved, s.ticketPool.live - gr.tickets.length⟩
        floor := { s.floor with tables := t.floor.tables }
        groups := t.groups
        groupPool := ⟨s.groupPool.free + 1, s.groupPool.reserved, s.groupPool.live - 1⟩
        passLine := if gr.state = .pending then s.passLine else produced (.withdrawGroup g) s.passLine
        waves := t.waves }
    ∧ (∀ n, ticket? t n = if n ∈ gr.tickets then none else ticket? s n)
    ∧ (∀ u, tableRecord t u =
        if u = gr.table then
          { tableRecord s u with liveCourses := (tableRecord s u).liveCourses.filter fun c => decide (c ≠ gr.course) }
        else tableRecord s u)
    ∧ (∀ h, group? t h = if h = g then none else group? s h)
    ∧ ∀ w, wave? t w = (wave? s w).map fun wv =>
        if w = gr.wave then { wv with ending := { wv.ending with cancelled := wv.ending.cancelled + 1 } } else wv

/-- Wave `w` becomes FREE and leaves the frozen set, and WAVE_DONE is queued with the counts of its record (R35, R57, R59, R91). -/
def EndsWave (w : Nat) (reason : DoneReason) (s t : State) : Prop :=
  ∃ wv, wave? s w = some wv
    ∧ t = { pushNotice (.waveDone w reason wv.release.groups wv.ending.served wv.ending.short wv.ending.cancelled) s with
        waves := t.waves
        frozen := t.frozen }
    ∧ (∀ v, wave? t v = if v = w then none else wave? s v) ∧ ∀ v, v ∈ t.frozen ↔ v ≠ w ∧ v ∈ s.frozen

/-- The completion of R59: an ACTIVE or HELD wave all of whose released groups have ended becomes FREE, with WAVE_DONE (SERVED); and otherwise
nothing happens. -/
def Completes (w : Nat) (s t : State) : Prop :=
  if ∃ wv ∈ wave? s w, (wv.state = .active ∨ wv.state = .held)
      ∧ wv.release.groups ≤ wv.ending.served + wv.ending.short + wv.ending.cancelled then EndsWave w .served s t
  else t = s

/-! ## Cancellation (R15, R55 to R57) -/

/-- The groups of a cancelled wave, one after another: each one's tickets are withdrawn and freed, and then the group (R56). -/
def CancelsGroups : List Nat → State → State → Prop
  | [], s, t => t = s
  | g :: gs, s, t =>
    ∃ gr u v, group? s g = some gr ∧ WithdrawsEach false gr.tickets s u ∧ FreesCancelled g u v ∧ CancelsGroups gs v t

/-- A cancel stops the engine of a RELEASING wave: the engine is ABORTED, the stock of the tables not visited returns to counts of at most 9999,
and the rest of the reservations goes back to the free pools (R15, R55). -/
def Stops (w : Nat) (s t : State) : Prop :=
  if waveState s w = .releasing then
    ∃ wv, wave? s w = some wv
      ∧ t = { s with
          engine := { status := .aborted, wave := some w, plan := [], next := 0 }
          components := t.components
          waves := t.waves
          ticketPool :=
            ⟨s.ticketPool.free + wv.reservedTickets, s.ticketPool.reserved - wv.reservedTickets, s.ticketPool.live⟩
          groupPool := ⟨s.groupPool.free + wv.reservedGroups, s.groupPool.reserved - wv.reservedGroups, s.groupPool.live⟩ }
      ∧ (∀ c, t.components.get? c = (s.components.get? c).map fun r =>
          { r with
            stock := r.stock.map fun n =>
              min 9999 (n + portions c ((s.engine.plan.drop s.engine.next).flatMap ServedTable.tickets)) })
      ∧ ∀ v, wave? t v = if v = w then some { wv with reservedTickets := 0, reservedGroups := 0 } else wave? s v
  else t = s

/-- The cancellation of wave `w`: the engine is stopped, the live groups are withdrawn in ascending order index, and the wave ends CANCELLED
(R55 to R57); `groups` and `tickets` are withdrawn. -/
def Cancels (w : Nat) (s t : State) (groups tickets : Nat) : Prop :=
  ∃ (u v : State) (gs : List Nat), Stops w s u
    ∧ gs.Nodup ∧ (∀ g, g ∈ gs ↔ ∃ gr ∈ group? s g, gr.wave = w)
    ∧ gs.Pairwise (fun g h => ∀ a ∈ group? s g, ∀ b ∈ group? s h, a.orderIndex ≤ b.orderIndex)
    ∧ CancelsGroups gs u v ∧ EndsWave w .cancelled v t
    ∧ groups = gs.length ∧ tickets = (gs.map fun g => ((group? s g).toList.flatMap Group.tickets).length).sum

/-! ## Resumption (R52 to R54) -/

/-- None of the group's tickets has entered a station: every one is CALENDARED or BLOCKED, and none is a remake copy (R52). -/
def unstarted (s : State) (gr : Group) : Bool :=
  gr.tickets.all fun n => (ticket? s n).any fun tk => decide ((tk.state = .calendared ∨ tk.state = .blocked) ∧ tk.rush = false)

/-- The go time that a resumption of wave `w` from `go` gives the group of ticket `tk`, if it re-times that group (R52). -/
def newGoTime (s : State) (w go stagger : Nat) (tk : Ticket) : Option Nat :=
  (group? s tk.group).bind fun gr =>
    if gr.wave = w ∧ unstarted s gr = true then some (go + gr.orderIndex * stagger) else none

/-- A ticket's record with the times of its group's new go time, if the group has one (R52). -/
def resumedTicket (s : State) (w go stagger : Nat) (tk : Ticket) : Ticket :=
  match newGoTime s w go stagger tk with
  | some g =>
    { tk with
      goTime := g
      fireTime := fireTimeAt s tk.homeStation tk.component g
      dueReady := (g : Int) - carry s tk.homeStation }
  | none => tk

/-- The ticket is due at the resumption: of a re-timed group, one whose new fire time has come; of a kept group of the wave, a BLOCKED one and a
CALENDARED one whose fire time has come (R52, R53). -/
def dueAtResume (s : State) (w go stagger : Nat) (tk : Ticket) : Bool :=
  match newGoTime s w go stagger tk with
  | some _ => decide ((resumedTicket s w go stagger tk).fireTime ≤ (s.clock : Int))
  | none => (group? s tk.group).any fun gr =>
      decide (gr.wave = w ∧ (tk.state = .blocked ∨ tk.state = .calendared ∧ tk.fireTime ≤ (s.clock : Int)))

/-- The BLOCKED ticket of a re-timed group enters the calendar: its new fire time is after now (R52). -/
def calendarsAtResume (s : State) (w go stagger : Nat) (tk : Ticket) : Bool :=
  decide (tk.state = .blocked) && (newGoTime s w go stagger tk).isSome && !dueAtResume s w go stagger tk

/-- What a resumption makes of the tickets' records and places before the first due ticket is offered: re-timed tickets have their new times, and
those that were BLOCKED and are not due are CALENDARED; the due ones stand in no place; the calendar is in its order (R52 to R54). -/
def ResumesTickets (w go stagger : Nat) (s u : State) (due : List Nat) : Prop :=
  (∀ n, ticket? u n = (ticket? s n).map fun tk =>
      if calendarsAtResume s w go stagger tk then { resumedTicket s w go stagger tk with state := .calendared }
      else resumedTicket s w go stagger tk)
    ∧ (∀ n, n ∈ due ↔ ∃ tk ∈ ticket? s n, dueAtResume s w go stagger tk = true)
    ∧ due.Pairwise (FiresAhead u) ∧ u.calendar.Pairwise (FiresAhead u)
    ∧ (∀ n, n ∈ u.calendar ↔ ∃ tk ∈ ticket? s n,
        dueAtResume s w go stagger tk = false ∧ (n ∈ s.calendar ∨ calendarsAtResume s w go stagger tk = true))
    ∧ u.stations = s.stations.map fun st =>
        { st with blocked := st.blocked.filter fun n => !(ticket? s n).any fun tk =>
            dueAtResume s w go stagger tk || calendarsAtResume s w go stagger tk }

/-! ## Changes of load state (R135) -/

/-- Station `x` changes its load state to `after`: re-timed where the stretch changes, drained where it leaves TRIPPED, and then the STATION
record and STATION_STATE (R74, R97, R134 to R136). -/
def ChangesLoad (x : Nat) (after : LoadState) (s t : State) (retimed fired : Nat) : Prop :=
  let before := (station s x).load.state
  let changed := { s with stations := s.stations.modify x fun st => { st with load := { st.load with state := after } } }
  ∃ (c : StationConfig) (u v : State), (station s x).config = some c
    ∧ ((before = .normal ↔ after = .normal) → u = changed ∧ retimed = 0 ∧ fired = 0)
    ∧ (¬(before = .normal ↔ after = .normal) → Retimes x changed u retimed fired)
    ∧ (before = .tripped → Drains x u v) ∧ (before ≠ .tripped → v = u)
    ∧ t = pushNotice
        (.stationState x .load (station s x).line.presence before after (station s x).load.accumulator retimed fired)
        (updLine (.station x) (produced (.stationStatus after (if after = .normal then 64 else c.derateStretch)
          ((station v x).rushQueue.length + (station v x).ordinaryQueue.length) c.queueLimit)) v)

/-! ## The service teardown (R143, R181) -/

/-- The cancellations of these waves, each whole before the next; `groups` and `tickets` are withdrawn by them together (R181). -/
def CancelsEach : List Nat → State → State → Nat → Nat → Prop
  | [], s, t, groups, tickets => t = s ∧ groups = 0 ∧ tickets = 0
  | w :: ws, s, t, groups, tickets =>
    ∃ (u : State) (g n g' n' : Nat), Cancels w s u g n ∧ CancelsEach ws u t g' n' ∧ groups = g + g' ∧ tickets = n + n'

/-- The load monitor's work at station `x` ends: no sample is to come, the accumulator is 0, and a station that is not NORMAL changes to NORMAL,
with its STATION record and STATION_STATE, re-timing and firing nothing (R143). -/
def EndsLoad (x : Nat) (s t : State) : Prop :=
  let ended := { s with stations := s.stations.modify x fun st =>
    { st with load := { accumulator := 0, state := st.load.state, nextSample := none } } }
  ((station s x).load.state = .normal → t = ended) ∧ ((station s x).load.state ≠ .normal → ChangesLoad x .normal ended t 0 0)

/-- The load monitor's work ends at these stations, one after another (R143). -/
def EndsLoads : List Nat → State → State → Prop
  | [], s, t => t = s
  | x :: xs, s, t => ∃ u, EndsLoad x s u ∧ EndsLoads xs u t

/-! ## Die times (R150) -/

/-- Ticket `n` is READY with a hold window above 0 that runs out at `d` (R150). -/
def DiesAt (s : State) (n d : Nat) : Prop :=
  ∃ tk r c, ticket? s n = some tk ∧ tk.state = .ready ∧ tk.readyAt = some r ∧ s.components.get? tk.component = some c
    ∧ 0 < c.holdWindow ∧ d = r + c.holdWindow

/-- `o` is the earliest die time over these tickets, absent where none has one (R150). -/
def EarliestDie (s : State) (ns : List Nat) (o : Option Nat) : Prop :=
  (∀ d ∈ o, ∃ n ∈ ns, DiesAt s n d) ∧ ∀ n ∈ ns, ∀ d, DiesAt s n d → ∃ e ∈ o, e ≤ d

/-! ## Remakes and die expiries (R79, R86, R150 to R154) -/

/-- The record with which a copy of `tk` is created, before its offer: one generation on, rush, at its home station with the times of the present
reading, and with the next seq (R79, R86). -/
def freshCopy (s : State) (tk : Ticket) : Ticket :=
  { tk with
    station := tk.homeStation
    fireTime := fireTimeAt s tk.homeStation tk.component tk.goTime
    dueReady := (tk.goTime : Int) - carry s tk.homeStation
    firedAt := none, lateness := 0, seq := s.link.seq, generation := tk.generation + 1, rush := true, state := .blocked
    position := none, readyAt := none }

/-- A copy of ticket `n` can be made: an entry is free, and the stock covers its quantity (R86). -/
abbrev CanCopy (tk : Ticket) (s : State) : Prop :=
  0 < s.ticketPool.free ∧ ¬Short s tk.component tk.quantity

/-- Ticket `n`, whose record is `tk`, is replaced by the copy `m`: the quantity is drawn from a tracked component, with the draw's notices; `m` is
the lowest entry not live and takes the slot of `n` in its group's list, `n` is freed, the sequence counter moves on, and the copy is
offered at once, ending at the station `offerEnd`, or BLOCKED (R11 to R13, R86, R87, R94; log 15). -/
def MakesCopy (n m : Nat) (tk : Ticket) (offerEnd : Option Nat) (s t : State) : Prop :=
  ∃ u : State,
    u = { s with
      link := { (noticedAll
          ((s.components.get? tk.component).toList.flatMap fun r => r.stock.toList.flatMap fun k =>
            drawNotices tk.component tk.quantity k r.lowLevel) s).link with
        seq := if s.link.seq < 4294967295 then s.link.seq + 1 else s.link.seq }
      components := u.components
      tickets := u.tickets
      groups := u.groups }
    ∧ (∀ c, u.components.get? c = (s.components.get? c).map fun r =>
        if c = tk.component then { r with stock := r.stock.map fun k => k - tk.quantity } else r)
    ∧ ticket? s m = none ∧ (∀ l < m, ticket? s l ≠ none)
    ∧ (∀ l, ticket? u l = if l = m then some (freshCopy s tk) else if l = n then none else ticket? s l)
    ∧ (∀ g, group? u g = (group? s g).map fun gr =>
        if g = tk.group then { gr with tickets := gr.tickets.map fun o => if o = n then m else o } else gr)
    ∧ (∀ x, offerEnd = some x ↔ GoesTo u tk.homeStation x)
    ∧ Offers m u t

/-- Why an automatic remake of this ticket fails (R152, R154). -/
def remakeCause (tk : Ticket) (s : State) : EscalationCause :=
  if 2 ≤ tk.generation then .generation else if s.ticketPool.free = 0 then .noTickets else .noStock

/-- An automatic remake of DEAD ticket `n` fails: its group is escalated with the cause, STOCK_OUT (SHORT) is queued for a refused draw, and then
GROUP_ESCALATED (R13, R154). -/
def Escalates (source : RemakeSource) (n : Nat) (tk : Ticket) (s t : State) : Prop :=
  t = { noticedAll
        ((if remakeCause tk s = .noStock then
            (stockOf s tk.component).toList.map fun k => .stockOut tk.component .short k tk.quantity
          else [])
          ++ [.groupEscalated tk.group tk.wave tk.table n tk.component (remakeCause tk s) source]) s with
      groups := t.groups }
    ∧ ∀ g, group? t g = (group? s g).map fun gr =>
        if g = tk.group then { gr with escalated := true, escalationCause := some (remakeCause tk s) } else gr

/-- The automatic remake of DEAD ticket `n`: it is replaced by a copy where its generation is below 2 and a copy can be made, and otherwise its
group is escalated (R152, R154). -/
def Remakes (source : RemakeSource) (n : Nat) (made : Bool) (s t : State) : Prop :=
  ∃ tk, ticket? s n = some tk
    ∧ if tk.generation < 2 ∧ CanCopy tk s then made = true ∧ ∃ m offerEnd, MakesCopy n m tk offerEnd s t
      else made = false ∧ Escalates source n tk s t

/-- Automatic remakes in this order, each whole before the next; `made` of them are made (R151). -/
def RemakesEach (source : RemakeSource) : List Nat → Nat → State → State → Prop
  | [], made, s, t => made = 0 ∧ t = s
  | n :: ns, made, s, t =>
    ∃ (one : Bool) (others : Nat) (u : State), Remakes source n one s u ∧ RemakesEach source ns others u t
      ∧ made = (if one then 1 else 0) + others

/-- The die expiry of group `g`, some ticket of which has died: its READY tickets whose windows have run out become DEAD, with DYING, in list
order; each is then remade or escalated; GROUP_UP shows the list, GROUP_DYING counts the dead and the remade, and die_at is the
earliest that remains (R150, R151). -/
def DieExpires (g : Nat) (s t : State) : Prop :=
  ∃ (gr gr' : Group) (died : List Nat) (made : Nat) (u v : State) (d : Option Nat), group? s g = some gr
    ∧ died.Sublist gr.tickets ∧ (∀ n, n ∈ died ↔ n ∈ gr.tickets ∧ ∃ e ≤ s.clock, DiesAt s n e)
    ∧ u = { s with
        tickets := u.tickets
        passLine := died.foldl (fun ln n => produced (.dying g n) ln) s.passLine }
    ∧ (∀ n, ticket? u n = (ticket? s n).map fun tk => if n ∈ died then { tk with state := .dead, readyAt := none } else tk)
    ∧ RemakesEach .die died made u v
    ∧ group? v g = some gr' ∧ EarliestDie v gr'.tickets d
    ∧ t = { pushNotice (.groupDying g gr.wave gr.table died.length made) v with
        groups := t.groups
        passLine := produced (groupShown v g gr') v.passLine }
    ∧ ∀ h, group? t h = if h = g then some { gr' with dieAt := d } else group? v h

/-- What a REFIRE makes of group `g`, once the copy stands in its list: a PENDING group stays as it is; an ASSEMBLING one is shown again, with die_at
recomputed; a COMPLETE one is ASSEMBLING with no pickup time, with WAIT and GROUP_UP, and a die time that has passed by now is taken
at once (R150, R157). -/
def ReopensGroup (g : Nat) (s t : State) : Prop :=
  ∃ (gr : Group) (d : Option Nat) (u : State), group? s g = some gr ∧ EarliestDie s gr.tickets d
    ∧ match gr.state with
      | .pending => t = s
      | .assembling =>
        t = { s with groups := t.groups, passLine := produced (groupShown s g gr) s.passLine }
          ∧ ∀ h, group? t h = if h = g then some { gr with dieAt := d } else group? s h
      | .complete =>
        u = { s with
            groups := u.groups
            passLine := produced (groupShown s g gr) (produced (.waitGroup g) s.passLine) }
          ∧ (∀ h, group? u h =
              if h = g then
                some { gr with state := .assembling, dieAt := d, pickupAt := none, unpickedReported := false }
              else group? s h)
          ∧ if ∃ e ∈ d, e ≤ s.clock then DieExpires g u t else t = u

/-! ## Release visits (R45, R47, R71, R85, R89) -/

/-- The record with which a visit creates the ticket of component and quantity `e` for group `g` of wave `w`: at its home station, with the times of
the present reading and the next seq, generation 0 and not rush (R45, R80, R85).  Its state is BLOCKED until it is placed, at once. -/
def visitTicket (s : State) (w g table goTime : Nat) (e : Nat × Nat) : Ticket :=
  { wave := w, group := g, table := table, component := e.1, quantity := e.2, goTime := goTime
    homeStation := componentStation s e.1, station := componentStation s e.1
    fireTime := fireTimeAt s (componentStation s e.1) e.1 goTime
    dueReady := (goTime : Int) - carry s (componentStation s e.1)
    firedAt := none, lateness := 0, seq := s.link.seq, generation := 0, rush := false, state := .blocked
    position := none, readyAt := none }

/-- One ticket of a visit: it takes the lowest entry not live, from the reserved ones, and the end of its group's list; the wave counts it, as fired
with its lateness where its fire time has come; a due ticket is offered at once, as the places then stand, and any other enters the
calendar at the place its keys give it (R45, R71, R85, R88, R89, R94, R95). -/
def CreatesTicket (w g table goTime : Nat) (e : Nat × Nat) (s t : State) : Prop :=
  ∃ (n : Nat) (u : State),
    let tk := visitTicket s w g table goTime e
    ticket? s n = none ∧ (∀ l < n, ticket? s l ≠ none)
    ∧ u = { s with
        link := { s.link with seq := if s.link.seq < 4294967295 then s.link.seq + 1 else s.link.seq }
        tickets := u.tickets
        ticketPool := ⟨s.ticketPool.free, s.ticketPool.reserved - 1, s.ticketPool.live + 1⟩
        groups := u.groups
        waves := u.waves }
    ∧ (∀ l, ticket? u l = if l = n then some tk else ticket? s l)
    ∧ (∀ h, group? u h = (group? s h).map fun gr => if h = g then { gr with tickets := gr.tickets ++ [n] } else gr)
    ∧ (∀ v, wave? u v = (wave? s v).map fun wv =>
        if v = w then
          { wv with
            reservedTickets := wv.reservedTickets - 1
            release := { wv.release with
              tickets := wv.release.tickets + 1
              fired := if tk.fireTime ≤ (s.clock : Int) then wv.release.fired + 1 else wv.release.fired
              maxLateness := max wv.release.maxLateness (min 65535 ((s.clock : Int) - tk.fireTime).toNat) } }
        else wv)
    ∧ if tk.fireTime ≤ (s.clock : Int) then Offers n u t
      else
        ∃ ahead behind, s.calendar = ahead ++ behind
          ∧ t = { u with tickets := t.tickets, calendar := ahead ++ n :: behind }
          ∧ (∀ l, ticket? t l = if l = n then some { tk with state := .calendared } else ticket? u l)
          ∧ (∀ m ∈ ahead, ¬FiresAhead t n m) ∧ ∀ m ∈ behind.head?, FiresAhead t n m

/-- The tickets of a visit, one after another in the order of the ticket list, each whole before the next (R45). -/
def CreatesTickets (w g table goTime : Nat) : List (Nat × Nat) → State → State → Prop
  | [], s, t => t = s
  | e :: es, s, t => ∃ u, CreatesTicket w g table goTime e s u ∧ CreatesTickets w g table goTime es u t

/-- The end of wave `w`'s release: what is left of its reservations returns to the free pools, the wave is ACTIVE, the engine DONE, and
WAVE_RELEASED is queued with the counts (R47). -/
def EndsRelease (w : Nat) (s t : State) : Prop :=
  ∃ wv, wave? s w = some wv
    ∧ t = { pushNotice
          (.waveReleased w wv.release.groups wv.release.tickets wv.release.fired wv.release.maxLateness) s with
        engine := { status := .done, wave := some w, plan := [], next := 0 }
        waves := t.waves
        ticketPool :=
          ⟨s.ticketPool.free + wv.reservedTickets, s.ticketPool.reserved - wv.reservedTickets, s.ticketPool.live⟩
        groupPool := ⟨s.groupPool.free + wv.reservedGroups, s.groupPool.reserved - wv.reservedGroups, s.groupPool.live⟩ }
    ∧ ∀ v, wave? t v =
        if v = w then some { wv with state := .active, reservedTickets := 0, reservedGroups := 0 } else wave? s v

/-- The visit of wave `w`'s release to the table `v` of order index `i`: a PENDING group takes the lowest entry not live, from the reserved ones, and
its course is live at the table; its tickets are created and placed; and the engine goes on to the next table, or, at the last one, the
release ends (R23, R45, R47, R147). -/
def Visits (w i : Nat) (v : ServedTable) (s t : State) : Prop :=
  ∃ (wv : Wave) (g : Nat) (u x : State), wave? s w = some wv ∧ group? s g = none ∧ (∀ h < g, group? s h ≠ none)
    ∧ u = { s with
        groups := u.groups
        groupPool := ⟨s.groupPool.free, s.groupPool.reserved - 1, s.groupPool.live + 1⟩
        waves := u.waves
        floor := { s.floor with tables := u.floor.tables } }
    ∧ (∀ h, group? u h =
        if h = g then
          some { wave := w, table := v.table, course := wv.course, orderIndex := i, goTime := wv.goTime + i * wv.stagger,
                 covers := (tableRecord s v.table).covers, tickets := [], state := .pending, short := false,
                 escalated := false, escalationCause := none, dieAt := none, pickupAt := none, unpickedReported := false }
        else group? s h)
    ∧ (∀ y, wave? u y =
        if y = w then
          some { wv with
            reservedGroups := wv.reservedGroups - 1, release := { wv.release with groups := wv.release.groups + 1 } }
        else wave? s y)
    ∧ (∀ k, tableRecord u k =
        if k = v.table then { tableRecord s k with liveCourses := (tableRecord u k).liveCourses } else tableRecord s k)
    ∧ (∀ c, c ∈ (tableRecord u v.table).liveCourses ↔ c = wv.course ∨ c ∈ (tableRecord s v.table).liveCourses)
    ∧ CreatesTickets w g v.table (wv.goTime + i * wv.stagger) v.tickets u x
    ∧ if s.engine.plan.length ≤ i + 1 then EndsRelease w x t
      else t = { x with engine := { s.engine with next := i + 1 } }

/-! ## Nothing due (R63) -/

/-- An idle host transmitter has nothing waiting for it (R175). -/
abbrev HostSettled (s : State) : Prop :=
  s.link.tx = .idle → s.link.replies = [] ∧ s.link.notices = []

/-- Group `g` is COMPLETE with a pickup time that the clock has reached (R161). -/
def pickupDue (s : State) (g : Nat) : Bool :=
  match group? s g with
  | some gr =>
    match gr.state, gr.pickupAt with
    | .complete, some p => decide (p ≤ s.clock)
    | _, _ => false
  | none => false

/-- No expiry is due at the present reading (R63). -/
abbrev NothingDue (s : State) : Prop :=
  (∀ w ∈ List.range Config.waves, lapseDue s w = false) ∧ expiring s = []
    ∧ (∀ x ∈ List.range Config.stations, sampleDue s x = false)
    ∧ (∀ g ∈ s.groups.keys, dieDue s g = false) ∧ (∀ g ∈ s.groups.keys, pickupDue s g = false)

/-! ## The expiries of a tick (R63, R131) -/

/-- The expiry commands in the order in which a tick takes those still due: lapses in ascending wave number, the fire expiry, samples in ascending
station number, die expiries and then pickup expiries in ascending group number.  The order is the model's choice (log 4). -/
def expiryCommands : List Instr :=
  (List.range 64).map .stagingLapse ++ .fireExpiry
    :: ((List.range 24).map .loadSample ++ (List.range 1024).map .dieExpiry ++ (List.range 1024).map .pickupExpiry)

/-- These commands are carried out, one after another, each to its next state. -/
def CarriesOut : List Instr → State → State → Prop
  | [], s, t => t = s
  | c :: cs, s, t => ∃ u, exec c s = .next u ∧ CarriesOut cs u t

/-! ## Invariants -/

/-- The counts of both pools sum to their sizes (R83, R146). -/
abbrev PoolsWhole (s : State) : Prop :=
  s.ticketPool.free + s.ticketPool.reserved + s.ticketPool.live = Config.tickets
    ∧ s.groupPool.free + s.groupPool.reserved + s.groupPool.live = Config.groups

/-- A receiver that is collecting has an admitted length and is short of its last byte (R169). -/
def receiverSound : Receiver → Bool
  | .hunting => true
  | .awaitingLength => true
  | .collecting length taken => decide (2 ≤ length.toNat ∧ length.toNat ≤ 250 ∧ taken.length ≤ length.toNat)

/-- One line link: at most 32 records wait; nothing waits for an idle transmitter; a pending refresh waits only while a frame or
run is being sent, and keeps the queue empty; nothing waits at an ABSENT line (R121, R122, R124). -/
abbrev LineSound (ln : Line) : Prop :=
  ln.queue.length ≤ Config.lineQueue ∧ (ln.tx = .idle → ln.queue = [] ∧ ln.refreshPending = false)
    ∧ (ln.refreshPending = true → ln.queue = []) ∧ (ln.presence = .absent → ln.queue = [] ∧ ln.refreshPending = false)
    ∧ receiverSound ln.receiver = true

/-- Every line link is sound. -/
abbrev LinesSound (s : State) : Prop :=
  (∀ st ∈ s.stations, LineSound st.line) ∧ LineSound s.passLine

/-- The host link's buffer and queues keep their capacities, an idle transmitter has nothing waiting, and the sequence counter
keeps its range (R80, R169, R171, R175). -/
abbrev LinkSound (s : State) : Prop :=
  s.link.input.length ≤ Config.inputBuffer ∧ s.link.replies.length ≤ Config.replyQueue
    ∧ s.link.notices.length ≤ Config.noticeQueue ∧ HostSettled s ∧ receiverSound s.link.receiver = true
    ∧ s.link.seq ≤ Config.seqMax

/-- The clock, the load accumulators and the tracked counts keep their ranges (R1, R62, R130), and the part has 24 stations. -/
abbrev CountersInRange (s : State) : Prop :=
  s.clock ≤ Config.clockMax ∧ s.stations.length = Config.stations
    ∧ (∀ st ∈ s.stations, st.load.accumulator ≤ Config.accumulatorMax)
    ∧ (∀ e ∈ s.components, ∀ n ∈ e.2.stock, n ≤ Config.stockMax)

/-- A station that has not been defined takes no sample: it is NORMAL with accumulator 0 and no sample to come (R131, R142 to R144). -/
abbrev UndefinedAtRest (s : State) : Prop :=
  ∀ st ∈ s.stations, st.config = none → st.load = { accumulator := 0, state := .normal, nextSample := none }

/-- Every store is in its canonical form, with rising numbers, and no table record of reset values is listed. -/
abbrev StoresCanonical (s : State) : Prop :=
  s.components.rising = true ∧ s.courses.rising = true ∧ s.floor.tables.rising = true ∧ s.waves.rising = true
    ∧ s.tickets.rising = true ∧ s.groups.rising = true ∧ ∀ e ∈ s.floor.tables, e.2 ≠ {}

/-- Every table record holds its live course set in ascending order, as QUERY_TABLE gives it (R22). -/
abbrev LiveCoursesAscend (s : State) : Prop :=
  ∀ e ∈ s.floor.tables, e.2.liveCourses.Pairwise (· < ·)

/-- What the wave table, the release engine and the frozen set say of each other (R34, R44, R48, R91): the frozen waves are the
HELD ones, hold_since is present only while HELD, reservations are held only while RELEASING, and the one RELEASING wave
is the one that a RUNNING engine serves. -/
abbrev WavesConsistent (s : State) : Prop :=
  s.waves.rising = true
    ∧ (∀ e ∈ s.waves, e.1 < Config.waves ∧ e.2.state ≠ .free
        ∧ (e.2.holdSince.isSome = true ↔ e.2.state = .held)
        ∧ (0 < e.2.reservedTickets ∨ 0 < e.2.reservedGroups → e.2.state = .releasing)
        ∧ (e.2.state = .held ↔ e.1 ∈ s.frozen)
        ∧ (e.2.state = .releasing ↔ s.engine.status = .running ∧ s.engine.wave = some e.1))
    ∧ (∀ w ∈ s.frozen, waveState s w = .held)
    ∧ (s.engine.status = .running → ∀ w ∈ s.engine.wave, waveState s w = .releasing)

/-- Every position of station `x` that holds a ticket holds an ON_LINE ticket of that station whose record names that position
(R108). -/
def positionsTold (s : State) (x : Nat) : Bool :=
  (station s x).positions.zipIdx.all fun e =>
    match e.1 with
    | some t =>
      decide ((ticket? s t).map (fun tk => (tk.state, tk.station, tk.position)) = some (.onLine, x, some e.2))
    | none => true

/-- Every place that holds a ticket agrees with that ticket's record (R81): the calendar, the blocked lists, the queues, the cook
positions and the plate groups' lists; every live ticket stands in its group's list (R145); and a COMPLETE group holds only READY
and WITHDRAWN tickets, with no die time (R149). -/
abbrev Coherent (s : State) : Prop :=
  s.stations.length = Config.stations ∧ s.tickets.rising = true ∧ s.groups.rising = true
    ∧ (s.calendar.Nodup ∧ ∀ t ∈ s.calendar, InState s .calendared t)
    ∧ (∀ x ∈ List.range Config.stations,
        (∀ t ∈ (station s x).blocked,
          (ticket? s t).map (fun tk => (tk.state, tk.homeStation)) = some (.blocked, x))
        ∧ (∀ t ∈ wholeQueue (station s x),
          (ticket? s t).map (fun tk => (tk.state, tk.station)) = some (.queued, x))
        ∧ positionsTold s x = true)
    ∧ (∀ e ∈ s.tickets, ((group? s e.2.group).any fun gr => gr.tickets.contains e.1) = true)
    ∧ (∀ e ∈ s.groups, e.2.tickets.Nodup
        ∧ (∀ t ∈ e.2.tickets, (ticket? s t).map Ticket.group = some e.1)
        ∧ (e.2.state = .complete →
            e.2.dieAt = none ∧ ∀ t ∈ e.2.tickets, InState s .ready t ∨ InState s .withdrawn t))

/-- Live ticket `e` stands in the place its state names: the calendar, its home station's blocked list, its class of its station's queue, or
the cook position its record names (R81, R96, R107, R108). -/
def standsInPlace (s : State) (e : Nat × Ticket) : Bool :=
  match e.2.state with
  | .calendared => s.calendar.contains e.1
  | .blocked => (station s e.2.homeStation).blocked.contains e.1
  | .queued =>
    if e.2.rush then (station s e.2.station).rushQueue.contains e.1
    else (station s e.2.station).ordinaryQueue.contains e.1
  | .onLine => e.2.position.any fun i => decide ((station s e.2.station).positions[i]? = some (some e.1))
  | .ready => true
  | .dead => true
  | .withdrawn => true

/-- Every live ticket stands in the place its state names, once; and home stations are stations of the part (R1, R80, R81). -/
abbrev Placed (s : State) : Prop :=
  (∀ e ∈ s.tickets, standsInPlace s e = true ∧ e.2.homeStation < Config.stations)
    ∧ (∀ x ∈ List.range Config.stations, (station s x).blocked.Nodup ∧ (wholeQueue (station s x)).Nodup)
    ∧ ∀ e ∈ s.components, e.2.station < Config.stations

/-- The calendar stands in ascending (fire time, seq), and each blocked list rush class first, each class in that order (R88, R96). -/
abbrev Ordered (s : State) : Prop :=
  s.calendar.Pairwise (FiresAhead s) ∧ ∀ x ∈ List.range Config.stations, (station s x).blocked.Pairwise (BlockedAhead s)

/-- What a RUNNING engine still holds of its wave's reservations is what its remaining visits take, and the course is live at none of the
tables it still has to visit (R23, R45). -/
abbrev VisitsProvided (s : State) : Prop :=
  s.engine.status = .running → ∀ w ∈ s.engine.wave, ∀ wv ∈ wave? s w,
    let left := s.engine.plan.drop s.engine.next
    wv.reservedGroups = left.length ∧ wv.reservedTickets = (left.map fun v => v.tickets.length).sum
      ∧ (left.map ServedTable.table).Nodup ∧ ∀ v ∈ left, wv.course ∉ (tableRecord s v.table).liveCourses

/-- What the counts and sets say of the records: the pools count the live tickets and groups and the waves' reservations (R83, R146); a live
group's wave is not FREE, and a wave's released groups are those ended and those live (R34, R35); the live course sets name exactly
the live groups' courses, one group for each course at a table (R23); and in SETUP every wave is FREE (R181). -/
abbrev Accounted (s : State) : Prop :=
  PoolsWhole s ∧ s.ticketPool.live = s.tickets.length ∧ s.groupPool.live = s.groups.length
    ∧ s.ticketPool.reserved = (s.waves.map fun e => e.2.reservedTickets).sum
    ∧ s.groupPool.reserved = (s.waves.map fun e => e.2.reservedGroups).sum
    ∧ VisitsProvided s
    ∧ (∀ e ∈ s.groups, (wave? s e.2.wave).isSome = true)
    ∧ (∀ e ∈ s.waves, (e.2.state = .staged → e.2.release.groups = 0)
        ∧ e.2.release.groups = e.2.ending.served + e.2.ending.short + e.2.ending.cancelled
          + (s.groups.filter fun d => decide (d.2.wave = e.1)).length)
    ∧ (∀ e ∈ s.floor.tables, ∀ c ∈ e.2.liveCourses, ∃ d ∈ s.groups, d.2.table = e.1 ∧ d.2.course = c)
    ∧ (∀ d ∈ s.groups, d.2.course ∈ (tableRecord s d.2.table).liveCourses)
    ∧ (s.groups.map fun d => (d.2.table, d.2.course)).Nodup
    ∧ (s.link.mode = .setup → s.waves = [])

/-- The invariant of a whole service: places and records agree both ways, calendar and blocked lists stand in their order, the wave table is
consistent, and the counts are those of the records. -/
abbrev Sound (s : State) : Prop :=
  Coherent s ∧ Placed s ∧ Ordered s ∧ WavesConsistent s ∧ Accounted s

/-- The bounds of the live records: ticket numbers lie below 4096 and group numbers below 1024 (R80, R145); no generation is above 3 (R80, R152); a
COMPLETE group has a READY ticket (R149); and each station has exactly its k cook positions, a queue within its limit, and a ticket in the
queue only while all positions are taken (R107, R108). -/
abbrev WithinBounds (s : State) : Prop :=
  (∀ e ∈ s.tickets, e.1 < 4096 ∧ e.2.generation ≤ 3)
    ∧ (∀ e ∈ s.groups, e.1 < 1024 ∧ (e.2.state = .complete → ∃ n ∈ e.2.tickets, InState s .ready n))
    ∧ ∀ st ∈ s.stations, st.positions.length = (st.config.map StationConfig.positions).getD 0
      ∧ (st.rushQueue ++ st.ordinaryQueue).length ≤ (st.config.map StationConfig.queueLimit).getD 0
      ∧ (st.rushQueue ++ st.ordinaryQueue ≠ [] → none ∉ st.positions)

/-- The law of the calendar between events: a CALENDARED ticket that is not frozen has its fire time at or after the clock, at the clock only while
the fire expiry of the present reading has still to be taken (R88, R90, R91). -/
abbrev CalendarAhead (s : State) : Prop :=
  ∀ n ∈ s.calendar, Frozen s n ∨ ∃ tk ∈ ticket? s n, (s.clock : Int) ≤ tk.fireTime

/-- Every time the part waits for is the one the rules give: the calendar keeps its law (R88); a group's die_at is the earliest die time of its READY
tickets while it is ASSEMBLING, and absent otherwise (R149, R150); and a ticket has its group's wave, table and go time (R45, R52, R80, R145). -/
abbrev TimesTrue (s : State) : Prop :=
  CalendarAhead s
    ∧ (∀ e ∈ s.groups,
        (e.2.state = .assembling → EarliestDie s e.2.tickets e.2.dieAt) ∧ (e.2.state ≠ .assembling → e.2.dieAt = none))
    ∧ ∀ e ∈ s.tickets, ∀ gr ∈ group? s e.2.group, e.2.wave = gr.wave ∧ e.2.table = gr.table ∧ e.2.goTime = gr.goTime

end Sys2Proof.Machine
end

