-- ==== Sys2Proof/Certificates/Slice0/Obligations.lean ====
section
/-!
DEFINITION. The statements for the provers.  They come from the numbered rules of spec/, chapter by chapter; each docstring names the
rules, and OBLIGATIONS.json says which a statement formalises whole.  Where a statement says `exec c s = .next t` for a `t`
written as `s` with some fields given, every other field of the state is unchanged.
-/

open Sys2Proof Sys2Proof.Machine

/-! ## The step, reset and the clock -/

/-- A step carries out the command at the front of the queue with the rest of it waiting, and idles on an empty queue (log 1). -/
def Obligations.StepRunsTheFrontCommand : Prop :=
  (∀ (c : Instr) (rest : List Instr) (s : State), s.pending = c :: rest → step s = exec c { s with pending := rest })
    ∧ ∀ s : State, s.pending = [] → step s = .next s

/-- Every command that names units of the part answers a next state, whatever the state is; one that names a unit the part lacks
stops (log 19). -/
def Obligations.CommandsOfThePartComplete : Prop :=
  ∀ (c : Instr) (s : State),
    (c.wellFormed = true → ∃ t, exec c s = .next t) ∧ (c.wellFormed = false → exec c s = .fault .noSuchUnit)

/-- RESET and the end of an accepted RESTART's reply leave the host link block as R185's table has it. -/
def Obligations.ResetLeavesTheHostLinkTable : Prop :=
  ∀ (s t : State),
    ((∃ levels pass, exec (.reset levels pass) s = .next t)
      ∨ (∃ tag q figures, s.link.tx = .reply ⟨tag, 0x02#8, .accepted q figures⟩ ∧ s.link.decoder = .stopped
          ∧ exec .hostFrameEnd s = .next t)) →
    t.link.mode = .setup ∧ t.link.receiver = .hunting ∧ t.link.input = [] ∧ t.link.decoder = .taking ∧ t.link.replies = []
      ∧ t.link.notices = [] ∧ t.link.lost = false ∧ t.link.tx = .idle ∧ t.link.seq = 0 ∧ t.link.pickupLimit = 90

/-- RESET puts every block in its reset state, with presence as the presence inputs give it (R16, R33, R61, R62, R103, R128, R144, R166,
R168, R185); the commands waiting and the strap pins are not the part's to reset (log 9, log 10). -/
def Obligations.ResetPutsEveryBlockInItsResetState : Prop :=
  ∀ (levels : List Bool) (pass : Bool) (s : State), levels.length = 24 →
    exec (.reset levels pass) s = .next
      { pending := s.pending
        straps := s.straps
        clock := 0
        link := {}
        components := []
        courses := []
        floor := { rows := 0, columns := 0, tables := [] }
        waves := []
        engine := { status := .idle, wave := none, plan := [], next := 0 }
        tickets := []
        ticketPool := ⟨4096, 0, 0⟩
        calendar := []
        frozen := []
        stations := levels.map fun level => { line := { presence := if level then .present else .absent } }
        groups := []
        groupPool := ⟨1024, 0, 0⟩
        passLine := { presence := if pass then .present else .absent } }

/-- A second passes: a running clock advances by 1, a saturated one holds, and, when no expiry is due, nothing else changes (R62, R63).  An expiry
that is due is taken first, at the reading that ends: the tick is the expiry commands, each of which takes what is due, and then the
advance.  That the tick takes them, and in this order, is the model's choice (log 4). -/
def Obligations.ClockTickAdvancesTheClock : Prop :=
  (∀ s : State, NothingDue s → HostSettled s →
    (s.clock < 16777215 → exec .clockTick s = .next { s with clock := s.clock + 1 })
      ∧ (s.clock = 16777215 → exec .clockTick s = .next s))
  ∧ ∀ s : State, s.groups.rising = true → (∀ e ∈ s.groups, e.1 < 1024) →
      ∃ u, CarriesOut expiryCommands s u
        ∧ exec .clockTick s = .next { u with clock := if u.clock < 16777215 then u.clock + 1 else u.clock }

/-! ## The host link -/

/-- Every frame that can be built arrives as it was sent: its bytes take a hunting receiver back to hunting, and the frame joins the input
buffer, or overruns a full one (R169, R171, R186). -/
def Obligations.FramesArriveAsTheyWereSent : Prop :=
  ∀ (f : Frame) (s : State), f.body.length ≤ 248 → s.link.receiver = .hunting →
    (s.link.input.length < 4 →
      exec (.hostFrameArrival f.bytes) s = .next (settle { s with link := { s.link with input := s.link.input ++ [f] } }))
    ∧ (4 ≤ s.link.input.length →
      exec (.hostFrameArrival f.bytes) s = .next (settle (pushNotice (.linkError (.overrun f.kind f.tag)) s)))

/-- A frame with a bad length byte or a bad check byte is discarded with LINK_ERROR (BAD_FRAME) and its details, and bytes dropped while
hunting change nothing (R169, R170). -/
def Obligations.BadFramesRaiseLinkError : Prop :=
  ∀ s : State, s.link.receiver = .hunting →
    (∀ length : Byte, length.toNat < 2 ∨ 250 < length.toNat →
      exec (.hostFrameArrival [0xC3#8, length]) s = .next (settle (pushNotice (.linkError (.badLength length)) s)))
    ∧ (∀ (f : Frame) (check : Byte), f.body.length ≤ 248 → byteSum f.covered + check ≠ 0#8 →
      exec (.hostFrameArrival (0xC3#8 :: (f.covered ++ [check]))) s = .next (settle (pushNotice
        (.linkError (.badCheck (BitVec.ofNat 8 (f.body.length + 2)) (byteSum f.covered + check))) s)))
    ∧ (∀ bytes : List Byte, 0xC3#8 ∉ bytes → HostSettled s → exec (.hostFrameArrival bytes) s = .next s)

/-- At the end of a frame, of whatever kind, that is not the reply to an accepted RESTART ending while the decoder is stopped, the host transmitter
takes the oldest reply, otherwise the oldest notice, and otherwise becomes idle (R175); so too while the replies queued before a RESTART's
go out (R184). -/
def Obligations.HostTransmitterChoosesReplyFirst : Prop :=
  ∀ s : State,
    s.link.tx ≠ .idle →
    (∀ tag q figures, s.link.tx ≠ .reply ⟨tag, 0x02#8, .accepted q figures⟩) ∨ s.link.decoder = .taking →
    (∀ r rest, s.link.replies = r :: rest →
      exec .hostFrameEnd s = .next { s with link := { s.link with replies := rest, tx := .reply r } })
    ∧ (∀ n rest, s.link.replies = [] → s.link.notices = n :: rest →
      exec .hostFrameEnd s = .next { s with link := { s.link with notices := rest, tx := .notice n } })
    ∧ (s.link.replies = [] → s.link.notices = [] →
      exec .hostFrameEnd s = .next { s with link := { s.link with tx := .idle } })

/-- A notice produced while the transmitter is busy, of whatever kind, joins the queue with the lost field as the lost flag stands and clears the
flag, or finds 64 notices, is lost and sets the flag; at an idle transmitter with nothing waiting it is begun.  Said of any notice, and of
the commands that raise one: LINK_ERROR of each kind, WAVE_LAPSED, GROUP_UNPICKED and STATION_STATE (R39, R124, R161, R170, R171, R175, R176). -/
def Obligations.LostNoticesSetTheLostFlag : Prop :=
  ∀ s : State,
    let taken : Notice → HostLink := fun n =>
      if s.link.notices.length < 64 then { s.link with notices := s.link.notices ++ [⟨s.link.lost, n⟩], lost := false }
      else { s.link with lost := true }
    (∀ n, s.link.tx ≠ .idle → settle (pushNotice n s) = { s with link := taken n })
    ∧ (∀ n, s.link.tx = .idle → s.link.replies = [] → s.link.notices = [] →
        settle (pushNotice n s) = { s with link := { s.link with tx := .notice ⟨s.link.lost, n⟩, lost := false } })
    ∧ (s.link.tx ≠ .idle →
        (s.link.receiver = .hunting →
          (∀ length : Byte, length.toNat < 2 ∨ 250 < length.toNat →
            exec (.hostFrameArrival [0xC3#8, length]) s = .next { s with link := taken (.linkError (.badLength length)) })
          ∧ (∀ (f : Frame) (check : Byte), f.body.length ≤ 248 → byteSum f.covered + check ≠ 0#8 →
            exec (.hostFrameArrival (0xC3#8 :: (f.covered ++ [check]))) s = .next
              { s with link :=
                  taken (.linkError (.badCheck (BitVec.ofNat 8 (f.body.length + 2)) (byteSum f.covered + check))) })
          ∧ (∀ f : Frame, f.body.length ≤ 248 → 4 ≤ s.link.input.length →
            exec (.hostFrameArrival f.bytes) s = .next { s with link := taken (.linkError (.overrun f.kind f.tag)) }))
        ∧ (∀ w wv, w ≤ 63 → wave? s w = some wv → wv.state = .staged → wv.stagedAt + 600 ≤ s.clock →
            ∃ t, exec (.stagingLapse w) s = .next t ∧ t.link = taken (.waveLapsed w wv.course wv.stagedAt))
        ∧ (∀ g gr p, g ≤ 1023 → group? s g = some gr → gr.state = .complete → gr.pickupAt = some p → p ≤ s.clock →
            ∃ t, exec (.pickupExpiry g) s = .next t ∧ t.link = taken (.groupUnpicked g gr.wave gr.table gr.short p))
        ∧ ∀ x, s.stations.length = 24 → x ≤ 23 → (station s x).line.presence = .present → (station s x).config ≠ none →
            ∃ t, exec (.presenceFall x) s = .next t
              ∧ t.link = taken (.stationState x .presence .absent (station s x).load.state (station s x).load.state
                  (station s x).load.accumulator 0 0))

/-- A frame whose kind is no host request code is refused UNKNOWN_KIND whatever its body, and its reply is the four-byte header (R174, R187,
R189). -/
def Obligations.UnknownKindsAreRefused : Prop :=
  ∀ (f : Frame) (rest : List Frame) (s : State), Takes f rest s → f.kind.toNat = 0 ∨ 27 < f.kind.toNat →
    exec .unknownKind s = .next (refusedWith f rest .unknownKind s)
      ∧ Reply.body ⟨f.tag, f.kind, .refused .unknownKind⟩ = [f.kind, 1#8, 1#8, 0#8]

/-- A request command whose frame is not the one the decoder can take changes nothing: the decoder has stopped, the reply queue is full, the
input buffer is empty, or the first frame is of another kind (R172, R184; log 2). -/
def Obligations.RequestsWaitForTheDecoder : Prop :=
  ∀ (c : Instr) (k : Byte) (s : State), requestCode c = some k →
    s.link.decoder = .stopped ∨ 4 ≤ s.link.replies.length ∨ s.link.input.head?.map Frame.kind ≠ some k →
    exec c s = .next s

/-- Every request that the decoder takes queues exactly one reply, with the request's tag and kind; a refusal, for any reason but NO_STOCK,
changes nothing else; and the reason is MALFORMED exactly where the body is not laid out as the request's kind is (R172 to R174, R188). -/
def Obligations.EveryTakenRequestGetsOneReply : Prop :=
  ∀ (c : Instr) (k : Byte) (f : Frame) (rest : List Frame) (s : State), requestCode c = some k → f.kind = k → Takes f rest s →
    (¬LaidOut c f.body → exec c s = .next (refusedWith f rest .malformed s))
    ∧ (s.link.tx ≠ .idle →
      ∃ (a : Answer) (t : State), exec c s = .next t ∧ t.link.replies = s.link.replies ++ [⟨f.tag, k, a⟩] ∧ t.link.input = rest
        ∧ t.link.tx = s.link.tx ∧ (a = .refused .malformed ↔ ¬LaidOut c f.body)
        ∧ ∀ reason, a = .refused reason → reason ≠ .noStock → t = refusedWith f rest reason s)

/-- A reply queued at an idle transmitter with nothing waiting is begun at the end of its event; at a busy one it waits, oldest first (R175;
log 5). -/
def Obligations.RepliesLeaveInOrder : Prop :=
  ∀ (f : Frame) (rest : List Frame) (a : Answer) (s : State),
    (s.link.tx = .idle → s.link.replies = [] →
      answered f rest a s
        = { s with link := { s.link with input := rest, replies := [], tx := .reply ⟨f.tag, f.kind, a⟩ } })
    ∧ (s.link.tx ≠ .idle →
      answered f rest a s
        = { s with link := { s.link with input := rest, replies := s.link.replies ++ [⟨f.tag, f.kind, a⟩] } })

/-- IDENTIFY, in either mode: an empty body is accepted with the part's identity, any other is refused MALFORMED (R183).  The widths of the
figures' bytes are the model's reading, those of their ranges (R188, log 12). -/
def Obligations.IdentifyGivesTheIdentity : Prop :=
  (∀ (f : Frame) (rest : List Frame) (s : State), Takes f rest s → f.kind = 0x01#8 →
    exec .identify s = .next
      (if f.body = [] then acceptedWith f rest (.identity s.link.mode) s else refusedWith f rest .malformed s))
  ∧ ∀ mode : Mode, Figures.bytes (.identity mode)
      = le1 0x45 ++ le2 2440 ++ le1 3 ++ le1 24 ++ le2 512 ++ le1 128 ++ le2 400 ++ le1 64 ++ le2 4096 ++ le2 1024
        ++ le1 mode.code

/-- RESTART: an accepted one stops the decoder, a body that is not empty is refused MALFORMED; and at the end of the accepted reply's frame
every block is in its reset state (R16, R33, R61, R62, R103, R128, R144, R166, R168, R184, R185).  That each line's presence stands as it
was is the model's choice of log 9, and that the straps and the waiting commands do, the choice of log 10 and of the model's queue. -/
def Obligations.RestartStopsTheDecoderAndResets : Prop :=
  (∀ (f : Frame) (rest : List Frame) (s : State), Takes f rest s → f.kind = 0x02#8 →
    exec .restart s = .next
      (if f.body = [] then acceptedWith f rest .noFigures { s with link := { s.link with decoder := .stopped } }
        else refusedWith f rest .malformed s))
  ∧ ∀ (tag : Byte) (q : Qualifiers) (figures : Figures) (s : State),
      s.link.tx = .reply ⟨tag, 0x02#8, .accepted q figures⟩ → s.link.decoder = .stopped → s.stations.length = 24 →
      exec .hostFrameEnd s = .next
        { State.reset with
          pending := s.pending
          straps := s.straps
          stations := s.stations.map fun st => { line := { presence := st.line.presence } }
          passLine := { presence := s.passLine.presence } }

/-- SET_CLOCK's four bytes, least significant first: above 16,777,215 it is refused RANGE, in SERVICE MODE, and otherwise the clock takes the
value, which the reply gives; a body of another length is refused MALFORMED (R64, R186). -/
def Obligations.SetClockSetsTheClock : Prop :=
  ∀ (f : Frame) (rest : List Frame) (s : State), Takes f rest s → f.kind = 0x03#8 →
    (f.body.length ≠ 4 → exec .setClock s = .next (refusedWith f rest .malformed s))
    ∧ ∀ v : Nat, v < 4294967296 → f.body = le4 v →
      exec .setClock s = .next
        (if 16777215 < v then refusedWith f rest .range s
          else if s.link.mode = .service then refusedWith f rest .mode s
          else acceptedWith f rest (.clockSet v) { s with clock := v })

/-- QUERY_CLOCK, in either mode: an empty body is accepted with the reading and the saturated flag, any other is refused MALFORMED (R65). -/
def Obligations.QueryClockGivesTheReading : Prop :=
  ∀ (f : Frame) (rest : List Frame) (s : State), Takes f rest s → f.kind = 0x04#8 →
    exec .queryClock s = .next
      (if f.body = [] then acceptedWith f rest (.clockReading s.clock (decide (s.clock = 16777215))) s
        else refusedWith f rest .malformed s)

/-- BEGIN_SERVICE: a pickup limit outside 10..600 is refused RANGE, in SERVICE it is refused MODE, and without a floor, a station or a
defined alternate STATE; otherwise the pickup limit is the request's or 90, the sequence counter is 0, every station is NORMAL with
accumulator 0, the defined stations' first samples fall 5 s later, and the mode is SERVICE (R142, R178, R179). -/
def Obligations.BeginServiceStartsTheService : Prop :=
  ∀ (given : Option Nat) (f : Frame) (rest : List Frame) (s : State), Takes f rest s → f.kind = 0x05#8 →
    f.body = beginBody given → fitsBelow 65536 given →
    exec .beginService s = .next
      (if given.getD 90 < 10 ∨ 600 < given.getD 90 then refusedWith f rest .range s
        else if s.link.mode = .service then refusedWith f rest .mode s
        else if s.floor.rows = 0 ∨ (∀ st ∈ s.stations, st.config = none)
            ∨ (∃ st ∈ s.stations, ∃ a ∈ st.config.bind StationConfig.alternate, (station s a).config = none) then
          refusedWith f rest .state s
        else
          acceptedWith f rest (.serviceBegun (given.getD 90) s.clock (s.stations.filter fun st => st.config.isSome).length)
            { s with
              link := { s.link with pickupLimit := given.getD 90, seq := 0, mode := .service }
              stations := s.stations.map fun st =>
                { st with load :=
                    { accumulator := 0
                      state := .normal
                      nextSample := if st.config = none then none else some (s.clock + 5) } } })

/-- END_SERVICE: with force clear it is refused STATE while a wave is not FREE; an accepted one leaves every wave FREE, the engine IDLE and naming
no wave, every station NORMAL with accumulator 0 and no sample to come, the mode SETUP, and the menu, the floor's size, the tables' covers, marks
and substitutions, the stations' configurations and presence, the clock and the pickup limit as they were; and no ticket or group is live, both
pools are wholly free, and the calendar, the frozen set, the stations' places and the live course sets are empty.  The whole of it: each wave that
is not FREE is cancelled in ascending number, with its stock returns, its notices and its line records; the engine is IDLE; the load monitor's work
ends at each station in ascending number, with the records of a change to NORMAL; and the reply, behind the cancellations in the same event, counts
the waves, groups and tickets (R16, R33, R61, R103, R129, R143, R168, R180, R181).  That it counts every ticket of a cancelled group, those already
WITHDRAWN with them, is the model's reading (log 14); and so is that each wave ends CANCELLED once, without a completion of R59 at its last group
(log 16). -/
def Obligations.EndServiceTearsTheServiceDown : Prop :=
  ∀ (force : Nat) (f : Frame) (rest : List Frame) (s : State), Takes f rest s → f.kind = 0x06#8 → f.body = le1 force →
    force < 256 →
    (1 < force → exec .endService s = .next (refusedWith f rest .range s))
    ∧ (force ≤ 1 → s.link.mode = .setup → exec .endService s = .next (refusedWith f rest .mode s))
    ∧ (force = 0 → s.link.mode = .service → (∃ w < 64, waveState s w ≠ .free) →
        exec .endService s = .next (refusedWith f rest .state s))
    ∧ (s.link.mode = .service → force = 1 ∨ force = 0 ∧ (∀ w < 64, waveState s w = .free) →
        ∃ t, exec .endService s = .next t ∧ t.link.mode = .setup ∧ (∀ w < 64, waveState t w = .free)
          ∧ t.engine = { status := .idle, wave := none, plan := [], next := 0 }
          ∧ (∀ x < 24, (station t x).load = { accumulator := 0, state := .normal, nextSample := none }
              ∧ (station t x).config = (station s x).config
              ∧ (station t x).line.presence = (station s x).line.presence)
          ∧ (∀ c, (t.components.get? c).map (fun r => { r with stock := none })
              = (s.components.get? c).map fun r => { r with stock := none })
          ∧ t.courses = s.courses ∧ t.floor.rows = s.floor.rows ∧ t.floor.columns = s.floor.columns
          ∧ (∀ u, (tableRecord t u).covers = (tableRecord s u).covers ∧ (tableRecord t u).mark = (tableRecord s u).mark
              ∧ (tableRecord t u).substitutions = (tableRecord s u).substitutions)
          ∧ t.clock = s.clock ∧ t.link.pickupLimit = s.link.pickupLimit
          ∧ (Sound s →
              t.tickets = [] ∧ t.ticketPool = ⟨4096, 0, 0⟩ ∧ t.groups = [] ∧ t.groupPool = ⟨1024, 0, 0⟩ ∧ t.calendar = []
                ∧ t.frozen = [] ∧ t.waves = []
                ∧ (∀ x < 24, (station t x).blocked = [] ∧ (station t x).rushQueue = [] ∧ (station t x).ordinaryQueue = []
                    ∧ ∀ p ∈ (station t x).positions, p = none)
                ∧ ∀ u, (tableRecord t u).liveCourses = [])
          ∧ (Sound s → LinesSound s → CountersInRange s → StoresCanonical s → UndefinedAtRest s →
              let ws := (List.range 64).filter fun w => decide (waveState s w ≠ .free)
              ∃ (u v : State) (groups tickets : Nat), CancelsEach ws (dequeued rest s) u groups tickets
                ∧ EndsLoads (List.range 24) { u with engine := { status := .idle, wave := none, plan := [], next := 0 } } v
                ∧ t = settle (pushReply ⟨f.tag, f.kind, .accepted {} (.serviceEnded ws.length groups tickets)⟩
                    { v with link := { v.link with mode := .setup } })))

/-! ## Definitions -/

/-- DEFINE_STATION: its checks in order, and its effect: the whole configuration is written, the cook positions are empty, and a PRESENT
terminal is refreshed (R105, R106). -/
def Obligations.DefineStationWritesTheRecord : Prop :=
  ∀ (x : Nat) (c : StationConfig) (f : Frame) (rest : List Frame) (s : State), Takes f rest s → f.kind = 0x07#8 →
    f.body = stationBody x c → s.stations.length = 24 → x < 256 → c.positions < 256 → c.queueLimit < 256 → c.carry < 65536 →
    c.derateLevel < 65536 → c.tripLevel < 65536 → c.coolStep < 65536 → c.derateStretch < 256 → fitsBelow 256 c.alternate →
    let written := { s with stations := s.stations.modify x fun st =>
      { st with config := some c, positions := List.replicate c.positions none } }
    exec .defineStation s = .next
      (if 23 < x ∨ c.positions = 0 ∨ 16 < c.positions ∨ c.queueLimit < 2 ∨ 600 < c.carry
          ∨ (∃ a ∈ c.alternate, 23 < a ∨ a = x) ∨ c.derateLevel = 0 ∨ 65534 < c.derateLevel ∨ c.tripLevel ≤ c.derateLevel
          ∨ c.coolStep = 0 ∨ 4095 < c.coolStep ∨ c.derateStretch < 65 ∨ 128 < c.derateStretch then
        refusedWith f rest .range s
      else if s.link.mode = .service then refusedWith f rest .mode s
      else acceptedWith f rest .noFigures
        (if (station s x).line.presence = .present then askRefresh (.station x) written else written))

/-- DEFINE_COMPONENT: its checks in order, and its effect: the record is what the request carries, and no other record changes (R2, R3). -/
def Obligations.DefineComponentWritesTheRecord : Prop :=
  ∀ (c : Nat) (r : Component) (f : Frame) (rest : List Frame) (s : State), Takes f rest s → f.kind = 0x08#8 →
    f.body = componentBody c r → c < 65536 → r.station < 256 → r.cookTime < 65536 → r.holdWindow < 65536 →
    fitsBelow 65536 r.stock → fitsBelow 65536 r.lowLevel →
    (511 < c ∨ 23 < r.station ∨ r.cookTime = 0 ∨ 5400 < r.cookTime ∨ 900 < r.holdWindow ∨ (∃ n ∈ r.stock, 9999 < n)
        ∨ (∃ l ∈ r.lowLevel, l < 1 ∨ 9999 < l) ∨ (r.stock = none ∧ r.lowLevel ≠ none) →
      exec .defineComponent s = .next (refusedWith f rest .range s))
    ∧ (c ≤ 511 → r.station ≤ 23 → 1 ≤ r.cookTime → r.cookTime ≤ 5400 → r.holdWindow ≤ 900 → (∀ n ∈ r.stock, n ≤ 9999) →
        (∀ l ∈ r.lowLevel, 1 ≤ l ∧ l ≤ 9999) → (r.stock = none → r.lowLevel = none) →
        (s.link.mode = .service → exec .defineComponent s = .next (refusedWith f rest .mode s))
        ∧ (s.link.mode = .setup → (station s r.station).config = none →
            exec .defineComponent s = .next (refusedWith f rest .noSuch s))
        ∧ (s.link.mode = .setup → (station s r.station).config ≠ none →
            ∃ components, exec .defineComponent s = .next (acceptedWith f rest .noFigures { s with components := components })
              ∧ components.get? c = some r ∧ ∀ d, d ≠ c → components.get? d = s.components.get? d))

/-- DEFINE_COURSE: its checks in order, and its effect: the plan is the request's list in its order, and no other plan changes (R5). -/
def Obligations.DefineCourseWritesThePlan : Prop :=
  ∀ (p : Nat) (cs : List Nat) (f : Frame) (rest : List Frame) (s : State), Takes f rest s → f.kind = 0x0A#8 →
    f.body = courseBody p cs → p < 256 → cs.length < 256 → (∀ c ∈ cs, c < 65536) →
    (127 < p ∨ cs = [] ∨ 8 < cs.length ∨ (∃ c ∈ cs, 511 < c) ∨ ¬cs.Nodup →
      exec .defineCourse s = .next (refusedWith f rest .range s))
    ∧ (p ≤ 127 → cs ≠ [] → cs.length ≤ 8 → (∀ c ∈ cs, c ≤ 511) → cs.Nodup →
        (s.link.mode = .service → exec .defineCourse s = .next (refusedWith f rest .mode s))
        ∧ (s.link.mode = .setup → (∃ c ∈ cs, s.components.get? c = none) →
            exec .defineCourse s = .next (refusedWith f rest .noSuch s))
        ∧ (s.link.mode = .setup → (∀ c ∈ cs, s.components.get? c ≠ none) →
            ∃ courses, exec .defineCourse s = .next (acceptedWith f rest .noFigures { s with courses := courses })
              ∧ courses.get? p = some cs ∧ ∀ q, q ≠ p → courses.get? q = s.courses.get? q))

/-- DEFINE_FLOOR: its checks in order, and its effect: the size is written and every table record takes its reset values (R18). -/
def Obligations.DefineFloorResetsEveryTable : Prop :=
  ∀ (rows columns : Nat) (f : Frame) (rest : List Frame) (s : State), Takes f rest s → f.kind = 0x0B#8 →
    f.body = le1 rows ++ le1 columns → rows < 256 → columns < 256 →
    (rows = 0 ∨ 40 < rows ∨ columns = 0 ∨ 40 < columns ∨ 400 < rows * columns →
      exec .defineFloor s = .next (refusedWith f rest .range s))
    ∧ (1 ≤ rows → rows ≤ 40 → 1 ≤ columns → columns ≤ 40 → rows * columns ≤ 400 →
        (s.link.mode = .service → exec .defineFloor s = .next (refusedWith f rest .mode s))
        ∧ (s.link.mode = .setup →
            ∃ floor, exec .defineFloor s = .next (acceptedWith f rest .noFigures { s with floor := floor })
              ∧ floor.rows = rows ∧ floor.columns = columns
              ∧ ∀ u, tableRecord { s with floor := floor } u
                  = { covers := 0, mark := 0, substitutions := [], liveCourses := [] }))

/-- SET_TABLE: its checks in order, and its effect: covers, mark and list are the request's, the live course set is as it was, and no other
table changes (R19 to R21). -/
def Obligations.SetTableWritesTheRecord : Prop :=
  ∀ (g : TableForm) (f : Frame) (rest : List Frame) (s : State), Takes f rest s → f.kind = 0x0C#8 → f.body = tableBody g →
    g.table < 65536 → g.covers < 256 → g.mark < 256 → g.entries.length < 256 →
    (∀ e ∈ g.entries, e.source < 65536 ∧ e.target < 65536 ∧ e.count < 256) →
    (399 < g.table ∨ 16 < g.covers ∨ 15 < g.mark ∨ 4 < g.entries.length
        ∨ (∃ e ∈ g.entries, 511 < e.source ∨ 511 < e.target ∨ e.target = e.source ∨ e.count = 0 ∨ 16 < e.count
            ∨ g.covers < ((g.entries.filter fun d => decide (d.source = e.source)).map Substitution.count).sum)
        ∨ ¬(g.entries.map fun e => (e.source, e.target)).Nodup →
      exec .setTable s = .next (refusedWith f rest .range s))
    ∧ (g.table ≤ 399 → g.covers ≤ 16 → g.mark ≤ 15 → g.entries.length ≤ 4 →
        (∀ e ∈ g.entries, e.source ≤ 511 ∧ e.target ≤ 511 ∧ e.target ≠ e.source ∧ 1 ≤ e.count ∧ e.count ≤ 16
          ∧ ((g.entries.filter fun d => decide (d.source = e.source)).map Substitution.count).sum ≤ g.covers) →
        (g.entries.map fun e => (e.source, e.target)).Nodup →
        (s.floor.rows * s.floor.columns ≤ g.table
            ∨ (∃ e ∈ g.entries, s.components.get? e.source = none ∨ s.components.get? e.target = none) →
          exec .setTable s = .next (refusedWith f rest .noSuch s))
        ∧ (g.table < s.floor.rows * s.floor.columns →
            (∀ e ∈ g.entries, s.components.get? e.source ≠ none ∧ s.components.get? e.target ≠ none) →
            ((tableRecord s g.table).liveCourses ≠ [] → exec .setTable s = .next (refusedWith f rest .state s))
            ∧ ((tableRecord s g.table).liveCourses = [] → s.engine.status = .running →
                exec .setTable s = .next (refusedWith f rest .busy s))
            ∧ ((tableRecord s g.table).liveCourses = [] → s.engine.status ≠ .running →
                ∃ tables, exec .setTable s
                    = .next (acceptedWith f rest .noFigures { s with floor := { s.floor with tables := tables } })
                  ∧ tableRecord { s with floor := { s.floor with tables := tables } } g.table
                    = { covers := g.covers, mark := g.mark, substitutions := g.entries, liveCourses := [] }
                  ∧ ∀ u, u ≠ g.table →
                      tableRecord { s with floor := { s.floor with tables := tables } } u = tableRecord s u)))

/-- MARK_TABLES, in either mode: a mark above 15 or an invalid region is refused RANGE, and a running release makes it BUSY; otherwise SET,
REPLACE and CLEAR change the marks of the region's tables and nothing else of any table, and the reply counts the tables whose mark
changes and carries CLIPPED, with the clipped size, exactly when the region was cut (R24, R25, R28).  That a reply gives no size where
nothing was cut is the model's reading (log 12). -/
def Obligations.MarkTablesChangesMarks : Prop :=
  ∀ (r : Region) (op : MarkOp) (f : Frame) (rest : List Frame) (s : State), Takes f rest s → f.kind = 0x0D#8 →
    f.body = regionBytes r ++ markOpBytes op → placementFits r.placement → markOpFits op →
    let marksFit := match op with
      | .setMark m => m ≤ 15
      | .replace a b => a ≤ 15 ∧ b ≤ 15
      | .clear => True
    (¬marksFit ∨ ¬RegionFits s.floor r → exec .markTables s = .next (refusedWith f rest .range s))
    ∧ (marksFit → RegionFits s.floor r →
        (s.engine.status = .running → exec .markTables s = .next (refusedWith f rest .busy s))
        ∧ (s.engine.status ≠ .running →
            ∃ tables, exec .markTables s = .next
                (answered f rest
                  (.accepted { clipped := (cutSize s.floor r).isSome }
                    (.tablesMarked
                      ((walkOrder s.floor r).filter fun u =>
                        decide ((tableRecord { s with floor := { s.floor with tables := tables } } u).mark
                          ≠ (tableRecord s u).mark)).length
                      (cutSize s.floor r)))
                  { s with floor := { s.floor with tables := tables } })
              ∧ ∀ u, tableRecord { s with floor := { s.floor with tables := tables } } u
                  = if u ∈ walkOrder s.floor r then
                      { tableRecord s u with
                        mark := match op with
                          | .setMark m => m
                          | .replace a b => if (tableRecord s u).mark = a then b else (tableRecord s u).mark
                          | .clear => 0 }
                    else tableRecord s u))

/-- RESTOCK: its checks in order; SET writes the count, ADD adds to it and holds at 9999 with CLAMPED; no other record changes (R7). -/
def Obligations.RestockChangesOneCount : Prop :=
  ∀ (c n : Nat) (op : RestockOp) (f : Frame) (rest : List Frame) (s : State), Takes f rest s → f.kind = 0x0E#8 →
    f.body = le2 c ++ restockOpBytes op ++ le2 n → c < 65536 → n < 65536 →
    (511 < c ∨ (op = .set ∧ 9999 < n) → exec .restock s = .next (refusedWith f rest .range s))
    ∧ (c ≤ 511 → (op = .set → n ≤ 9999) →
        (s.components.get? c = none → exec .restock s = .next (refusedWith f rest .noSuch s))
        ∧ ∀ r, s.components.get? c = some r →
            (r.stock = none → exec .restock s = .next (refusedWith f rest .state s))
            ∧ ∀ m, r.stock = some m →
                ∃ components, exec .restock s = .next
                    (answered f rest
                      (match op with
                        | .set => .accepted {} (.restocked c n)
                        | .add => .accepted { clamped := decide (9999 < m + n) } (.restocked c (min 9999 (m + n))))
                      { s with components := components })
                  ∧ components.get? c
                    = some { r with stock := some (match op with | .set => n | .add => min 9999 (m + n)) }
                  ∧ ∀ d, d ≠ c → components.get? d = s.components.get? d)

/-! ## Queries -/

/-- QUERY_STATION, QUERY_COMPONENT and QUERY_TABLE: RANGE, NO_SUCH, and what an accepted query gives; no query changes anything (R8, R22,
R127). -/
def Obligations.QueriesOfDefinitionsAnswer : Prop :=
  (∀ (x : Nat) (f : Frame) (rest : List Frame) (s : State), Takes f rest s → f.kind = 0x0F#8 → f.body = le1 x → x < 256 →
    exec .queryStation s = .next
      (if 23 < x then refusedWith f rest .range s
        else
          match (station s x).config with
          | none => refusedWith f rest .noSuch s
          | some c => acceptedWith f rest
              (.stationReport c (station s x).line.presence (station s x).load.state (station s x).load.accumulator
                (if (station s x).load.state = .normal then 64 else c.derateStretch)
                ((station s x).rushQueue.length + (station s x).ordinaryQueue.length) (station s x).rushQueue.length
                ((station s x).positions.filter Option.isSome).length (station s x).blocked.length
                (station s x).line.queue.length (station s x).line.refreshPending) s))
  ∧ (∀ (c : Nat) (f : Frame) (rest : List Frame) (s : State), Takes f rest s → f.kind = 0x10#8 → f.body = le2 c → c < 65536 →
    exec .queryComponent s = .next
      (if 511 < c then refusedWith f rest .range s
        else
          match s.components.get? c with
          | none => refusedWith f rest .noSuch s
          | some r => acceptedWith f rest (.componentReport r) s))
  ∧ (∀ (u : Nat) (f : Frame) (rest : List Frame) (s : State), Takes f rest s → f.kind = 0x11#8 → f.body = le2 u → u < 65536 →
    exec .queryTable s = .next
      (if 399 < u then refusedWith f rest .range s
        else if s.floor.rows * s.floor.columns ≤ u then refusedWith f rest .noSuch s
        else acceptedWith f rest (.tableReport (u / s.floor.columns) (u % s.floor.columns) (tableRecord s u)) s))

/-- QUERY_WAVE, QUERY_GROUP and QUERY_TICKET: RANGE, and what an accepted query gives, for a number that names nothing live too; of a live group, its
record and, for each slot, the ticket, its component, quantity, generation, rush mark and state; no query changes anything (R60, R102, R167). -/
def Obligations.QueriesOfTheServiceAnswer : Prop :=
  (∀ (w : Nat) (f : Frame) (rest : List Frame) (s : State), Takes f rest s → f.kind = 0x12#8 → f.body = le1 w → w < 256 →
    exec .queryWave s = .next
      (if 63 < w then refusedWith f rest .range s
        else acceptedWith f rest
          (.waveReport s.engine.status s.engine.wave (if s.engine.status = .running then some s.engine.next else none)
            (wave? s w)) s))
  ∧ (∀ (g : Nat) (f : Frame) (rest : List Frame) (s : State), Takes f rest s → f.kind = 0x09#8 → f.body = le2 g → g < 65536 →
    exec .queryGroup s = .next
      (if 1023 < g then refusedWith f rest .range s
        else acceptedWith f rest
          (.groupReport g
            ((group? s g).map fun gr => (gr, gr.tickets.flatMap fun n => (ticket? s n).toList.map fun tk =>
              { ticket := n, component := tk.component, quantity := tk.quantity, generation := tk.generation, rush := tk.rush,
                state := tk.state }))
            s.groupPool) s))
  ∧ (∀ (t : Nat) (f : Frame) (rest : List Frame) (s : State), Takes f rest s → f.kind = 0x13#8 → f.body = le2 t → t < 65536 →
    exec .queryTicket s = .next
      (if 4095 < t then refusedWith f rest .range s
        else acceptedWith f rest (.ticketReport t (ticket? s t) s.ticketPool) s))

/-! ## Waves -/

/-- STAGE_WAVE: its checks in order, and its effect: the wave is STAGED with the request's fields, the clamped stagger, the reading and the plan
counts of the walk, each skip counted by its own test; no other wave changes; the reply reports the plan, with its four qualifiers (R9, R29, R30,
R36 to R38, R68, R188).  That a go time above 16,777,215 is RANGE also where no table is served is the model's reading (log 13), and so is that a
reply gives no size where nothing was cut (log 12). -/
def Obligations.StageWaveRecordsThePlan : Prop :=
  (∀ (f : Frame) (rest : List Frame) (s : State), Takes f rest s → f.kind = 0x14#8 → (∀ h, stageFits h → f.body ≠ stageBody h) →
    exec .stageWave s = .next (refusedWith f rest .malformed s))
  ∧ ∀ (g : StageForm) (f : Frame) (rest : List Frame) (s : State), Takes f rest s → f.kind = 0x14#8 → f.body = stageBody g →
    g.wave < 256 → g.course < 256 → g.goTime < 4294967296 → g.stagger < 256 → fitsBelow 256 g.skipMark →
    placementFits g.region.placement →
    let served := servedTables s g.course g.skipMark g.region
    let latest := g.goTime + (served.length - 1) * min g.stagger 120
    (63 < g.wave ∨ 127 < g.course ∨ 16777215 < g.goTime ∨ (∃ m ∈ g.skipMark, m < 1 ∨ 15 < m)
        ∨ ¬RegionFits s.floor g.region ∨ (served ≠ [] ∧ 16777215 < latest) →
      exec .stageWave s = .next (refusedWith f rest .range s))
    ∧ (g.wave ≤ 63 → g.course ≤ 127 → g.goTime ≤ 16777215 → (∀ m ∈ g.skipMark, 1 ≤ m ∧ m ≤ 15) →
        RegionFits s.floor g.region → (served ≠ [] → latest ≤ 16777215) →
        (s.link.mode = .setup → exec .stageWave s = .next (refusedWith f rest .mode s))
        ∧ (s.link.mode = .service → s.courses.get? g.course = none →
            exec .stageWave s = .next (refusedWith f rest .noSuch s))
        ∧ (s.link.mode = .service → s.courses.get? g.course ≠ none → waveState s g.wave ≠ .free →
            exec .stageWave s = .next (refusedWith f rest .state s))
        ∧ (s.link.mode = .service → s.courses.get? g.course ≠ none → waveState s g.wave = .free → served = [] →
            exec .stageWave s = .next (refusedWith f rest .empty s))
        ∧ (s.link.mode = .service → s.courses.get? g.course ≠ none → waveState s g.wave = .free → served ≠ [] →
            ∃ (q : Qualifiers) (plan : PlanCounts) (earliest : Int) (waves : Store Wave),
              exec .stageWave s = .next
                (answered f rest
                  (.accepted q (.staged plan earliest latest (min g.stagger 120) (cutSize s.floor g.region)))
                  { s with waves := waves })
              ∧ waves.get? g.wave = some
                  { state := .staged, course := g.course, region := g.region, skipMark := g.skipMark, goTime := g.goTime,
                    stagger := min g.stagger 120, stagedAt := s.clock, holdSince := none, plan := plan, release := {},
                    ending := {}, reservedTickets := 0, reservedGroups := 0 }
              ∧ (∀ v, v ≠ g.wave → waves.get? v = wave? s v)
              ∧ plan.visited = (walkOrder s.floor g.region).length ∧ plan.groups = served.length
              ∧ plan.visited = plan.skippedEmpty + plan.skippedMarked + plan.skippedBusy + plan.groups
              ∧ plan.skippedEmpty
                = ((walkOrder s.floor g.region).filter fun u => decide ((tableRecord s u).covers = 0)).length
              ∧ plan.skippedMarked
                = ((walkOrder s.floor g.region).filter fun u =>
                    decide (0 < (tableRecord s u).covers ∧ g.skipMark = some (tableRecord s u).mark)).length
              ∧ plan.skippedBusy
                = ((walkOrder s.floor g.region).filter fun u =>
                    decide (0 < (tableRecord s u).covers ∧ g.skipMark ≠ some (tableRecord s u).mark
                      ∧ g.course ∈ (tableRecord s u).liveCourses)).length
              ∧ plan.tickets
                = (served.map fun u => (ticketList (coursePlan s g.course) (tableRecord s u)).length).sum
              ∧ earliest = earliestFire s g.goTime (min g.stagger 120)
                  (served.map fun u => ⟨u, ticketList (coursePlan s g.course) (tableRecord s u)⟩)
              ∧ (∀ i u e, served[i]? = some u → e ∈ ticketList (coursePlan s g.course) (tableRecord s u) →
                  earliest ≤ fireTimeAt s (componentStation s e.1) e.1 (g.goTime + i * min g.stagger 120))
              ∧ (0 < plan.tickets → ∃ i u e, served[i]? = some u
                  ∧ e ∈ ticketList (coursePlan s g.course) (tableRecord s u)
                  ∧ earliest = fireTimeAt s (componentStation s e.1) e.1 (g.goTime + i * min g.stagger 120))
              ∧ (q.late = true ↔ earliest ≤ (s.clock : Int)) ∧ (q.clamped = true ↔ 120 < g.stagger)
              ∧ (q.clipped = true ↔ cutSize s.floor g.region ≠ none)
              ∧ (q.stockShort = true ↔ ∃ c, Short s c (plannedNeed s g.course served c))))

/-- RELEASE_WAVE: RANGE, MODE and STATE, and of a STAGED wave in SERVICE: EMPTY, BUSY, NO_TICKETS, NO_GROUPS and NO_STOCK in that order, the last
with nothing drawn and a STOCK_OUT (SHORT) for each short component; an accepted one reserves the tickets and groups of the release walk, draws the
whole stock need with the notices of the draw, makes the wave RELEASING and the engine RUNNING at its first visit, and touches no ticket, group,
table or station; the reply is LATE by the earliest planned fire time (R10, R12, R13, R38, R41 to R43). -/
def Obligations.ReleaseWaveSetsTheWaveAside : Prop :=
  ∀ (w : Nat) (f : Frame) (rest : List Frame) (s : State), Takes f rest s → f.kind = 0x15#8 → f.body = le1 w → w < 256 →
    (63 < w → exec .releaseWave s = .next (refusedWith f rest .range s))
    ∧ (w ≤ 63 → waveState s w ≠ .staged →
        (s.link.mode = .setup → exec .releaseWave s = .next (refusedWith f rest .mode s))
        ∧ (s.link.mode = .service → exec .releaseWave s = .next (refusedWith f rest .state s)))
    ∧ ∀ wv : Wave, w ≤ 63 → wave? s w = some wv → wv.state = .staged →
    let served := servedTables s wv.course wv.skipMark wv.region
    let plan := served.map fun u => ServedTable.mk u (ticketList (coursePlan s wv.course) (tableRecord s u))
    let tickets := (plan.map fun v => v.tickets.length).sum
    let need := plannedNeed s wv.course served
    let earliest := earliestFire s wv.goTime wv.stagger plan
    (served ≠ [] → 16777215 < wv.goTime + (served.length - 1) * wv.stagger →
      exec .releaseWave s = .next (refusedWith f rest .range s))
    ∧ (served = [] ∨ wv.goTime + (served.length - 1) * wv.stagger ≤ 16777215 → s.link.mode = .setup →
      exec .releaseWave s = .next (refusedWith f rest .mode s))
    ∧ (s.link.mode = .service → served = [] → exec .releaseWave s = .next (refusedWith f rest .empty s))
    ∧ (s.link.mode = .service → served ≠ [] → wv.goTime + (served.length - 1) * wv.stagger ≤ 16777215 →
        (s.engine.status = .running → exec .releaseWave s = .next (refusedWith f rest .busy s))
        ∧ (s.engine.status ≠ .running → s.ticketPool.free < tickets →
            exec .releaseWave s = .next (refusedWith f rest .noTickets s))
        ∧ (s.engine.status ≠ .running → tickets ≤ s.ticketPool.free → s.groupPool.free < served.length →
            exec .releaseWave s = .next (refusedWith f rest .noGroups s))
        ∧ (s.components.rising = true → s.engine.status ≠ .running → tickets ≤ s.ticketPool.free →
            served.length ≤ s.groupPool.free → (∃ c, Short s c (need c)) →
            exec .releaseWave s = .next (answered f rest (.refused .noStock) (noticedAll (shortNotices s need) s)))
        ∧ (s.components.rising = true → s.engine.status ≠ .running → tickets ≤ s.ticketPool.free →
            served.length ≤ s.groupPool.free → (¬∃ c, Short s c (need c)) →
            ∃ (components : Store Component) (waves : Store Wave),
              exec .releaseWave s = .next
                (answered f rest
                  (.accepted { late := decide (earliest ≤ (s.clock : Int)) } (.released served.length tickets earliest))
                  { noticedAll (waveDrawNotices s need) s with
                    components := components
                    waves := waves
                    ticketPool := ⟨s.ticketPool.free - tickets, s.ticketPool.reserved + tickets, s.ticketPool.live⟩
                    groupPool :=
                      ⟨s.groupPool.free - served.length, s.groupPool.reserved + served.length, s.groupPool.live⟩
                    engine := { status := .running, wave := some w, plan := plan, next := 0 } })
              ∧ waves.get? w = some
                  { wv with
                    state := .releasing, plan := walkCounts s wv.course wv.skipMark wv.region plan, release := {},
                    reservedTickets := tickets, reservedGroups := served.length }
              ∧ (∀ v, v ≠ w → waves.get? v = wave? s v)
              ∧ (∀ c, components.get? c = (s.components.get? c).map fun r =>
                  { r with stock := r.stock.map fun n => n - need c })
              ∧ (∀ i u e, served[i]? = some u → e ∈ ticketList (coursePlan s wv.course) (tableRecord s u) →
                  earliest ≤ fireTimeAt s (componentStation s e.1) e.1 (wv.goTime + i * wv.stagger))
              ∧ (0 < tickets → ∃ i u e, served[i]? = some u ∧ e ∈ ticketList (coursePlan s wv.course) (tableRecord s u)
                  ∧ earliest = fireTimeAt s (componentStation s e.1) e.1 (wv.goTime + i * wv.stagger))))

/-- HOLD_WAVE: STATE unless the wave is ACTIVE; otherwise the wave is HELD and frozen from this reading, and the reply counts its tickets that
are QUEUED, ON_LINE or READY (R48, R91). -/
def Obligations.HoldWaveFreezesTheWave : Prop :=
  ∀ (w : Nat) (f : Frame) (rest : List Frame) (s : State), Takes f rest s → f.kind = 0x16#8 → f.body = le1 w → w < 256 →
    (63 < w → exec .holdWave s = .next (refusedWith f rest .range s))
    ∧ (w ≤ 63 → s.link.mode = .setup → exec .holdWave s = .next (refusedWith f rest .mode s))
    ∧ (w ≤ 63 → s.link.mode = .service → waveState s w ≠ .active →
        exec .holdWave s = .next (refusedWith f rest .state s))
    ∧ ∀ wv, w ≤ 63 → s.link.mode = .service → wave? s w = some wv → wv.state = .active →
        ∃ (waves : Store Wave) (frozen : List Nat),
          exec .holdWave s = .next
            (acceptedWith f rest
              (.held (s.tickets.filter fun e =>
                decide (e.2.wave = w ∧ (e.2.state = .queued ∨ e.2.state = .onLine ∨ e.2.state = .ready))).length)
              { s with waves := waves, frozen := frozen })
          ∧ waves.get? w = some { wv with state := .held, holdSince := some s.clock }
          ∧ (∀ v, v ≠ w → waves.get? v = wave? s v) ∧ ∀ v, v ∈ frozen ↔ v = w ∨ v ∈ s.frozen

/-- RESUME_WAVE: RANGE, also when the last go time of a HELD wave is out of range, MODE, and STATE unless the wave is HELD; otherwise the wave is
ACTIVE from the resume go time and no longer frozen; every group none of whose tickets has entered a station takes its new go time, and its tickets
their new fire and due-ready times; the due tickets of the wave are offered in (fire time, seq) order; and the reply gives the groups re-timed and
kept and the tickets fired, with LATE when one fired and CLAMPED when the go time was raised to now (R51 to R54, R67, R68). That a given go time
above 16,777,215 is RANGE also for a wave that is not HELD is the model's reading (log 13). -/
def Obligations.ResumeWaveMovesUnstartedGroups : Prop :=
  ∀ (w : Nat) (given : Option Nat) (f : Frame) (rest : List Frame) (s : State), Takes f rest s → f.kind = 0x17#8 →
    f.body = resumeBody w given → w < 256 → fitsBelow 4294967296 given →
    (63 < w ∨ (∃ v ∈ given, 16777215 < v) → exec .resumeWave s = .next (refusedWith f rest .range s))
    ∧ (w ≤ 63 → (∀ v ∈ given, v ≤ 16777215) → waveState s w ≠ .held →
        (s.link.mode = .setup → exec .resumeWave s = .next (refusedWith f rest .mode s))
        ∧ (s.link.mode = .service → exec .resumeWave s = .next (refusedWith f rest .state s)))
    ∧ ∀ (since : Nat) (wv : Wave), w ≤ 63 → (∀ v ∈ given, v ≤ 16777215) → wave? s w = some wv → wv.state = .held →
    wv.holdSince = some since →
    let asked := given.getD (wv.goTime + (s.clock - since))
    let go := max asked s.clock
    ((∃ e ∈ s.groups, e.2.wave = w ∧ group? s e.1 = some e.2 ∧ 16777215 < go + e.2.orderIndex * wv.stagger)
        ∨ 16777215 < go →
      exec .resumeWave s = .next (refusedWith f rest .range s))
    ∧ (s.groups.rising = true → go ≤ 16777215 → (∀ e ∈ s.groups, e.2.wave = w → go + e.2.orderIndex * wv.stagger ≤ 16777215) →
        s.link.mode = .setup → exec .resumeWave s = .next (refusedWith f rest .mode s))
    ∧ (s.groups.rising = true → go ≤ 16777215 →
        (∀ e ∈ s.groups, e.2.wave = w → go + e.2.orderIndex * wv.stagger ≤ 16777215) → s.link.mode = .service →
        ∃ (t : State) (retimed kept fired : Nat), exec .resumeWave s = .next t
          ∧ Answers f
              (.accepted { late := decide (0 < fired), clamped := decide (asked < s.clock) } (.resumed retimed kept fired)) s t
          ∧ wave? t w = some { wv with state := .active, goTime := go, holdSince := none }
          ∧ (∀ v, v ≠ w → wave? t v = wave? s v) ∧ (∀ v, v ∈ t.frozen ↔ v ≠ w ∧ v ∈ s.frozen)
          ∧ (∀ g gr, group? s g = some gr →
              group? t g = some
                (if gr.wave = w ∧ (gr.tickets.all fun n => (ticket? s n).any fun tk =>
                      decide ((tk.state = .calendared ∨ tk.state = .blocked) ∧ tk.rush = false)) = true then
                  { gr with goTime := go + gr.orderIndex * wv.stagger }
                else gr))
          ∧ retimed = (s.groups.filter fun e => decide (e.2.wave = w) && unstarted s e.2).length
          ∧ kept = (s.groups.filter fun e => decide (e.2.wave = w) && !unstarted s e.2).length
          ∧ t.clock = s.clock ∧ t.engine = s.engine ∧ t.components = s.components ∧ t.floor = s.floor
          ∧ t.ticketPool = s.ticketPool ∧ t.groupPool = s.groupPool
          ∧ (Sound s → LinesSound s → ∃ (u v : State) (due : List Nat),
              u = { dequeued rest s with
                waves := t.waves, frozen := t.frozen, groups := t.groups, tickets := u.tickets, calendar := u.calendar,
                stations := u.stations }
              ∧ ResumesTickets w go wv.stagger s u due ∧ OffersEach due u v ∧ fired = due.length
              ∧ t = settle (pushReply ⟨f.tag, f.kind,
                  .accepted { late := decide (0 < fired), clamped := decide (asked < s.clock) }
                    (.resumed retimed kept fired)⟩ v)))

/-- CANCEL_WAVE: RANGE, MODE, and STATE for a FREE wave; of any other wave every live group is freed, the wave becomes FREE and leaves the frozen
set, a RELEASING wave's engine becomes ABORTED, and no other wave changes.  The stock of the tables not visited returns, then that of the tickets
not begun, group by group in ascending order index and ticket by ticket in list order; and WAVE_DONE follows the reply (R14, R15, R55 to R58, R87,
R100, R163).  That the reply counts every ticket of the wave's groups, those already WITHDRAWN with them, is the model's reading (log 14); and so is
that the wave ends CANCELLED once, without a completion of R59 at its last group (log 16). -/
def Obligations.CancelWaveFreesTheWave : Prop :=
  ∀ (w : Nat) (f : Frame) (rest : List Frame) (s : State), Takes f rest s → f.kind = 0x18#8 → f.body = le1 w → w < 256 →
    (63 < w → exec .cancelWave s = .next (refusedWith f rest .range s))
    ∧ (w ≤ 63 → s.link.mode = .setup → exec .cancelWave s = .next (refusedWith f rest .mode s))
    ∧ (w ≤ 63 → s.link.mode = .service → waveState s w = .free →
        exec .cancelWave s = .next (refusedWith f rest .state s))
    ∧ (w ≤ 63 → s.link.mode = .service → waveState s w ≠ .free → s.groups.rising = true →
        ∃ (t : State) (groups tickets : Nat), exec .cancelWave s = .next t
          ∧ Answers f (.accepted {} (.waveCancelled groups tickets)) s t
          ∧ groups = (s.groups.filter fun e => decide (e.2.wave = w)).length
          ∧ wave? t w = none ∧ w ∉ t.frozen ∧ (∀ g gr, group? t g = some gr → gr.wave ≠ w)
          ∧ (∀ v, v ≠ w → wave? t v = wave? s v)
          ∧ t.engine = (if waveState s w = .releasing then { status := .aborted, wave := some w, plan := [], next := 0 }
              else s.engine)
          ∧ t.clock = s.clock ∧ t.link.mode = s.link.mode ∧ t.courses = s.courses
          ∧ (Sound s → LinesSound s → CountersInRange s →
              ∃ u, Cancels w (dequeued rest s) u groups tickets
                ∧ t = settle (pushReply ⟨f.tag, f.kind, .accepted {} (.waveCancelled groups tickets)⟩ u)))

/-- STAGING_LAPSE of a STAGED wave whose lapse the clock has reached: the wave is FREE and WAVE_LAPSED is queued; for a wave that is not STAGED,
FREE or of any other state, nothing happens (R39, R40).  That before that reading nothing happens, and that a later reading still takes the
lapse, is the model's choice of log 3. -/
def Obligations.StagingLapseFreesTheWave : Prop :=
  (∀ (w : Nat) (s : State), w ≤ 63 → wave? s w = none → HostSettled s → exec (.stagingLapse w) s = .next s)
  ∧ ∀ (w : Nat) (wv : Wave) (s : State), w ≤ 63 → wave? s w = some wv →
    (wv.state = .staged → wv.stagedAt + 600 ≤ s.clock →
      ∃ (waves : Store Wave) (frozen : List Nat),
        exec (.stagingLapse w) s = .next
          (settle (pushNotice (.waveLapsed w wv.course wv.stagedAt) { s with waves := waves, frozen := frozen }))
        ∧ waves.get? w = none ∧ (∀ v, v ≠ w → waves.get? v = wave? s v) ∧ ∀ v, v ∈ frozen ↔ v ≠ w ∧ v ∈ s.frozen)
    ∧ (wv.state ≠ .staged ∨ s.clock < wv.stagedAt + 600 → HostSettled s → exec (.stagingLapse w) s = .next s)

/-- RELEASE_VISIT: the engine's next table gets a PENDING group in the lowest entry not live, with the wave's course in its live set and one
live ticket for each pair of the kept ticket list, made in list order with the values R45 and R85 give; a ticket whose fire time is after
now is CALENDARED, any other is offered at once; the wave's counts and reservations follow; and the last visit returns what is left of the
reservations, makes the wave ACTIVE and the engine DONE, and queues WAVE_RELEASED.  The whole of it: each ticket is created and placed before the
next, a due one going to its home station if that is able, otherwise to the alternate if that is able, and otherwise blocked, with its records
and in its place, and any other at its place in the calendar (R23, R45, R47, R71, R72, R84, R85, R88, R93 to R96, R109, R147). -/
def Obligations.ReleaseVisitCreatesTheGroup : Prop :=
  ∀ (w i : Nat) (v : ServedTable) (wv : Wave) (s : State), s.engine.status = .running → s.engine.wave = some w →
    s.engine.next = i → s.engine.plan[i]? = some v → wave? s w = some wv →
    let made := v.tickets.length
    let go := wv.goTime + i * wv.stagger
    let last := s.engine.plan.length ≤ i + 1
    let fireTimes := v.tickets.map fun e => fireTimeAt s (componentStation s e.1) e.1 go
    let release : ReleaseCounts :=
      { groups := wv.release.groups + 1
        tickets := wv.release.tickets + made
        fired := wv.release.fired + (fireTimes.filter fun (at' : Int) => decide (at' ≤ (s.clock : Int))).length
        maxLateness := (fireTimes.map fun (at' : Int) => min 65535 ((s.clock : Int) - at').toNat).foldl max wv.release.maxLateness }
    ∃ (t : State) (g : Nat) (gr : Group), exec .releaseVisit s = .next t
      ∧ group? s g = none ∧ (∀ h < g, group? s h ≠ none) ∧ group? t g = some gr
      ∧ gr = { wave := w, table := v.table, course := wv.course, orderIndex := i, goTime := go,
               covers := (tableRecord s v.table).covers, tickets := gr.tickets, state := .pending, short := false,
               escalated := false, escalationCause := none, dieAt := none, pickupAt := none, unpickedReported := false }
      ∧ (∀ c, c ∈ (tableRecord t v.table).liveCourses ↔ c = wv.course ∨ c ∈ (tableRecord s v.table).liveCourses)
      ∧ gr.tickets.length = made
      ∧ (∀ k n, gr.tickets[k]? = some n → ∃ e tk, v.tickets[k]? = some e ∧ ticket? s n = none
          ∧ (∀ l < n, ticket? s l ≠ none ∨ l ∈ gr.tickets.take k) ∧ ticket? t n = some tk
          ∧ tk.wave = w ∧ tk.group = g ∧ tk.table = v.table ∧ tk.component = e.1 ∧ tk.quantity = e.2
          ∧ tk.goTime = go ∧ tk.homeStation = componentStation s e.1
          ∧ tk.fireTime = fireTimeAt s (componentStation s e.1) e.1 go
          ∧ tk.generation = 0 ∧ tk.rush = false ∧ (s.link.seq + k ≤ 4294967295 → tk.seq = s.link.seq + k)
          ∧ tk.readyAt = none ∧ tk.dueReady = (go : Int) - carry s tk.station
          ∧ ((s.clock : Int) < tk.fireTime → tk.state = .calendared ∧ n ∈ t.calendar ∧ tk.station = tk.homeStation
              ∧ tk.lateness = 0 ∧ tk.firedAt = none ∧ tk.position = none)
          ∧ (tk.fireTime ≤ (s.clock : Int) →
              (tk.state = .blocked ∧ tk.station = tk.homeStation ∧ tk.lateness = 0 ∧ tk.firedAt = none ∧ tk.position = none)
              ∨ ((tk.state = .queued ∧ tk.position = none ∨ tk.state = .onLine ∧ tk.position ≠ none)
                ∧ (tk.station = tk.homeStation
                  ∨ (station s tk.homeStation).config.bind StationConfig.alternate = some tk.station)
                ∧ tk.firedAt = some s.clock
                ∧ tk.lateness = min 65535 ((s.clock : Int) - fireTimeAt s tk.station e.1 go).toNat)))
      ∧ (∀ n, n ∉ gr.tickets → ticket? t n = ticket? s n) ∧ (∀ h, h ≠ g → group? t h = group? s h)
      ∧ (∀ u, u ≠ v.table → tableRecord t u = tableRecord s u) ∧ (∀ x, x ≠ w → wave? t x = wave? s x)
      ∧ (¬last → wave? t w = some
          { wv with
            release := release, reservedTickets := wv.reservedTickets - made, reservedGroups := wv.reservedGroups - 1 })
      ∧ (last → wv.ending.served + wv.ending.short + wv.ending.cancelled ≤ wv.release.groups →
          wave? t w = some { wv with state := .active, release := release, reservedTickets := 0, reservedGroups := 0 })
      ∧ (¬last → t.engine = { s.engine with next := i + 1 })
      ∧ (last → t.engine = { status := .done, wave := some w, plan := [], next := 0 })
      ∧ (made ≤ wv.reservedTickets → wv.reservedTickets ≤ s.ticketPool.reserved →
          t.ticketPool =
            if last then
              ⟨s.ticketPool.free + (wv.reservedTickets - made), s.ticketPool.reserved - wv.reservedTickets,
                s.ticketPool.live + made⟩
            else ⟨s.ticketPool.free, s.ticketPool.reserved - made, s.ticketPool.live + made⟩)
      ∧ (1 ≤ wv.reservedGroups → wv.reservedGroups ≤ s.groupPool.reserved →
          t.groupPool =
            if last then
              ⟨s.groupPool.free + (wv.reservedGroups - 1), s.groupPool.reserved - wv.reservedGroups, s.groupPool.live + 1⟩
            else ⟨s.groupPool.free, s.groupPool.reserved - 1, s.groupPool.live + 1⟩)
      ∧ (s.link.seq ≤ 4294967295 → HostSettled s →
          let counted := { s with link := { s.link with seq := min 4294967295 (s.link.seq + made) } }
          (¬last → t.link = counted.link)
          ∧ (last → wv.ending.served + wv.ending.short + wv.ending.cancelled ≤ wv.release.groups →
              t.link = (settle (pushNotice
                (.waveReleased w release.groups release.tickets release.fired release.maxLateness) counted)).link))
      ∧ (¬last ∨ wv.ending.served + wv.ending.short + wv.ending.cancelled ≤ wv.release.groups → t.frozen = s.frozen)
      ∧ t.clock = s.clock ∧ t.components = s.components ∧ t.courses = s.courses ∧ t.passLine = s.passLine
      ∧ (Sound s → LinesSound s → ∃ u, Visits w i v s u ∧ t = settle u)

/-! ## Tickets and stations -/

/-- FIRE_EXPIRY takes exactly the CALENDARED tickets of waves not frozen whose fire time is now, in calendar order: they leave the calendar and are
offered, each whole before the next, and nothing else changes.  An offered ticket enters its home station if that is able, otherwise the
alternate if that is able, and otherwise it is BLOCKED in its home station's list (R90, R91, R93 to R95, R109). -/
def Obligations.FireExpiryOffersDueTickets : Prop :=
  ∀ s : State,
    let taken := s.calendar.filter fun n => (ticket? s n).any fun tk =>
      decide (tk.fireTime = (s.clock : Int) ∧ tk.wave ∉ s.frozen)
    ∃ t, exec .fireExpiry s = .next t ∧ t.calendar = (s.calendar.filter fun n => decide (n ∉ taken))
      ∧ (∀ n, n ∉ taken → ticket? t n = ticket? s n)
      ∧ (∀ n ∈ taken, ∃ tk, ticket? t n = some tk ∧ tk.fireTime = (s.clock : Int)
          ∧ (tk.state = .queued ∨ tk.state = .onLine ∨ tk.state = .blocked))
      ∧ t.clock = s.clock ∧ t.waves = s.waves ∧ t.groups = s.groups ∧ t.components = s.components
      ∧ (Sound s → LinesSound s → HostSettled s →
          OffersEach taken { s with calendar := s.calendar.filter fun n => decide (n ∉ taken) } t
            ∧ taken.Pairwise (FiresAhead s))
      ∧ ∀ n tk, taken = [n] → ticket? s n = some tk → tk.homeStation < s.stations.length →
          ∃ tk', ticket? t n = some tk'
            ∧ (Able s tk.homeStation → tk'.station = tk.homeStation ∧ tk'.state ≠ .blocked
                ∧ tk'.firedAt = some (tk.firedAt.getD s.clock))
            ∧ (¬Able s tk.homeStation →
                ∀ a ∈ (station s tk.homeStation).config.bind StationConfig.alternate, Able s a →
                  tk'.station = a ∧ tk'.state ≠ .blocked ∧ tk'.firedAt = some (tk.firedAt.getD s.clock))
            ∧ (¬Able s tk.homeStation →
                (∀ a ∈ (station s tk.homeStation).config.bind StationConfig.alternate, ¬Able s a) →
                  tk' = { tk with state := .blocked, station := tk.homeStation }
                  ∧ n ∈ (station t tk.homeStation).blocked)

/-- READY from the terminal of a station that takes records, for a ticket QUEUED or ON_LINE there: the ticket is READY from now, holds no
position and has left the station; its group, if it lists the ticket, is no longer PENDING, and is COMPLETE with a pickup time exactly
when every other ticket of its list is READY or WITHDRAWN; its other fields, the other groups, stock, waves and the calendar are as they
were.  The terminal is sent DONE, the queue head moves up, the pass terminal is sent GROUP_UP, ARRIVE and GO as they apply, and a queue
departure drains for the station (R97, R98, R110, R111, R114, R148 to R150, R164). -/
def Obligations.ReadyBringsTheTicketToThePass : Prop :=
  ∀ (x : Nat) (n : Number) (tk : Ticket) (s : State), Coherent s → x ≤ 23 → (station s x).config ≠ none →
    (station s x).line.presence = .present → ticket? s n.toNat = some tk → tk.station = x →
    tk.state = .queued ∨ (tk.state = .onLine ∧ tk.position ≠ none) →
    ∃ t, exec (.ready x n) s = .next t
      ∧ ticket? t n.toNat = some { tk with state := .ready, readyAt := some s.clock, position := none }
      ∧ n.toNat ∉ wholeQueue (station t x) ∧ some n.toNat ∉ (station t x).positions
      ∧ (∀ gr, group? s tk.group = some gr → n.toNat ∈ gr.tickets →
          ∃ gr', group? t tk.group = some gr'
            ∧ ((∀ o ∈ gr.tickets, o = n.toNat ∨ InState s .ready o ∨ InState s .withdrawn o) →
                gr' = { gr with
                  state := .complete, dieAt := none, pickupAt := some (s.clock + s.link.pickupLimit)
                  unpickedReported := false })
            ∧ ((∃ o ∈ gr.tickets, o ≠ n.toNat ∧ ¬InState s .ready o ∧ ¬InState s .withdrawn o) →
                gr' = { gr with state := .assembling, dieAt := earliestDie t gr.tickets }
                  ∧ EarliestDie t gr.tickets gr'.dieAt))
      ∧ (∀ h, h ≠ tk.group → group? t h = group? s h)
      ∧ t.clock = s.clock ∧ t.components = s.components ∧ t.waves = s.waves ∧ t.calendar = s.calendar
      ∧ t.ticketPool = s.ticketPool ∧ t.floor = s.floor
      ∧ (Sound s → LinesSound s → HostSettled s → ∃ (gr : Group) (r u v : State), group? s tk.group = some gr
          ∧ r = { s with tickets := r.tickets }
          ∧ (∀ m, ticket? r m = if m = n.toNat then
              some { tk with state := .ready, readyAt := some s.clock, position := none } else ticket? s m)
          ∧ LeavesPlace (.doneTicket n.toNat) n.toNat tk r u
          ∧ v = { u with groups := t.groups, passLine := v.passLine }
          ∧ (let up := if gr.state = .pending then produced (groupShown u tk.group gr) s.passLine else s.passLine
            v.passLine =
              if (∀ o ∈ gr.tickets, o = n.toNat ∨ InState s .ready o ∨ InState s .withdrawn o) then
                produced (.go tk.group gr.short) (produced (.arrive tk.group n.toNat) up)
              else produced (.arrive tk.group n.toNat) up)
          ∧ if Departs tk s then Drains x v t else t = v)

/-- SPOIL from the terminal of a station that takes records, for a ticket QUEUED or ON_LINE there: when its generation is below 2, an entry is
free and the stock covers its quantity, it is freed and a rush copy of the next generation stands in its group's list; otherwise it is
DEAD in its slot and its group is escalated with the cause.  The copy's draw queues STOCK_LOW and STOCK_OUT (EMPTIED) as it crosses, a draw
refused STOCK_OUT (SHORT), and a failure GROUP_ESCALATED behind that.  The whole of it, in the order of R111: DONE, the ticket leaving its
place, the queue head moving up with LINE, the remake with its offer, GROUP_UP of an ASSEMBLING group, and the drain of a queue departure;
the other groups stay as they are, and so do the tickets that none of this moves (R11 to R13, R86, R97, R98, R110, R111, R115, R152 to R154).
That the copy takes its number while the spoiled ticket still holds its own is the model's reading (log 15). -/
def Obligations.SpoilIsRemadeOrEscalated : Prop :=
  ∀ (x : Nat) (n : Number) (tk : Ticket) (gr : Group) (s : State), Coherent s → x ≤ 23 → (station s x).config ≠ none →
    (station s x).line.presence = .present → ticket? s n.toNat = some tk → tk.station = x →
    tk.state = .queued ∨ (tk.state = .onLine ∧ tk.position ≠ none) → group? s tk.group = some gr → n.toNat ∈ gr.tickets →
    ∃ t, exec (.spoil x n) s = .next t ∧ t.clock = s.clock ∧ t.waves = s.waves ∧ t.calendar = s.calendar
      ∧ (tk.generation < 2 → 0 < s.ticketPool.free → ¬Short s tk.component tk.quantity →
          (∃ m copy, ticket? s m = none ∧ (∀ l < m, ticket? s l ≠ none) ∧ ticket? t m = some copy
            ∧ copy.generation = tk.generation + 1 ∧ copy.rush = true ∧ copy.component = tk.component
            ∧ copy.quantity = tk.quantity ∧ copy.wave = tk.wave ∧ copy.group = tk.group ∧ copy.goTime = tk.goTime
            ∧ copy.homeStation = tk.homeStation ∧ copy.seq = s.link.seq
            ∧ (copy.state = .queued ∨ copy.state = .onLine ∨ copy.state = .blocked)
            ∧ ticket? t n.toNat = none
            ∧ group? t tk.group = some { gr with tickets := gr.tickets.map fun o => if o = n.toNat then m else o }
            ∧ stockOf t tk.component = (stockOf s tk.component).map fun k => k - tk.quantity)
          ∧ t.link = (settle (noticedAll
              ((s.components.get? tk.component).toList.flatMap fun r => r.stock.toList.flatMap fun k =>
                drawNotices tk.component tk.quantity k r.lowLevel)
              { s with link := { s.link with
                  seq := if s.link.seq < 4294967295 then s.link.seq + 1 else s.link.seq } })).link)
      ∧ (2 ≤ tk.generation ∨ s.ticketPool.free = 0 ∨ Short s tk.component tk.quantity →
          let cause : EscalationCause :=
            if 2 ≤ tk.generation then .generation else if s.ticketPool.free = 0 then .noTickets else .noStock
          ticket? t n.toNat = some { tk with state := .dead, position := none }
            ∧ t.components = s.components
            ∧ group? t tk.group = some { gr with escalated := true, escalationCause := some cause }
            ∧ t.link = (settle (noticedAll
                ((if cause = .noStock then
                    (stockOf s tk.component).toList.map fun k => .stockOut tk.component .short k tk.quantity
                  else [])
                  ++ [.groupEscalated tk.group tk.wave tk.table n.toNat tk.component cause .spoil]) s)).link)
      ∧ (∀ h, h ≠ tk.group → group? t h = group? s h)
      ∧ (Sound s → LinesSound s → ∃ (r u v w z : State) (made : Bool) (gr' : Group),
          r = { s with tickets := r.tickets }
          ∧ (∀ m, ticket? r m =
              if m = n.toNat then some { tk with state := .dead, position := none } else ticket? s m)
          ∧ LeavesPlace (.doneTicket n.toNat) n.toNat tk r u
          ∧ Remakes .spoil n.toNat made u v
          ∧ group? v tk.group = some gr'
          ∧ w = { v with
            passLine :=
              if gr.state = .assembling then produced (groupShown v tk.group gr') v.passLine else v.passLine }
          ∧ (if Departs tk s then Drains x w z else z = w)
          ∧ t = settle z)

/-- A READY or SPOIL that applies to no ticket of a listening station, and a PICKED or REFIRE that applies to no group of a PRESENT pass terminal,
is answered STALE and changes nothing else; a REFIRE whose copy draw is refused is answered STALE too, and queues STOCK_OUT (SHORT) (R13, R116,
R158, R160, R165). -/
def Obligations.RecordsThatDoNotApplyAreStale : Prop :=
  (∀ (x : Nat) (n : Number) (s : State), x ≤ 23 → (station s x).config ≠ none → (station s x).line.presence = .present →
    HostSettled s → (∀ tk, ticket? s n.toNat = some tk → tk.station ≠ x ∨ (tk.state ≠ .queued ∧ tk.state ≠ .onLine)) →
    exec (.ready x n) s = .next (sendRecord (.station x) (.stale n.toNat 0xB0#8) s)
      ∧ exec (.spoil x n) s = .next (sendRecord (.station x) (.stale n.toNat 0xB1#8) s))
  ∧ (∀ (g : Number) (s : State), s.passLine.presence = .present → HostSettled s →
    (∀ gr, group? s g.toNat = some gr → gr.state ≠ .complete) →
    exec (.picked g) s = .next (sendRecord .pass (.passStale 0xE0#8 g.toNat none) s))
  ∧ (∀ (g n : Number) (s : State), s.passLine.presence = .present → HostSettled s →
    (∀ gr tk, group? s g.toNat = some gr → n.toNat ∈ gr.tickets → ticket? s n.toNat = some tk →
      (tk.state ≠ .ready ∧ tk.state ≠ .dead) ∨ 2 < tk.generation ∨ s.ticketPool.free = 0) →
    exec (.passRefire g n) s = .next (sendRecord .pass (.passStale 0xE1#8 g.toNat (some n.toNat)) s))
  ∧ ∀ (g n : Number) (gr : Group) (tk : Ticket) (k : Nat) (s : State), s.passLine.presence = .present →
    group? s g.toNat = some gr → n.toNat ∈ gr.tickets → ticket? s n.toNat = some tk → tk.state = .ready ∨ tk.state = .dead →
    tk.generation ≤ 2 → 0 < s.ticketPool.free → stockOf s tk.component = some k → k < tk.quantity →
    exec (.passRefire g n) s = .next (settle (pushNotice (.stockOut tk.component .short k tk.quantity)
      (sendRecord .pass (.passStale 0xE1#8 g.toNat (some n.toNat)) s)))

/-- A record produced for a terminal, of whatever kind, joins the line output queue behind what waits; at an idle transmitter it is begun; a queue
of 32 overflows into a refresh; while a refresh is pending it is not queued; and nothing is taken or sent while the terminal is ABSENT.
Said of any record at a sound line, and of the STALE that answers a READY or SPOIL at a station and a PICKED at the pass (R116, R121 to R123,
R165, R166). -/
def Obligations.LineQueueTakesOrOverflows : Prop :=
  (∀ (l : LineId) (r : LineRecord) (s : State), LineSound (lineOf s l) → sendRecord l r s = updLine l (produced r) s)
  ∧ (∀ (x : Nat) (n : Number) (s : State), x ≤ 23 → (station s x).config ≠ none → HostSettled s →
      LineSound (station s x).line →
      (∀ tk, ticket? s n.toNat = some tk → tk.station ≠ x ∨ (tk.state ≠ .queued ∧ tk.state ≠ .onLine)) →
      exec (.ready x n) s = .next (updLine (.station x) (produced (.stale n.toNat 0xB0#8)) s)
        ∧ exec (.spoil x n) s = .next (updLine (.station x) (produced (.stale n.toNat 0xB1#8)) s))
  ∧ ∀ (g : Number) (s : State), HostSettled s → (∀ gr, group? s g.toNat = some gr → gr.state ≠ .complete) →
    let stale := LineRecord.passStale 0xE0#8 g.toNat none
    (s.passLine.presence = .absent → exec (.picked g) s = .next s)
    ∧ (s.passLine.presence = .present → s.passLine.refreshPending = true → exec (.picked g) s = .next s)
    ∧ (s.passLine.presence = .present → s.passLine.refreshPending = false →
        (s.passLine.tx = .idle → s.passLine.queue = [] →
          exec (.picked g) s = .next { s with passLine := { s.passLine with tx := .sending stale } })
        ∧ (s.passLine.tx ≠ .idle → s.passLine.queue.length < 32 →
          exec (.picked g) s = .next { s with passLine := { s.passLine with queue := s.passLine.queue ++ [stale] } })
        ∧ (s.passLine.tx ≠ .idle → 32 ≤ s.passLine.queue.length →
          exec (.picked g) s = .next { s with passLine := { s.passLine with queue := [], refreshPending := true } }))

/-- RESYNC at a line that takes records asks for a refresh: the queue is cleared, and the run is begun at once at an idle transmitter or waits for
the end of what is being sent; nothing else changes.  A station's run is STATION, SHOW and LINE of each position taken, and SHOW of each
QUEUED ticket; the pass's is PASS, each GROUP_UP and each GO (R120, R122, R164 to R166). -/
def Obligations.ResyncAsksForARefresh : Prop :=
  (∀ (x : Nat) (c : StationConfig) (s : State), s.stations.length = 24 → x ≤ 23 → (station s x).config = some c →
    (station s x).line.presence = .present →
    exec (.resync x) s = .next
      { s with stations := s.stations.modify x fun st =>
          { st with line :=
              if st.line.tx = .idle then
                { st.line with queue := [], refreshPending := false, tx := .refreshing (stationRefresh s x c) }
              else { st.line with queue := [], refreshPending := true } } })
  ∧ ∀ s : State, s.passLine.presence = .present →
    exec .passResync s = .next
      { s with passLine :=
          if s.passLine.tx = .idle then
            { s.passLine with queue := [], refreshPending := false, tx := .refreshing (passRefresh s) }
          else { s.passLine with queue := [], refreshPending := true } }

/-- A frame that arrives whole on a line with a wrong check byte, a kind that is not one of the line's, a body that does not fit its kind, or at
an undefined station or an ABSENT terminal, is discarded: nothing changes.  So too the records themselves: READY, SPOIL and RESYNC at an
undefined station or an ABSENT terminal, and PICKED, REFIRE and RESYNC at an ABSENT pass terminal, whatever they name (R112, R119, R165). -/
def Obligations.LinesDiscardWhatTheyDoNotTake : Prop :=
  (∀ (l : LineId) (f : Frame) (s : State), l.inPart = true → HostSettled s → (lineOf s l).receiver = .hunting →
    f.body.length ≤ 248 →
    (∀ length : Byte, length.toNat < 2 ∨ 250 < length.toNat →
      exec (.lineFrameDiscard l [0xC3#8, length]) s = .next s)
    ∧ (∀ check : Byte, byteSum f.covered + check ≠ 0#8 →
      exec (.lineFrameDiscard l (0xC3#8 :: (f.covered ++ [check]))) s = .next s)
    ∧ ((match l with
        | .station x => (f.kind ≠ 0xB0#8 ∧ f.kind ≠ 0xB1#8 ∧ f.kind ≠ 0xB2#8)
            ∨ ((f.kind = 0xB0#8 ∨ f.kind = 0xB1#8) ∧ f.body.length ≠ 2) ∨ (f.kind = 0xB2#8 ∧ f.body ≠ [])
            ∨ (station s x).config = none ∨ (station s x).line.presence = .absent
        | .pass => (f.kind ≠ 0xE0#8 ∧ f.kind ≠ 0xE1#8 ∧ f.kind ≠ 0xE2#8) ∨ (f.kind = 0xE0#8 ∧ f.body.length ≠ 2)
            ∨ (f.kind = 0xE1#8 ∧ f.body.length ≠ 4) ∨ (f.kind = 0xE2#8 ∧ f.body ≠ [])
            ∨ s.passLine.presence = .absent) →
      exec (.lineFrameDiscard l f.bytes) s = .next s))
  ∧ (∀ (x : Nat) (n : Number) (s : State), x ≤ 23 → HostSettled s →
      (station s x).config = none ∨ (station s x).line.presence = .absent →
      exec (.ready x n) s = .next s ∧ exec (.spoil x n) s = .next s ∧ exec (.resync x) s = .next s)
  ∧ ∀ (g n : Number) (s : State), HostSettled s → s.passLine.presence = .absent →
      exec (.picked g) s = .next s ∧ exec (.passRefire g n) s = .next s ∧ exec .passResync s = .next s

/-- PRESENCE_FALL and PASS_PRESENCE_FALL of a PRESENT terminal: it is ABSENT, its output queue and its pending refresh are cleared, what is being
sent goes on, a defined station raises STATION_STATE, and nothing else changes (R124, R166). -/
def Obligations.PresenceFallClearsTheLine : Prop :=
  (∀ (x : Nat) (s : State), s.stations.length = 24 → x ≤ 23 → (station s x).line.presence = .present → HostSettled s →
    let fallen := { s with stations := s.stations.modify x fun st =>
      { st with line := { st.line with presence := .absent, queue := [], refreshPending := false } } }
    ((station s x).config = none → exec (.presenceFall x) s = .next fallen)
    ∧ ((station s x).config ≠ none → exec (.presenceFall x) s = .next
        (settle (pushNotice
          (.stationState x .presence .absent (station s x).load.state (station s x).load.state
            (station s x).load.accumulator 0 0) fallen))))
  ∧ ∀ s : State, s.passLine.presence = .present →
    exec .passPresenceFall s = .next
      { s with passLine := { s.passLine with presence := .absent, queue := [], refreshPending := false } }

/-- PRESENCE_RISE and PASS_PRESENCE_RISE of an ABSENT terminal: it is PRESENT; an undefined station does nothing more; a defined one, and the
pass, is refreshed, at once where its transmitter is idle; waves, groups, stock and load records are as they were.  A defined station then
drains, with its records behind the refresh, and raises STATION_STATE (R97, R98, R122, R125, R141, R166). -/
def Obligations.PresenceRiseRefreshesTheTerminal : Prop :=
  (∀ (x : Nat) (s : State), s.stations.length = 24 → x ≤ 23 → (station s x).line.presence = .absent → HostSettled s →
    ((station s x).config = none → exec (.presenceRise x) s = .next
      { s with stations := s.stations.modify x fun st => { st with line := { st.line with presence := .present } } })
    ∧ ((station s x).config ≠ none →
        ∃ t, exec (.presenceRise x) s = .next t ∧ (station t x).line.presence = .present
          ∧ (station t x).load = (station s x).load ∧ t.waves = s.waves ∧ t.groups = s.groups
          ∧ t.components = s.components ∧ t.calendar = s.calendar ∧ t.clock = s.clock
          ∧ ((station s x).line.tx = .idle → ∃ run, (station t x).line.tx = .refreshing run)
          ∧ ((station s x).line.tx ≠ .idle →
              (station t x).line.tx = (station s x).line.tx ∧ (station t x).line.refreshPending = true
                ∧ (station t x).line.queue = []))
    ∧ ∀ c, (station s x).config = some c → Sound s → LinesSound s →
        ∃ u, Drains x
            { s with stations := s.stations.modify x fun st =>
              { st with line :=
                  if st.line.tx = .idle then
                    { st.line with
                      presence := .present, queue := [], refreshPending := false
                      tx := .refreshing (stationRefresh s x c) }
                  else { st.line with presence := .present, queue := [], refreshPending := true } } } u
          ∧ exec (.presenceRise x) s = .next (settle (pushNotice
              (.stationState x .presence .present (station s x).load.state (station s x).load.state
                (station s x).load.accumulator 0 0) u)))
  ∧ ∀ s : State, s.passLine.presence = .absent →
    exec .passPresenceRise s = .next
      { s with passLine :=
          if s.passLine.tx = .idle then
            { s.passLine with
              presence := .present, queue := [], refreshPending := false, tx := .refreshing (passRefresh s) }
          else { s.passLine with presence := .present, queue := [], refreshPending := true } }

/-- At the end of a frame or a refresh run a line transmitter takes the next record, or begins a pending refresh, or becomes idle; and a pending
refresh begins at an idle transmitter with the queue empty.  Only that line changes (R121, R122). -/
def Obligations.LineTransmittersGoOn : Prop :=
  ∀ (l : LineId) (s : State), l.inPart = true →
    (∀ c, c = Instr.lineFrameEnd l ∧ (∃ r, (lineOf s l).tx = .sending r)
        ∨ c = Instr.refreshRunEnd l ∧ (∃ run, (lineOf s l).tx = .refreshing run) →
      (∀ r rest, (lineOf s l).queue = r :: rest →
        exec c s = .next (updLine l (fun ln => { ln with queue := rest, tx := .sending r }) s))
      ∧ ((lineOf s l).queue = [] → (lineOf s l).refreshPending = false →
        exec c s = .next (updLine l (fun ln => { ln with tx := .idle }) s))
      ∧ ((lineOf s l).queue = [] → (lineOf s l).refreshPending = true → s.stations.length = 24 →
        exec c s = .next
          (updLine l (fun ln => { ln with refreshPending := false, tx := .refreshing (refreshRun s l) }) s)))
    ∧ ((lineOf s l).tx = .idle → (lineOf s l).queue = [] → (lineOf s l).refreshPending = true →
        exec (.refreshBegin l) s = .next
          (updLine l (fun ln => { ln with refreshPending := false, tx := .refreshing (refreshRun s l) }) s))

/-! ## The load monitor -/

/-- LOAD_SAMPLE, in SERVICE at a defined station whose sample time has come: the excess of the demand over the positions raises the accumulator
by its square, up to 65535, no excess lowers it by the cool step, down to 0, and the load state follows the new accumulator by R133's
table; the next sample is 5 s later, and no other station's load record changes.  A change of load state re-times the station's CALENDARED
tickets where the stretch changes, and is shown and reported (R70, R74, R75, R131 to R136).  R63 and R131 take a sample at its own reading; that
the command takes it also at a later one, and counts the next from there, is the model's choice of log 3. -/
def Obligations.LoadSampleIntegratesExcessDemand : Prop :=
  (∀ (x due : Nat) (c : StationConfig) (s : State), s.stations.length = 24 → x ≤ 23 → s.link.mode = .service →
    (station s x).config = some c → (station s x).load.nextSample = some due → due ≤ s.clock →
    let demanded := (s.tickets.filter fun e =>
      decide (e.2.station = x ∧ (e.2.state = .queued ∨ e.2.state = .onLine))).length
    let excess := demanded - c.positions
    let a := if 0 < excess then min 65535 ((station s x).load.accumulator + excess ^ 2)
      else (station s x).load.accumulator - c.coolStep
    ∃ t, exec (.loadSample x) s = .next t ∧ (station t x).load.accumulator = a
      ∧ (station t x).load.nextSample = some (s.clock + 5)
      ∧ ((station s x).load.state = .normal →
          (c.tripLevel ≤ a → (station t x).load.state = .tripped)
          ∧ (c.derateLevel ≤ a → a < c.tripLevel → (station t x).load.state = .derated)
          ∧ (a < c.derateLevel → a < c.tripLevel → (station t x).load.state = .normal))
      ∧ ((station s x).load.state = .derated →
          (c.tripLevel ≤ a → (station t x).load.state = .tripped)
          ∧ (c.derateLevel / 2 < a → a < c.tripLevel → (station t x).load.state = .derated)
          ∧ (a ≤ c.derateLevel / 2 → a < c.tripLevel → (station t x).load.state = .normal))
      ∧ ((station s x).load.state = .tripped → (station t x).load.state = .tripped)
      ∧ (∀ y, y ≠ x → (station t y).load = (station s y).load)
      ∧ t.clock = s.clock ∧ t.components = s.components ∧ t.waves = s.waves ∧ t.groups = s.groups
      ∧ (Sound s → LinesSound s →
          let sampled := { s with stations := s.stations.modify x fun st =>
            { st with load := { accumulator := a, state := st.load.state, nextSample := some (s.clock + 5) } } }
          ((station t x).load.state = (station s x).load.state → t = settle sampled)
          ∧ ((station t x).load.state ≠ (station s x).load.state →
              ∃ u retimed fired, ChangesLoad x (station t x).load.state sampled u retimed fired ∧ t = settle u)))
  ∧ ∀ (x k p : Nat) (c : StationConfig) (r : Component) (s : State), (station s x).config = some c →
      s.components.get? k = some r →
      fireTimeAt s x k p = (p : Int) - (c.carry : Int)
        - ((r.cookTime * (if (station s x).load.state = .normal then 64 else c.derateStretch) + 63) / 64 : Nat)

/-- REARM_STATION: RANGE, MODE, NO_SUCH for an undefined station, STATE unless TRIPPED, TOO_HOT at or above the trip level; otherwise the station is
DERATED above half its derate level, with nothing re-timed, and NORMAL at or below it, its CALENDARED tickets re-timed; the accumulator and the next
sample stay.  The station then drains, and is shown and reported (R74, R75, R97, R98, R135, R138, R139). -/
def Obligations.RearmTakesTheStationBack : Prop :=
  ∀ (x : Nat) (f : Frame) (rest : List Frame) (s : State), Takes f rest s → f.kind = 0x19#8 → f.body = le1 x → x < 256 →
    (23 < x → exec .rearmStation s = .next (refusedWith f rest .range s))
    ∧ (x ≤ 23 → s.link.mode = .setup → exec .rearmStation s = .next (refusedWith f rest .mode s))
    ∧ (x ≤ 23 → s.link.mode = .service → (station s x).config = none →
        exec .rearmStation s = .next (refusedWith f rest .noSuch s))
    ∧ ∀ c : StationConfig, s.stations.length = 24 → x ≤ 23 → s.link.mode = .service → (station s x).config = some c →
    ((station s x).load.state ≠ .tripped → exec .rearmStation s = .next (refusedWith f rest .state s))
    ∧ ((station s x).load.state = .tripped → c.tripLevel ≤ (station s x).load.accumulator →
        exec .rearmStation s = .next (refusedWith f rest .tooHot s))
    ∧ ((station s x).load.state = .tripped → (station s x).load.accumulator < c.tripLevel →
        let hot := c.derateLevel / 2 < (station s x).load.accumulator
        let answer : Nat → Nat → Answer := fun retimed fired =>
          .accepted {} (.rearmed x (if hot then .derated else .normal) (station s x).load.accumulator
            (if hot then c.derateStretch else 64) retimed fired)
        ∃ (t : State) (retimed fired : Nat), exec .rearmStation s = .next t
          ∧ Answers f (answer retimed fired) s t
          ∧ (station t x).load = { (station s x).load with state := if hot then .derated else .normal }
          ∧ (hot → retimed = 0 ∧ fired = 0 ∧ t.calendar = s.calendar)
          ∧ (¬hot → retimed = (s.calendar.filter fun n => (ticket? s n).any fun tk => decide (tk.station = x)).length)
          ∧ (∀ y, y ≠ x → (station t y).load = (station s y).load)
          ∧ t.clock = s.clock ∧ t.waves = s.waves ∧ t.groups = s.groups ∧ t.components = s.components
          ∧ (Sound s → LinesSound s →
              ∃ u, ChangesLoad x (if hot then .derated else .normal) (dequeued rest s) u retimed fired
                ∧ t = settle (pushReply ⟨f.tag, f.kind, answer retimed fired⟩ u)))

/-! ## The pass -/

/-- The host's REFIRE: MALFORMED, RANGE, MODE, NO_SUCH, STATE, NO_TICKETS and NO_STOCK in that order, the last with STOCK_OUT (SHORT) and
nothing else changed.  REFIRE of a READY or DEAD ticket of generation at most 2 in a live group's list, from the host in SERVICE and from a
PRESENT pass terminal, with an entry free and stock that covers it: a rush copy of the next generation is made in the lowest entry not live
and offered, and the reply names the station where the offer ended, or BLOCKED; while the group is not COMPLETE the copy takes the slot of the
freed ticket, and a COMPLETE group is ASSEMBLING again with no pickup time.  The whole of it: the copy, then WAIT of a COMPLETE group, GROUP_UP
of one that is shown, die_at recomputed, and a die time already passed taken at once (R11 to R13, R86, R150, R151, R156 to R158). That the copy
takes its number while the named ticket still holds its own is the model's reading (log 15), and so is that a die time already passed is taken at
once for a COMPLETE group alone (log 17). -/
def Obligations.RefireMakesARushCopy : Prop :=
  (∀ (f : Frame) (rest : List Frame) (s : State), Takes f rest s → f.kind = 0x1A#8 →
    (f.body.length ≠ 4 → exec .refire s = .next (refusedWith f rest .malformed s))
    ∧ ∀ g n : Nat, g < 65536 → n < 65536 → f.body = le2 g ++ le2 n →
      (1023 < g ∨ 4095 < n → exec .refire s = .next (refusedWith f rest .range s))
      ∧ (g ≤ 1023 → n ≤ 4095 → s.link.mode = .setup → exec .refire s = .next (refusedWith f rest .mode s))
      ∧ (g ≤ 1023 → n ≤ 4095 → s.link.mode = .service →
          ((∀ gr, group? s g = some gr → n ∉ gr.tickets) → exec .refire s = .next (refusedWith f rest .noSuch s))
          ∧ ∀ gr tk, group? s g = some gr → n ∈ gr.tickets → ticket? s n = some tk →
            ((tk.state ≠ .ready ∧ tk.state ≠ .dead) ∨ 2 < tk.generation →
              exec .refire s = .next (refusedWith f rest .state s))
            ∧ (tk.state = .ready ∨ tk.state = .dead → tk.generation ≤ 2 →
                (s.ticketPool.free = 0 → exec .refire s = .next (refusedWith f rest .noTickets s))
                ∧ (0 < s.ticketPool.free → ∀ k, stockOf s tk.component = some k → k < tk.quantity →
                    exec .refire s = .next
                      (answered f rest (.refused .noStock)
                        (pushNotice (.stockOut tk.component .short k tk.quantity) s))))))
  ∧ ∀ (g n : Number) (tk : Ticket) (gr : Group) (s : State), Coherent s → g.toNat ≤ 1023 → n.toNat ≤ 4095 →
    group? s g.toNat = some gr → n.toNat ∈ gr.tickets → ticket? s n.toNat = some tk → tk.state = .ready ∨ tk.state = .dead →
    tk.generation ≤ 2 → 0 < s.ticketPool.free → ¬Short s tk.component tk.quantity →
    let remade := fun (t : State) (m : Nat) (offerEnd : Option Nat) =>
      ticket? s m = none ∧ (∀ l < m, ticket? s l ≠ none)
        ∧ (∃ copy, ticket? t m = some copy ∧ copy.generation = tk.generation + 1 ∧ copy.rush = true
            ∧ copy.component = tk.component ∧ copy.quantity = tk.quantity ∧ copy.wave = tk.wave ∧ copy.group = g.toNat
            ∧ copy.table = tk.table ∧ copy.goTime = tk.goTime ∧ copy.homeStation = tk.homeStation ∧ copy.seq = s.link.seq
            ∧ copy.fireTime = fireTimeAt s tk.homeStation tk.component tk.goTime
            ∧ (copy.state = .queued ∨ copy.state = .onLine ∨ copy.state = .blocked)
            ∧ (copy.state = .blocked ↔ offerEnd = none) ∧ copy.station = offerEnd.getD tk.homeStation)
        ∧ (∀ x, offerEnd = some x ↔ GoesTo s tk.homeStation x)
        ∧ (gr.state ≠ .complete → ticket? t n.toNat = none
            ∧ (group? t g.toNat).map Group.tickets = some (gr.tickets.map fun o => if o = n.toNat then m else o)
            ∧ (group? t g.toNat).map Group.state = some gr.state
            ∧ stockOf t tk.component = (stockOf s tk.component).map fun k => k - tk.quantity)
        ∧ (gr.state = .complete →
            ∃ gr', group? t g.toNat = some gr' ∧ gr'.state = .assembling ∧ gr'.pickupAt = none
              ∧ gr'.unpickedReported = false ∧ m ∈ gr'.tickets)
        ∧ (∀ h, h ≠ g.toNat → group? t h = group? s h)
        ∧ t.clock = s.clock ∧ t.waves = s.waves ∧ t.calendar = s.calendar
    (∀ (f : Frame) (rest : List Frame), Takes f rest s → f.kind = 0x1A#8 → f.body = le2 g.toNat ++ le2 n.toNat →
        s.link.mode = .service →
        ∃ t m offerEnd, exec .refire s = .next t ∧ remade t m offerEnd
          ∧ Answers f (.accepted {} (.refired m (tk.generation + 1) offerEnd)) s t
          ∧ (Sound s → LinesSound s → ∃ u v, MakesCopy n.toNat m tk offerEnd (dequeued rest s) u ∧ ReopensGroup g.toNat u v
              ∧ t = settle
                (pushReply ⟨f.tag, f.kind, .accepted {} (.refired m (tk.generation + 1) offerEnd)⟩ v)))
      ∧ (s.passLine.presence = .present → ∃ t m offerEnd, exec (.passRefire g n) s = .next t ∧ remade t m offerEnd
          ∧ (Sound s → LinesSound s → ∃ u v, MakesCopy n.toNat m tk offerEnd s u ∧ ReopensGroup g.toNat u v ∧ t = settle v))

/-- SEND_SHORT: RANGE, MODE, NO_SUCH for a group that is not live, and STATE for a COMPLETE one; an ASSEMBLING group with a READY ticket is COMPLETE
with the short flag, only READY and WITHDRAWN tickets in its list and its pickup time set; a group with none READY is freed with its tickets.  Each
withdrawal is taken whole, in list order, with its stock return, its PULL and its drain; then GROUP_UP and GO, or WITHDRAW and the wave's
completion.  The reply counts the tickets withdrawn (log 14) and those READY (R14, R59, R87, R100, R159, R163). -/
def Obligations.SendShortCompletesOrFreesTheGroup : Prop :=
  ∀ (g : Nat) (f : Frame) (rest : List Frame) (s : State), Takes f rest s → f.kind = 0x1B#8 → f.body = le2 g → g < 65536 →
    (1023 < g → exec .sendShort s = .next (refusedWith f rest .range s))
    ∧ (g ≤ 1023 → s.link.mode = .setup → exec .sendShort s = .next (refusedWith f rest .mode s))
    ∧ (g ≤ 1023 → s.link.mode = .service → group? s g = none → exec .sendShort s = .next (refusedWith f rest .noSuch s))
    ∧ ∀ gr : Group, g ≤ 1023 → s.link.mode = .service → group? s g = some gr →
    let ready := (gr.tickets.filter fun n => decide (InState s .ready n)).length
    let withdrawn := (gr.tickets.filter fun n => decide (¬InState s .ready n ∧ ¬InState s .withdrawn n)).length
    (gr.state = .complete → exec .sendShort s = .next (refusedWith f rest .state s))
    ∧ (Coherent s → gr.state = .assembling → 0 < ready →
        ∃ t, exec .sendShort s = .next t ∧ Answers f (.accepted {} (.sentShort .shortGo withdrawn ready)) s t
          ∧ group? t g = some
              { gr with
                state := .complete, short := true, dieAt := none, pickupAt := some (s.clock + s.link.pickupLimit),
                unpickedReported := false }
          ∧ (∀ n ∈ gr.tickets, InState t (if InState s .ready n then .ready else .withdrawn) n)
          ∧ t.clock = s.clock ∧ t.ticketPool = s.ticketPool ∧ t.groupPool = s.groupPool)
    ∧ (Coherent s → gr.state ≠ .complete → ready = 0 →
        ∃ t, exec .sendShort s = .next t ∧ Answers f (.accepted {} (.sentShort .cancelled withdrawn 0)) s t
          ∧ group? t g = none ∧ (∀ n ∈ gr.tickets, ticket? t n = none)
          ∧ gr.course ∉ (tableRecord t gr.table).liveCourses ∧ t.clock = s.clock)
    ∧ (Sound s → LinesSound s → gr.state = .assembling ∨ gr.state = .pending ∧ ready = 0 →
        ∃ r u v : State, r = { dequeued rest s with groups := r.groups }
          ∧ (∀ h, group? r h = if h = g then some { gr with short := true } else group? s h)
          ∧ WithdrawsEach true gr.tickets r u
          ∧ (0 < ready →
              v = { u with
                groups := v.groups
                passLine := produced (.go g true) (produced (groupShown u g { gr with short := true }) u.passLine) }
              ∧ (∀ h, h ≠ g → group? v h = group? u h)
              ∧ exec .sendShort s = .next
                  (settle (pushReply ⟨f.tag, f.kind, .accepted {} (.sentShort .shortGo withdrawn ready)⟩ v)))
          ∧ (ready = 0 →
              (∃ a, FreesCancelled g u a ∧ Completes gr.wave a v)
              ∧ exec .sendShort s = .next
                  (settle (pushReply ⟨f.tag, f.kind, .accepted {} (.sentShort .cancelled withdrawn 0)⟩ v))))

/-- DIE_EXPIRY of a group whose die time has come: every ticket that is READY with a hold window above 0 that has run out is DEAD in its slot or
replaced there by a rush copy of the next generation.  It is replaced when that generation is at most 2, an entry is free and the stock that
the copies before it have left covers it; otherwise the group is escalated.  The other tickets keep their records and their slots, die_at is
the earliest that remains, DYING and GROUP_UP go to the pass terminal, and the notices end with GROUP_DYING.  The whole of it: the dead are marked,
then each is remade, with the copy's offer, or escalated, before the next; every other ticket, group, station and line stays as these leave it (R11
to R13, R86, R94, R150 to R152, R154); a die time that has come is that of a ticket that has died in every state a run reaches (`TimesTrue`), and the
clause of the whole asks it.  R63 takes the expiry at its own reading; that the command takes it also at a later one is the model's choice
of log 3, and that a copy takes its number while the dead ticket still holds its own is its reading (log 15). -/
def Obligations.DieExpiryReplacesTheDead : Prop :=
  ∀ (g : Nat) (gr : Group) (s : State), Coherent s → g ≤ 1023 → group? s g = some gr → (∃ d ∈ gr.dieAt, d ≤ s.clock) →
    let died : Nat → Bool := fun n => (ticket? s n).any fun tk =>
      decide (tk.state = .ready) && tk.readyAt.any fun r => (s.components.get? tk.component).any fun c =>
        decide (0 < c.holdWindow ∧ r + c.holdWindow ≤ s.clock)
    ∃ t gr', exec (.dieExpiry g) s = .next t ∧ group? t g = some gr' ∧ gr'.tickets.length = gr.tickets.length
      ∧ (∀ n ∈ gr'.tickets, ∀ d, DiesAt t n d → s.clock < d)
      ∧ (∀ (k n : Nat), gr.tickets[k]? = some n → died n = false →
          gr'.tickets[k]? = some n ∧ ticket? t n = ticket? s n)
      ∧ (let drawn : Nat → Nat → Nat := fun k c =>
          ((((gr.tickets.zip gr'.tickets).take k).filter fun e => decide (e.1 ≠ e.2)).flatMap fun e =>
            (ticket? s e.1).toList.map fun tk => if tk.component = c then tk.quantity else 0).sum
        (∀ (k n : Nat) (tk : Ticket), gr.tickets[k]? = some n → died n = true → ticket? s n = some tk →
          let remade := tk.generation < 2 ∧ 0 < s.ticketPool.free
            ∧ ∀ m ∈ stockOf s tk.component, drawn k tk.component + tk.quantity ≤ m
          (¬remade → gr'.tickets[k]? = some n ∧ ticket? t n = some { tk with state := .dead, readyAt := none })
          ∧ (remade → ∃ m copy, gr'.tickets[k]? = some m ∧ m ≠ n ∧ ticket? t m = some copy
              ∧ copy.generation = tk.generation + 1 ∧ copy.rush = true ∧ copy.component = tk.component
              ∧ copy.quantity = tk.quantity ∧ copy.wave = tk.wave ∧ copy.group = g ∧ copy.table = tk.table
              ∧ copy.goTime = tk.goTime ∧ copy.homeStation = tk.homeStation
              ∧ copy.fireTime = fireTimeAt s tk.homeStation tk.component tk.goTime ∧ copy.readyAt = none
              ∧ (copy.state = .queued ∨ copy.state = .onLine ∨ copy.state = .blocked)))
        ∧ (∀ c, stockOf t c = (stockOf s c).map fun m => m - drawn gr.tickets.length c)
        ∧ t.ticketPool = s.ticketPool
        ∧ ((∃ n ∈ gr.tickets, died n = true) →
            gr'.state = gr.state ∧ gr'.pickupAt = gr.pickupAt ∧ EarliestDie t gr'.tickets gr'.dieAt
              ∧ (gr'.escalated = true ↔ gr.escalated = true
                  ∨ ∃ k n : Nat, gr.tickets[k]? = some n ∧ died n = true ∧ gr'.tickets[k]? = some n)
              ∧ (s.link.seq ≤ 4294967295 → t.link.seq = min 4294967295
                  (s.link.seq + ((gr.tickets.zip gr'.tickets).filter fun e => decide (e.1 ≠ e.2)).length))
              ∧ (LineSound s.passLine → t.passLine = produced (groupShown t g gr')
                  ((gr.tickets.filter died).foldl (fun ln n => produced (.dying g n) ln) s.passLine))
              ∧ t.link = (settle (noticedAll
                  (((List.range gr.tickets.length).flatMap fun k =>
                    (gr.tickets[k]?.filter died).toList.flatMap fun n => (ticket? s n).toList.flatMap fun tk =>
                      let escalated := fun (cause : EscalationCause) =>
                        Notice.groupEscalated g tk.wave tk.table n tk.component cause .die
                      if gr'.tickets[k]? ≠ some n then
                        (s.components.get? tk.component).toList.flatMap fun r => r.stock.toList.flatMap fun m =>
                          drawNotices tk.component tk.quantity (m - drawn k tk.component) r.lowLevel
                      else if 2 ≤ tk.generation then [escalated .generation]
                      else if s.ticketPool.free = 0 then [escalated .noTickets]
                      else ((stockOf s tk.component).toList.map fun m =>
                        .stockOut tk.component .short (m - drawn k tk.component) tk.quantity) ++ [escalated .noStock])
                    ++ [.groupDying g gr.wave gr.table (gr.tickets.filter died).length
                      ((gr.tickets.zip gr'.tickets).filter fun e => decide (e.1 ≠ e.2)).length])
                  { s with link := { s.link with seq := t.link.seq } })).link))
      ∧ (gr'.state ≠ .complete → gr'.state = gr.state ∧ gr'.dieAt = earliestDie t gr'.tickets)
      ∧ t.clock = s.clock ∧ t.waves = s.waves ∧ t.calendar = s.calendar
      ∧ (Sound s → LinesSound s → (∃ n ∈ gr.tickets, died n = true) → ∃ u, DieExpires g s u ∧ t = settle u)

/-- PICKUP_EXPIRY of a COMPLETE group whose pickup time has come: GROUP_UNPICKED is queued, the pickup time is cleared and the report is
remembered, the group stays COMPLETE, and nothing else changes (R161).  That before that reading, and for a group that is not COMPLETE,
nothing happens, and that a later reading still takes the expiry, is the model's choice of log 3. -/
def Obligations.PickupExpiryReportsOnce : Prop :=
  ∀ (g : Nat) (gr : Group) (s : State), g ≤ 1023 → group? s g = some gr →
    (∀ p, gr.state = .complete → gr.pickupAt = some p → p ≤ s.clock →
      ∃ groups : Store Group,
        exec (.pickupExpiry g) s = .next
          (settle (pushNotice (.groupUnpicked g gr.wave gr.table gr.short p) { s with groups := groups }))
        ∧ groups.get? g = some { gr with pickupAt := none, unpickedReported := true }
        ∧ ∀ h, h ≠ g → groups.get? h = group? s h)
    ∧ (gr.state ≠ .complete ∨ (∀ p ∈ gr.pickupAt, s.clock < p) → HostSettled s → exec (.pickupExpiry g) s = .next s)

/-- PICKED for a COMPLETE group at a PRESENT pass terminal: the group and its tickets are freed and their entries return, its course leaves the
table's live set, and its wave counts it as short or served, or, ACTIVE or HELD with no live group left, is FREE and leaves the frozen set,
with WAVE_DONE (SERVED) and the counts; the other groups, the engine and the pass terminal are as they were (R23, R58, R59, R87, R91, R160,
R163). -/
def Obligations.PickedFreesTheGroup : Prop :=
  ∀ (g : Number) (gr : Group) (wv : Wave) (s : State), s.passLine.presence = .present → group? s g.toNat = some gr →
    gr.state = .complete → wave? s gr.wave = some wv →
    let ending := if gr.short = true then { wv.ending with short := wv.ending.short + 1 }
      else { wv.ending with served := wv.ending.served + 1 }
    let completes := (wv.state = .active ∨ wv.state = .held) ∧ wv.release.groups ≤ ending.served + ending.short + ending.cancelled
    ∃ t, exec (.picked g) s = .next t ∧ group? t g.toNat = none ∧ (∀ n ∈ gr.tickets, ticket? t n = none)
      ∧ gr.course ∉ (tableRecord t gr.table).liveCourses
      ∧ (∀ u, u ≠ gr.table → tableRecord t u = tableRecord s u)
      ∧ (∀ n, n ∉ gr.tickets → ticket? t n = ticket? s n)
      ∧ (Coherent s → ∀ h, h ≠ g.toNat → group? t h = group? s h)
      ∧ wave? t gr.wave = (if completes then none else some { wv with ending := ending })
      ∧ (∀ v, v ≠ gr.wave → wave? t v = wave? s v)
      ∧ (∀ v, v ∈ t.frozen ↔ ¬(completes ∧ v = gr.wave) ∧ v ∈ s.frozen)
      ∧ t.link = (settle (if completes then pushNotice
          (.waveDone gr.wave .served wv.release.groups ending.served ending.short ending.cancelled) s else s)).link
      ∧ (Coherent s → gr.tickets.length ≤ s.ticketPool.live →
          t.ticketPool =
            ⟨s.ticketPool.free + gr.tickets.length, s.ticketPool.reserved, s.ticketPool.live - gr.tickets.length⟩)
      ∧ (0 < s.groupPool.live →
          t.groupPool = ⟨s.groupPool.free + 1, s.groupPool.reserved, s.groupPool.live - 1⟩)
      ∧ t.clock = s.clock ∧ t.components = s.components ∧ t.stations = s.stations ∧ t.passLine = s.passLine
      ∧ t.calendar = s.calendar ∧ t.engine = s.engine

/-! ## Arithmetic and walks -/

/-- The effective cook time is the stretched cook time rounded up to the next whole second, with the bounds and the examples R69 gives. -/
def Obligations.EffectiveCookTimeRoundsUp : Prop :=
  (∀ d σ : Nat, d * σ ≤ 64 * effectiveCook d σ ∧ 64 * effectiveCook d σ < d * σ + 64
    ∧ effectiveCook d 64 = d
    ∧ (1 ≤ d → d ≤ 5400 → 64 ≤ σ → σ ≤ 128 → 1 ≤ effectiveCook d σ ∧ effectiveCook d σ ≤ 10800)
    ∧ (1 ≤ d → 64 < σ → d + 1 ≤ effectiveCook d σ))
  ∧ effectiveCook 540 64 = 540 ∧ effectiveCook 540 80 = 675 ∧ effectiveCook 540 96 = 810 ∧ effectiveCook 540 128 = 1080
  ∧ effectiveCook 437 65 = 444 ∧ effectiveCook 437 80 = 547 ∧ effectiveCook 437 96 = 656 ∧ effectiveCook 1 65 = 2
  ∧ effectiveCook 5400 128 = 10800

/-- The walk of a region with its fields in range visits each table of its clipped extent once: ascending in FORWARD order, in REVERSE order the exact
reverse, and in SNAKE order row by row, the origin's row ascending and each next row the other way; it visits its whole size, or its clipped size
where it is cut (R24 to R27).  A wave's walk serves the tables that none of the three tests skips, and counts the others by the first test that
does (R29, R30); a table's ticket list gives each component its quantity, planned components first, in the plan's order (R31, R32); and the plan,
the station of a component and the carry of a station are those that the records hold (R1, R4, R104). -/
def Obligations.WalkVisitsTheClippedRegionOnce : Prop :=
  (∀ (fl : Floor) (r : Region), RegionFits fl r →
    (walkOrder fl r).Nodup
    ∧ (walkOrder fl r).length
      = (match r.placement, cutSize fl r with
        | .rect .., some (width, height) => width * height
        | .rect _ _ width height, none => width * height
        | .linear .., some (count, _) => count
        | .linear _ count, none => count)
    ∧ (∀ u, u ∈ walkOrder fl r ↔
        match r.placement with
        | .rect row column width height =>
          ∃ i j, row ≤ i ∧ i < row + height ∧ i < fl.rows ∧ column ≤ j ∧ j < column + width ∧ j < fl.columns
            ∧ u = i * fl.columns + j
        | .linear start count => start ≤ u ∧ u < start + count ∧ u < fl.rows * fl.columns)
    ∧ (r.order = .forward → (walkOrder fl r).Pairwise (· < ·))
    ∧ walkOrder fl { r with order := .reverse } = (walkOrder fl { r with order := .forward }).reverse
    ∧ (r.order = .snake →
        let origin := match r.placement with
          | .rect row _ _ _ => row
          | .linear start _ => start / fl.columns
        (walkOrder fl r).Pairwise fun u v =>
          u / fl.columns < v / fl.columns
            ∨ u / fl.columns = v / fl.columns ∧ if (u / fl.columns - origin) % 2 = 0 then u < v else v < u))
  ∧ (∀ (s : State) (course : Nat) (skipMark : Option Nat) (r : Region) (plan : List ServedTable),
      servedTables s course skipMark r
        = ((walkOrder s.floor r).filter fun u =>
            decide (0 < (tableRecord s u).covers ∧ skipMark ≠ some (tableRecord s u).mark
              ∧ course ∉ (tableRecord s u).liveCourses))
      ∧ planCounts s course skipMark r plan = walkCounts s course skipMark r plan)
  ∧ (∀ (s : State) (c p x : Nat),
      (∀ record ∈ s.components.get? c, componentStation s c = record.station)
      ∧ (∀ plan ∈ s.courses.get? p, coursePlan s p = plan) ∧ ∀ config ∈ (station s x).config, carry s x = config.carry)
  ∧ ∀ (plan : List Nat) (u : TableRecord), plan ≠ [] → plan.length ≤ 8 → plan.Nodup → 1 ≤ u.covers → u.covers ≤ 16 →
      u.substitutions.length ≤ 4 → (u.substitutions.map fun e => (e.source, e.target)).Nodup →
      (∀ e ∈ u.substitutions, e.target ≠ e.source ∧ 1 ≤ e.count ∧ e.count ≤ 16
        ∧ ((u.substitutions.filter fun d => decide (d.source = e.source)).map Substitution.count).sum ≤ u.covers) →
      let counts := fun (p : Substitution → Bool) => ((u.substitutions.filter p).map Substitution.count).sum
      let gained := fun c => counts fun e => decide (e.source ∈ plan ∧ e.target = c)
      let list := ticketList plan u
      (∀ c q, (c, q) ∈ list ↔ 0 < q
        ∧ (c ∈ plan ∧ q = u.covers - counts (fun e => decide (e.source = c)) + gained c ∨ c ∉ plan ∧ q = gained c))
      ∧ (list.map Prod.snd).sum = u.covers * plan.length ∧ 1 ≤ list.length ∧ list.length ≤ 12
      ∧ (∀ e ∈ list, 1 ≤ e.2 ∧ e.2 ≤ 80) ∧ (list.map Prod.fst).Nodup
      ∧ ∃ substituted,
          list.map Prod.fst
            = (plan.filter fun c => decide (0 < u.covers - counts (fun e => decide (e.source = c)) + gained c)) ++ substituted
          ∧ substituted.Pairwise fun c d =>
              (u.substitutions.findIdx fun e => decide (e.source ∈ plan ∧ e.target = c))
                < u.substitutions.findIdx fun e => decide (e.source ∈ plan ∧ e.target = d)

/-! ## Invariants that every step keeps -/

/-- Whatever the part does, the ticket counts sum to 4096 and the plate-group counts to 1024 (R83, R146). -/
def Obligations.PoolSumsAreKept : Prop :=
  ∀ s t : State, PoolsWhole s → step s = .next t → PoolsWhole t

/-- Whatever the part does, every line link stays sound: at most 32 records, none waiting at an idle transmitter or an ABSENT terminal, and a
pending refresh only while something is being sent, with the queue empty; and so does the host link: the input buffer, the reply queue
and the notice queue keep their capacities, an idle transmitter has nothing waiting, and the sequence counter keeps its range (R80,
R121, R122, R124, R171, R172, R175). -/
def Obligations.LinksStaySound : Prop :=
  ∀ s t : State, LinesSound s ∧ LinkSound s → step s = .next t → LinesSound t ∧ LinkSound t

/-- Whatever the part does, the frozen waves are the HELD ones, hold_since and reservations stand only where they may, and the one RELEASING
wave is the one that the RUNNING engine serves (R34, R44, R48, R91). -/
def Obligations.WaveTableStaysConsistent : Prop :=
  ∀ s t : State, WavesConsistent s → step s = .next t → WavesConsistent t

/-- Whatever the part does, the clock, the accumulators and the tracked counts keep their ranges, every store keeps its canonical form, a
station that has not been defined stays NORMAL with accumulator 0 and no sample to come, and every table holds its live courses in
ascending order (R1, R22, R62, R130, R131, R142, R144). -/
def Obligations.CountersAndStoresStayInForm : Prop :=
  (∀ s t : State, CountersInRange s ∧ StoresCanonical s → step s = .next t → CountersInRange t ∧ StoresCanonical t)
    ∧ (∀ s t : State, UndefinedAtRest s → step s = .next t → UndefinedAtRest t)
    ∧ ∀ s t : State, LiveCoursesAscend s → step s = .next t → LiveCoursesAscend t

/-- Whatever the part does, every place that holds a ticket agrees with that ticket's record: the calendar, the blocked lists, the queues, the cook
positions and the groups' lists; every live ticket stands in its group's list; and a COMPLETE group holds READY and WITHDRAWN tickets alone.  And so
does, with the stores in canonical form, the whole of it: every live ticket stands in the place its state names, calendar and blocked lists in their
order, the wave table is consistent, and pools, ending counts and live courses count the live records.  Beside it the bounds are kept: ticket and
group numbers, generations at most 3, a READY ticket in every COMPLETE group, k positions at each station, the queue within its limit and holding
a ticket only while all positions are taken; and the times: no ticket that is not frozen is CALENDARED behind the clock, every die_at is the
earliest of its group's READY tickets, and tickets have their group's go time (R23, R35, R80, R81, R83, R88, R91, R96, R107, R108, R145, R146,
R149, R150, R152).  That the law of R88 reads "at or after the clock" here, and not after it, is the model's: a tick is an event of its own, and the
fire expiry of the reading it begins may still be to come (log 4). -/
def Obligations.TicketPlacesStayCoherent : Prop :=
  (∀ s t : State, Coherent s → step s = .next t → Coherent t)
    ∧ (∀ s t : State, Sound s ∧ StoresCanonical s → step s = .next t → Sound t ∧ StoresCanonical t)
    ∧ ∀ s t : State, Sound s ∧ StoresCanonical s ∧ WithinBounds s ∧ TimesTrue s → step s = .next t →
        WithinBounds t ∧ TimesTrue t

/-- The reset state meets every invariant. -/
def Obligations.ResetMeetsTheInvariants : Prop :=
  PoolsWhole State.reset ∧ LinesSound State.reset ∧ LinkSound State.reset ∧ WavesConsistent State.reset
    ∧ CountersInRange State.reset ∧ StoresCanonical State.reset ∧ UndefinedAtRest State.reset ∧ Sound State.reset
    ∧ LiveCoursesAscend State.reset ∧ WithinBounds State.reset ∧ TimesTrue State.reset
end

