-- ==== Sys2Proof/Laws/Bodies.lean ====
section
/-!
SUPPORT. What each reader of a request's body takes: exactly the bodies laid out for its fields, and these fields (R174, R188).
-/

namespace Sys2Proof.Machine

/-! ## Numbers -/

/-- A byte is below 256. -/
theorem num1_lt (a : Byte) : num1 a < 256 := a.isLt

/-- Two bytes are below 65536. -/
theorem num2_lt (a b : Byte) : num2 a b < 65536 := by
  have := a.isLt
  have := b.isLt
  simp only [num2]
  omega

/-- Four bytes are below 2 to the 32. -/
theorem num4_lt (a b c d : Byte) : num4 a b c d < 4294967296 := by
  have := a.isLt
  have := b.isLt
  have := c.isLt
  have := d.isLt
  simp only [num4]
  omega

/-- The byte of a byte read. -/
theorem le1_num1 (a : Byte) : le1 (num1 a) = [a] := by
  simp [le1, num1]

/-- The bytes of two bytes read. -/
theorem le2_num2 (a b : Byte) : le2 (num2 a b) = [a, b] := by
  have := a.isLt
  have := b.isLt
  simp only [le2, num2, List.cons.injEq, and_true]
  constructor <;> apply BitVec.eq_of_toNat_eq <;> simp only [BitVec.toNat_ofNat] <;> omega

/-- The bytes of four bytes read. -/
theorem le4_num4 (a b c d : Byte) : le4 (num4 a b c d) = [a, b, c, d] := by
  have := a.isLt
  have := b.isLt
  have := c.isLt
  have := d.isLt
  simp only [le4, num4, List.cons.injEq, and_true]
  refine ⟨?_, ?_, ?_, ?_⟩ <;> apply BitVec.eq_of_toNat_eq <;> simp only [BitVec.toNat_ofNat] <;> omega

/-- A number below 256 is read from its byte. -/
theorem num1_ofNat {n : Nat} (h : n < 256) : num1 (BitVec.ofNat 8 n) = n := by
  simp only [num1, BitVec.toNat_ofNat]
  omega

/-- A number below 65536 is read from its two bytes. -/
theorem num2_ofNat {n : Nat} (h : n < 65536) : num2 (BitVec.ofNat 8 n) (BitVec.ofNat 8 (n / 256)) = n := by
  simp only [num2, BitVec.toNat_ofNat]
  omega

/-- A number below 2 to the 32 is read from its four bytes. -/
theorem num4_ofNat {n : Nat} (h : n < 4294967296) :
    num4 (BitVec.ofNat 8 n) (BitVec.ofNat 8 (n / 256)) (BitVec.ofNat 8 (n / 65536)) (BitVec.ofNat 8 (n / 16777216)) = n := by
  simp only [num4, BitVec.toNat_ofNat]
  omega

/-! ## Bodies of numbers -/

/-- A body of one one-byte number. -/
theorem readOne_eq {b : List Byte} {n : Nat} : readOne b = some n ↔ n < 256 ∧ b = le1 n := by
  constructor
  · intro h
    unfold readOne at h
    split at h <;> cases h
    exact ⟨num1_lt _, (le1_num1 _).symm⟩
  · rintro ⟨h, rfl⟩
    simp [le1, readOne, num1_ofNat h]

/-- A body of one two-byte number. -/
theorem readTwo_eq {b : List Byte} {n : Nat} : readTwo b = some n ↔ n < 65536 ∧ b = le2 n := by
  constructor
  · intro h
    unfold readTwo at h
    split at h <;> cases h
    exact ⟨num2_lt _ _, (le2_num2 _ _).symm⟩
  · rintro ⟨h, rfl⟩
    simp [le2, readTwo, num2_ofNat h]

/-- A body of one four-byte number. -/
theorem readFour_eq {b : List Byte} {n : Nat} : readFour b = some n ↔ n < 4294967296 ∧ b = le4 n := by
  constructor
  · intro h
    unfold readFour at h
    split at h <;> cases h
    exact ⟨num4_lt _ _ _ _, (le4_num4 _ _ _ _).symm⟩
  · rintro ⟨h, rfl⟩
    simp [le4, readFour, num4_ofNat h]

/-- A REFIRE body. -/
theorem readRefire_eq {b : List Byte} {g n : Nat} :
    readRefire b = some (g, n) ↔ g < 65536 ∧ n < 65536 ∧ b = le2 g ++ le2 n := by
  constructor
  · intro h
    unfold readRefire at h
    split at h <;> cases h
    exact ⟨num2_lt _ _, num2_lt _ _, by simp [le2_num2]⟩
  · rintro ⟨hg, hn, rfl⟩
    simp [le2, readRefire, num2_ofNat hg, num2_ofNat hn]

/-- A DEFINE_FLOOR body. -/
theorem readFloor_eq {b : List Byte} {r c : Nat} :
    readFloor b = some (r, c) ↔ r < 256 ∧ c < 256 ∧ b = le1 r ++ le1 c := by
  constructor
  · intro h
    unfold readFloor at h
    split at h <;> cases h
    exact ⟨num1_lt _, num1_lt _, by simp [le1_num1]⟩
  · rintro ⟨hr, hc, rfl⟩
    simp [le1, readFloor, num1_ofNat hr, num1_ofNat hc]

/-! ## Bodies with optional fields -/

/-- A BEGIN_SERVICE body. -/
theorem readBegin_eq {b : List Byte} {o : Option Nat} : readBegin b = some o ↔ fitsBelow 65536 o ∧ b = beginBody o := by
  constructor
  · intro h
    unfold readBegin at h
    split at h
    · split at h <;> cases h
      subst_vars
      exact ⟨by simp [fitsBelow], by simp [beginBody, presenceByte, optional, le1]⟩
    · split at h <;> cases h
      subst_vars
      exact ⟨by simp [fitsBelow, num2_lt], by simp [beginBody, presenceByte, optional, le1, le2_num2]⟩
    · cases h
  · rintro ⟨h, rfl⟩
    cases o with
    | none => simp [beginBody, presenceByte, optional, le1, readBegin]
    | some v => simp [beginBody, presenceByte, optional, le1, le2, readBegin, num2_ofNat (h v rfl)]

/-- A RESUME_WAVE body. -/
theorem readResume_eq {b : List Byte} {w : Nat} {o : Option Nat} :
    readResume b = some (w, o) ↔ w < 256 ∧ fitsBelow 4294967296 o ∧ b = resumeBody w o := by
  constructor
  · intro h
    unfold readResume at h
    split at h
    · split at h <;> cases h
      subst_vars
      exact ⟨num1_lt _, by simp [fitsBelow], by simp [resumeBody, presenceByte, optional, le1, num1]⟩
    · split at h <;> cases h
      subst_vars
      exact ⟨num1_lt _, by simp [fitsBelow, num4_lt], by simp [resumeBody, presenceByte, optional, le1, num1, le4_num4]⟩
    · cases h
  · rintro ⟨hw, h, rfl⟩
    cases o with
    | none => simp [resumeBody, presenceByte, optional, le1, readResume, num1_ofNat hw]
    | some v => simp [resumeBody, presenceByte, optional, le1, le4, readResume, num1_ofNat hw, num4_ofNat (h v rfl)]

/-- A DEFINE_STATION body. -/
theorem readStation_eq {b : List Byte} {x : Nat} {c : StationConfig} :
    readStation b = some (x, c) ↔ stationFits x c ∧ b = stationBody x c := by
  constructor
  · intro h
    unfold readStation at h
    split at h
    · split at h <;> cases h
      subst_vars
      exact ⟨by simp [stationFits, fitsBelow, num1_lt, num2_lt],
        by simp [stationBody, presenceByte, optional, le1_num1, le2_num2]; rfl⟩
    · split at h <;> cases h
      subst_vars
      exact ⟨by simp [stationFits, fitsBelow, num1_lt, num2_lt],
        by simp [stationBody, presenceByte, optional, le1_num1, le2_num2]; rfl⟩
    · cases h
  · rintro ⟨⟨hx, hk, hq, hc, hd, ht, hs, hw, ha⟩, rfl⟩
    cases c with
    | mk k q cy al d t cs w =>
      cases al with
      | none =>
        simp_all [stationBody, presenceByte, optional, le1, le2, readStation, num1_ofNat, num2_ofNat]
      | some a =>
        simp_all [stationBody, presenceByte, optional, le1, le2, readStation, num1_ofNat, num2_ofNat, fitsBelow]

/-- A DEFINE_COMPONENT body. -/
theorem readComponent_eq {b : List Byte} {c : Nat} {r : Component} :
    readComponent b = some (c, r) ↔ componentFits c r ∧ b = componentBody c r := by
  constructor
  · intro h
    unfold readComponent at h
    split at h
    · split at h <;> cases h
      subst_vars
      exact ⟨by simp [componentFits, fitsBelow, num1_lt, num2_lt],
        by simp [componentBody, presenceByte, optional, le1_num1, le2_num2]; rfl⟩
    · split at h
      · cases h
        subst_vars
        exact ⟨by simp [componentFits, fitsBelow, num1_lt, num2_lt],
          by simp [componentBody, presenceByte, optional, le1_num1, le2_num2]; rfl⟩
      · split at h <;> cases h
        subst_vars
        exact ⟨by simp [componentFits, fitsBelow, num1_lt, num2_lt],
          by simp [componentBody, presenceByte, optional, le1_num1, le2_num2]; rfl⟩
    · split at h <;> cases h
      subst_vars
      exact ⟨by simp [componentFits, fitsBelow, num1_lt, num2_lt],
        by simp [componentBody, presenceByte, optional, le1_num1, le2_num2]; rfl⟩
    · cases h
  · rintro ⟨⟨hc, hx, hd, hw, hs, hl⟩, rfl⟩
    cases r with
    | mk x d w stock low =>
      cases stock <;> cases low <;>
        simp_all [componentBody, presenceByte, optional, le1, le2, readComponent, num1_ofNat, num2_ofNat, fitsBelow]

/-! ## Bodies with lists -/

/-- A list of two-byte numbers. -/
theorem readNumbers_eq : ∀ {n : Nat} {b : List Byte} {ns : List Nat},
    readNumbers n b = some ns ↔ ns.length = n ∧ (∀ c ∈ ns, c < 65536) ∧ b = ns.flatMap le2 := by
  intro n
  induction n with
  | zero =>
    intro b ns
    cases b <;> cases ns <;> simp [readNumbers, le2]
  | succ n ih =>
    intro b ns
    match b with
    | [] => cases ns <;> simp [readNumbers, le2]
    | [a] => cases ns <;> simp [readNumbers, le2]
    | a :: c :: rest =>
      simp only [readNumbers, Option.map_eq_some_iff]
      constructor
      · rintro ⟨ms, h, rfl⟩
        obtain ⟨hl, hb, rfl⟩ := ih.mp h
        exact ⟨by simp [hl], by simpa [num2_lt] using hb, by simp [le2_num2]⟩
      · rintro ⟨hl, hb, h⟩
        cases ns with
        | nil => cases hl
        | cons m ms =>
          simp only [List.mem_cons, forall_eq_or_imp] at hb
          simp only [List.flatMap_cons, le2, List.cons_append, List.nil_append, List.cons.injEq] at h
          obtain ⟨rfl, rfl, rfl⟩ := h
          exact ⟨ms, ih.mpr ⟨by simpa using hl, hb.2, rfl⟩, by simp [num2_ofNat hb.1]⟩

/-- A DEFINE_COURSE body. -/
theorem readCourse_eq {b : List Byte} {p : Nat} {cs : List Nat} :
    readCourse b = some (p, cs) ↔ p < 256 ∧ cs.length < 256 ∧ (∀ c ∈ cs, c < 65536) ∧ b = courseBody p cs := by
  constructor
  · intro h
    unfold readCourse at h
    split at h
    · obtain ⟨ns, hn, he⟩ := Option.map_eq_some_iff.mp h
      cases he
      obtain ⟨hl, hb, rfl⟩ := readNumbers_eq.mp hn
      exact ⟨num1_lt _, by rw [hl]; exact num1_lt _, hb, by simp [courseBody, leList, hl, le1_num1]⟩
    · cases h
  · rintro ⟨hp, hl, hb, rfl⟩
    simp only [courseBody, leList, le1, List.cons_append, List.nil_append, readCourse, num1_ofNat hl, num1_ofNat hp]
    simp [readNumbers_eq.mpr ⟨rfl, hb, rfl⟩]

/-- A list of substitution entries. -/
theorem readEntries_eq : ∀ {n : Nat} {b : List Byte} {es : List Substitution},
    readEntries n b = some es ↔ es.length = n ∧ (∀ e ∈ es, e.source < 65536 ∧ e.target < 65536 ∧ e.count < 256)
      ∧ b = es.flatMap fun e => le2 e.source ++ le2 e.target ++ le1 e.count := by
  intro n
  induction n with
  | zero =>
    intro b es
    cases b <;> cases es <;> simp [readEntries, le2]
  | succ n ih =>
    intro b es
    match b with
    | [] => cases es <;> simp [readEntries, le2]
    | [_] => cases es <;> simp [readEntries, le2]
    | [_, _] => cases es <;> simp [readEntries, le2]
    | [_, _, _] => cases es <;> simp [readEntries, le2]
    | [_, _, _, _] => cases es <;> simp [readEntries, le2, le1]
    | b0 :: b1 :: b2 :: b3 :: b4 :: rest =>
      simp only [readEntries, Option.map_eq_some_iff]
      constructor
      · rintro ⟨ms, h, rfl⟩
        obtain ⟨hl, hb, rfl⟩ := ih.mp h
        exact ⟨by simp [hl], by simpa [num2_lt, num1_lt] using hb, by simp [le2_num2, le1_num1]⟩
      · rintro ⟨hl, hb, h⟩
        cases es with
        | nil => cases hl
        | cons m ms =>
          simp only [List.mem_cons, forall_eq_or_imp] at hb
          simp only [List.flatMap_cons, le2, le1, List.cons_append, List.nil_append, List.cons.injEq] at h
          obtain ⟨rfl, rfl, rfl, rfl, rfl, rfl⟩ := h
          exact ⟨ms, ih.mpr ⟨by simpa using hl, hb.2, by simp [le2, le1]⟩,
            by simp [num2_ofNat hb.1.1, num2_ofNat hb.1.2.1, num1_ofNat hb.1.2.2]⟩

/-- A SET_TABLE body. -/
theorem readTable_eq {b : List Byte} {g : TableForm} : readTable b = some g ↔ tableFits g ∧ b = tableBody g := by
  constructor
  · intro h
    unfold readTable at h
    split at h
    · obtain ⟨es, hn, rfl⟩ := Option.map_eq_some_iff.mp h
      obtain ⟨hl, hb, rfl⟩ := readEntries_eq.mp hn
      exact ⟨⟨num2_lt _ _, num1_lt _, num1_lt _, by rw [hl]; exact num1_lt _, hb⟩,
        by simp [tableBody, leList, hl, le1_num1, le2_num2]⟩
    · cases h
  · rintro ⟨⟨ht, hc, hm, hl, hb⟩, rfl⟩
    have he := readEntries_eq.mpr ⟨rfl, hb, rfl⟩
    simp only [tableBody, leList, le1, le2, List.cons_append, List.nil_append] at he ⊢
    simp [readTable, num1_ofNat hl, num1_ofNat hc, num1_ofNat hm, num2_ofNat ht, he]

/-! ## Regions and operations -/

/-- A region has eight bytes. -/
theorem regionBytes_eight (r : Region) : ∃ b0 b1 b2 b3 b4 b5 b6 b7, regionBytes r = [b0, b1, b2, b3, b4, b5, b6, b7] := by
  cases r with
  | mk p o => cases p <;> exact ⟨_, _, _, _, _, _, _, _, rfl⟩

/-- An operation is spelt in three bytes. -/
theorem spellsMarkOp_three {op : MarkOp} {b : List Byte} (h : spellsMarkOp op b) : ∃ c u v, b = [c, u, v] := by
  cases op with
  | setMark m =>
    obtain ⟨w, rfl⟩ := h
    exact ⟨_, _, _, rfl⟩
  | replace m n => exact ⟨_, _, _, h⟩
  | clear =>
    obtain ⟨w, z, rfl⟩ := h
    exact ⟨_, _, _, rfl⟩

/-- A region's eight bytes. -/
theorem readRegion_eq {b0 b1 b2 b3 b4 b5 b6 b7 : Byte} {r : Region} :
    readRegion b0 b1 b2 b3 b4 b5 b6 b7 = some r
      ↔ placementFits r.placement ∧ [b0, b1, b2, b3, b4, b5, b6, b7] = regionBytes r := by
  constructor
  · intro h
    unfold readRegion at h
    split at h
    · cases h
    · rename_i o ho
      have hb : b1 = BitVec.ofNat 8 o.code := by
        unfold orderOfCode at ho
        split at ho
        · cases ho; assumption
        · split at ho
          · cases ho; assumption
          · split at ho <;> cases ho; assumption
      split at h
      · cases h
        subst_vars
        exact ⟨⟨num2_lt _ _, num2_lt _ _, num1_lt _, num1_lt _⟩, by simp [regionBytes, le2_num2, le1_num1]; simp [le1]⟩
      · split at h
        · rename_i hs
          obtain ⟨rfl, rfl, rfl⟩ := hs
          cases h
          subst_vars
          exact ⟨⟨num2_lt _ _, num2_lt _ _⟩, by simp [regionBytes, le2_num2]; simp [le1]⟩
        · cases h
  · rintro ⟨hf, h⟩
    have ho : orderOfCode (BitVec.ofNat 8 r.order.code) = some r.order := by
      cases r.order <;> rfl
    cases r with
    | mk p o =>
      cases p with
      | rect row column width height =>
        obtain ⟨h1, h2, h3, h4⟩ := hf
        simp only [regionBytes, le1, le2, List.cons_append, List.nil_append, List.cons.injEq, and_true] at h
        obtain ⟨rfl, rfl, rfl, rfl, rfl, rfl, rfl, rfl⟩ := h
        simp [readRegion, ho, num2_ofNat h1, num2_ofNat h2, num1_ofNat h3, num1_ofNat h4]
      | linear start count =>
        obtain ⟨h1, h2⟩ := hf
        simp only [regionBytes, le1, le2, List.cons_append, List.nil_append, List.cons.injEq, and_true] at h
        obtain ⟨rfl, rfl, rfl, rfl, rfl, rfl, rfl, rfl⟩ := h
        simp [readRegion, ho, num2_ofNat h1, num2_ofNat h2]

/-- The three bytes of a MARK_TABLES operation. -/
theorem markOfCode_eq {c u v : Byte} {op : MarkOp} :
    markOfCode c u v = some op ↔ markOpFits op ∧ spellsMarkOp op [c, u, v] := by
  constructor
  · intro h
    unfold markOfCode at h
    split at h
    · cases h
      exact ⟨num1_lt _, v, by simp [le1_num1, *]; rfl⟩
    · split at h
      · cases h
        exact ⟨⟨num1_lt _, num1_lt _⟩, by simp [spellsMarkOp, le1_num1, *]; rfl⟩
      · split at h <;> cases h
        exact ⟨trivial, u, v, by simp [*]; rfl⟩
  · rintro ⟨hf, h⟩
    cases op with
    | setMark m =>
      obtain ⟨w, h⟩ := h
      simp only [le1, List.cons_append, List.nil_append, List.cons.injEq, and_true] at h
      obtain ⟨rfl, rfl, rfl⟩ := h
      simp [markOfCode, num1_ofNat hf]
    | replace m n =>
      simp only [spellsMarkOp, le1, List.cons_append, List.nil_append, List.cons.injEq, and_true] at h
      obtain ⟨rfl, rfl, rfl⟩ := h
      simp [markOfCode, num1_ofNat hf.1, num1_ofNat hf.2]
    | clear =>
      obtain ⟨w, z, h⟩ := h
      simp only [le1, List.cons_append, List.nil_append, List.cons.injEq, and_true] at h
      obtain ⟨rfl, rfl, rfl⟩ := h
      simp [markOfCode]

/-- A MARK_TABLES body. -/
theorem readMarks_eq {b : List Byte} {r : Region} {op : MarkOp} :
    readMarks b = some (r, op)
      ↔ ∃ spelt, placementFits r.placement ∧ markOpFits op ∧ spellsMarkOp op spelt ∧ b = regionBytes r ++ spelt := by
  constructor
  · intro h
    unfold readMarks at h
    split at h
    · split at h <;> cases h
      rename_i hr ho
      obtain ⟨hp, hr⟩ := readRegion_eq.mp hr
      obtain ⟨hm, ho⟩ := markOfCode_eq.mp ho
      exact ⟨_, hp, hm, ho, by rw [← hr]; rfl⟩
    · cases h
  · rintro ⟨spelt, hp, hm, ho, rfl⟩
    obtain ⟨c, u, v, rfl⟩ := spellsMarkOp_three ho
    obtain ⟨b0, b1, b2, b3, b4, b5, b6, b7, hb⟩ := regionBytes_eight r
    simp [hb, readMarks, readRegion_eq.mpr ⟨hp, hb.symm⟩, markOfCode_eq.mpr ⟨hm, ho⟩]

/-- A RESTOCK body. -/
theorem readRestock_eq {b : List Byte} {c n : Nat} {op : RestockOp} :
    readRestock b = some (c, op, n) ↔ c < 65536 ∧ n < 65536 ∧ b = le2 c ++ restockOpBytes op ++ le2 n := by
  constructor
  · intro h
    unfold readRestock at h
    split at h
    · obtain ⟨o, ho, he⟩ := Option.map_eq_some_iff.mp h
      cases he
      refine ⟨num2_lt _ _, num2_lt _ _, ?_⟩
      unfold restockOfCode at ho
      split at ho
      · cases ho
        simp [le2_num2, restockOpBytes, *]
        rfl
      · split at ho <;> cases ho
        simp [le2_num2, restockOpBytes, *]
        rfl
    · cases h
  · rintro ⟨hc, hn, rfl⟩
    cases op <;> simp [le2, restockOpBytes, le1, readRestock, restockOfCode, num2_ofNat hc, num2_ofNat hn]

/-- A STAGE_WAVE body. -/
theorem readStage_eq {b : List Byte} {g : StageForm} : readStage b = some g ↔ stageFits g ∧ b = stageBody g := by
  constructor
  · intro h
    unfold readStage at h
    split at h
    · split at h
      · obtain ⟨r, hr, rfl⟩ := Option.map_eq_some_iff.mp h
        obtain ⟨hp, hb⟩ := readRegion_eq.mp hr
        subst_vars
        exact ⟨⟨num1_lt _, num1_lt _, num4_lt _ _ _ _, num1_lt _, by simp [fitsBelow], hp⟩,
          by simp [stageBody, ← hb, presenceByte, optional, le1_num1, le4_num4]; rfl⟩
      · cases h
    · split at h
      · obtain ⟨r, hr, rfl⟩ := Option.map_eq_some_iff.mp h
        obtain ⟨hp, hb⟩ := readRegion_eq.mp hr
        subst_vars
        exact ⟨⟨num1_lt _, num1_lt _, num4_lt _ _ _ _, num1_lt _, by simp [fitsBelow, num1_lt], hp⟩,
          by simp [stageBody, ← hb, presenceByte, optional, le1_num1, le4_num4]; rfl⟩
      · cases h
    · cases h
  · rintro ⟨⟨hw, hc, hg, hs, hm, hp⟩, rfl⟩
    obtain ⟨b0, b1, b2, b3, b4, b5, b6, b7, hb⟩ := regionBytes_eight g.region
    have hr := readRegion_eq.mpr ⟨hp, hb.symm⟩
    cases g with
    | mk w c r go st m =>
      cases m with
      | none =>
        simp_all [stageBody, presenceByte, optional, le1, le4, readStage, num1_ofNat, num4_ofNat]
      | some m =>
        simp_all [stageBody, presenceByte, optional, le1, le4, readStage, num1_ofNat, num4_ofNat, fitsBelow]

end Sys2Proof.Machine
end

