-- ==== Sys2Proof/Laws/Store.lean ====
section
/-!
SUPPORT. Laws of stores and of ordered lists of numbers: read after write, the canonical form, and membership.
-/

namespace Sys2Proof.Machine

/-! ## Read after write -/

@[simp] theorem Store.get?_nil {α : Type} (n : Nat) : Store.get? ([] : Store α) n = none := rfl

theorem Store.get?_cons {α : Type} (k : Nat) (a : α) (m : Store α) (n : Nat) :
    Store.get? ((k, a) :: m) n = if k = n then some a else Store.get? m n := rfl

@[simp] theorem Store.get?_set_self {α : Type} (m : Store α) (n : Nat) (a : α) : (m.set n a).get? n = some a := by
  induction m with
  | nil => simp [Store.set, Store.get?]
  | cons e m ih =>
    obtain ⟨k, b⟩ := e
    simp only [Store.set]
    split
    · simp [Store.get?]
    · split
      · simp [Store.get?]
      · rw [Store.get?_cons, if_neg (by omega), ih]

theorem Store.get?_set_of_ne {α : Type} (m : Store α) {n l : Nat} (a : α) (h : l ≠ n) :
    (m.set n a).get? l = m.get? l := by
  induction m with
  | nil => simp [Store.set, Store.get?, Ne.symm h]
  | cons e m ih =>
    obtain ⟨k, b⟩ := e
    simp only [Store.set]
    split
    · simp [Store.get?, Ne.symm h]
    · split
      · subst_vars; simp [Store.get?, Ne.symm h]
      · rw [Store.get?_cons, Store.get?_cons, ih]

@[simp] theorem Store.get?_erase_self {α : Type} (m : Store α) (n : Nat) : (m.erase n).get? n = none := by
  induction m with
  | nil => rfl
  | cons e m ih =>
    obtain ⟨k, b⟩ := e
    by_cases h : k = n
    · simpa [Store.erase, h] using ih
    · simpa [Store.erase, h, Store.get?_cons] using ih

theorem Store.get?_erase_of_ne {α : Type} (m : Store α) {n l : Nat} (h : l ≠ n) : (m.erase n).get? l = m.get? l := by
  induction m with
  | nil => rfl
  | cons e m ih =>
    obtain ⟨k, b⟩ := e
    have ih : Store.get? (List.filter (fun e => decide (e.1 ≠ n)) m) l = Store.get? m l := ih
    by_cases hk : k = n
    · subst hk
      simp only [Store.erase, List.filter_cons, ne_eq, not_true_eq_false, decide_false, Bool.false_eq_true, if_false]
      rw [ih, Store.get?_cons, if_neg (Ne.symm h)]
    · simp only [Store.erase, List.filter_cons, ne_eq, hk, not_false_eq_true, decide_true, if_true]
      rw [Store.get?_cons, Store.get?_cons, ih]

theorem Store.get?_update_self {α : Type} (m : Store α) (n : Nat) (f : α → α) :
    (m.update n f).get? n = (m.get? n).map f := by
  unfold Store.update
  split <;> simp_all

theorem Store.get?_update_of_ne {α : Type} (m : Store α) {n l : Nat} (f : α → α) (h : l ≠ n) :
    (m.update n f).get? l = m.get? l := by
  unfold Store.update
  split
  · exact Store.get?_set_of_ne m _ h
  · rfl

/-- One record of an updated store. -/
theorem Store.get?_update {α : Type} (m : Store α) (n l : Nat) (f : α → α) :
    (m.update n f).get? l = if l = n then (m.get? l).map f else m.get? l := by
  split
  · subst_vars; exact Store.get?_update_self m _ f
  · exact Store.get?_update_of_ne m f ‹_›

/-- An update neither adds nor removes a record. -/
@[simp] theorem Store.isSome_get?_update {α : Type} (m : Store α) (n l : Nat) (f : α → α) :
    ((m.update n f).get? l).isSome = (m.get? l).isSome := by
  rw [Store.get?_update]; split <;> simp

/-! ## Entries -/

/-- A record that is read is an entry of the store. -/
theorem Store.mem_of_get? {α : Type} {m : Store α} {n : Nat} {a : α} (h : m.get? n = some a) : (n, a) ∈ m := by
  induction m with
  | nil => simp at h
  | cons e m ih =>
    obtain ⟨k, b⟩ := e
    rw [Store.get?_cons] at h
    split at h
    · simp_all
    · exact List.mem_cons_of_mem _ (ih h)

/-- The entries of a written store. -/
theorem Store.mem_set {α : Type} {m : Store α} {n : Nat} {a : α} {e : Nat × α} (h : e ∈ m.set n a) : e = (n, a) ∨ e ∈ m := by
  induction m with
  | nil => simpa [Store.set] using h
  | cons d m ih =>
    obtain ⟨k, b⟩ := d
    simp only [Store.set] at h
    split at h
    · simpa using h
    · split at h
      · simp only [List.mem_cons] at h ⊢; tauto
      · simp only [List.mem_cons] at h ⊢
        rcases h with h | h
        · tauto
        · rcases ih h with h | h <;> tauto

theorem Store.mem_erase {α : Type} {m : Store α} {n : Nat} {e : Nat × α} : e ∈ m.erase n ↔ e ∈ m ∧ e.1 ≠ n := by
  simp [Store.erase]

/-- The entries of an updated store. -/
theorem Store.mem_update {α : Type} {m : Store α} {n : Nat} {f : α → α} {e : Nat × α} (h : e ∈ m.update n f) :
    e ∈ m ∨ ∃ a, m.get? n = some a ∧ e = (n, f a) := by
  unfold Store.update at h
  split at h
  · rcases Store.mem_set h with h | h
    · exact .inr ⟨_, ‹_›, h⟩
    · exact .inl h
  · exact .inl h

/-! ## The canonical form -/

/-- The numbers of a rising store rise. -/
theorem Store.rising_iff {α : Type} (m : Store α) : m.rising = true ↔ m.Pairwise fun d e => d.1 < e.1 := by
  induction m with
  | nil => simp [Store.rising]
  | cons e m ih =>
    obtain ⟨k, a⟩ := e
    cases m with
    | nil => simp [Store.rising]
    | cons d m =>
      obtain ⟨l, b⟩ := d
      simp only [Store.rising, Bool.and_eq_true, decide_eq_true_eq, ih]
      constructor
      · rintro ⟨h, hp⟩
        refine List.pairwise_cons.2 ⟨fun e he => ?_, hp⟩
        rcases List.mem_cons.1 he with rfl | he
        · exact h
        · exact lt_trans h ((List.pairwise_cons.1 hp).1 e he)
      · intro hp
        exact ⟨(List.pairwise_cons.1 hp).1 _ (List.mem_cons_self ..), (List.pairwise_cons.1 hp).2⟩

theorem Store.rising_set {α : Type} {m : Store α} (n : Nat) (a : α) (h : m.rising = true) : (m.set n a).rising = true := by
  rw [Store.rising_iff] at h ⊢
  induction m with
  | nil => simp [Store.set]
  | cons e m ih =>
    obtain ⟨k, b⟩ := e
    obtain ⟨hk, hm⟩ := List.pairwise_cons.1 h
    simp only [Store.set]
    split
    · refine List.pairwise_cons.2 ⟨fun e he => ?_, h⟩
      rcases List.mem_cons.1 he with rfl | he
      · assumption
      · exact lt_trans ‹n < k› (hk e he)
    · split
      · subst_vars; exact List.pairwise_cons.2 ⟨hk, hm⟩
      · refine List.pairwise_cons.2 ⟨fun e he => ?_, ih hm⟩
        rcases Store.mem_set he with rfl | he
        · exact Nat.lt_of_le_of_ne (by omega) (Ne.symm ‹_›)
        · exact hk e he

theorem Store.rising_erase {α : Type} {m : Store α} (n : Nat) (h : m.rising = true) : (m.erase n).rising = true := by
  rw [Store.rising_iff] at h ⊢
  exact h.filter _

theorem Store.rising_update {α : Type} {m : Store α} (n : Nat) (f : α → α) (h : m.rising = true) :
    (m.update n f).rising = true := by
  unfold Store.update
  split
  · exact Store.rising_set _ _ h
  · exact h

/-- In a rising store an entry is what its number reads as. -/
theorem Store.get?_of_mem {α : Type} {m : Store α} {e : Nat × α} (h : m.rising = true) (he : e ∈ m) :
    m.get? e.1 = some e.2 := by
  rw [Store.rising_iff] at h
  induction m with
  | nil => simp at he
  | cons d m ih =>
    obtain ⟨k, b⟩ := d
    obtain ⟨hk, hm⟩ := List.pairwise_cons.1 h
    rw [Store.get?_cons]
    rcases List.mem_cons.1 he with rfl | he
    · simp
    · rw [if_neg (by have := hk e he; simp at this; omega), ih hm he]

/-! ## The lowest absent number -/

theorem Store.get?_isSome_iff {α : Type} (m : Store α) (n : Nat) : (m.get? n).isSome = true ↔ n ∈ m.keys := by
  induction m with
  | nil => simp [Store.keys]
  | cons e m ih =>
    obtain ⟨k, b⟩ := e
    rw [Store.get?_cons]
    split
    · simp_all [Store.keys]
    · rw [ih]; simp [Store.keys, Ne.symm ‹¬k = n›]

theorem Store.firstAbsentFrom_spec {α : Type} (m : Store α) (fuel n : Nat)
    (h : ∃ l, n ≤ l ∧ l ≤ n + fuel ∧ m.get? l = none) :
    m.get? (m.firstAbsentFrom fuel n) = none ∧ ∀ l, n ≤ l → l < m.firstAbsentFrom fuel n → m.get? l ≠ none := by
  induction fuel generalizing n with
  | zero =>
    obtain ⟨l, h1, h2, h3⟩ := h
    obtain rfl : l = n := by omega
    exact ⟨h3, fun l h1 h2 => by simp [Store.firstAbsentFrom] at h2; omega⟩
  | succ fuel ih =>
    simp only [Store.firstAbsentFrom]
    split
    · rename_i hs
      obtain ⟨l, h1, h2, h3⟩ := h
      have hne : l ≠ n := by rintro rfl; simp [h3] at hs
      obtain ⟨ha, hb⟩ := ih (n + 1) ⟨l, by omega, by omega, h3⟩
      refine ⟨ha, fun j hj hlt => ?_⟩
      by_cases hjn : j = n
      · subst hjn; intro h0; simp [h0] at hs
      · exact hb j (by omega) hlt
    · rename_i hs
      exact ⟨by simpa using hs, fun j h1 h2 => by omega⟩

theorem Store.exists_absent {α : Type} (m : Store α) : ∃ l, l ≤ m.length ∧ m.get? l = none := by
  by_contra hc
  push Not at hc
  have hsub : (Finset.range (m.length + 1)) ⊆ m.keys.toFinset := by
    intro l hl
    have := hc l (by simpa [Nat.lt_succ_iff] using hl)
    rw [List.mem_toFinset, ← Store.get?_isSome_iff]
    exact Option.isSome_iff_ne_none.2 this
  have hcard := Finset.card_le_card hsub
  have hle := List.toFinset_card_le m.keys
  simp [Store.keys] at hcard hle
  omega

/-- The lowest number whose record is absent (R84, R146). -/
theorem Store.firstAbsent_spec {α : Type} (m : Store α) :
    m.get? m.firstAbsent = none ∧ ∀ l < m.firstAbsent, m.get? l ≠ none := by
  obtain ⟨l, hl, h⟩ := m.exists_absent
  obtain ⟨h1, h2⟩ := Store.firstAbsentFrom_spec m m.length 0 ⟨l, by omega, by omega, h⟩
  exact ⟨h1, fun j hj => h2 j (by omega) hj⟩

/-! ## Ordered lists of numbers -/

@[simp] theorem mem_insertBefore {before : Nat → Nat → Bool} {t u : Nat} {l : List Nat} :
    u ∈ insertBefore before t l ↔ u = t ∨ u ∈ l := by
  induction l with
  | nil => simp [insertBefore]
  | cons k l ih =>
    simp only [insertBefore]
    split
    · simp
    · simp [ih]; tauto

/-- An inserted list holds the same numbers and the new one. -/
theorem insertBefore_perm (before : Nat → Nat → Bool) (t : Nat) (l : List Nat) : (insertBefore before t l).Perm (t :: l) := by
  induction l with
  | nil => exact .refl _
  | cons k l ih =>
    simp only [insertBefore]
    split
    · exact .refl _
    · exact (ih.cons k).trans (.swap t k l)

/-- A sorted list holds the same numbers. -/
theorem sortBefore_perm (before : Nat → Nat → Bool) (l : List Nat) : (sortBefore before l).Perm l := by
  have h : ∀ (l acc : List Nat), (l.foldl (fun sorted t => insertBefore before t sorted) acc).Perm (l ++ acc) := by
    intro l
    induction l with
    | nil => intro acc; exact .refl _
    | cons k l ih =>
      intro acc
      refine (ih _).trans ((List.Perm.append_left l (insertBefore_perm before k acc)).trans ?_)
      simp [List.perm_middle]
  simpa [sortBefore] using h l []

@[simp] theorem mem_sortBefore {before : Nat → Nat → Bool} {l : List Nat} {t : Nat} : t ∈ sortBefore before l ↔ t ∈ l :=
  (sortBefore_perm before l).mem_iff

@[simp] theorem mem_removeNumber {t u : Nat} {l : List Nat} : u ∈ removeNumber t l ↔ u ∈ l ∧ u ≠ t := by
  simp [removeNumber]

@[simp] theorem mem_insertNumber {n u : Nat} {l : List Nat} : u ∈ insertNumber n l ↔ u = n ∨ u ∈ l := by
  induction l with
  | nil => simp [insertNumber]
  | cons k l ih =>
    simp only [insertNumber]
    split
    · simp
    · split
      · simp_all
      · simp [ih]; tauto

end Sys2Proof.Machine
end

