-- ==== Sys2Proof/Laws/State.lean ====
section
/-!
SUPPORT. One lemma per field for each plain update of State, so that no later proof unfolds a record update; then what each
update makes of the records that are read by number.
-/

namespace Sys2Proof.Machine

variable (s : State)

/-! ## updStation -/

@[simp] theorem updStation_pending (x : Nat) (f : Station → Station) : (updStation x f s).pending = s.pending := rfl
@[simp] theorem updStation_clock (x : Nat) (f : Station → Station) : (updStation x f s).clock = s.clock := rfl
@[simp] theorem updStation_link (x : Nat) (f : Station → Station) : (updStation x f s).link = s.link := rfl
@[simp] theorem updStation_components (x : Nat) (f : Station → Station) : (updStation x f s).components = s.components := rfl
@[simp] theorem updStation_courses (x : Nat) (f : Station → Station) : (updStation x f s).courses = s.courses := rfl
@[simp] theorem updStation_floor (x : Nat) (f : Station → Station) : (updStation x f s).floor = s.floor := rfl
@[simp] theorem updStation_waves (x : Nat) (f : Station → Station) : (updStation x f s).waves = s.waves := rfl
@[simp] theorem updStation_engine (x : Nat) (f : Station → Station) : (updStation x f s).engine = s.engine := rfl
@[simp] theorem updStation_tickets (x : Nat) (f : Station → Station) : (updStation x f s).tickets = s.tickets := rfl
@[simp] theorem updStation_ticketPool (x : Nat) (f : Station → Station) : (updStation x f s).ticketPool = s.ticketPool := rfl
@[simp] theorem updStation_calendar (x : Nat) (f : Station → Station) : (updStation x f s).calendar = s.calendar := rfl
@[simp] theorem updStation_frozen (x : Nat) (f : Station → Station) : (updStation x f s).frozen = s.frozen := rfl
@[simp] theorem updStation_stations (x : Nat) (f : Station → Station) : (updStation x f s).stations = s.stations.modify x f := rfl
@[simp] theorem updStation_groups (x : Nat) (f : Station → Station) : (updStation x f s).groups = s.groups := rfl
@[simp] theorem updStation_groupPool (x : Nat) (f : Station → Station) : (updStation x f s).groupPool = s.groupPool := rfl
@[simp] theorem updStation_passLine (x : Nat) (f : Station → Station) : (updStation x f s).passLine = s.passLine := rfl
@[simp] theorem updStation_straps (x : Nat) (f : Station → Station) : (updStation x f s).straps = s.straps := rfl
@[simp] theorem updStation_stockOf (x : Nat) (f : Station → Station) (c' : Nat) : stockOf (updStation x f s) c' = stockOf s c' := rfl
@[simp] theorem updStation_componentStation (x : Nat) (f : Station → Station) (c' : Nat) : componentStation (updStation x f s) c' = componentStation s c' := rfl
@[simp] theorem updStation_cookTime (x : Nat) (f : Station → Station) (c' : Nat) : cookTime (updStation x f s) c' = cookTime s c' := rfl
@[simp] theorem updStation_holdWindow (x : Nat) (f : Station → Station) (c' : Nat) : holdWindow (updStation x f s) c' = holdWindow s c' := rfl
@[simp] theorem updStation_tableRecord (x : Nat) (f : Station → Station) (u' : Nat) : tableRecord (updStation x f s) u' = tableRecord s u' := rfl
@[simp] theorem updStation_wave_get (x : Nat) (f : Station → Station) (w' : Nat) : wave? (updStation x f s) w' = wave? s w' := rfl
@[simp] theorem updStation_waveState (x : Nat) (f : Station → Station) (w' : Nat) : waveState (updStation x f s) w' = waveState s w' := rfl
@[simp] theorem updStation_ticket_get (x : Nat) (f : Station → Station) (t' : Nat) : ticket? (updStation x f s) t' = ticket? s t' := rfl
@[simp] theorem updStation_group_get (x : Nat) (f : Station → Station) (g' : Nat) : group? (updStation x f s) g' = group? s g' := rfl

/-! ## setTicket -/

@[simp] theorem setTicket_pending (t : Nat) (tk : Ticket) : (setTicket t tk s).pending = s.pending := rfl
@[simp] theorem setTicket_clock (t : Nat) (tk : Ticket) : (setTicket t tk s).clock = s.clock := rfl
@[simp] theorem setTicket_link (t : Nat) (tk : Ticket) : (setTicket t tk s).link = s.link := rfl
@[simp] theorem setTicket_components (t : Nat) (tk : Ticket) : (setTicket t tk s).components = s.components := rfl
@[simp] theorem setTicket_courses (t : Nat) (tk : Ticket) : (setTicket t tk s).courses = s.courses := rfl
@[simp] theorem setTicket_floor (t : Nat) (tk : Ticket) : (setTicket t tk s).floor = s.floor := rfl
@[simp] theorem setTicket_waves (t : Nat) (tk : Ticket) : (setTicket t tk s).waves = s.waves := rfl
@[simp] theorem setTicket_engine (t : Nat) (tk : Ticket) : (setTicket t tk s).engine = s.engine := rfl
@[simp] theorem setTicket_tickets (t : Nat) (tk : Ticket) : (setTicket t tk s).tickets = s.tickets.set t tk := rfl
@[simp] theorem setTicket_ticketPool (t : Nat) (tk : Ticket) : (setTicket t tk s).ticketPool = s.ticketPool := rfl
@[simp] theorem setTicket_calendar (t : Nat) (tk : Ticket) : (setTicket t tk s).calendar = s.calendar := rfl
@[simp] theorem setTicket_frozen (t : Nat) (tk : Ticket) : (setTicket t tk s).frozen = s.frozen := rfl
@[simp] theorem setTicket_stations (t : Nat) (tk : Ticket) : (setTicket t tk s).stations = s.stations := rfl
@[simp] theorem setTicket_groups (t : Nat) (tk : Ticket) : (setTicket t tk s).groups = s.groups := rfl
@[simp] theorem setTicket_groupPool (t : Nat) (tk : Ticket) : (setTicket t tk s).groupPool = s.groupPool := rfl
@[simp] theorem setTicket_passLine (t : Nat) (tk : Ticket) : (setTicket t tk s).passLine = s.passLine := rfl
@[simp] theorem setTicket_straps (t : Nat) (tk : Ticket) : (setTicket t tk s).straps = s.straps := rfl
@[simp] theorem setTicket_stockOf (t : Nat) (tk : Ticket) (c' : Nat) : stockOf (setTicket t tk s) c' = stockOf s c' := rfl
@[simp] theorem setTicket_componentStation (t : Nat) (tk : Ticket) (c' : Nat) : componentStation (setTicket t tk s) c' = componentStation s c' := rfl
@[simp] theorem setTicket_cookTime (t : Nat) (tk : Ticket) (c' : Nat) : cookTime (setTicket t tk s) c' = cookTime s c' := rfl
@[simp] theorem setTicket_holdWindow (t : Nat) (tk : Ticket) (c' : Nat) : holdWindow (setTicket t tk s) c' = holdWindow s c' := rfl
@[simp] theorem setTicket_tableRecord (t : Nat) (tk : Ticket) (u' : Nat) : tableRecord (setTicket t tk s) u' = tableRecord s u' := rfl
@[simp] theorem setTicket_wave_get (t : Nat) (tk : Ticket) (w' : Nat) : wave? (setTicket t tk s) w' = wave? s w' := rfl
@[simp] theorem setTicket_waveState (t : Nat) (tk : Ticket) (w' : Nat) : waveState (setTicket t tk s) w' = waveState s w' := rfl
@[simp] theorem setTicket_station (t : Nat) (tk : Ticket) (x : Nat) : station (setTicket t tk s) x = station s x := rfl
@[simp] theorem setTicket_group_get (t : Nat) (tk : Ticket) (g' : Nat) : group? (setTicket t tk s) g' = group? s g' := rfl

/-! ## updTicket -/

@[simp] theorem updTicket_pending (t : Nat) (f : Ticket → Ticket) : (updTicket t f s).pending = s.pending := rfl
@[simp] theorem updTicket_clock (t : Nat) (f : Ticket → Ticket) : (updTicket t f s).clock = s.clock := rfl
@[simp] theorem updTicket_link (t : Nat) (f : Ticket → Ticket) : (updTicket t f s).link = s.link := rfl
@[simp] theorem updTicket_components (t : Nat) (f : Ticket → Ticket) : (updTicket t f s).components = s.components := rfl
@[simp] theorem updTicket_courses (t : Nat) (f : Ticket → Ticket) : (updTicket t f s).courses = s.courses := rfl
@[simp] theorem updTicket_floor (t : Nat) (f : Ticket → Ticket) : (updTicket t f s).floor = s.floor := rfl
@[simp] theorem updTicket_waves (t : Nat) (f : Ticket → Ticket) : (updTicket t f s).waves = s.waves := rfl
@[simp] theorem updTicket_engine (t : Nat) (f : Ticket → Ticket) : (updTicket t f s).engine = s.engine := rfl
@[simp] theorem updTicket_tickets (t : Nat) (f : Ticket → Ticket) : (updTicket t f s).tickets = s.tickets.update t f := rfl
@[simp] theorem updTicket_ticketPool (t : Nat) (f : Ticket → Ticket) : (updTicket t f s).ticketPool = s.ticketPool := rfl
@[simp] theorem updTicket_calendar (t : Nat) (f : Ticket → Ticket) : (updTicket t f s).calendar = s.calendar := rfl
@[simp] theorem updTicket_frozen (t : Nat) (f : Ticket → Ticket) : (updTicket t f s).frozen = s.frozen := rfl
@[simp] theorem updTicket_stations (t : Nat) (f : Ticket → Ticket) : (updTicket t f s).stations = s.stations := rfl
@[simp] theorem updTicket_groups (t : Nat) (f : Ticket → Ticket) : (updTicket t f s).groups = s.groups := rfl
@[simp] theorem updTicket_groupPool (t : Nat) (f : Ticket → Ticket) : (updTicket t f s).groupPool = s.groupPool := rfl
@[simp] theorem updTicket_passLine (t : Nat) (f : Ticket → Ticket) : (updTicket t f s).passLine = s.passLine := rfl
@[simp] theorem updTicket_straps (t : Nat) (f : Ticket → Ticket) : (updTicket t f s).straps = s.straps := rfl
@[simp] theorem updTicket_stockOf (t : Nat) (f : Ticket → Ticket) (c' : Nat) : stockOf (updTicket t f s) c' = stockOf s c' := rfl
@[simp] theorem updTicket_componentStation (t : Nat) (f : Ticket → Ticket) (c' : Nat) : componentStation (updTicket t f s) c' = componentStation s c' := rfl
@[simp] theorem updTicket_cookTime (t : Nat) (f : Ticket → Ticket) (c' : Nat) : cookTime (updTicket t f s) c' = cookTime s c' := rfl
@[simp] theorem updTicket_holdWindow (t : Nat) (f : Ticket → Ticket) (c' : Nat) : holdWindow (updTicket t f s) c' = holdWindow s c' := rfl
@[simp] theorem updTicket_tableRecord (t : Nat) (f : Ticket → Ticket) (u' : Nat) : tableRecord (updTicket t f s) u' = tableRecord s u' := rfl
@[simp] theorem updTicket_wave_get (t : Nat) (f : Ticket → Ticket) (w' : Nat) : wave? (updTicket t f s) w' = wave? s w' := rfl
@[simp] theorem updTicket_waveState (t : Nat) (f : Ticket → Ticket) (w' : Nat) : waveState (updTicket t f s) w' = waveState s w' := rfl
@[simp] theorem updTicket_station (t : Nat) (f : Ticket → Ticket) (x : Nat) : station (updTicket t f s) x = station s x := rfl
@[simp] theorem updTicket_group_get (t : Nat) (f : Ticket → Ticket) (g' : Nat) : group? (updTicket t f s) g' = group? s g' := rfl

/-! ## updGroup -/

@[simp] theorem updGroup_pending (g : Nat) (f : Group → Group) : (updGroup g f s).pending = s.pending := rfl
@[simp] theorem updGroup_clock (g : Nat) (f : Group → Group) : (updGroup g f s).clock = s.clock := rfl
@[simp] theorem updGroup_link (g : Nat) (f : Group → Group) : (updGroup g f s).link = s.link := rfl
@[simp] theorem updGroup_components (g : Nat) (f : Group → Group) : (updGroup g f s).components = s.components := rfl
@[simp] theorem updGroup_courses (g : Nat) (f : Group → Group) : (updGroup g f s).courses = s.courses := rfl
@[simp] theorem updGroup_floor (g : Nat) (f : Group → Group) : (updGroup g f s).floor = s.floor := rfl
@[simp] theorem updGroup_waves (g : Nat) (f : Group → Group) : (updGroup g f s).waves = s.waves := rfl
@[simp] theorem updGroup_engine (g : Nat) (f : Group → Group) : (updGroup g f s).engine = s.engine := rfl
@[simp] theorem updGroup_tickets (g : Nat) (f : Group → Group) : (updGroup g f s).tickets = s.tickets := rfl
@[simp] theorem updGroup_ticketPool (g : Nat) (f : Group → Group) : (updGroup g f s).ticketPool = s.ticketPool := rfl
@[simp] theorem updGroup_calendar (g : Nat) (f : Group → Group) : (updGroup g f s).calendar = s.calendar := rfl
@[simp] theorem updGroup_frozen (g : Nat) (f : Group → Group) : (updGroup g f s).frozen = s.frozen := rfl
@[simp] theorem updGroup_stations (g : Nat) (f : Group → Group) : (updGroup g f s).stations = s.stations := rfl
@[simp] theorem updGroup_groups (g : Nat) (f : Group → Group) : (updGroup g f s).groups = s.groups.update g f := rfl
@[simp] theorem updGroup_groupPool (g : Nat) (f : Group → Group) : (updGroup g f s).groupPool = s.groupPool := rfl
@[simp] theorem updGroup_passLine (g : Nat) (f : Group → Group) : (updGroup g f s).passLine = s.passLine := rfl
@[simp] theorem updGroup_straps (g : Nat) (f : Group → Group) : (updGroup g f s).straps = s.straps := rfl
@[simp] theorem updGroup_stockOf (g : Nat) (f : Group → Group) (c' : Nat) : stockOf (updGroup g f s) c' = stockOf s c' := rfl
@[simp] theorem updGroup_componentStation (g : Nat) (f : Group → Group) (c' : Nat) : componentStation (updGroup g f s) c' = componentStation s c' := rfl
@[simp] theorem updGroup_cookTime (g : Nat) (f : Group → Group) (c' : Nat) : cookTime (updGroup g f s) c' = cookTime s c' := rfl
@[simp] theorem updGroup_holdWindow (g : Nat) (f : Group → Group) (c' : Nat) : holdWindow (updGroup g f s) c' = holdWindow s c' := rfl
@[simp] theorem updGroup_tableRecord (g : Nat) (f : Group → Group) (u' : Nat) : tableRecord (updGroup g f s) u' = tableRecord s u' := rfl
@[simp] theorem updGroup_wave_get (g : Nat) (f : Group → Group) (w' : Nat) : wave? (updGroup g f s) w' = wave? s w' := rfl
@[simp] theorem updGroup_waveState (g : Nat) (f : Group → Group) (w' : Nat) : waveState (updGroup g f s) w' = waveState s w' := rfl
@[simp] theorem updGroup_ticket_get (g : Nat) (f : Group → Group) (t' : Nat) : ticket? (updGroup g f s) t' = ticket? s t' := rfl
@[simp] theorem updGroup_station (g : Nat) (f : Group → Group) (x : Nat) : station (updGroup g f s) x = station s x := rfl

/-! ## updWave -/

@[simp] theorem updWave_pending (w : Nat) (f : Wave → Wave) : (updWave w f s).pending = s.pending := rfl
@[simp] theorem updWave_clock (w : Nat) (f : Wave → Wave) : (updWave w f s).clock = s.clock := rfl
@[simp] theorem updWave_link (w : Nat) (f : Wave → Wave) : (updWave w f s).link = s.link := rfl
@[simp] theorem updWave_components (w : Nat) (f : Wave → Wave) : (updWave w f s).components = s.components := rfl
@[simp] theorem updWave_courses (w : Nat) (f : Wave → Wave) : (updWave w f s).courses = s.courses := rfl
@[simp] theorem updWave_floor (w : Nat) (f : Wave → Wave) : (updWave w f s).floor = s.floor := rfl
@[simp] theorem updWave_waves (w : Nat) (f : Wave → Wave) : (updWave w f s).waves = s.waves.update w f := rfl
@[simp] theorem updWave_engine (w : Nat) (f : Wave → Wave) : (updWave w f s).engine = s.engine := rfl
@[simp] theorem updWave_tickets (w : Nat) (f : Wave → Wave) : (updWave w f s).tickets = s.tickets := rfl
@[simp] theorem updWave_ticketPool (w : Nat) (f : Wave → Wave) : (updWave w f s).ticketPool = s.ticketPool := rfl
@[simp] theorem updWave_calendar (w : Nat) (f : Wave → Wave) : (updWave w f s).calendar = s.calendar := rfl
@[simp] theorem updWave_frozen (w : Nat) (f : Wave → Wave) : (updWave w f s).frozen = s.frozen := rfl
@[simp] theorem updWave_stations (w : Nat) (f : Wave → Wave) : (updWave w f s).stations = s.stations := rfl
@[simp] theorem updWave_groups (w : Nat) (f : Wave → Wave) : (updWave w f s).groups = s.groups := rfl
@[simp] theorem updWave_groupPool (w : Nat) (f : Wave → Wave) : (updWave w f s).groupPool = s.groupPool := rfl
@[simp] theorem updWave_passLine (w : Nat) (f : Wave → Wave) : (updWave w f s).passLine = s.passLine := rfl
@[simp] theorem updWave_straps (w : Nat) (f : Wave → Wave) : (updWave w f s).straps = s.straps := rfl
@[simp] theorem updWave_stockOf (w : Nat) (f : Wave → Wave) (c' : Nat) : stockOf (updWave w f s) c' = stockOf s c' := rfl
@[simp] theorem updWave_componentStation (w : Nat) (f : Wave → Wave) (c' : Nat) : componentStation (updWave w f s) c' = componentStation s c' := rfl
@[simp] theorem updWave_cookTime (w : Nat) (f : Wave → Wave) (c' : Nat) : cookTime (updWave w f s) c' = cookTime s c' := rfl
@[simp] theorem updWave_holdWindow (w : Nat) (f : Wave → Wave) (c' : Nat) : holdWindow (updWave w f s) c' = holdWindow s c' := rfl
@[simp] theorem updWave_tableRecord (w : Nat) (f : Wave → Wave) (u' : Nat) : tableRecord (updWave w f s) u' = tableRecord s u' := rfl
@[simp] theorem updWave_ticket_get (w : Nat) (f : Wave → Wave) (t' : Nat) : ticket? (updWave w f s) t' = ticket? s t' := rfl
@[simp] theorem updWave_station (w : Nat) (f : Wave → Wave) (x : Nat) : station (updWave w f s) x = station s x := rfl
@[simp] theorem updWave_group_get (w : Nat) (f : Wave → Wave) (g' : Nat) : group? (updWave w f s) g' = group? s g' := rfl

/-! ## setStock -/

@[simp] theorem setStock_pending (c n : Nat) : (setStock c n s).pending = s.pending := rfl
@[simp] theorem setStock_clock (c n : Nat) : (setStock c n s).clock = s.clock := rfl
@[simp] theorem setStock_link (c n : Nat) : (setStock c n s).link = s.link := rfl
@[simp] theorem setStock_components (c n : Nat) : (setStock c n s).components = s.components.update c fun r => { r with stock := some n } := rfl
@[simp] theorem setStock_courses (c n : Nat) : (setStock c n s).courses = s.courses := rfl
@[simp] theorem setStock_floor (c n : Nat) : (setStock c n s).floor = s.floor := rfl
@[simp] theorem setStock_waves (c n : Nat) : (setStock c n s).waves = s.waves := rfl
@[simp] theorem setStock_engine (c n : Nat) : (setStock c n s).engine = s.engine := rfl
@[simp] theorem setStock_tickets (c n : Nat) : (setStock c n s).tickets = s.tickets := rfl
@[simp] theorem setStock_ticketPool (c n : Nat) : (setStock c n s).ticketPool = s.ticketPool := rfl
@[simp] theorem setStock_calendar (c n : Nat) : (setStock c n s).calendar = s.calendar := rfl
@[simp] theorem setStock_frozen (c n : Nat) : (setStock c n s).frozen = s.frozen := rfl
@[simp] theorem setStock_stations (c n : Nat) : (setStock c n s).stations = s.stations := rfl
@[simp] theorem setStock_groups (c n : Nat) : (setStock c n s).groups = s.groups := rfl
@[simp] theorem setStock_groupPool (c n : Nat) : (setStock c n s).groupPool = s.groupPool := rfl
@[simp] theorem setStock_passLine (c n : Nat) : (setStock c n s).passLine = s.passLine := rfl
@[simp] theorem setStock_straps (c n : Nat) : (setStock c n s).straps = s.straps := rfl
@[simp] theorem setStock_tableRecord (c n : Nat) (u' : Nat) : tableRecord (setStock c n s) u' = tableRecord s u' := rfl
@[simp] theorem setStock_wave_get (c n : Nat) (w' : Nat) : wave? (setStock c n s) w' = wave? s w' := rfl
@[simp] theorem setStock_waveState (c n : Nat) (w' : Nat) : waveState (setStock c n s) w' = waveState s w' := rfl
@[simp] theorem setStock_ticket_get (c n : Nat) (t' : Nat) : ticket? (setStock c n s) t' = ticket? s t' := rfl
@[simp] theorem setStock_station (c n : Nat) (x : Nat) : station (setStock c n s) x = station s x := rfl
@[simp] theorem setStock_group_get (c n : Nat) (g' : Nat) : group? (setStock c n s) g' = group? s g' := rfl

/-! ## setTableRecord -/

@[simp] theorem setTableRecord_pending (u : Nat) (r : TableRecord) : (setTableRecord u r s).pending = s.pending := rfl
@[simp] theorem setTableRecord_clock (u : Nat) (r : TableRecord) : (setTableRecord u r s).clock = s.clock := rfl
@[simp] theorem setTableRecord_link (u : Nat) (r : TableRecord) : (setTableRecord u r s).link = s.link := rfl
@[simp] theorem setTableRecord_components (u : Nat) (r : TableRecord) : (setTableRecord u r s).components = s.components := rfl
@[simp] theorem setTableRecord_courses (u : Nat) (r : TableRecord) : (setTableRecord u r s).courses = s.courses := rfl
@[simp] theorem setTableRecord_waves (u : Nat) (r : TableRecord) : (setTableRecord u r s).waves = s.waves := rfl
@[simp] theorem setTableRecord_engine (u : Nat) (r : TableRecord) : (setTableRecord u r s).engine = s.engine := rfl
@[simp] theorem setTableRecord_tickets (u : Nat) (r : TableRecord) : (setTableRecord u r s).tickets = s.tickets := rfl
@[simp] theorem setTableRecord_ticketPool (u : Nat) (r : TableRecord) : (setTableRecord u r s).ticketPool = s.ticketPool := rfl
@[simp] theorem setTableRecord_calendar (u : Nat) (r : TableRecord) : (setTableRecord u r s).calendar = s.calendar := rfl
@[simp] theorem setTableRecord_frozen (u : Nat) (r : TableRecord) : (setTableRecord u r s).frozen = s.frozen := rfl
@[simp] theorem setTableRecord_stations (u : Nat) (r : TableRecord) : (setTableRecord u r s).stations = s.stations := rfl
@[simp] theorem setTableRecord_groups (u : Nat) (r : TableRecord) : (setTableRecord u r s).groups = s.groups := rfl
@[simp] theorem setTableRecord_groupPool (u : Nat) (r : TableRecord) : (setTableRecord u r s).groupPool = s.groupPool := rfl
@[simp] theorem setTableRecord_passLine (u : Nat) (r : TableRecord) : (setTableRecord u r s).passLine = s.passLine := rfl
@[simp] theorem setTableRecord_straps (u : Nat) (r : TableRecord) : (setTableRecord u r s).straps = s.straps := rfl
@[simp] theorem setTableRecord_stockOf (u : Nat) (r : TableRecord) (c' : Nat) : stockOf (setTableRecord u r s) c' = stockOf s c' := rfl
@[simp] theorem setTableRecord_componentStation (u : Nat) (r : TableRecord) (c' : Nat) : componentStation (setTableRecord u r s) c' = componentStation s c' := rfl
@[simp] theorem setTableRecord_cookTime (u : Nat) (r : TableRecord) (c' : Nat) : cookTime (setTableRecord u r s) c' = cookTime s c' := rfl
@[simp] theorem setTableRecord_holdWindow (u : Nat) (r : TableRecord) (c' : Nat) : holdWindow (setTableRecord u r s) c' = holdWindow s c' := rfl
@[simp] theorem setTableRecord_wave_get (u : Nat) (r : TableRecord) (w' : Nat) : wave? (setTableRecord u r s) w' = wave? s w' := rfl
@[simp] theorem setTableRecord_waveState (u : Nat) (r : TableRecord) (w' : Nat) : waveState (setTableRecord u r s) w' = waveState s w' := rfl
@[simp] theorem setTableRecord_ticket_get (u : Nat) (r : TableRecord) (t' : Nat) : ticket? (setTableRecord u r s) t' = ticket? s t' := rfl
@[simp] theorem setTableRecord_station (u : Nat) (r : TableRecord) (x : Nat) : station (setTableRecord u r s) x = station s x := rfl
@[simp] theorem setTableRecord_group_get (u : Nat) (r : TableRecord) (g' : Nat) : group? (setTableRecord u r s) g' = group? s g' := rfl

/-! ## addLiveCourse -/

@[simp] theorem addLiveCourse_pending (u p : Nat) : (addLiveCourse u p s).pending = s.pending := rfl
@[simp] theorem addLiveCourse_clock (u p : Nat) : (addLiveCourse u p s).clock = s.clock := rfl
@[simp] theorem addLiveCourse_link (u p : Nat) : (addLiveCourse u p s).link = s.link := rfl
@[simp] theorem addLiveCourse_components (u p : Nat) : (addLiveCourse u p s).components = s.components := rfl
@[simp] theorem addLiveCourse_courses (u p : Nat) : (addLiveCourse u p s).courses = s.courses := rfl
@[simp] theorem addLiveCourse_waves (u p : Nat) : (addLiveCourse u p s).waves = s.waves := rfl
@[simp] theorem addLiveCourse_engine (u p : Nat) : (addLiveCourse u p s).engine = s.engine := rfl
@[simp] theorem addLiveCourse_tickets (u p : Nat) : (addLiveCourse u p s).tickets = s.tickets := rfl
@[simp] theorem addLiveCourse_ticketPool (u p : Nat) : (addLiveCourse u p s).ticketPool = s.ticketPool := rfl
@[simp] theorem addLiveCourse_calendar (u p : Nat) : (addLiveCourse u p s).calendar = s.calendar := rfl
@[simp] theorem addLiveCourse_frozen (u p : Nat) : (addLiveCourse u p s).frozen = s.frozen := rfl
@[simp] theorem addLiveCourse_stations (u p : Nat) : (addLiveCourse u p s).stations = s.stations := rfl
@[simp] theorem addLiveCourse_groups (u p : Nat) : (addLiveCourse u p s).groups = s.groups := rfl
@[simp] theorem addLiveCourse_groupPool (u p : Nat) : (addLiveCourse u p s).groupPool = s.groupPool := rfl
@[simp] theorem addLiveCourse_passLine (u p : Nat) : (addLiveCourse u p s).passLine = s.passLine := rfl
@[simp] theorem addLiveCourse_straps (u p : Nat) : (addLiveCourse u p s).straps = s.straps := rfl
@[simp] theorem addLiveCourse_stockOf (u p : Nat) (c' : Nat) : stockOf (addLiveCourse u p s) c' = stockOf s c' := rfl
@[simp] theorem addLiveCourse_componentStation (u p : Nat) (c' : Nat) : componentStation (addLiveCourse u p s) c' = componentStation s c' := rfl
@[simp] theorem addLiveCourse_cookTime (u p : Nat) (c' : Nat) : cookTime (addLiveCourse u p s) c' = cookTime s c' := rfl
@[simp] theorem addLiveCourse_holdWindow (u p : Nat) (c' : Nat) : holdWindow (addLiveCourse u p s) c' = holdWindow s c' := rfl
@[simp] theorem addLiveCourse_wave_get (u p : Nat) (w' : Nat) : wave? (addLiveCourse u p s) w' = wave? s w' := rfl
@[simp] theorem addLiveCourse_waveState (u p : Nat) (w' : Nat) : waveState (addLiveCourse u p s) w' = waveState s w' := rfl
@[simp] theorem addLiveCourse_ticket_get (u p : Nat) (t' : Nat) : ticket? (addLiveCourse u p s) t' = ticket? s t' := rfl
@[simp] theorem addLiveCourse_station (u p : Nat) (x : Nat) : station (addLiveCourse u p s) x = station s x := rfl
@[simp] theorem addLiveCourse_group_get (u p : Nat) (g' : Nat) : group? (addLiveCourse u p s) g' = group? s g' := rfl

/-! ## removeLiveCourse -/

@[simp] theorem removeLiveCourse_pending (u p : Nat) : (removeLiveCourse u p s).pending = s.pending := rfl
@[simp] theorem removeLiveCourse_clock (u p : Nat) : (removeLiveCourse u p s).clock = s.clock := rfl
@[simp] theorem removeLiveCourse_link (u p : Nat) : (removeLiveCourse u p s).link = s.link := rfl
@[simp] theorem removeLiveCourse_components (u p : Nat) : (removeLiveCourse u p s).components = s.components := rfl
@[simp] theorem removeLiveCourse_courses (u p : Nat) : (removeLiveCourse u p s).courses = s.courses := rfl
@[simp] theorem removeLiveCourse_waves (u p : Nat) : (removeLiveCourse u p s).waves = s.waves := rfl
@[simp] theorem removeLiveCourse_engine (u p : Nat) : (removeLiveCourse u p s).engine = s.engine := rfl
@[simp] theorem removeLiveCourse_tickets (u p : Nat) : (removeLiveCourse u p s).tickets = s.tickets := rfl
@[simp] theorem removeLiveCourse_ticketPool (u p : Nat) : (removeLiveCourse u p s).ticketPool = s.ticketPool := rfl
@[simp] theorem removeLiveCourse_calendar (u p : Nat) : (removeLiveCourse u p s).calendar = s.calendar := rfl
@[simp] theorem removeLiveCourse_frozen (u p : Nat) : (removeLiveCourse u p s).frozen = s.frozen := rfl
@[simp] theorem removeLiveCourse_stations (u p : Nat) : (removeLiveCourse u p s).stations = s.stations := rfl
@[simp] theorem removeLiveCourse_groups (u p : Nat) : (removeLiveCourse u p s).groups = s.groups := rfl
@[simp] theorem removeLiveCourse_groupPool (u p : Nat) : (removeLiveCourse u p s).groupPool = s.groupPool := rfl
@[simp] theorem removeLiveCourse_passLine (u p : Nat) : (removeLiveCourse u p s).passLine = s.passLine := rfl
@[simp] theorem removeLiveCourse_straps (u p : Nat) : (removeLiveCourse u p s).straps = s.straps := rfl
@[simp] theorem removeLiveCourse_stockOf (u p : Nat) (c' : Nat) : stockOf (removeLiveCourse u p s) c' = stockOf s c' := rfl
@[simp] theorem removeLiveCourse_componentStation (u p : Nat) (c' : Nat) : componentStation (removeLiveCourse u p s) c' = componentStation s c' := rfl
@[simp] theorem removeLiveCourse_cookTime (u p : Nat) (c' : Nat) : cookTime (removeLiveCourse u p s) c' = cookTime s c' := rfl
@[simp] theorem removeLiveCourse_holdWindow (u p : Nat) (c' : Nat) : holdWindow (removeLiveCourse u p s) c' = holdWindow s c' := rfl
@[simp] theorem removeLiveCourse_wave_get (u p : Nat) (w' : Nat) : wave? (removeLiveCourse u p s) w' = wave? s w' := rfl
@[simp] theorem removeLiveCourse_waveState (u p : Nat) (w' : Nat) : waveState (removeLiveCourse u p s) w' = waveState s w' := rfl
@[simp] theorem removeLiveCourse_ticket_get (u p : Nat) (t' : Nat) : ticket? (removeLiveCourse u p s) t' = ticket? s t' := rfl
@[simp] theorem removeLiveCourse_station (u p : Nat) (x : Nat) : station (removeLiveCourse u p s) x = station s x := rfl
@[simp] theorem removeLiveCourse_group_get (u p : Nat) (g' : Nat) : group? (removeLiveCourse u p s) g' = group? s g' := rfl

/-! ## pushReply -/

@[simp] theorem pushReply_pending (r : Reply) : (pushReply r s).pending = s.pending := rfl
@[simp] theorem pushReply_clock (r : Reply) : (pushReply r s).clock = s.clock := rfl
@[simp] theorem pushReply_link (r : Reply) : (pushReply r s).link = { s.link with replies := s.link.replies ++ [r] } := rfl
@[simp] theorem pushReply_components (r : Reply) : (pushReply r s).components = s.components := rfl
@[simp] theorem pushReply_courses (r : Reply) : (pushReply r s).courses = s.courses := rfl
@[simp] theorem pushReply_floor (r : Reply) : (pushReply r s).floor = s.floor := rfl
@[simp] theorem pushReply_waves (r : Reply) : (pushReply r s).waves = s.waves := rfl
@[simp] theorem pushReply_engine (r : Reply) : (pushReply r s).engine = s.engine := rfl
@[simp] theorem pushReply_tickets (r : Reply) : (pushReply r s).tickets = s.tickets := rfl
@[simp] theorem pushReply_ticketPool (r : Reply) : (pushReply r s).ticketPool = s.ticketPool := rfl
@[simp] theorem pushReply_calendar (r : Reply) : (pushReply r s).calendar = s.calendar := rfl
@[simp] theorem pushReply_frozen (r : Reply) : (pushReply r s).frozen = s.frozen := rfl
@[simp] theorem pushReply_stations (r : Reply) : (pushReply r s).stations = s.stations := rfl
@[simp] theorem pushReply_groups (r : Reply) : (pushReply r s).groups = s.groups := rfl
@[simp] theorem pushReply_groupPool (r : Reply) : (pushReply r s).groupPool = s.groupPool := rfl
@[simp] theorem pushReply_passLine (r : Reply) : (pushReply r s).passLine = s.passLine := rfl
@[simp] theorem pushReply_straps (r : Reply) : (pushReply r s).straps = s.straps := rfl
@[simp] theorem pushReply_stockOf (r : Reply) (c' : Nat) : stockOf (pushReply r s) c' = stockOf s c' := rfl
@[simp] theorem pushReply_componentStation (r : Reply) (c' : Nat) : componentStation (pushReply r s) c' = componentStation s c' := rfl
@[simp] theorem pushReply_cookTime (r : Reply) (c' : Nat) : cookTime (pushReply r s) c' = cookTime s c' := rfl
@[simp] theorem pushReply_holdWindow (r : Reply) (c' : Nat) : holdWindow (pushReply r s) c' = holdWindow s c' := rfl
@[simp] theorem pushReply_tableRecord (r : Reply) (u' : Nat) : tableRecord (pushReply r s) u' = tableRecord s u' := rfl
@[simp] theorem pushReply_wave_get (r : Reply) (w' : Nat) : wave? (pushReply r s) w' = wave? s w' := rfl
@[simp] theorem pushReply_waveState (r : Reply) (w' : Nat) : waveState (pushReply r s) w' = waveState s w' := rfl
@[simp] theorem pushReply_ticket_get (r : Reply) (t' : Nat) : ticket? (pushReply r s) t' = ticket? s t' := rfl
@[simp] theorem pushReply_station (r : Reply) (x : Nat) : station (pushReply r s) x = station s x := rfl
@[simp] theorem pushReply_group_get (r : Reply) (g' : Nat) : group? (pushReply r s) g' = group? s g' := rfl

/-! ## leaveCalendar -/

@[simp] theorem leaveCalendar_pending (t : Nat) : (leaveCalendar t s).pending = s.pending := rfl
@[simp] theorem leaveCalendar_clock (t : Nat) : (leaveCalendar t s).clock = s.clock := rfl
@[simp] theorem leaveCalendar_link (t : Nat) : (leaveCalendar t s).link = s.link := rfl
@[simp] theorem leaveCalendar_components (t : Nat) : (leaveCalendar t s).components = s.components := rfl
@[simp] theorem leaveCalendar_courses (t : Nat) : (leaveCalendar t s).courses = s.courses := rfl
@[simp] theorem leaveCalendar_floor (t : Nat) : (leaveCalendar t s).floor = s.floor := rfl
@[simp] theorem leaveCalendar_waves (t : Nat) : (leaveCalendar t s).waves = s.waves := rfl
@[simp] theorem leaveCalendar_engine (t : Nat) : (leaveCalendar t s).engine = s.engine := rfl
@[simp] theorem leaveCalendar_tickets (t : Nat) : (leaveCalendar t s).tickets = s.tickets := rfl
@[simp] theorem leaveCalendar_ticketPool (t : Nat) : (leaveCalendar t s).ticketPool = s.ticketPool := rfl
@[simp] theorem leaveCalendar_calendar (t : Nat) : (leaveCalendar t s).calendar = removeNumber t s.calendar := rfl
@[simp] theorem leaveCalendar_frozen (t : Nat) : (leaveCalendar t s).frozen = s.frozen := rfl
@[simp] theorem leaveCalendar_stations (t : Nat) : (leaveCalendar t s).stations = s.stations := rfl
@[simp] theorem leaveCalendar_groups (t : Nat) : (leaveCalendar t s).groups = s.groups := rfl
@[simp] theorem leaveCalendar_groupPool (t : Nat) : (leaveCalendar t s).groupPool = s.groupPool := rfl
@[simp] theorem leaveCalendar_passLine (t : Nat) : (leaveCalendar t s).passLine = s.passLine := rfl
@[simp] theorem leaveCalendar_straps (t : Nat) : (leaveCalendar t s).straps = s.straps := rfl
@[simp] theorem leaveCalendar_stockOf (t : Nat) (c' : Nat) : stockOf (leaveCalendar t s) c' = stockOf s c' := rfl
@[simp] theorem leaveCalendar_componentStation (t : Nat) (c' : Nat) : componentStation (leaveCalendar t s) c' = componentStation s c' := rfl
@[simp] theorem leaveCalendar_cookTime (t : Nat) (c' : Nat) : cookTime (leaveCalendar t s) c' = cookTime s c' := rfl
@[simp] theorem leaveCalendar_holdWindow (t : Nat) (c' : Nat) : holdWindow (leaveCalendar t s) c' = holdWindow s c' := rfl
@[simp] theorem leaveCalendar_tableRecord (t : Nat) (u' : Nat) : tableRecord (leaveCalendar t s) u' = tableRecord s u' := rfl
@[simp] theorem leaveCalendar_wave_get (t : Nat) (w' : Nat) : wave? (leaveCalendar t s) w' = wave? s w' := rfl
@[simp] theorem leaveCalendar_waveState (t : Nat) (w' : Nat) : waveState (leaveCalendar t s) w' = waveState s w' := rfl
@[simp] theorem leaveCalendar_ticket_get (t : Nat) (t' : Nat) : ticket? (leaveCalendar t s) t' = ticket? s t' := rfl
@[simp] theorem leaveCalendar_station (t : Nat) (x : Nat) : station (leaveCalendar t s) x = station s x := rfl
@[simp] theorem leaveCalendar_group_get (t : Nat) (g' : Nat) : group? (leaveCalendar t s) g' = group? s g' := rfl

/-! ## freeWave -/

@[simp] theorem freeWave_pending (w : Nat) : (freeWave w s).pending = s.pending := rfl
@[simp] theorem freeWave_clock (w : Nat) : (freeWave w s).clock = s.clock := rfl
@[simp] theorem freeWave_link (w : Nat) : (freeWave w s).link = s.link := rfl
@[simp] theorem freeWave_components (w : Nat) : (freeWave w s).components = s.components := rfl
@[simp] theorem freeWave_courses (w : Nat) : (freeWave w s).courses = s.courses := rfl
@[simp] theorem freeWave_floor (w : Nat) : (freeWave w s).floor = s.floor := rfl
@[simp] theorem freeWave_waves (w : Nat) : (freeWave w s).waves = s.waves.erase w := rfl
@[simp] theorem freeWave_engine (w : Nat) : (freeWave w s).engine = s.engine := rfl
@[simp] theorem freeWave_tickets (w : Nat) : (freeWave w s).tickets = s.tickets := rfl
@[simp] theorem freeWave_ticketPool (w : Nat) : (freeWave w s).ticketPool = s.ticketPool := rfl
@[simp] theorem freeWave_calendar (w : Nat) : (freeWave w s).calendar = s.calendar := rfl
@[simp] theorem freeWave_frozen (w : Nat) : (freeWave w s).frozen = removeNumber w s.frozen := rfl
@[simp] theorem freeWave_stations (w : Nat) : (freeWave w s).stations = s.stations := rfl
@[simp] theorem freeWave_groups (w : Nat) : (freeWave w s).groups = s.groups := rfl
@[simp] theorem freeWave_groupPool (w : Nat) : (freeWave w s).groupPool = s.groupPool := rfl
@[simp] theorem freeWave_passLine (w : Nat) : (freeWave w s).passLine = s.passLine := rfl
@[simp] theorem freeWave_straps (w : Nat) : (freeWave w s).straps = s.straps := rfl
@[simp] theorem freeWave_stockOf (w : Nat) (c' : Nat) : stockOf (freeWave w s) c' = stockOf s c' := rfl
@[simp] theorem freeWave_componentStation (w : Nat) (c' : Nat) : componentStation (freeWave w s) c' = componentStation s c' := rfl
@[simp] theorem freeWave_cookTime (w : Nat) (c' : Nat) : cookTime (freeWave w s) c' = cookTime s c' := rfl
@[simp] theorem freeWave_holdWindow (w : Nat) (c' : Nat) : holdWindow (freeWave w s) c' = holdWindow s c' := rfl
@[simp] theorem freeWave_tableRecord (w : Nat) (u' : Nat) : tableRecord (freeWave w s) u' = tableRecord s u' := rfl
@[simp] theorem freeWave_ticket_get (w : Nat) (t' : Nat) : ticket? (freeWave w s) t' = ticket? s t' := rfl
@[simp] theorem freeWave_station (w : Nat) (x : Nat) : station (freeWave w s) x = station s x := rfl
@[simp] theorem freeWave_group_get (w : Nat) (g' : Nat) : group? (freeWave w s) g' = group? s g' := rfl

/-! ## createTicket -/

@[simp] theorem createTicket_pending (n : Nat) (tk : Ticket) : (createTicket n tk s).pending = s.pending := rfl
@[simp] theorem createTicket_clock (n : Nat) (tk : Ticket) : (createTicket n tk s).clock = s.clock := rfl
@[simp] theorem createTicket_link (n : Nat) (tk : Ticket) : (createTicket n tk s).link = { s.link with seq := nextSeq s.link.seq } := rfl
@[simp] theorem createTicket_components (n : Nat) (tk : Ticket) : (createTicket n tk s).components = s.components := rfl
@[simp] theorem createTicket_courses (n : Nat) (tk : Ticket) : (createTicket n tk s).courses = s.courses := rfl
@[simp] theorem createTicket_floor (n : Nat) (tk : Ticket) : (createTicket n tk s).floor = s.floor := rfl
@[simp] theorem createTicket_waves (n : Nat) (tk : Ticket) : (createTicket n tk s).waves = s.waves := rfl
@[simp] theorem createTicket_engine (n : Nat) (tk : Ticket) : (createTicket n tk s).engine = s.engine := rfl
@[simp] theorem createTicket_tickets (n : Nat) (tk : Ticket) : (createTicket n tk s).tickets = s.tickets.set n tk := rfl
@[simp] theorem createTicket_ticketPool (n : Nat) (tk : Ticket) : (createTicket n tk s).ticketPool = s.ticketPool := rfl
@[simp] theorem createTicket_calendar (n : Nat) (tk : Ticket) : (createTicket n tk s).calendar = s.calendar := rfl
@[simp] theorem createTicket_frozen (n : Nat) (tk : Ticket) : (createTicket n tk s).frozen = s.frozen := rfl
@[simp] theorem createTicket_stations (n : Nat) (tk : Ticket) : (createTicket n tk s).stations = s.stations := rfl
@[simp] theorem createTicket_groups (n : Nat) (tk : Ticket) : (createTicket n tk s).groups = s.groups := rfl
@[simp] theorem createTicket_groupPool (n : Nat) (tk : Ticket) : (createTicket n tk s).groupPool = s.groupPool := rfl
@[simp] theorem createTicket_passLine (n : Nat) (tk : Ticket) : (createTicket n tk s).passLine = s.passLine := rfl
@[simp] theorem createTicket_straps (n : Nat) (tk : Ticket) : (createTicket n tk s).straps = s.straps := rfl
@[simp] theorem createTicket_stockOf (n : Nat) (tk : Ticket) (c' : Nat) : stockOf (createTicket n tk s) c' = stockOf s c' := rfl
@[simp] theorem createTicket_componentStation (n : Nat) (tk : Ticket) (c' : Nat) : componentStation (createTicket n tk s) c' = componentStation s c' := rfl
@[simp] theorem createTicket_cookTime (n : Nat) (tk : Ticket) (c' : Nat) : cookTime (createTicket n tk s) c' = cookTime s c' := rfl
@[simp] theorem createTicket_holdWindow (n : Nat) (tk : Ticket) (c' : Nat) : holdWindow (createTicket n tk s) c' = holdWindow s c' := rfl
@[simp] theorem createTicket_tableRecord (n : Nat) (tk : Ticket) (u' : Nat) : tableRecord (createTicket n tk s) u' = tableRecord s u' := rfl
@[simp] theorem createTicket_wave_get (n : Nat) (tk : Ticket) (w' : Nat) : wave? (createTicket n tk s) w' = wave? s w' := rfl
@[simp] theorem createTicket_waveState (n : Nat) (tk : Ticket) (w' : Nat) : waveState (createTicket n tk s) w' = waveState s w' := rfl
@[simp] theorem createTicket_station (n : Nat) (tk : Ticket) (x : Nat) : station (createTicket n tk s) x = station s x := rfl
@[simp] theorem createTicket_group_get (n : Nat) (tk : Ticket) (g' : Nat) : group? (createTicket n tk s) g' = group? s g' := rfl

/-! ## pushNotice -/

@[simp] theorem pushNotice_pending (n : Notice) : (pushNotice n s).pending = s.pending := by unfold pushNotice; split <;> rfl
@[simp] theorem pushNotice_clock (n : Notice) : (pushNotice n s).clock = s.clock := by unfold pushNotice; split <;> rfl
@[simp] theorem pushNotice_components (n : Notice) : (pushNotice n s).components = s.components := by unfold pushNotice; split <;> rfl
@[simp] theorem pushNotice_courses (n : Notice) : (pushNotice n s).courses = s.courses := by unfold pushNotice; split <;> rfl
@[simp] theorem pushNotice_floor (n : Notice) : (pushNotice n s).floor = s.floor := by unfold pushNotice; split <;> rfl
@[simp] theorem pushNotice_waves (n : Notice) : (pushNotice n s).waves = s.waves := by unfold pushNotice; split <;> rfl
@[simp] theorem pushNotice_engine (n : Notice) : (pushNotice n s).engine = s.engine := by unfold pushNotice; split <;> rfl
@[simp] theorem pushNotice_tickets (n : Notice) : (pushNotice n s).tickets = s.tickets := by unfold pushNotice; split <;> rfl
@[simp] theorem pushNotice_ticketPool (n : Notice) : (pushNotice n s).ticketPool = s.ticketPool := by unfold pushNotice; split <;> rfl
@[simp] theorem pushNotice_calendar (n : Notice) : (pushNotice n s).calendar = s.calendar := by unfold pushNotice; split <;> rfl
@[simp] theorem pushNotice_frozen (n : Notice) : (pushNotice n s).frozen = s.frozen := by unfold pushNotice; split <;> rfl
@[simp] theorem pushNotice_stations (n : Notice) : (pushNotice n s).stations = s.stations := by unfold pushNotice; split <;> rfl
@[simp] theorem pushNotice_groups (n : Notice) : (pushNotice n s).groups = s.groups := by unfold pushNotice; split <;> rfl
@[simp] theorem pushNotice_groupPool (n : Notice) : (pushNotice n s).groupPool = s.groupPool := by unfold pushNotice; split <;> rfl
@[simp] theorem pushNotice_passLine (n : Notice) : (pushNotice n s).passLine = s.passLine := by unfold pushNotice; split <;> rfl
@[simp] theorem pushNotice_straps (n : Notice) : (pushNotice n s).straps = s.straps := by unfold pushNotice; split <;> rfl
@[simp] theorem pushNotice_link_mode (n : Notice) : (pushNotice n s).link.mode = s.link.mode := by unfold pushNotice; split <;> rfl
@[simp] theorem pushNotice_link_receiver (n : Notice) : (pushNotice n s).link.receiver = s.link.receiver := by unfold pushNotice; split <;> rfl
@[simp] theorem pushNotice_link_input (n : Notice) : (pushNotice n s).link.input = s.link.input := by unfold pushNotice; split <;> rfl
@[simp] theorem pushNotice_link_decoder (n : Notice) : (pushNotice n s).link.decoder = s.link.decoder := by unfold pushNotice; split <;> rfl
@[simp] theorem pushNotice_link_replies (n : Notice) : (pushNotice n s).link.replies = s.link.replies := by unfold pushNotice; split <;> rfl
@[simp] theorem pushNotice_link_tx (n : Notice) : (pushNotice n s).link.tx = s.link.tx := by unfold pushNotice; split <;> rfl
@[simp] theorem pushNotice_link_seq (n : Notice) : (pushNotice n s).link.seq = s.link.seq := by unfold pushNotice; split <;> rfl
@[simp] theorem pushNotice_link_pickupLimit (n : Notice) : (pushNotice n s).link.pickupLimit = s.link.pickupLimit := by unfold pushNotice; split <;> rfl
@[simp] theorem pushNotice_stockOf (n : Notice) (c' : Nat) : stockOf (pushNotice n s) c' = stockOf s c' := by unfold pushNotice; split <;> rfl
@[simp] theorem pushNotice_componentStation (n : Notice) (c' : Nat) : componentStation (pushNotice n s) c' = componentStation s c' := by unfold pushNotice; split <;> rfl
@[simp] theorem pushNotice_cookTime (n : Notice) (c' : Nat) : cookTime (pushNotice n s) c' = cookTime s c' := by unfold pushNotice; split <;> rfl
@[simp] theorem pushNotice_holdWindow (n : Notice) (c' : Nat) : holdWindow (pushNotice n s) c' = holdWindow s c' := by unfold pushNotice; split <;> rfl
@[simp] theorem pushNotice_tableRecord (n : Notice) (u' : Nat) : tableRecord (pushNotice n s) u' = tableRecord s u' := by unfold pushNotice; split <;> rfl
@[simp] theorem pushNotice_wave_get (n : Notice) (w' : Nat) : wave? (pushNotice n s) w' = wave? s w' := by unfold pushNotice; split <;> rfl
@[simp] theorem pushNotice_waveState (n : Notice) (w' : Nat) : waveState (pushNotice n s) w' = waveState s w' := by unfold pushNotice; split <;> rfl
@[simp] theorem pushNotice_ticket_get (n : Notice) (t' : Nat) : ticket? (pushNotice n s) t' = ticket? s t' := by unfold pushNotice; split <;> rfl
@[simp] theorem pushNotice_station (n : Notice) (x : Nat) : station (pushNotice n s) x = station s x := by unfold pushNotice; split <;> rfl
@[simp] theorem pushNotice_group_get (n : Notice) (g' : Nat) : group? (pushNotice n s) g' = group? s g' := by unfold pushNotice; split <;> rfl

/-! ## chooseHostFrame -/

@[simp] theorem chooseHostFrame_pending : (chooseHostFrame s).pending = s.pending := by unfold chooseHostFrame; split <;> rfl
@[simp] theorem chooseHostFrame_clock : (chooseHostFrame s).clock = s.clock := by unfold chooseHostFrame; split <;> rfl
@[simp] theorem chooseHostFrame_components : (chooseHostFrame s).components = s.components := by unfold chooseHostFrame; split <;> rfl
@[simp] theorem chooseHostFrame_courses : (chooseHostFrame s).courses = s.courses := by unfold chooseHostFrame; split <;> rfl
@[simp] theorem chooseHostFrame_floor : (chooseHostFrame s).floor = s.floor := by unfold chooseHostFrame; split <;> rfl
@[simp] theorem chooseHostFrame_waves : (chooseHostFrame s).waves = s.waves := by unfold chooseHostFrame; split <;> rfl
@[simp] theorem chooseHostFrame_engine : (chooseHostFrame s).engine = s.engine := by unfold chooseHostFrame; split <;> rfl
@[simp] theorem chooseHostFrame_tickets : (chooseHostFrame s).tickets = s.tickets := by unfold chooseHostFrame; split <;> rfl
@[simp] theorem chooseHostFrame_ticketPool : (chooseHostFrame s).ticketPool = s.ticketPool := by unfold chooseHostFrame; split <;> rfl
@[simp] theorem chooseHostFrame_calendar : (chooseHostFrame s).calendar = s.calendar := by unfold chooseHostFrame; split <;> rfl
@[simp] theorem chooseHostFrame_frozen : (chooseHostFrame s).frozen = s.frozen := by unfold chooseHostFrame; split <;> rfl
@[simp] theorem chooseHostFrame_stations : (chooseHostFrame s).stations = s.stations := by unfold chooseHostFrame; split <;> rfl
@[simp] theorem chooseHostFrame_groups : (chooseHostFrame s).groups = s.groups := by unfold chooseHostFrame; split <;> rfl
@[simp] theorem chooseHostFrame_groupPool : (chooseHostFrame s).groupPool = s.groupPool := by unfold chooseHostFrame; split <;> rfl
@[simp] theorem chooseHostFrame_passLine : (chooseHostFrame s).passLine = s.passLine := by unfold chooseHostFrame; split <;> rfl
@[simp] theorem chooseHostFrame_straps : (chooseHostFrame s).straps = s.straps := by unfold chooseHostFrame; split <;> rfl
@[simp] theorem chooseHostFrame_link_mode : (chooseHostFrame s).link.mode = s.link.mode := by unfold chooseHostFrame; split <;> rfl
@[simp] theorem chooseHostFrame_link_receiver : (chooseHostFrame s).link.receiver = s.link.receiver := by unfold chooseHostFrame; split <;> rfl
@[simp] theorem chooseHostFrame_link_input : (chooseHostFrame s).link.input = s.link.input := by unfold chooseHostFrame; split <;> rfl
@[simp] theorem chooseHostFrame_link_decoder : (chooseHostFrame s).link.decoder = s.link.decoder := by unfold chooseHostFrame; split <;> rfl
@[simp] theorem chooseHostFrame_link_lost : (chooseHostFrame s).link.lost = s.link.lost := by unfold chooseHostFrame; split <;> rfl
@[simp] theorem chooseHostFrame_link_seq : (chooseHostFrame s).link.seq = s.link.seq := by unfold chooseHostFrame; split <;> rfl
@[simp] theorem chooseHostFrame_link_pickupLimit : (chooseHostFrame s).link.pickupLimit = s.link.pickupLimit := by unfold chooseHostFrame; split <;> rfl
@[simp] theorem chooseHostFrame_stockOf (c' : Nat) : stockOf (chooseHostFrame s) c' = stockOf s c' := by unfold chooseHostFrame; split <;> rfl
@[simp] theorem chooseHostFrame_componentStation (c' : Nat) : componentStation (chooseHostFrame s) c' = componentStation s c' := by unfold chooseHostFrame; split <;> rfl
@[simp] theorem chooseHostFrame_cookTime (c' : Nat) : cookTime (chooseHostFrame s) c' = cookTime s c' := by unfold chooseHostFrame; split <;> rfl
@[simp] theorem chooseHostFrame_holdWindow (c' : Nat) : holdWindow (chooseHostFrame s) c' = holdWindow s c' := by unfold chooseHostFrame; split <;> rfl
@[simp] theorem chooseHostFrame_tableRecord (u' : Nat) : tableRecord (chooseHostFrame s) u' = tableRecord s u' := by unfold chooseHostFrame; split <;> rfl
@[simp] theorem chooseHostFrame_wave_get (w' : Nat) : wave? (chooseHostFrame s) w' = wave? s w' := by unfold chooseHostFrame; split <;> rfl
@[simp] theorem chooseHostFrame_waveState (w' : Nat) : waveState (chooseHostFrame s) w' = waveState s w' := by unfold chooseHostFrame; split <;> rfl
@[simp] theorem chooseHostFrame_ticket_get (t' : Nat) : ticket? (chooseHostFrame s) t' = ticket? s t' := by unfold chooseHostFrame; split <;> rfl
@[simp] theorem chooseHostFrame_station (x : Nat) : station (chooseHostFrame s) x = station s x := by unfold chooseHostFrame; split <;> rfl
@[simp] theorem chooseHostFrame_group_get (g' : Nat) : group? (chooseHostFrame s) g' = group? s g' := by unfold chooseHostFrame; split <;> rfl

/-! ## settle -/

@[simp] theorem settle_pending : (settle s).pending = s.pending := by unfold settle; split <;> simp
@[simp] theorem settle_clock : (settle s).clock = s.clock := by unfold settle; split <;> simp
@[simp] theorem settle_components : (settle s).components = s.components := by unfold settle; split <;> simp
@[simp] theorem settle_courses : (settle s).courses = s.courses := by unfold settle; split <;> simp
@[simp] theorem settle_floor : (settle s).floor = s.floor := by unfold settle; split <;> simp
@[simp] theorem settle_waves : (settle s).waves = s.waves := by unfold settle; split <;> simp
@[simp] theorem settle_engine : (settle s).engine = s.engine := by unfold settle; split <;> simp
@[simp] theorem settle_tickets : (settle s).tickets = s.tickets := by unfold settle; split <;> simp
@[simp] theorem settle_ticketPool : (settle s).ticketPool = s.ticketPool := by unfold settle; split <;> simp
@[simp] theorem settle_calendar : (settle s).calendar = s.calendar := by unfold settle; split <;> simp
@[simp] theorem settle_frozen : (settle s).frozen = s.frozen := by unfold settle; split <;> simp
@[simp] theorem settle_stations : (settle s).stations = s.stations := by unfold settle; split <;> simp
@[simp] theorem settle_groups : (settle s).groups = s.groups := by unfold settle; split <;> simp
@[simp] theorem settle_groupPool : (settle s).groupPool = s.groupPool := by unfold settle; split <;> simp
@[simp] theorem settle_passLine : (settle s).passLine = s.passLine := by unfold settle; split <;> simp
@[simp] theorem settle_straps : (settle s).straps = s.straps := by unfold settle; split <;> simp
@[simp] theorem settle_link_mode : (settle s).link.mode = s.link.mode := by unfold settle; split <;> simp
@[simp] theorem settle_link_receiver : (settle s).link.receiver = s.link.receiver := by unfold settle; split <;> simp
@[simp] theorem settle_link_input : (settle s).link.input = s.link.input := by unfold settle; split <;> simp
@[simp] theorem settle_link_decoder : (settle s).link.decoder = s.link.decoder := by unfold settle; split <;> simp
@[simp] theorem settle_link_lost : (settle s).link.lost = s.link.lost := by unfold settle; split <;> simp
@[simp] theorem settle_link_seq : (settle s).link.seq = s.link.seq := by unfold settle; split <;> simp
@[simp] theorem settle_link_pickupLimit : (settle s).link.pickupLimit = s.link.pickupLimit := by unfold settle; split <;> simp
@[simp] theorem settle_stockOf (c' : Nat) : stockOf (settle s) c' = stockOf s c' := by unfold settle; split <;> simp
@[simp] theorem settle_componentStation (c' : Nat) : componentStation (settle s) c' = componentStation s c' := by unfold settle; split <;> simp
@[simp] theorem settle_cookTime (c' : Nat) : cookTime (settle s) c' = cookTime s c' := by unfold settle; split <;> simp
@[simp] theorem settle_holdWindow (c' : Nat) : holdWindow (settle s) c' = holdWindow s c' := by unfold settle; split <;> simp
@[simp] theorem settle_tableRecord (u' : Nat) : tableRecord (settle s) u' = tableRecord s u' := by unfold settle; split <;> simp
@[simp] theorem settle_wave_get (w' : Nat) : wave? (settle s) w' = wave? s w' := by unfold settle; split <;> simp
@[simp] theorem settle_waveState (w' : Nat) : waveState (settle s) w' = waveState s w' := by unfold settle; split <;> simp
@[simp] theorem settle_ticket_get (t' : Nat) : ticket? (settle s) t' = ticket? s t' := by unfold settle; split <;> simp
@[simp] theorem settle_station (x : Nat) : station (settle s) x = station s x := by unfold settle; split <;> simp
@[simp] theorem settle_group_get (g' : Nat) : group? (settle s) g' = group? s g' := by unfold settle; split <;> simp

/-! ## Records read after an update -/

@[simp] theorem ticket_get_setTicket_self (t : Nat) (tk : Ticket) : ticket? (setTicket t tk s) t = some tk := by
  simp [ticket?]

theorem ticket_get_setTicket_of_ne {t u : Nat} (tk : Ticket) (h : u ≠ t) : ticket? (setTicket t tk s) u = ticket? s u := by
  simp [ticket?, Store.get?_set_of_ne _ _ h]

theorem ticket_get_updTicket (t u : Nat) (f : Ticket → Ticket) :
    ticket? (updTicket t f s) u = if u = t then (ticket? s u).map f else ticket? s u := by
  simp [ticket?, Store.get?_update]

theorem group_get_updGroup (g h : Nat) (f : Group → Group) :
    group? (updGroup g f s) h = if h = g then (group? s h).map f else group? s h := by
  simp [group?, Store.get?_update]

theorem wave_get_updWave (w v : Nat) (f : Wave → Wave) :
    wave? (updWave w f s) v = if v = w then (wave? s v).map f else wave? s v := by
  simp [wave?, Store.get?_update]

@[simp] theorem wave_get_freeWave_self (w : Nat) : wave? (freeWave w s) w = none := by
  simp [wave?]

theorem wave_get_freeWave_of_ne {w v : Nat} (h : v ≠ w) : wave? (freeWave w s) v = wave? s v := by
  simp [wave?, Store.get?_erase_of_ne _ h]

/-- The controllers after one is changed. -/
theorem station_updStation (x y : Nat) (f : Station → Station) :
    station (updStation x f s) y = if y = x ∧ x < s.stations.length then f (station s y) else station s y := by
  simp only [station, updStation_stations, List.getD_eq_getElem?_getD, List.getElem?_modify]
  by_cases h : x = y
  · subst h
    by_cases hx : x < s.stations.length
    · simp [hx]
    · simp [hx]
  · simp [h, Ne.symm h]

@[simp] theorem updStation_stations_length (x : Nat) (f : Station → Station) :
    (updStation x f s).stations.length = s.stations.length := by
  simp

/-- A table's record after one is written. -/
theorem tableRecord_setTableRecord (u v : Nat) (r : TableRecord) :
    tableRecord (setTableRecord u r s) v = if v = u then r else tableRecord s v := by
  unfold tableRecord setTableRecord
  by_cases hr : r = {}
  · by_cases h : v = u
    · subst h; simp [hr]
    · simp [hr, h, Store.get?_erase_of_ne _ h]
  · by_cases h : v = u
    · subst h; simp [hr]
    · simp [hr, h, Store.get?_set_of_ne _ _ h]

/-- A stock count after one is written: the component is written if it is defined. -/
theorem stockOf_setStock (c d n : Nat) :
    stockOf (setStock c n s) d = if d = c then (s.components.get? d).map fun _ => n else stockOf s d := by
  unfold stockOf
  rw [setStock_components, Store.get?_update]
  split <;> cases s.components.get? d <;> rfl

end Sys2Proof.Machine
end

