-- ==== Sys2Proof/Laws/Lines.lean ====
section
/-!
SUPPORT. What the line operations can do: they change line links and nothing else, and keep every line's presence and receiver.
-/

namespace Sys2Proof.Machine

/-- `t` is `s` but for the queues, transmitters and pending refreshes of line links. -/
structure OnlyLines (s t : State) : Prop where
  rest : t = { s with stations := t.stations, passLine := t.passLine }
  length : t.stations.length = s.stations.length
  config : ∀ x, (station t x).config = (station s x).config
  load : ∀ x, (station t x).load = (station s x).load
  rushQueue : ∀ x, (station t x).rushQueue = (station s x).rushQueue
  ordinaryQueue : ∀ x, (station t x).ordinaryQueue = (station s x).ordinaryQueue
  positions : ∀ x, (station t x).positions = (station s x).positions
  blocked : ∀ x, (station t x).blocked = (station s x).blocked
  presence : ∀ l, (lineOf t l).presence = (lineOf s l).presence
  receiver : ∀ l, (lineOf t l).receiver = (lineOf s l).receiver

theorem OnlyLines.refl (s : State) : OnlyLines s s := by
  constructor <;> intros <;> rfl

theorem OnlyLines.trans {s t u : State} (h : OnlyLines s t) (k : OnlyLines t u) : OnlyLines s u where
  rest := by rw [k.rest, h.rest]
  length := k.length.trans h.length
  config x := (k.config x).trans (h.config x)
  load x := (k.load x).trans (h.load x)
  rushQueue x := (k.rushQueue x).trans (h.rushQueue x)
  ordinaryQueue x := (k.ordinaryQueue x).trans (h.ordinaryQueue x)
  positions x := (k.positions x).trans (h.positions x)
  blocked x := (k.blocked x).trans (h.blocked x)
  presence l := (k.presence l).trans (h.presence l)
  receiver l := (k.receiver l).trans (h.receiver l)

/-- The state has the line link. -/
def hasLine (s : State) : LineId → Bool
  | .station x => decide (x < s.stations.length)
  | .pass => true

/-- A line link after one is changed. -/
theorem lineOf_updLine (l m : LineId) (f : Line → Line) (s : State) :
    lineOf (updLine l f s) m = if m = l ∧ hasLine s l = true then f (lineOf s m) else lineOf s m := by
  cases l with
  | pass => cases m <;> simp [updLine, lineOf, station, hasLine]
  | station x =>
    cases m with
    | pass => simp [updLine, lineOf]
    | station y =>
      simp only [updLine, lineOf, station_updStation, LineId.station.injEq, hasLine, decide_eq_true_eq]
      split <;> rfl

/-- A change of a line that keeps its presence and receiver. -/
theorem OnlyLines.updLine (l : LineId) (f : Line → Line) (s : State)
    (hp : ∀ ln, (f ln).presence = ln.presence) (hr : ∀ ln, (f ln).receiver = ln.receiver) :
    OnlyLines s (updLine l f s) := by
  constructor
  case presence => intro m; rw [lineOf_updLine]; split <;> simp [hp]
  case receiver => intro m; rw [lineOf_updLine]; split <;> simp [hr]
  all_goals
    cases l
    · try intro x
      first
        | rfl
        | (simp only [Machine.updLine, station_updStation]; split <;> rfl)
        | simp [Machine.updLine]
    · try intro x
      rfl

theorem beginRefresh_only (l : LineId) (s : State) : OnlyLines s (beginRefresh l s) := by
  unfold beginRefresh
  dsimp only
  split
  · exact .updLine l _ s (fun _ => rfl) fun _ => rfl
  · exact .refl s

theorem chooseLineFrame_only (l : LineId) (s : State) : OnlyLines s (chooseLineFrame l s) := by
  unfold chooseLineFrame
  split
  · exact .updLine l _ s (fun _ => rfl) fun _ => rfl
  · refine .trans ?_ (beginRefresh_only l _)
    exact .updLine l _ s (fun _ => rfl) fun _ => rfl

theorem startLine_only (l : LineId) (s : State) : OnlyLines s (startLine l s) := by
  unfold startLine
  split
  · exact chooseLineFrame_only l s
  · exact .refl s

theorem askRefresh_only (l : LineId) (s : State) : OnlyLines s (askRefresh l s) := by
  unfold askRefresh
  refine .trans ?_ (beginRefresh_only l _)
  exact .updLine l _ s (fun _ => rfl) fun _ => rfl

/-- A record produced for a terminal changes line links alone (R121, R123). -/
theorem sendRecord_only (l : LineId) (r : LineRecord) (s : State) : OnlyLines s (sendRecord l r s) := by
  unfold sendRecord
  dsimp only
  split
  · split
    · refine .trans ?_ (startLine_only l _)
      exact .updLine l _ s (fun _ => rfl) fun _ => rfl
    · exact askRefresh_only l s
  · exact .refl s

theorem sendRecords_only (l : LineId) (rs : List LineRecord) (s : State) : OnlyLines s (sendRecords l rs s) := by
  unfold sendRecords
  induction rs generalizing s with
  | nil => exact .refl s
  | cons r rs ih => exact (sendRecord_only l r s).trans (ih _)

/-! ## What that leaves unchanged -/

namespace OnlyLines

variable {s t : State} (h : OnlyLines s t)
include h

theorem clock : t.clock = s.clock := by rw [h.rest]
theorem link : t.link = s.link := by rw [h.rest]
theorem components : t.components = s.components := by rw [h.rest]
theorem courses : t.courses = s.courses := by rw [h.rest]
theorem floor : t.floor = s.floor := by rw [h.rest]
theorem waves : t.waves = s.waves := by rw [h.rest]
theorem engine : t.engine = s.engine := by rw [h.rest]
theorem tickets : t.tickets = s.tickets := by rw [h.rest]
theorem ticketPool : t.ticketPool = s.ticketPool := by rw [h.rest]
theorem calendar : t.calendar = s.calendar := by rw [h.rest]
theorem frozen : t.frozen = s.frozen := by rw [h.rest]
theorem groups : t.groups = s.groups := by rw [h.rest]
theorem groupPool : t.groupPool = s.groupPool := by rw [h.rest]
theorem pending : t.pending = s.pending := by rw [h.rest]
theorem straps : t.straps = s.straps := by rw [h.rest]
end OnlyLines

end Sys2Proof.Machine
end

