-- ==== Sys2Proof/Laws/Offers.lean ====
section
/-!
SUPPORT. What offers and drains can do: they move tickets between blocked lists, queues and cook positions.  No ticket is created or freed,
no station changes its configuration, load or presence, and nothing else changes but line links.
-/

namespace Sys2Proof.Machine

/-- `t` is `s` but for the places and entry figures of live tickets and for what line links hold. -/
structure OnlyPlaces (s t : State) : Prop where
  rest : t = { s with tickets := t.tickets, stations := t.stations, passLine := t.passLine }
  length : t.stations.length = s.stations.length
  config : ∀ x, (station t x).config = (station s x).config
  load : ∀ x, (station t x).load = (station s x).load
  presence : ∀ l, (lineOf t l).presence = (lineOf s l).presence
  receiver : ∀ l, (lineOf t l).receiver = (lineOf s l).receiver
  live : ∀ n, (ticket? t n).isSome = (ticket? s n).isSome

theorem OnlyPlaces.refl (s : State) : OnlyPlaces s s := by
  constructor <;> intros <;> rfl

theorem OnlyPlaces.trans {s t u : State} (h : OnlyPlaces s t) (k : OnlyPlaces t u) : OnlyPlaces s u where
  rest := by rw [k.rest, h.rest]
  length := k.length.trans h.length
  config x := (k.config x).trans (h.config x)
  load x := (k.load x).trans (h.load x)
  presence l := (k.presence l).trans (h.presence l)
  receiver l := (k.receiver l).trans (h.receiver l)
  live n := (k.live n).trans (h.live n)

/-- A line operation is such a change. -/
theorem OnlyLines.places {s t : State} (h : OnlyLines s t) : OnlyPlaces s t where
  rest := by rw [h.rest]
  length := h.length
  config := h.config
  load := h.load
  presence := h.presence
  receiver := h.receiver
  live n := by unfold ticket?; rw [h.tickets]

/-- A live ticket's record is written. -/
theorem OnlyPlaces.setTicket {t : Nat} {s : State} (tk : Ticket) (h : (ticket? s t).isSome = true) :
    OnlyPlaces s (setTicket t tk s) := by
  constructor
  case live =>
    intro n
    by_cases hn : n = t
    · subst hn; simp [h]
    · rw [ticket_get_setTicket_of_ne s tk hn]
  all_goals intros; rfl

theorem OnlyPlaces.updTicket (t : Nat) (f : Ticket → Ticket) (s : State) : OnlyPlaces s (updTicket t f s) := by
  constructor
  case live => intro n; unfold ticket?; rw [updTicket_tickets, Store.isSome_get?_update]
  all_goals intros; rfl

/-- A controller changes its queue, positions or blocked list. -/
theorem OnlyPlaces.updStation (x : Nat) (f : Station → Station) (s : State) (hc : ∀ st, (f st).config = st.config)
    (hl : ∀ st, (f st).load = st.load) (hn : ∀ st, (f st).line = st.line) : OnlyPlaces s (updStation x f s) := by
  have hline : ∀ l, lineOf (Machine.updStation x f s) l = lineOf s l := by
    intro l
    cases l
    · simp only [lineOf, station_updStation]; split <;> simp [hn]
    · rfl
  constructor
  case rest => rfl
  case length => simp
  case config => intro y; rw [station_updStation]; split <;> simp [hc]
  case load => intro y; rw [station_updStation]; split <;> simp [hl]
  case presence => intro l; rw [hline]
  case receiver => intro l; rw [hline]
  case live => intro n; rfl

theorem joinBlocked_places (t : Nat) (s : State) : OnlyPlaces s (joinBlocked t s) := by
  unfold joinBlocked
  split
  · refine .trans ?_ (.updStation _ _ _ ?_ ?_ ?_)
    · refine .setTicket _ ?_
      simp_all
    all_goals intro _; rfl
  · exact .refl s

theorem leaveBlocked_places (x t : Nat) (s : State) : OnlyPlaces s (leaveBlocked x t s) :=
  .updStation _ _ _ (fun _ => rfl) (fun _ => rfl) fun _ => rfl

theorem joinQueue_config (t : Nat) (rush : Bool) (st : Station) : (joinQueue t rush st).config = st.config := by
  cases rush <;> rfl

theorem joinQueue_load (t : Nat) (rush : Bool) (st : Station) : (joinQueue t rush st).load = st.load := by
  cases rush <;> rfl

theorem joinQueue_line (t : Nat) (rush : Bool) (st : Station) : (joinQueue t rush st).line = st.line := by
  cases rush <;> rfl

theorem enterStation_places (t x : Nat) (s : State) : OnlyPlaces s (enterStation t x s) := by
  unfold enterStation
  split
  · exact .refl s
  · dsimp only
    split
    · refine .trans ?_ (sendRecords_only _ _ _).places
      refine .trans ?_ (.updStation _ _ _ ?_ ?_ ?_)
      · refine .setTicket _ ?_
        simp_all
      all_goals intro _; rfl
    · refine .trans ?_ (sendRecord_only _ _ _).places
      refine .trans (t := Machine.setTicket t _ s) (.setTicket _ ?_) (.updStation _ _ _ (joinQueue_config _ _) (joinQueue_load _ _) (joinQueue_line _ _))
      simp_all

/-- An offer changes places alone (R94). -/
theorem offer_places (t : Nat) (s : State) : OnlyPlaces s (offer t s).1 := by
  unfold offer
  split
  · exact .refl s
  · dsimp only
    split
    · exact enterStation_places _ _ _
    · split
      · split
        · exact enterStation_places _ _ _
        · exact joinBlocked_places _ _
      · exact joinBlocked_places _ _

theorem offerAll_places (ts : List Nat) (s : State) : OnlyPlaces s (offerAll ts s) := by
  unfold offerAll
  induction ts generalizing s with
  | nil => exact .refl s
  | cons t ts ih => exact (offer_places t s).trans (ih _)

theorem moveHead_places (x i : Nat) (s : State) : OnlyPlaces s (moveHead x i s).1 := by
  unfold moveHead
  split
  · exact .refl s
  · dsimp only
    refine .trans ?_ (sendRecord_only _ _ _).places
    refine .trans ?_ (.updTicket _ _ _)
    exact .updStation _ _ _ (fun _ => rfl) (fun _ => rfl) fun _ => rfl

theorem leaveStation_places (t : Nat) (tk : Ticket) (r : LineRecord) (s : State) :
    OnlyPlaces s (leaveStation t tk r s).1 := by
  unfold leaveStation
  dsimp only
  split
  · refine .trans ?_ (sendRecord_only _ _ _).places
    exact .updStation _ _ _ (fun _ => rfl) (fun _ => rfl) fun _ => rfl
  · refine .trans ?_ (moveHead_places _ _ _)
    refine .trans ?_ (sendRecord_only _ _ _).places
    exact .updStation _ _ _ (fun _ => rfl) (fun _ => rfl) fun _ => rfl
  · exact .refl s

theorem drainList_places (fuel y : Nat) (s : State) : OnlyPlaces s (drainList fuel y s) := by
  induction fuel generalizing s with
  | zero => exact .refl s
  | succ fuel ih =>
    unfold drainList
    split
    · exact .refl s
    · rename_i t _
      have h := (leaveBlocked_places y t s).trans (offer_places t (leaveBlocked y t s))
      split
      · rename_i u x e
        rw [e] at h
        exact h.trans (ih _)
      · exact .refl s

/-- A drain changes places alone (R98). -/
theorem drain_places (x : Nat) (s : State) : OnlyPlaces s (drain x s) := by
  unfold drain
  generalize x :: stationsNaming s x = ys
  induction ys generalizing s with
  | nil => exact .refl s
  | cons y ys ih => exact (drainList_places _ y s).trans (ih _)

theorem drainIf_places (departed : Bool) (x : Nat) (s : State) : OnlyPlaces s (drainIf departed x s) := by
  cases departed
  · exact .refl s
  · exact drain_places x s

/-! ## What that leaves unchanged -/

namespace OnlyPlaces

variable {s t : State} (h : OnlyPlaces s t)
include h

theorem clock : t.clock = s.clock := by rw [h.rest]
theorem link : t.link = s.link := by rw [h.rest]
theorem components : t.components = s.components := by rw [h.rest]
theorem courses : t.courses = s.courses := by rw [h.rest]
theorem floor : t.floor = s.floor := by rw [h.rest]
theorem waves : t.waves = s.waves := by rw [h.rest]
theorem engine : t.engine = s.engine := by rw [h.rest]
theorem ticketPool : t.ticketPool = s.ticketPool := by rw [h.rest]
theorem calendar : t.calendar = s.calendar := by rw [h.rest]
theorem frozen : t.frozen = s.frozen := by rw [h.rest]
theorem groups : t.groups = s.groups := by rw [h.rest]
theorem groupPool : t.groupPool = s.groupPool := by rw [h.rest]
theorem pending : t.pending = s.pending := by rw [h.rest]
theorem straps : t.straps = s.straps := by rw [h.rest]

end OnlyPlaces

/-! ## The ticket offered, and the others -/

/-- An offer leaves every other ticket's record alone. -/
theorem offer_others {t u : Nat} (s : State) (h : u ≠ t) : ticket? (offer t s).1 u = ticket? s u := by
  have hj : ticket? (joinBlocked t s) u = ticket? s u := by
    unfold joinBlocked
    split
    · dsimp only; rw [updStation_ticket_get, ticket_get_setTicket_of_ne s _ h]
    · rfl
  have he : ∀ x, ticket? (enterStation t x s) u = ticket? s u := by
    intro x
    unfold enterStation
    split
    · rfl
    · dsimp only
      split
      · unfold ticket?
        rw [(sendRecords_only _ _ _).tickets]
        exact ticket_get_setTicket_of_ne s _ h
      · unfold ticket?
        rw [(sendRecord_only _ _ _).tickets]
        exact ticket_get_setTicket_of_ne s _ h
  unfold offer
  split
  · rfl
  · dsimp only
    split
    · exact he _
    · split
      · split
        · exact he _
        · exact hj
      · exact hj

/-- What an offer can make of the ticket's record: it is QUEUED, ON_LINE or BLOCKED, and of its other fields only its station, its position
and its entry figures have changed (R72, R94, R109). -/
theorem offer_ticket {t : Nat} {tk : Ticket} (s : State) (h : ticket? s t = some tk) :
    ∃ tk', ticket? (offer t s).1 t = some tk' ∧ (tk'.state = .queued ∨ tk'.state = .onLine ∨ tk'.state = .blocked)
      ∧ tk' = { tk with
          station := tk'.station, dueReady := tk'.dueReady, firedAt := tk'.firedAt, lateness := tk'.lateness,
          state := tk'.state, position := tk'.position } := by
  have hj : ticket? (joinBlocked t s) t = some { tk with state := .blocked, station := tk.homeStation } := by
    unfold joinBlocked
    rw [h]
    dsimp only
    rw [updStation_ticket_get, ticket_get_setTicket_self]
  have he : ∀ x, ∃ st p, (st = TicketState.queued ∨ st = .onLine)
      ∧ ticket? (enterStation t x s) t = some { entryTimes s x tk with state := st, position := p } := by
    intro x
    unfold enterStation
    rw [h]
    dsimp only
    split
    · rename_i i _
      refine ⟨.onLine, some i, .inr rfl, ?_⟩
      unfold ticket?
      rw [(sendRecords_only _ _ _).tickets]
      exact ticket_get_setTicket_self s t _
    · refine ⟨.queued, tk.position, .inl rfl, ?_⟩
      unfold ticket?
      rw [(sendRecord_only _ _ _).tickets]
      exact ticket_get_setTicket_self s t _
  have hin : ∀ x, ∃ tk', ticket? (enterStation t x s) t = some tk'
      ∧ (tk'.state = .queued ∨ tk'.state = .onLine ∨ tk'.state = .blocked)
      ∧ tk' = { tk with
          station := tk'.station, dueReady := tk'.dueReady, firedAt := tk'.firedAt, lateness := tk'.lateness,
          state := tk'.state, position := tk'.position } := by
    intro x
    obtain ⟨st, p, hs, e⟩ := he x
    exact ⟨_, e, hs.elim .inl fun k => .inr (.inl k), rfl⟩
  have hout : ∃ tk', ticket? (joinBlocked t s) t = some tk'
      ∧ (tk'.state = .queued ∨ tk'.state = .onLine ∨ tk'.state = .blocked)
      ∧ tk' = { tk with
          station := tk'.station, dueReady := tk'.dueReady, firedAt := tk'.firedAt, lateness := tk'.lateness,
          state := tk'.state, position := tk'.position } :=
    ⟨_, hj, .inr (.inr rfl), rfl⟩
  unfold offer
  rw [h]
  dsimp only
  split
  · exact hin _
  · split
    · split
      · exact hin _
      · exact hout
    · exact hout

end Sys2Proof.Machine
end

