-- ==== Sys2Proof/Laws/Places.lean ====
section
/-!
SUPPORT. The relations of Sys2Proof/Safety.lean hold of the shared operations: what a record produced for a terminal, an entry, an offer and a drain
do, each said once.
-/

namespace Sys2Proof.Machine

/-! ## Records (R121, R123) -/

/-- A change of a line link that leaves it as it is changes nothing. -/
theorem updLine_self {l : LineId} {f : Line → Line} {s : State} (h : f (lineOf s l) = lineOf s l) : updLine l f s = s := by
  cases l with
  | pass =>
    simp only [lineOf] at h
    simp only [updLine, h]
  | station x =>
    simp only [lineOf, station, List.getD_eq_getElem?_getD] at h
    have e : s.stations.modify x (fun st => { st with line := f st.line }) = s.stations := by
      apply List.ext_getElem?
      intro i
      rw [List.getElem?_modify]
      by_cases hx : x = i
      · subst hx
        cases hs : s.stations[x]? with
        | none => simp
        | some st =>
          rw [hs] at h
          simp only [Option.getD_some] at h
          simp [h]
      · simp [hx]
    simp only [updLine, updStation, e]

theorem updLine_updLine (l : LineId) (f g : Line → Line) (s : State) :
    updLine l g (updLine l f s) = updLine l (fun ln => g (f ln)) s := by
  cases l <;> simp [updLine, updStation, List.modify_modify_eq, Function.comp_def]

theorem updLine_congr {l : LineId} {f g : Line → Line} {s : State} (h : f (lineOf s l) = g (lineOf s l)) :
    updLine l f s = updLine l g s := by
  cases l with
  | pass =>
    simp only [lineOf] at h
    simp only [updLine, h]
  | station x =>
    simp only [lineOf, station, List.getD_eq_getElem?_getD] at h
    have e : s.stations.modify x (fun st => { st with line := f st.line })
        = s.stations.modify x (fun st => { st with line := g st.line }) := by
      apply List.ext_getElem?
      intro i
      rw [List.getElem?_modify, List.getElem?_modify]
      by_cases hx : x = i
      · subst hx
        cases hs : s.stations[x]? with
        | none => simp
        | some st =>
          rw [hs] at h
          simp only [Option.getD_some] at h
          simp [h]
      · simp [hx]
    simp only [updLine, updStation, e]

/-- A line that has a record produced for it stays sound. -/
theorem produced_sound {r : LineRecord} {ln : Line} (h : LineSound ln) : LineSound (produced r ln) := by
  obtain ⟨h1, h2, h3, h4, h5⟩ := h
  unfold produced
  split
  · exact ⟨h1, h2, h3, h4, h5⟩
  · rename_i h6
    simp only [not_or] at h6
    have h7 : ln.presence = .present := by cases h : ln.presence <;> simp_all
    split
    · rename_i h8
      refine ⟨by simp, ?_, by simp, by simp [h7], h5⟩
      intro hi
      have := (h2 hi).1
      simp [this] at h8
    · split
      · rename_i h8 h9
        exact ⟨h1, by simp, h3, h4, h5⟩
      · rename_i h8 h9
        refine ⟨?_, ?_, ?_, ?_, h5⟩
        · change (ln.queue ++ [r]).length ≤ 32
          rw [List.length_append, List.length_singleton]
          omega
        · intro h; exact absurd h h9
        · intro h; exact absurd h h6.2
        · simp [h7]

theorem LinesSound.line {s : State} (h : LinesSound s) (l : LineId) : LineSound (lineOf s l) := by
  cases l with
  | pass => exact h.2
  | station x =>
    simp only [lineOf, station, List.getD_eq_getElem?_getD]
    cases hs : s.stations[x]? with
    | none => exact ⟨by simp, by simp, by simp, by simp, rfl⟩
    | some st => exact h.1 st (List.mem_of_getElem? hs)

/-- A record produced for the terminal of a sound line (R121, R123). -/
theorem sendRecord_eq {l : LineId} {s : State} (r : LineRecord) (h : LineSound (lineOf s l)) :
    sendRecord l r s = updLine l (produced r) s := by
  obtain ⟨h1, h2, h3, h4, h5⟩ := h
  unfold sendRecord
  dsimp only
  split
  · rename_i hp
    obtain ⟨hp, hr⟩ := hp
    split
    · rename_i hq
      have hq' : ¬ 32 ≤ (lineOf s l).queue.length := by simpa using hq
      by_cases hl : hasLine s l = true
      · unfold startLine
        rw [lineOf_updLine]
        simp only [hl, and_self, if_true]
        split
        · rename_i ht
          obtain ⟨hn, -⟩ := h2 ht
          unfold chooseLineFrame
          rw [lineOf_updLine]
          simp only [hl, and_self, if_true, hn, List.nil_append]
          rw [updLine_updLine]
          apply updLine_congr
          unfold produced
          rw [if_neg (by simp [hp, hr]), if_neg (by simp [hn]), if_pos ht]
          simp [← hn]
        · rename_i ht
          apply updLine_congr
          unfold produced
          rw [if_neg (by simp [hp, hr]), if_neg hq', if_neg ht]
      · exfalso
        cases l with
        | pass => simp [hasLine] at hl
        | station x =>
          simp only [hasLine, decide_eq_true_eq, not_lt] at hl
          simp [lineOf, station, List.getD_eq_getElem?_getD, hl] at hp
    · rename_i hq
      have hq' : 32 ≤ (lineOf s l).queue.length := by simpa using hq
      have ht : (lineOf s l).tx ≠ .idle := by
        intro ht
        rw [(h2 ht).1] at hq'
        simp at hq'
      unfold askRefresh beginRefresh
      dsimp only
      rw [if_neg]
      · apply updLine_congr
        unfold produced
        rw [if_neg (by simp [hp, hr]), if_pos hq']
      · rw [lineOf_updLine]
        split <;> simp [ht]
  · rename_i hp
    refine (updLine_self ?_).symm
    unfold produced
    rw [if_pos]
    cases h : (lineOf s l).presence
    · right
      simp_all
    · exact .inl rfl

/-! ## Entries (R72, R94, R109) -/

theorem lowestFree_eq (k : Nat) (ps : List (Option Nat)) :
    lowestFree k ps = if ps.idxOf none < ps.length then some (k + ps.idxOf none) else none := by
  induction ps generalizing k with
  | nil => rfl
  | cons p ps ih =>
    cases p with
    | none => simp [lowestFree]
    | some t =>
      rw [lowestFree, ih, List.idxOf_cons_ne _ (by simp), List.length_cons]
      by_cases h : ps.idxOf none < ps.length
      · rw [if_pos h, if_pos (by omega)]
        congr 1
        omega
      · rw [if_neg h, if_neg (by omega)]

theorem ticket_get_updLine (l : LineId) (f : Line → Line) (s : State) (n : Nat) : ticket? (updLine l f s) n = ticket? s n := by
  cases l <;> rfl

theorem station_updLine (x y : Nat) (f : Line → Line) (s : State) :
    station (updLine (.station x) f s) y
      = if y = x ∧ x < s.stations.length then { station s y with line := f (station s y).line } else station s y :=
  station_updStation s x y _

/-- A ticket that has left its former place enters a station whose line is sound. -/
theorem enterStation_enters {n x : Nat} {s : State} {tk : Ticket} (hl : LineSound (station s x).line)
    (hx : x < s.stations.length) (h : ticket? s n = some tk) : Enters n x s (enterStation n x s) := by
  have only : ∀ (tk' : Ticket) (f : Station → Station) (g : Line → Line),
      OnlyAt n x s (updLine (.station x) g (updStation x f (setTicket n tk' s))) := by
    intro tk' f g
    refine ⟨rfl, by simp [updLine, updStation, setTicket], fun m hm => ?_, fun y hy => ?_⟩
    · rw [ticket_get_updLine, updStation_ticket_get, ticket_get_setTicket_of_ne s tk' hm]
    · rw [station_updLine, if_neg (by simp [hy]), station_updStation, if_neg (by simp [hy])]
      rfl
  have place : ∀ (tk' : Ticket) (f : Station → Station) (g : Line → Line),
      ticket? (updLine (.station x) g (updStation x f (setTicket n tk' s))) n = some tk'
        ∧ station (updLine (.station x) g (updStation x f (setTicket n tk' s))) x
          = { f (station s x) with line := g (f (station s x)).line } := by
    intro tk' f g
    refine ⟨?_, ?_⟩
    · rw [ticket_get_updLine, updStation_ticket_get, ticket_get_setTicket_self]
    · rw [station_updLine, if_pos ⟨rfl, by simpa using hx⟩, station_updStation, if_pos ⟨rfl, hx⟩]
      rfl
  unfold enterStation
  rw [h]
  dsimp only
  rw [lowestFree_eq]
  by_cases hi : (station s x).positions.idxOf none < (station s x).positions.length
  · simp only [hi, if_true, Nat.zero_add]
    unfold sendRecords
    simp only [List.foldl_cons, List.foldl_nil]
    have hl2 : LineSound (lineOf (updStation x
        (fun st => { st with positions := st.positions.set ((station s x).positions.idxOf none) (some n) })
        (setTicket n { entryTimes s x tk with state := .onLine, position := some ((station s x).positions.idxOf none) } s))
        (.station x)) := by
      simpa [lineOf, station_updStation, hx] using hl
    rw [sendRecord_eq _ hl2, sendRecord_eq, updLine_updLine]
    · refine ⟨only _ _ _, tk, h, ?_⟩
      dsimp only
      rw [if_pos hi]
      obtain ⟨p1, p2⟩ := place { entryTimes s x tk with state := .onLine, position := some ((station s x).positions.idxOf none) }
        (fun st => { st with positions := st.positions.set ((station s x).positions.idxOf none) (some n) })
        (fun ln => produced (.lineTicket n ((station s x).positions.idxOf none)) (produced (showRecord n (entryTimes s x tk)) ln))
      exact ⟨p1, p2⟩
    · rw [lineOf_updLine]
      split
      · exact produced_sound hl2
      · exact hl2
  · simp only [hi, if_false]
    have hl2 : LineSound (lineOf (updStation x (joinQueue n (entryTimes s x tk).rush)
        (setTicket n { entryTimes s x tk with state := .queued } s)) (.station x)) := by
      simp only [lineOf, station_updStation]
      split
      · rw [show (joinQueue n (entryTimes s x tk).rush (station (setTicket n _ s) x)).line = (station s x).line by
          cases (entryTimes s x tk).rush <;> rfl]
        exact hl
      · exact hl
    rw [sendRecord_eq _ hl2]
    refine ⟨only _ _ _, tk, h, ?_⟩
    dsimp only
    rw [if_neg hi]
    obtain ⟨p1, p2⟩ := place { entryTimes s x tk with state := .queued } (joinQueue n (entryTimes s x tk).rush)
      (fun ln => produced (showRecord n (entryTimes s x tk)) ln)
    refine ⟨p1, p2.trans ?_⟩
    have hr : (entryTimes s x tk).rush = tk.rush := rfl
    rw [hr]
    unfold joinQueue
    split <;> rfl

/-! ## The orders of the calendar and of a blocked list (R85, R88, R96) -/

theorem keyBefore_iff (a : Ticket) (m : Nat) (b : Ticket) (n : Nat) :
    keyBefore a m b n = true
      ↔ a.fireTime < b.fireTime ∨ a.fireTime = b.fireTime ∧ (a.seq < b.seq ∨ a.seq = b.seq ∧ m < n) := by
  unfold keyBefore
  split
  · split
    · rw [decide_eq_true_eq]; omega
    · rw [decide_eq_true_eq]; omega
  · rw [decide_eq_true_eq]; omega

/-- Of two live tickets, the calendar's order is that of R88. -/
theorem calendarBefore_iff {s : State} {m n : Nat} {a b : Ticket} (hm : ticket? s m = some a) (hn : ticket? s n = some b) :
    calendarBefore s m n = true ↔ FiresAhead s m n := by
  unfold calendarBefore FiresAhead
  rw [hm, hn]
  dsimp only
  rw [keyBefore_iff]
  simp

/-- Of two live tickets, the order of a blocked list is that of R96. -/
theorem blockedBefore_iff {s : State} {m n : Nat} {a b : Ticket} (hm : ticket? s m = some a) (hn : ticket? s n = some b) :
    blockedBefore s m n = true ↔ BlockedAhead s m n := by
  unfold blockedBefore BlockedAhead FiresAhead
  rw [hm, hn]
  dsimp only
  split
  · rename_i h
    rw [keyBefore_iff]
    simp [h]
  · rename_i h
    cases ha : a.rush <;> cases hb : b.rush <;> simp_all

/-- Where an insertion puts a number. -/
theorem insertBefore_split (before : Nat → Nat → Bool) (t : Nat) (l : List Nat) :
    ∃ ahead behind, l = ahead ++ behind ∧ insertBefore before t l = ahead ++ t :: behind
      ∧ (∀ m ∈ ahead, before t m = false) ∧ ∀ m ∈ behind.head?, before t m = true := by
  induction l with
  | nil => exact ⟨[], [], rfl, rfl, by simp, by simp⟩
  | cons u l ih =>
    unfold insertBefore
    split
    · rename_i h
      exact ⟨[], u :: l, rfl, rfl, by simp, by simpa using h⟩
    · rename_i h
      obtain ⟨ahead, behind, h1, h2, h3, h4⟩ := ih
      refine ⟨u :: ahead, behind, by simp [h1], by simp [h2], ?_, h4⟩
      intro m hm
      rcases List.mem_cons.mp hm with rfl | hm
      · simpa using h
      · exact h3 m hm

/-! ## Offers (R93, R94) -/

theorem canTake_iff (s : State) (x : Nat) : canTake s x = true ↔ Able s x := by
  unfold canTake ableToTake queueCount Able
  cases h : (station s x).config with
  | none => simp
  | some c => simp [and_assoc]

theorem Able.inPart {s : State} {x : Nat} (h : Able s x) : x < s.stations.length := by
  obtain ⟨c, hc, -⟩ := h
  by_contra hx
  simp [station, List.getD_eq_getElem?_getD, List.getElem?_eq_none (Nat.le_of_not_lt hx)] at hc

/-- A ticket that has left its former place blocks in its home station's list. -/
theorem joinBlocked_blocks {n : Nat} {s : State} {tk : Ticket} (h : ticket? s n = some tk)
    (hx : tk.homeStation < s.stations.length)
    (hb : ∀ m ∈ (station s tk.homeStation).blocked, m ≠ n ∧ (ticket? s m).isSome = true) : Blocks n s (joinBlocked n s) := by
  unfold joinBlocked
  rw [h]
  dsimp only
  generalize he : ({ tk with state := .blocked, station := tk.homeStation } : Ticket) = tk'
  obtain ⟨ahead, behind, h1, h2, h3, h4⟩ :=
    insertBefore_split (blockedBefore (setTicket n tk' s)) n (station s tk.homeStation).blocked
  have order : ∀ m ∈ (station s tk.homeStation).blocked, blockedBefore (setTicket n tk' s) n m = true ↔ BlockedAhead s n m := by
    intro m hm
    obtain ⟨hmn, hl⟩ := hb m hm
    obtain ⟨a, ha⟩ := Option.isSome_iff_exists.mp hl
    have ha' : ticket? (setTicket n tk' s) m = some a := by rw [ticket_get_setTicket_of_ne s tk' hmn, ha]
    rw [blockedBefore_iff (ticket_get_setTicket_self s n tk') ha']
    unfold BlockedAhead FiresAhead
    rw [ticket_get_setTicket_self, ha', h, ha]
    subst he
    simp
  refine ⟨tk, ahead, behind, h, ⟨rfl, by simp, fun m hm => ?_, fun y hy => ?_⟩, ?_, h1, ?_, ?_, ?_⟩
  · rw [updStation_ticket_get, ticket_get_setTicket_of_ne s tk' hm]
  · rw [station_updStation, if_neg (by simp [hy])]
    rfl
  · rw [updStation_ticket_get, ticket_get_setTicket_self, he]
  · rw [station_updStation, if_pos ⟨rfl, hx⟩]
    simp only [setTicket_station, h2]
  · intro m hm hk
    have := (order m (by rw [h1]; exact List.mem_append_left _ hm)).mpr hk
    rw [h3 m hm] at this
    exact absurd this (by simp)
  · intro m hm
    exact (order m (by rw [h1]; exact List.mem_append_right _ (List.mem_of_mem_head? hm))).mp (h4 m hm)

/-- An offer of a live ticket that has left its former place (R94). -/
theorem offer_offers {n : Nat} {s : State} {tk : Ticket} (hl : LinesSound s) (h : ticket? s n = some tk)
    (hx : tk.homeStation < s.stations.length)
    (hb : ∀ m ∈ (station s tk.homeStation).blocked, m ≠ n ∧ (ticket? s m).isSome = true) :
    Offers n s (offer n s).1
      ∧ ((offer n s).2 = none → ¬∃ x, GoesTo s tk.homeStation x)
      ∧ ∀ x, (offer n s).2 = some x → GoesTo s tk.homeStation x ∧ Enters n x s (offer n s).1 := by
  have enter : ∀ x, GoesTo s tk.homeStation x → Enters n x s (enterStation n x s) := by
    intro x hg
    refine enterStation_enters (hl.line (.station x)) ?_ h
    rcases hg with ⟨ha, rfl⟩ | ⟨-, ha, -⟩
    · exact ha.inPart
    · exact ha.inPart
  have block := joinBlocked_blocks h hx hb
  unfold offer
  rw [h]
  dsimp only
  split
  · rename_i hc
    rw [canTake_iff] at hc
    have hg : GoesTo s tk.homeStation tk.homeStation := .inl ⟨hc, rfl⟩
    exact ⟨⟨tk, h, .inl ⟨_, hg, enter _ hg⟩⟩, by simp, fun x e => by cases e; exact ⟨hg, enter _ hg⟩⟩
  · rename_i hc
    rw [canTake_iff] at hc
    split
    · rename_i a ha
      split
      · rename_i hd
        rw [canTake_iff] at hd
        have hg : GoesTo s tk.homeStation a := .inr ⟨hc, hd, ha⟩
        exact ⟨⟨tk, h, .inl ⟨_, hg, enter _ hg⟩⟩, by simp, fun x e => by cases e; exact ⟨hg, enter _ hg⟩⟩
      · rename_i hd
        rw [canTake_iff] at hd
        have hn : ¬∃ x, GoesTo s tk.homeStation x := by
          rintro ⟨x, ⟨k, -⟩ | ⟨-, k, e⟩⟩
          · exact hc k
          · rw [ha] at e
            cases e
            exact hd k
        exact ⟨⟨tk, h, .inr ⟨hn, block⟩⟩, fun _ => hn, by simp⟩
    · rename_i ha
      have hn : ¬∃ x, GoesTo s tk.homeStation x := by
        rintro ⟨x, ⟨k, -⟩ | ⟨-, -, e⟩⟩
        · exact hc k
        · rw [ha] at e
          cases e
      exact ⟨⟨tk, h, .inr ⟨hn, block⟩⟩, fun _ => hn, by simp⟩

/-! ## Drains (R97, R98) -/

theorem linesSound_iff (s : State) : LinesSound s ↔ ∀ l, LineSound (lineOf s l) := by
  refine ⟨fun h l => h.line l, fun h => ⟨fun st hst => ?_, h .pass⟩⟩
  obtain ⟨x, hx⟩ := List.mem_iff_getElem?.mp hst
  have := h (.station x)
  simpa [lineOf, station, List.getD_eq_getElem?_getD, hx] using this

/-- Every blocked list holds live tickets of its station, each once (R96). -/
def BlockedSound (s : State) : Prop :=
  ∀ x, (station s x).blocked.Nodup
    ∧ ∀ n ∈ (station s x).blocked, ∃ tk, ticket? s n = some tk ∧ tk.homeStation = x

theorem Enters.line {n x : Nat} {s t : State} (h : Enters n x s t) (hl : LinesSound s) : LinesSound t := by
  obtain ⟨⟨rest, -, -, hs⟩, tk, -, hp⟩ := h
  rw [linesSound_iff]
  intro l
  cases l with
  | pass => rw [rest]; exact hl.2
  | station y =>
    by_cases hy : y = x
    · subst hy
      have hy := hl.line (.station y)
      dsimp only at hp
      split at hp
      · simp only [lineOf, hp.2]
        exact produced_sound (produced_sound hy)
      · simp only [lineOf, hp.2]
        exact produced_sound hy
    · simp only [lineOf, hs y hy]
      exact hl.line (.station y)

/-- An entry changes no blocked list. -/
theorem Enters.blocked {n x : Nat} {s t : State} (h : Enters n x s t) (y : Nat) : (station t y).blocked = (station s y).blocked := by
  obtain ⟨⟨-, -, -, hs⟩, tk, -, hp⟩ := h
  by_cases hy : y = x
  · subst hy
    dsimp only at hp
    split at hp <;> rw [hp.2]
  · rw [hs y hy]

/-- The record of a ticket that has entered: its home station is as it was. -/
theorem Enters.ticket {n x : Nat} {s t : State} (h : Enters n x s t) (m : Nat) :
    (ticket? t m).map Ticket.homeStation = (ticket? s m).map Ticket.homeStation := by
  obtain ⟨⟨-, -, hm, -⟩, tk, hk, hp⟩ := h
  by_cases e : m = n
  · subst e
    dsimp only at hp
    split at hp <;> rw [hp.1, hk] <;> rfl
  · rw [hm m e]

theorem BlockedSound.of_eq {s t : State} (h : BlockedSound s) (hb : ∀ x, (station t x).blocked = (station s x).blocked)
    (ht : ∀ n, (ticket? t n).map Ticket.homeStation = (ticket? s n).map Ticket.homeStation) : BlockedSound t := by
  intro x
  rw [hb]
  refine ⟨(h x).1, fun n hn => ?_⟩
  obtain ⟨tk, h1, h2⟩ := (h x).2 n hn
  have := ht n
  rw [h1] at this
  cases h3 : ticket? t n with
  | none => simp [h3] at this
  | some tk' => exact ⟨tk', rfl, by simp [h3] at this; rw [this, h2]⟩

theorem isFrozen_iff (s : State) (n : Nat) : isFrozen s n = true ↔ Frozen s n := by
  unfold isFrozen Frozen
  cases ticket? s n <;> simp

theorem updStation_congr {x : Nat} {f g : Station → Station} {s : State} (h : f (station s x) = g (station s x)) :
    updStation x f s = updStation x g s := by
  have e : s.stations.modify x f = s.stations.modify x g := by
    apply List.ext_getElem?
    intro i
    rw [List.getElem?_modify, List.getElem?_modify]
    by_cases hx : x = i
    · subst hx
      simp only [station, List.getD_eq_getElem?_getD] at h
      cases hs : s.stations[x]? with
      | none => simp
      | some st =>
        rw [hs] at h
        simpa using h
    · simp [hx]
  simp only [updStation, e]

/-- A number taken out of a list that holds it once. -/
theorem removeNumber_split {n : Nat} {ahead behind : List Nat} (h : (ahead ++ n :: behind).Nodup) :
    removeNumber n (ahead ++ n :: behind) = ahead ++ behind := by
  unfold removeNumber
  rw [List.nodup_append] at h
  obtain ⟨h1, h2, h3⟩ := h
  rw [List.nodup_cons] at h2
  rw [List.filter_append, List.filter_cons]
  have e1 : ahead.filter (fun u => decide (u ≠ n)) = ahead :=
    List.filter_eq_self.mpr fun m hm => by simpa using fun e => h3 m hm n (by simp) e
  have e2 : behind.filter (fun u => decide (u ≠ n)) = behind :=
    List.filter_eq_self.mpr fun m hm => by simpa using fun e : m = n => h2.1 (e ▸ hm)
  rw [e1, e2]
  simp

/-- A ticket taken out of its blocked list: it stands in none, and the other lists and tickets are as they were. -/
theorem leaveBlocked_sound {y n : Nat} {s : State} (h : BlockedSound s) (hn : n ∈ (station s y).blocked) :
    BlockedSound (leaveBlocked y n s) ∧ ∀ x, n ∉ (station (leaveBlocked y n s) x).blocked := by
  have e : ∀ x, (station (leaveBlocked y n s) x).blocked
      = if x = y then removeNumber n (station s x).blocked else (station s x).blocked := by
    intro x
    unfold leaveBlocked
    rw [station_updStation]
    by_cases hx : x = y
    · subst hx
      by_cases hl : x < s.stations.length
      · simp [hl]
      · simp [hl, station, List.getD_eq_getElem?_getD, removeNumber]
    · simp [hx]
  refine ⟨fun x => ?_, fun x hm => ?_⟩
  · rw [e]
    split
    · exact ⟨(h x).1.filter _, fun m hm => (h x).2 m (List.mem_of_mem_filter hm)⟩
    · exact h x
  · rw [e] at hm
    split at hm
    · simp at hm
    · rename_i hx
      obtain ⟨a, ha, ha'⟩ := (h x).2 n hm
      obtain ⟨b, hb, hb'⟩ := (h y).2 n hn
      rw [ha] at hb
      cases hb
      exact hx (ha'.symm.trans hb')

/-- A drain's visit to one list does what R98 says of it. -/
theorem drainList_drains {y : Nat} (fuel : Nat) (s : State) (hl : LinesSound s) (hb : BlockedSound s)
    (hf : (station s y).blocked.length ≤ fuel) :
    DrainsList y s (drainList fuel y s) ∧ LinesSound (drainList fuel y s) ∧ BlockedSound (drainList fuel y s) := by
  induction fuel generalizing s with
  | zero =>
    have : (station s y).blocked = [] := List.length_eq_zero_iff.mp (Nat.le_zero.mp hf)
    exact ⟨.noneLeft s (by simp [this]), hl, hb⟩
  | succ fuel ih =>
    unfold drainList
    split
    · rename_i h
      refine ⟨.noneLeft s fun n hn => ?_, hl, hb⟩
      have := List.find?_eq_none.mp h n hn
      rw [← isFrozen_iff]
      simpa using this
    · rename_i n h
      obtain ⟨hn, ahead, behind, hlist, hahead⟩ := List.find?_eq_some_iff_append.mp h
      have hmem : n ∈ (station s y).blocked := by rw [hlist]; simp
      have hn' : ¬Frozen s n := by rw [← isFrozen_iff]; simpa using hn
      obtain ⟨tk, htk, hhome⟩ := (hb y).2 n hmem
      have hy : y < s.stations.length := by
        by_contra hx
        simp [station, List.getD_eq_getElem?_getD, List.getElem?_eq_none (Nat.le_of_not_lt hx)] at hmem
      obtain ⟨hb', hout⟩ := leaveBlocked_sound hb hmem
      have hcongr : leaveBlocked y n s
          = { s with stations := s.stations.modify y fun st => { st with blocked := ahead ++ behind } } := by
        refine updStation_congr ?_
        rw [hlist, removeNumber_split (by rw [← hlist]; exact (hb y).1)]
      have hl' : LinesSound (leaveBlocked y n s) := by
        rw [linesSound_iff]
        intro l
        rw [show lineOf (leaveBlocked y n s) l = lineOf s l by
          cases l
          · simp only [lineOf, leaveBlocked, station_updStation]; split <;> rfl
          · rfl]
        exact hl.line l
      have able : ∀ x, Able (leaveBlocked y n s) x ↔ Able s x := by
        intro x
        unfold Able leaveBlocked
        rw [station_updStation]
        split <;> rfl
      have goes : ∀ x, GoesTo (leaveBlocked y n s) y x ↔ GoesTo s y x := by
        intro x
        unfold GoesTo
        rw [able, able]
        rw [show (station (leaveBlocked y n s) y).config = (station s y).config by
          unfold leaveBlocked; rw [station_updStation]; split <;> rfl]
      obtain ⟨-, o2, o3⟩ := offer_offers (n := n) (s := leaveBlocked y n s) (tk := tk) hl' htk
        (by rw [hhome]; simpa [leaveBlocked] using hy)
        (fun m hm => ⟨fun e => hout _ (e ▸ hm), by
          obtain ⟨o, ho, -⟩ := (hb' _).2 m hm
          rw [ho]; rfl⟩)
      rw [hhome] at o2 o3
      split
      · rename_i u x e
        obtain ⟨hg, he⟩ := o3 x (by rw [e])
        rw [e] at he
        have hbu : BlockedSound u := hb'.of_eq (fun z => he.blocked z) fun m => he.ticket m
        have hlen : (station u y).blocked.length ≤ fuel := by
          rw [he.blocked y, hcongr]
          have : (station { s with stations := s.stations.modify y fun st => { st with blocked := ahead ++ behind } } y).blocked
              = ahead ++ behind := by
            have := station_updStation s y y fun st => { st with blocked := ahead ++ behind }
            rw [if_pos ⟨rfl, hy⟩] at this
            exact congrArg Station.blocked this
          rw [this]
          rw [hlist] at hf
          simp at hf ⊢
          omega
        obtain ⟨d1, d2, d3⟩ := ih u (he.line hl') hbu hlen
        refine ⟨.enters n x ahead behind s u _ hlist (fun m hm => ?_) hn' ((goes x).mp hg) (hcongr ▸ he) d1, d2, d3⟩
        rw [← isFrozen_iff]
        simpa using hahead m hm
      · rename_i u e
        refine ⟨.blocksAgain s ⟨n, hmem, hn'⟩ ?_, hl, hb⟩
        rintro ⟨x, hx⟩
        exact o2 (by rw [e]) ⟨x, (goes x).mpr hx⟩

/-- A drain does what R98 says, and leaves lines and blocked lists sound. -/
theorem drain_spec (x : Nat) {s : State} (hl : LinesSound s) (hb : BlockedSound s) :
    Drains x s (drain x s) ∧ LinesSound (drain x s) ∧ BlockedSound (drain x s) := by
  unfold drain Drains
  change DrainsEach (x :: stationsNaming s x) s _ ∧ _
  generalize x :: stationsNaming s x = ys
  induction ys generalizing s with
  | nil => exact ⟨rfl, hl, hb⟩
  | cons y ys ih =>
    obtain ⟨d1, d2, d3⟩ := drainList_drains (y := y) _ s hl hb (Nat.le_refl _)
    obtain ⟨e1, e2⟩ := ih d2 d3
    exact ⟨⟨_, d1, e1⟩, e2⟩

theorem drain_drains (x : Nat) {s : State} (hl : LinesSound s) (hb : BlockedSound s) : Drains x s (drain x s) :=
  (drain_spec x hl hb).1

/-! ## Offers in order (R95) -/

/-- What an offer keeps: the lines stay sound, every other ticket its record, and the blocked lists gain at most the ticket offered. -/
theorem Offers.keeps {n : Nat} {s t : State} (h : Offers n s t) (hl : LinesSound s) (hb : BlockedSound s)
    (hn : ∀ x, n ∉ (station s x).blocked) :
    LinesSound t ∧ BlockedSound t ∧ t.stations.length = s.stations.length
      ∧ (∀ m, m ≠ n → ticket? t m = ticket? s m)
      ∧ ∀ x, ∀ m ∈ (station t x).blocked, m = n ∨ m ∈ (station s x).blocked := by
  obtain ⟨tk, htk, ⟨x, -, he⟩ | ⟨-, tk', ahead, behind, h1, ⟨h2, h2', h3, h4⟩, h5, h6, h7, -, -⟩⟩ := h
  · exact ⟨he.line hl, hb.of_eq (fun z => he.blocked z) fun m => he.ticket m, he.1.2.1, he.1.2.2.1, fun z m hm => .inr (he.blocked z ▸ hm)⟩
  · rw [htk] at h1
    cases h1
    have hblocked : ∀ z, (station t z).blocked = if z = tk.homeStation then ahead ++ n :: behind else (station s z).blocked := by
      intro z
      split
      · rename_i e; rw [e, h7]
      · rename_i e; rw [h4 z e]
    have hhome : ∀ m, (ticket? t m).map Ticket.homeStation = (ticket? s m).map Ticket.homeStation := by
      intro m
      by_cases e : m = n
      · subst e; rw [h5, htk]; rfl
      · rw [h3 m e]
    refine ⟨?_, fun z => ?_, h2', h3, fun z m hm => ?_⟩
    · rw [linesSound_iff]
      intro l
      cases l with
      | pass => rw [h2]; exact hl.2
      | station z =>
        by_cases e : z = tk.homeStation
        · simp only [lineOf, e, h7]
          exact hl.line (.station tk.homeStation)
        · simp only [lineOf, h4 z e]
          exact hl.line (.station z)
    · rw [hblocked]
      split
      · rename_i e
        subst e
        refine ⟨?_, fun m hm => ?_⟩
        · have := (hb tk.homeStation).1
          rw [h6] at this
          have h8 := hn tk.homeStation
          rw [h6] at h8
          rw [List.nodup_append] at this ⊢
          simp only [List.mem_append, not_or] at h8
          refine ⟨this.1, List.nodup_cons.mpr ⟨h8.2, this.2.1⟩, fun a ha b hb' => ?_⟩
          rcases List.mem_cons.mp hb' with rfl | hb'
          · exact fun e => h8.1 (e ▸ ha)
          · exact this.2.2 a ha b hb'
        · by_cases e : m = n
          · subst e
            exact ⟨_, h5, rfl⟩
          · have : m ∈ (station s tk.homeStation).blocked := by
              rw [h6]
              simp only [List.mem_append, List.mem_cons] at hm ⊢
              rcases hm with hm | hm | hm
              · exact .inl hm
              · exact absurd hm e
              · exact .inr hm
            rw [h3 m e]
            exact (hb _).2 m this
      · refine ⟨(hb z).1, fun m hm => ?_⟩
        have e : m ≠ n := fun e => hn z (e ▸ hm)
        rw [h3 m e]
        exact (hb z).2 m hm
    · rw [hblocked] at hm
      split at hm
      · rename_i e
        rw [e, h6]
        simp only [List.mem_append, List.mem_cons] at hm ⊢
        rcases hm with hm | hm | hm
        · exact .inr (.inl hm)
        · exact .inl hm
        · exact .inr (.inr hm)
      · exact .inr hm

/-- Offers of different live tickets that stand in no blocked list, made one after another. -/
theorem offerAll_offers {ns : List Nat} {s : State} (hl : LinesSound s) (hb : BlockedSound s) (hd : ns.Nodup)
    (hn : ∀ n ∈ ns, (∀ x, n ∉ (station s x).blocked)
      ∧ ∃ tk, ticket? s n = some tk ∧ tk.homeStation < s.stations.length) :
    OffersEach ns s (offerAll ns s) ∧ LinesSound (offerAll ns s) ∧ BlockedSound (offerAll ns s) := by
  induction ns generalizing s with
  | nil => exact ⟨rfl, hl, hb⟩
  | cons n ns ih =>
    obtain ⟨h1, tk, h2, h3⟩ := hn n (by simp)
    obtain ⟨o, -, -⟩ := offer_offers hl h2 h3 fun m hm => ⟨fun e => h1 _ (e ▸ hm), by
      obtain ⟨a, ha, -⟩ := (hb _).2 m hm
      rw [ha]; rfl⟩
    obtain ⟨k1, k2, k3, k4, k5⟩ := o.keeps hl hb h1
    obtain ⟨hnn, hd'⟩ := List.nodup_cons.mp hd
    obtain ⟨i1, i2, i3⟩ := ih k1 k2 hd' fun m hm => by
      have e : m ≠ n := fun e => hnn (e ▸ hm)
      obtain ⟨j1, tk', j2, j3⟩ := hn m (by simp [hm])
      refine ⟨fun x hx => ?_, tk', by rw [k4 m e, j2], by rw [k3]; exact j3⟩
      rcases k5 x m hx with h | h
      · exact e h
      · exact j1 x h
    exact ⟨⟨_, o, i1⟩, i2, i3⟩

/-! ## The calendar's order -/

theorem FiresAhead.trans {s : State} {l m n : Nat} (h : FiresAhead s l m) (k : FiresAhead s m n) : FiresAhead s l n := by
  obtain ⟨a, ha, b, hb, h⟩ := h
  obtain ⟨b', hb', c, hc, k⟩ := k
  rw [Option.mem_def.mp hb] at hb'
  cases hb'
  exact ⟨a, ha, c, hc, by omega⟩

/-- Two live tickets stand one ahead of the other. -/
theorem FiresAhead.total {s : State} {m n : Nat} {a b : Ticket} (hm : ticket? s m = some a) (hn : ticket? s n = some b) (h : m ≠ n) :
    FiresAhead s m n ∨ FiresAhead s n m := by
  by_cases k : a.fireTime < b.fireTime ∨ a.fireTime = b.fireTime ∧ (a.seq < b.seq ∨ a.seq = b.seq ∧ m < n)
  · exact .inl ⟨a, hm, b, hn, k⟩
  · exact .inr ⟨b, hn, a, hm, by omega⟩

theorem insertBefore_sorted {R : Nat → Nat → Prop} {before : Nat → Nat → Bool} {t : Nat} {l : List Nat}
    (hR : ∀ a b c, R a b → R b c → R a c) (hb : ∀ m ∈ l, before t m = true ↔ R t m) (ht : ∀ m ∈ l, R t m ∨ R m t)
    (hl : l.Pairwise R) : (insertBefore before t l).Pairwise R := by
  induction l with
  | nil => simp [insertBefore]
  | cons u l ih =>
    rw [List.pairwise_cons] at hl
    unfold insertBefore
    split
    · rename_i h
      have h := (hb u (by simp)).mp h
      refine List.pairwise_cons.mpr ⟨fun m hm => ?_, List.pairwise_cons.mpr hl⟩
      rcases List.mem_cons.mp hm with rfl | hm
      · exact h
      · exact hR _ _ _ h (hl.1 m hm)
    · rename_i h
      have h : R u t := (ht u (by simp)).resolve_left fun k => h ((hb u (by simp)).mpr k)
      refine List.pairwise_cons.mpr ⟨fun m hm => ?_, ih (fun m hm => hb m (by simp [hm])) (fun m hm => ht m (by simp [hm])) hl.2⟩
      rcases mem_insertBefore.mp hm with rfl | hm
      · exact h
      · exact hl.1 m hm

/-- Sorting different live tickets by the calendar's order puts them in it. -/
theorem sortBefore_calendar {s : State} {l : List Nat} (hd : l.Nodup) (hl : ∀ n ∈ l, (ticket? s n).isSome = true) :
    (sortBefore (calendarBefore s) l).Pairwise (FiresAhead s) := by
  have key : ∀ (l acc : List Nat), (acc ++ l).Nodup → (∀ n ∈ acc ++ l, (ticket? s n).isSome = true) → acc.Pairwise (FiresAhead s) →
      (l.foldl (fun sorted t => insertBefore (calendarBefore s) t sorted) acc).Pairwise (FiresAhead s) := by
    intro l
    induction l with
    | nil => intro acc _ _ h; exact h
    | cons t l ih =>
      intro acc hd hl h
      rw [List.foldl_cons]
      have perm : (insertBefore (calendarBefore s) t acc ++ l).Perm (acc ++ t :: l) :=
        ((insertBefore_perm (calendarBefore s) t acc).append_right l).trans List.perm_middle.symm
      refine ih _ (perm.nodup_iff.mpr hd) (fun n hn => hl n (perm.mem_iff.mp hn)) ?_
      obtain ⟨a, ha⟩ := Option.isSome_iff_exists.mp (hl t (by simp))
      refine insertBefore_sorted (fun _ _ _ => FiresAhead.trans) (fun m hm => ?_) (fun m hm => ?_) h
      · obtain ⟨b, hb⟩ := Option.isSome_iff_exists.mp (hl m (by simp [hm]))
        exact calendarBefore_iff ha hb
      · obtain ⟨b, hb⟩ := Option.isSome_iff_exists.mp (hl m (by simp [hm]))
        refine FiresAhead.total ha hb fun e => ?_
        rw [List.nodup_append] at hd
        exact hd.2.2 m hm t (by simp) e.symm
  exact key l [] hd (by simpa using hl) .nil

/-! ## Re-timing (R74, R75) -/

theorem refreshFireTime_ticket (x t n : Nat) (s : State) :
    ticket? (refreshFireTime x t s) n = if n = t then
        (ticket? s n).map fun tk => { tk with fireTime := fireTimeAt s x tk.component tk.goTime }
      else ticket? s n := by
  unfold refreshFireTime
  split
  · rename_i tk h
    by_cases e : n = t
    · subst e; simp [h]
    · rw [ticket_get_setTicket_of_ne s _ e, if_neg e]
  · rename_i h
    split
    · rename_i e; rw [e, h]; rfl
    · rfl

theorem refreshFireTime_rest (x t : Nat) (s : State) : refreshFireTime x t s = { s with tickets := (refreshFireTime x t s).tickets } := by
  unfold refreshFireTime
  split <;> rfl

theorem fireTimeAt_tickets (s : State) (ts : Store Ticket) (x c g : Nat) : fireTimeAt { s with tickets := ts } x c g = fireTimeAt s x c g :=
  rfl

/-- Fire times written anew for station `x`. -/
theorem refreshAll_spec (x : Nat) (ts : List Nat) (s : State) :
    ts.foldl (fun s t => refreshFireTime x t s) s = { s with tickets := (ts.foldl (fun s t => refreshFireTime x t s) s).tickets }
      ∧ ∀ n, ticket? (ts.foldl (fun s t => refreshFireTime x t s) s) n
        = (ticket? s n).map fun tk => if n ∈ ts then { tk with fireTime := fireTimeAt s x tk.component tk.goTime } else tk := by
  induction ts generalizing s with
  | nil => exact ⟨rfl, fun n => by simp⟩
  | cons t ts ih =>
    obtain ⟨h1, h2⟩ := ih (refreshFireTime x t s)
    rw [List.foldl_cons]
    refine ⟨?_, fun n => ?_⟩
    · rw [h1]
      generalize (ts.foldl (fun s t => refreshFireTime x t s) (refreshFireTime x t s)).tickets = a
      rw [refreshFireTime_rest]
    · rw [h2, refreshFireTime_ticket]
      have hf : ∀ c g, fireTimeAt (refreshFireTime x t s) x c g = fireTimeAt s x c g := by
        intro c g
        rw [refreshFireTime_rest, fireTimeAt_tickets]
      by_cases e : n = t
      · subst e
        cases ticket? s n <;> simp [hf]
      · simp [e, hf]

theorem leaveAll_spec (ts : List Nat) (s : State) :
    ts.foldl (fun s t => leaveCalendar t s) s = { s with calendar := s.calendar.filter fun n => decide (n ∉ ts) } := by
  induction ts generalizing s with
  | nil => simp
  | cons t ts ih =>
    rw [List.foldl_cons, ih]
    simp only [leaveCalendar, removeNumber, List.filter_filter]
    congr 1
    apply List.filter_congr
    intro n _
    simp [Bool.and_comm]

/-- What re-timing asks of the state: sound lines and blocked lists, and a calendar of different live tickets, each of a home station of the part
and in no blocked list. -/
structure Calendared (s : State) : Prop where
  lines : LinesSound s
  blocked : BlockedSound s
  nodup : s.calendar.Nodup
  live : ∀ n ∈ s.calendar, (∀ x, n ∉ (station s x).blocked) ∧ ∃ tk, ticket? s n = some tk ∧ tk.homeStation < s.stations.length

theorem calendaredAt_eq (s : State) (x : Nat) : calendaredAt s x = calendaredFor s x := by
  unfold calendaredAt calendaredFor
  apply List.filter_congr
  intro n _
  cases ticket? s n <;> simp

/-- Re-timing does what R74 and R75 say, and leaves lines and blocked lists sound. -/
theorem retime_retimes (x : Nat) {s : State} (h : Calendared s) :
    Retimes x s (retime x s).1 (retime x s).2.1 (retime x s).2.2
      ∧ LinesSound (retime x s).1 ∧ BlockedSound (retime x s).1 := by
  unfold retime
  dsimp only
  obtain ⟨r1, r2⟩ := refreshAll_spec x (calendaredAt s x) s
  rw [r1]
  generalize hts : ((calendaredAt s x).foldl (fun s t => refreshFireTime x t s) s).tickets = ts at *
  have tick : ∀ n, ticket? { s with tickets := ts } n
      = (ticket? s n).map fun tk => if n ∈ calendaredFor s x then { tk with fireTime := fireTimeAt s x tk.component tk.goTime } else tk := by
    intro n
    rw [← calendaredAt_eq, ← r2, r1]
  set v : State := { s with tickets := ts } with hv
  have mapped : ∀ n, ticket? v n
      = (ticket? s n).map fun tk => if n ∈ calendaredFor s x then { tk with fireTime := fireTimeAt s x tk.component tk.goTime } else tk := tick
  have home : ∀ n, (ticket? v n).map Ticket.homeStation = (ticket? s n).map Ticket.homeStation := by
    intro n
    rw [mapped]
    cases ticket? s n with
    | none => rfl
    | some tk => simp only [Option.map_some]; split <;> rfl
  set w : State := { v with calendar := sortBefore (calendarBefore v) v.calendar } with hw
  set due := (calendaredAt w x).filter fun t => isDue w t && !isFrozen w t with hdue
  rw [leaveAll_spec]
  set u : State := { w with calendar := w.calendar.filter fun n => decide (n ∉ due) } with hu
  have tw : ∀ n, ticket? u n = ticket? v n := fun _ => rfl
  have sorted : (sortBefore (calendarBefore v) s.calendar).Pairwise (FiresAhead v) := by
    refine sortBefore_calendar h.nodup fun n hn => ?_
    obtain ⟨-, tk, htk, -⟩ := h.live n hn
    rw [mapped, htk]
    rfl
  have ahead : ∀ m n, FiresAhead v m n → FiresAhead u m n := fun _ _ k => k
  have memdue : ∀ n, n ∈ due ↔ n ∈ calendaredFor s x ∧ ¬Frozen s n ∧ ∃ tk ∈ ticket? u n, tk.fireTime ≤ (s.clock : Int) := by
    intro n
    rw [hdue, List.mem_filter, calendaredAt_eq]
    have e1 : n ∈ calendaredFor w x ↔ n ∈ calendaredFor s x := by
      unfold calendaredFor
      rw [List.mem_filter, List.mem_filter]
      have : n ∈ w.calendar ↔ n ∈ s.calendar := by rw [hw]; exact mem_sortBefore
      rw [this]
      have : ((ticket? w n).any fun tk => decide (tk.station = x)) = (ticket? s n).any fun tk => decide (tk.station = x) := by
        have : ticket? w n = ticket? v n := rfl
        rw [this, mapped]
        cases ticket? s n with
        | none => rfl
        | some tk => simp only [Option.map_some, Option.any_some]; split <;> rfl
      rw [this]
    have e2 : isFrozen w n = true ↔ Frozen s n := by
      rw [isFrozen_iff]
      unfold Frozen
      have : ticket? w n = ticket? v n := rfl
      rw [this, mapped]
      have : w.frozen = s.frozen := rfl
      rw [this]
      cases ticket? s n with
      | none => simp
      | some tk => simp only [Option.map_some, Option.mem_def, Option.some.injEq, exists_eq_left']; split <;> rfl
    have e3 : isDue w n = true ↔ ∃ tk ∈ ticket? u n, tk.fireTime ≤ (s.clock : Int) := by
      unfold isDue
      have : ticket? w n = ticket? u n := rfl
      rw [this]
      have : w.clock = s.clock := rfl
      rw [this]
      cases ticket? u n <;> simp
    rw [e1, Bool.and_eq_true, e3]
    rw [← e2]
    simp [and_comm]
  have duesub : due.Sublist (sortBefore (calendarBefore v) s.calendar) :=
    List.filter_sublist.trans List.filter_sublist
  have blockedU : BlockedSound u := h.blocked.of_eq (fun _ => rfl) home
  have linesU : LinesSound u := h.lines
  have nd : due.Nodup := duesub.nodup ((sortBefore_perm _ _).nodup_iff.mpr h.nodup)
  obtain ⟨o1, o2, o3⟩ := offerAll_offers (ns := due) linesU blockedU nd fun n hn => by
    have hc : n ∈ s.calendar := List.mem_of_mem_filter ((memdue n).mp hn).1
    obtain ⟨l1, tk, l2, l3⟩ := h.live n hc
    refine ⟨l1, ?_⟩
    have := home n
    rw [l2] at this
    cases hk : ticket? v n with
    | none => simp [hk] at this
    | some tk' => exact ⟨tk', hk, by simp [hk] at this; rw [this]; exact l3⟩
  refine ⟨⟨u, due, rfl, mapped, memdue, ?_, ?_, ?_, o1, ?_, rfl⟩, o2, o3⟩
  · exact (sorted.sublist duesub).imp fun k => ahead _ _ k
  · exact (sorted.sublist List.filter_sublist).imp fun k => ahead _ _ k
  · intro n
    rw [hu]
    simp only [List.mem_filter, decide_eq_true_eq]
    have : n ∈ w.calendar ↔ n ∈ s.calendar := by rw [hw]; exact mem_sortBefore
    rw [this]
  · rw [calendaredAt_eq]

end Sys2Proof.Machine
end

