-- ==== Sys2Proof/Laws/Stock.lean ====
section
/-!
SUPPORT. What the pools and the stock operations can do: a pool operation moves entries between counts and loses none; a draw or a return
changes stock counts and queues notices, and nothing else.
-/

namespace Sys2Proof.Machine

/-! ## Pools (R83, R146) -/

/-- The entries of a pool. -/
def Pool.total (p : Pool) : Nat :=
  p.free + p.reserved + p.live

theorem Pool.reserve_total (n : Nat) (p : Pool) : (p.reserve n).total = p.total := by
  simp only [Pool.total, Pool.reserve]; omega

theorem Pool.unreserve_total (n : Nat) (p : Pool) : (p.unreserve n).total = p.total := by
  simp only [Pool.total, Pool.unreserve]; omega

theorem Pool.liveFromReserved_total (p : Pool) : p.liveFromReserved.total = p.total := by
  simp only [Pool.total, Pool.liveFromReserved]; omega

theorem Pool.liveFromFree_total (p : Pool) : p.liveFromFree.total = p.total := by
  simp only [Pool.total, Pool.liveFromFree]; omega

theorem Pool.release_total (p : Pool) : p.release.total = p.total := by
  simp only [Pool.total, Pool.release]; omega

/-! ## Stock (R9 to R15) -/

/-- `t` is `s` but for stock counts and what the notice queue holds. -/
structure OnlyStock (s t : State) : Prop where
  rest : t = { s with components := t.components, link := t.link }
  link : t.link = { s.link with notices := t.link.notices, lost := t.link.lost }
  record : ∀ c, (t.components.get? c).map (fun r => { r with stock := none })
    = (s.components.get? c).map fun r => { r with stock := none }

theorem OnlyStock.refl (s : State) : OnlyStock s s := by
  constructor <;> intros <;> rfl

theorem OnlyStock.trans {s t u : State} (h : OnlyStock s t) (k : OnlyStock t u) : OnlyStock s u where
  rest := by rw [k.rest, h.rest]
  link := by rw [k.link, h.link]
  record c := (k.record c).trans (h.record c)

/-- A notice is queued or lost (R176). -/
theorem pushNotice_stock (n : Notice) (s : State) : OnlyStock s (pushNotice n s) := by
  unfold pushNotice
  split <;> exact ⟨rfl, rfl, fun _ => rfl⟩

theorem setStock_stock (c n : Nat) (s : State) : OnlyStock s (setStock c n s) := by
  refine ⟨rfl, rfl, fun d => ?_⟩
  simp only [setStock, Store.get?_update]
  split
  · cases s.components.get? d <;> rfl
  · rfl

theorem drawTracked_stock (c q n : Nat) (low : Option Nat) (s : State) : OnlyStock s (drawTracked c q n low s) := by
  unfold drawTracked
  dsimp only
  have h := setStock_stock c (n - q) s
  have k : OnlyStock s (match low with
    | some l => if l < n ∧ n - q ≤ l then pushNotice (.stockLow c (n - q) l) (setStock c (n - q) s) else setStock c (n - q) s
    | none => setStock c (n - q) s) := by
    split
    · split
      · exact h.trans (pushNotice_stock _ _)
      · exact h
    · exact h
  split
  · exact k.trans (pushNotice_stock _ _)
  · exact k

theorem drawStock_stock (c q : Nat) (s : State) : OnlyStock s (drawStock c q s) := by
  unfold drawStock
  split
  · split
    · exact drawTracked_stock _ _ _ _ s
    · exact .refl s
  · exact .refl s

theorem returnStock_stock (c q : Nat) (s : State) : OnlyStock s (returnStock c q s) := by
  unfold returnStock
  split
  · exact setStock_stock _ _ s
  · exact .refl s

/-- The copy draw changes stock and notices alone (R11, R13). -/
theorem copyDraw_stock (c q : Nat) (s : State) : OnlyStock s (copyDraw c q s).1 := by
  unfold copyDraw
  split
  · exact pushNotice_stock _ s
  · exact drawStock_stock _ _ s

theorem foldl_stock {α : Type} (f : State → α → State) (h : ∀ s a, OnlyStock s (f s a)) (l : List α) (s : State) :
    OnlyStock s (l.foldl f s) := by
  induction l generalizing s with
  | nil => exact .refl s
  | cons a l ih => exact (h s a).trans (ih _)

/-- The wave draw changes stock and notices alone (R10, R13). -/
theorem waveDraw_stock (need : Store Nat) (s : State) : OnlyStock s (waveDraw need s).1 := by
  unfold waveDraw
  dsimp only
  split
  · exact foldl_stock _ (fun s e => drawStock_stock e.1 e.2 s) need s
  · exact foldl_stock _ (fun s e => pushNotice_stock _ s) _ s

end Sys2Proof.Machine
end

