-- ==== Sys2Proof/Laws/Runs.lean ====
section
/-!
SUPPORT. What the refresh runs hold, what a draw of stock queues, what a walk counts, and which die time is the earliest, in the words of
Safety.lean.
-/

namespace Sys2Proof.Machine

/-! ## Refresh runs (R122, R166) -/

theorem positionRecords_eq (s : State) (k : Nat) (ps : List (Option Nat)) :
    positionRecords s k ps
      = (ps.zipIdx k).flatMap fun e => e.1.toList.flatMap fun n => shown s n ++ (shown s n).map fun _ => .lineTicket n e.2 := by
  induction ps generalizing k with
  | nil => rfl
  | cons p ps ih =>
    cases p with
    | none => simp [positionRecords, ih]
    | some n =>
      cases h : ticket? s n with
      | none => simp [positionRecords, ih, h, shown]
      | some tk => simp [positionRecords, ih, h, shown, showRecord]

/-- The refresh run of a defined station (R122). -/
theorem stationRun_eq {s : State} {x : Nat} {c : StationConfig} (h : (station s x).config = some c) :
    stationRun s x = stationRefresh s x c := by
  unfold stationRun stationRefresh stationRecord
  dsimp only
  rw [positionRecords_eq, h]
  have e : stretchOf (station s x) = if (station s x).load.state = .normal then 64 else c.derateStretch := by
    unfold stretchOf
    rw [h]
    cases (station s x).load.state <;> rfl
  have q : ((wholeQueue (station s x)).filterMap fun t => (ticket? s t).map (showRecord t))
      = ((station s x).rushQueue ++ (station s x).ordinaryQueue).flatMap (shown s) := by
    unfold wholeQueue
    induction (station s x).rushQueue ++ (station s x).ordinaryQueue with
    | nil => rfl
    | cons n ns ih =>
      cases hn : ticket? s n <;> simp [ih, hn, shown, showRecord]
  rw [e, q]
  rfl

theorem groupUpRecord_eq (s : State) (g : Nat) (gr : Group) : groupUpRecord s g gr = groupShown s g gr := by
  unfold groupUpRecord groupShown
  congr 1
  induction gr.tickets with
  | nil => rfl
  | cons n ns ih =>
    cases h : ticket? s n with
    | none => simp [h, ih]
    | some tk => simp only [List.filterMap_cons, h, Option.map_some, ih, List.flatMap_cons, Option.toList_some, List.map_cons,
        List.map_nil, List.cons_append, List.nil_append]; cases tk.state <;> rfl

/-- The refresh run of the pass terminal (R166). -/
theorem passRunRecords_eq (s : State) : passRunRecords s = passRefresh s := by
  unfold passRunRecords passRefresh
  have e : (fun e : Nat × Group => decide (e.2.state ≠ .pending))
      = fun e => decide (e.2.state = .assembling ∨ e.2.state = .complete) := by
    funext e
    cases e.2.state <;> rfl
  dsimp only
  rw [e, funext fun e : Nat × Group => groupUpRecord_eq s e.1 e.2]
  rfl

/-! ## Notices (R176) -/

@[simp] theorem noticedAll_nil (s : State) : noticedAll [] s = s := rfl
@[simp] theorem noticedAll_cons (n : Notice) (ns : List Notice) (s : State) : noticedAll (n :: ns) s = noticedAll ns (pushNotice n s) := rfl

theorem noticedAll_append (ns ms : List Notice) (s : State) : noticedAll (ns ++ ms) s = noticedAll ms (noticedAll ns s) :=
  List.foldl_append

/-- Notices reach the host link's notice queue and lost flag, and nothing else. -/
theorem noticedAll_rest (ns : List Notice) (s : State) :
    noticedAll ns s = { s with link := { s.link with notices := (noticedAll ns s).link.notices, lost := (noticedAll ns s).link.lost } } := by
  induction ns generalizing s with
  | nil => rfl
  | cons n ns ih =>
    rw [noticedAll_cons, ih]
    have : ∀ t : State, t = { s with link := { s.link with notices := t.link.notices, lost := t.link.lost } } →
        { t with link := { t.link with notices := (noticedAll ns t).link.notices, lost := (noticedAll ns t).link.lost } }
          = { s with link := { s.link with notices := (noticedAll ns t).link.notices, lost := (noticedAll ns t).link.lost } } := by
      intro t h; rw [h]
    refine this _ ?_
    unfold pushNotice
    split <;> rfl

/-- Which notices queue depends on the link alone, and what they leave of the rest is what was there. -/
theorem pushNotice_with (n : Notice) {s t : State} (h : t.link = s.link) :
    pushNotice n t = { t with link := (pushNotice n s).link } := by
  unfold pushNotice
  rw [h]
  split <;> rfl

theorem noticedAll_with (ns : List Notice) {s t : State} (h : t.link = s.link) :
    noticedAll ns t = { t with link := (noticedAll ns s).link } := by
  induction ns generalizing s t with
  | nil => rw [noticedAll_nil, noticedAll_nil, ← h]
  | cons n ns ih =>
    rw [noticedAll_cons, noticedAll_cons, pushNotice_with n h]
    exact ih rfl

theorem dequeued_pushNotice (rest : List Frame) (n : Notice) (s : State) : dequeued rest (pushNotice n s) = pushNotice n (dequeued rest s) := by
  unfold pushNotice dequeued
  dsimp only
  split <;> rfl

theorem dequeued_noticedAll (rest : List Frame) (ns : List Notice) (s : State) :
    dequeued rest (noticedAll ns s) = noticedAll ns (dequeued rest s) := by
  induction ns generalizing s with
  | nil => rfl
  | cons n ns ih => rw [noticedAll_cons, noticedAll_cons, ih, dequeued_pushNotice]

/-! ## Draws (R10 to R13) -/

/-- A draw that the count covers: the count falls, with the notices of R12 and R13. -/
theorem drawTracked_eq (c q n : Nat) (low : Option Nat) (s : State) :
    drawTracked c q n low s = noticedAll (drawNotices c q n low) (setStock c (n - q) s) := by
  unfold drawTracked drawNotices
  cases low with
  | none => by_cases h : 0 < n ∧ n - q = 0 <;> simp [h]
  | some l =>
    rw [Option.toList_some, List.filterMap_cons, List.filterMap_nil]
    dsimp only
    by_cases h : 0 < n ∧ n - q = 0 <;> by_cases k : l < n ∧ n - q ≤ l
    · rw [if_pos h, if_pos h, if_pos k, if_pos k]; rfl
    · rw [if_pos h, if_pos h, if_neg k, if_neg k]; rfl
    · rw [if_neg h, if_neg h, if_pos k, if_pos k]; rfl
    · rw [if_neg h, if_neg h, if_neg k, if_neg k]; rfl

/-! ## Walks (R29, R30) -/

theorem visitCount_eq (s : State) (course : Nat) (skipMark : Option Nat) (r : Region) (p : TableRecord → Bool) (v : Visit)
    (h : ∀ u, decide (skipTest course skipMark u = v) = p u) :
    visitCount s course skipMark r v = (((walkOrder s.floor r).map (tableRecord s)).filter p).length := by
  unfold visitCount visitOf
  rw [List.filter_map, List.length_map]
  congr 2
  funext u
  exact h _

/-- The plan counts are those of the walk (R29, R30, R37, R42). -/
theorem planCounts_eq (s : State) (course : Nat) (skipMark : Option Nat) (r : Region) (plan : List ServedTable) :
    planCounts s course skipMark r plan = walkCounts s course skipMark r plan := by
  have total : ∀ (l : List ServedTable) (n : Nat),
      l.foldl (fun n v => n + v.tickets.length) n = n + (l.map fun v => v.tickets.length).sum := by
    intro l
    induction l with
    | nil => intro n; simp
    | cons v l ih => intro n; rw [List.foldl_cons, ih, List.map_cons, List.sum_cons]; omega
  unfold planCounts walkCounts
  dsimp only
  rw [visitCount_eq (v := .skippedEmpty) (p := fun u => decide (u.covers = 0)),
    visitCount_eq (v := .skippedMarked) (p := fun u => decide (0 < u.covers ∧ skipMark = some u.mark)),
    visitCount_eq (v := .skippedBusy) (p := fun u => decide (0 < u.covers ∧ skipMark ≠ some u.mark ∧ course ∈ u.liveCourses)), total]
  · simp
  all_goals
    intro u
    unfold skipTest
    by_cases h1 : u.covers = 0 <;> by_cases h2 : skipMark = some u.mark <;> by_cases h3 : course ∈ u.liveCourses <;>
      simp [h1, h2, h3, Nat.pos_iff_ne_zero]

/-! ## Die times (R150) -/

theorem dieTime_iff (s : State) (n d : Nat) : dieTime s n = some d ↔ DiesAt s n d := by
  unfold dieTime DiesAt holdWindow
  cases h : ticket? s n with
  | none => simp
  | some tk =>
    cases hs : tk.state <;> cases hr : tk.readyAt <;> cases hc : s.components.get? tk.component <;>
      simp [hs, hr, hc]
    rename_i r c
    exact fun _ => eq_comm

/-- A ticket's hold window has run out (R151). -/
theorem hasDied_iff (s : State) (n : Nat) : hasDied s n = true ↔ ∃ d ≤ s.clock, DiesAt s n d := by
  unfold hasDied
  cases h : dieTime s n with
  | none =>
    simp only [Bool.false_eq_true, false_iff, not_exists, not_and]
    intro d _ hd
    rw [(dieTime_iff s n d).mpr hd] at h
    cases h
  | some d =>
    simp only [decide_eq_true_eq]
    refine ⟨fun hd => ⟨d, hd, (dieTime_iff s n d).mp h⟩, ?_⟩
    rintro ⟨e, he, hd⟩
    rw [(dieTime_iff s n e).mpr hd] at h
    cases h
    exact he

/-- The earliest die time over a list of tickets (R150). -/
theorem earliestDie_earliest (s : State) (ns : List Nat) : EarliestDie s ns (earliestDie s ns) := by
  have key : ∀ (ns : List Nat) (o : Option Nat) (ms : List Nat), EarliestDie s ms o →
      EarliestDie s (ms ++ ns) (ns.foldl (fun found t => earlier found (dieTime s t)) o) := by
    intro ns
    induction ns with
    | nil => intro o ms h; simpa using h
    | cons n ns ih =>
      intro o ms h
      rw [List.foldl_cons, show ms ++ n :: ns = (ms ++ [n]) ++ ns by simp]
      apply ih
      obtain ⟨h1, h2⟩ := h
      refine ⟨?_, ?_⟩
      · intro d hd
        have : (d ∈ o ∨ dieTime s n = some d) := by
          cases o <;> cases hn : dieTime s n <;> simp [earlier, hn] at hd ⊢ <;> omega
        rcases this with k | k
        · obtain ⟨m, hm, hk⟩ := h1 d k
          exact ⟨m, by simp [hm], hk⟩
        · exact ⟨n, by simp, (dieTime_iff s n d).mp k⟩
      · intro m hm d hd
        rw [List.mem_append, List.mem_singleton] at hm
        rcases hm with hm | rfl
        · obtain ⟨e, he, hle⟩ := h2 m hm d hd
          rw [Option.mem_def.mp he]
          cases hn : dieTime s n with
          | none => exact ⟨e, rfl, hle⟩
          | some f => exact ⟨min e f, rfl, by omega⟩
        · rw [(dieTime_iff s m d).mpr hd]
          cases o with
          | none => exact ⟨d, rfl, Nat.le_refl d⟩
          | some e => exact ⟨min e d, rfl, by omega⟩
  simpa [earliestDie] using key ns none [] ⟨by simp, by simp⟩

end Sys2Proof.Machine
end

