-- ==== Sys2Proof/Laws/Copies.lean ====
section
/-!
SUPPORT. What a copy draw, a remake copy, an automatic remake and the recomputing of a die time do, in the words of Safety.lean.
-/

namespace Sys2Proof.Machine

/-! ## Copy draws (R11 to R13) -/

theorem isShort_iff (s : State) (c q : Nat) : isShort s c q = true ↔ Short s c q := by
  unfold isShort Short
  cases stockOf s c <;> simp

/-- A copy draw that the stock does not cover changes no count, and queues STOCK_OUT (SHORT). -/
theorem copyDraw_short {c q k : Nat} {s : State} (hk : stockOf s c = some k) (h : k < q) :
    copyDraw c q s = (pushNotice (.stockOut c .short k q) s, false) := by
  unfold copyDraw noticeShort
  rw [if_pos ((isShort_iff s c q).mpr ⟨k, hk, h⟩), hk, Option.getD_some]

/-- A copy draw that the stock covers lowers the count of a tracked component, with the draw's notices. -/
theorem copyDraw_covered {c q : Nat} {s : State} (h : ¬Short s c q) :
    ∃ cs : Store Component,
      copyDraw c q s
        = ({ s with
            link := (noticedAll
              ((s.components.get? c).toList.flatMap fun r => r.stock.toList.flatMap fun k => drawNotices c q k r.lowLevel) s).link
            components := cs }, true)
      ∧ ∀ d, cs.get? d = (s.components.get? d).map fun r =>
          if d = c then { r with stock := r.stock.map fun k => k - q } else r := by
  unfold copyDraw drawStock
  rw [if_neg (by rwa [isShort_iff])]
  cases hr : s.components.get? c with
  | none =>
    refine ⟨s.components, rfl, fun d => ?_⟩
    by_cases hd : d = c
    · rw [hd, hr]; rfl
    · simp [hd]
  | some r =>
    obtain ⟨x, ct, w, stock, low⟩ := r
    cases stock with
    | none =>
      refine ⟨s.components, rfl, fun d => ?_⟩
      by_cases hd : d = c
      · rw [hd, hr]; simp
      · simp [hd]
    | some k =>
      refine ⟨(setStock c (k - q) s).components, ?_, fun d => ?_⟩
      · dsimp only
        rw [drawTracked_eq]
        simp only [Option.toList_some, List.flatMap_cons, List.flatMap_nil, List.append_nil]
        rw [noticedAll_with (s := s) _ (setStock_link ..)]
        rfl
      · rw [setStock_components, Store.get?_update]
        by_cases hd : d = c
        · subst hd; simp [hr]
        · simp [hd]

/-! ## Copies (R79, R86, R87, R94) -/

/-- Nothing that a fire time depends on is changed by a draw. -/
theorem fireTimeAt_congr {s t : State} (x c g : Nat) (hs : t.stations = s.stations) (hc : cookTime t c = cookTime s c) :
    fireTimeAt t x c g = fireTimeAt s x c g := by
  unfold fireTimeAt carry stretch station
  rw [hs, hc]

theorem removeNumber_replaceSlot {n m : Nat} (h : m ≠ n) (ns : List Nat) :
    removeNumber n (replaceSlot n m ns) = ns.map fun o => if o = n then m else o := by
  unfold removeNumber replaceSlot
  rw [List.filter_eq_self]
  intro o ho
  obtain ⟨p, -, rfl⟩ := List.mem_map.mp ho
  split <;> simp_all

/-- The record of a copy, created after its draw. -/
theorem copyOf_eq {s t : State} (tk : Ticket) (hs : t.stations = s.stations) (hq : t.link.seq = s.link.seq)
    (hc : cookTime t tk.component = cookTime s tk.component) : copyOf t tk = freshCopy s tk := by
  unfold copyOf freshCopy dueReadyAt
  rw [fireTimeAt_congr _ _ _ hs hc, hq, show carry t tk.homeStation = carry s tk.homeStation by unfold carry station; rw [hs]]

/-- The replaced ticket is freed: its entry is erased, and its number is taken from its group's list. -/
theorem freeTicket_eq {n : Nat} {tk : Ticket} {s : State} (h : ticket? s n = some tk) :
    freeTicket n s = { s with
      tickets := s.tickets.erase n
      ticketPool := s.ticketPool.release
      groups := s.groups.update tk.group fun gr => { gr with tickets := removeNumber n gr.tickets } } := by
  unfold freeTicket
  rw [h]
  rfl

theorem Pool.release_liveFromFree {p : Pool} (h : 0 < p.free) : p.liveFromFree.release = p := by
  have : ∀ q : Pool, q.free = p.free → q.reserved = p.reserved → q.live = p.live → q = p := by
    rintro ⟨_, _, _⟩ rfl rfl rfl
    rfl
  refine this _ ?_ rfl ?_ <;> simp only [Pool.liveFromFree, Pool.release] <;> omega

/-- A copy that can be made of a live ticket that stands in no blocked list is made. -/
theorem requestCopy_makes {n : Nat} {tk : Ticket} {s : State} (hl : LinesSound s) (h : ticket? s n = some tk)
    (hx : tk.homeStation < s.stations.length) (hb : BlockedSound s) (hn : ∀ x, n ∉ (station s x).blocked) (hc : CanCopy tk s) :
    ∃ (t : State) (m : Nat) (offerEnd : Option Nat), requestCopy n tk s = (t, .made m offerEnd) ∧ MakesCopy n m tk offerEnd s t := by
  obtain ⟨hf, hs⟩ := hc
  obtain ⟨cs, hd, hcs⟩ := copyDraw_covered hs
  obtain ⟨absent, below⟩ := s.tickets.firstAbsent_spec
  generalize hm : s.tickets.firstAbsent = m at absent below
  have mn : m ≠ n := by rintro rfl; rw [ticket?, absent] at h; cases h
  generalize hns : ((s.components.get? tk.component).toList.flatMap fun r => r.stock.toList.flatMap fun k =>
    drawNotices tk.component tk.quantity k r.lowLevel) = ns at hd
  have hq : (noticedAll ns s).link.seq = s.link.seq := by rw [noticedAll_rest]
  have copy : copyOf { s with link := (noticedAll ns s).link, components := cs } tk = freshCopy s tk := by
    refine copyOf_eq tk rfl hq ?_
    unfold cookTime
    rw [hcs]
    cases s.components.get? tk.component <;> simp
  generalize hu : ({ s with
    link := { (noticedAll ns s).link with seq := nextSeq s.link.seq }
    components := cs
    tickets := (s.tickets.set m (freshCopy s tk)).erase n
    groups := (s.groups.update tk.group fun gr => { gr with tickets := replaceSlot n m gr.tickets }).update tk.group
      fun gr => { gr with tickets := removeNumber n gr.tickets } } : State) = u
  have made : requestCopy n tk s = ((offer m u).1, .made m (offer m u).2) := by
    unfold requestCopy
    rw [if_neg (by omega), hd]
    dsimp only
    rw [hm, copy, freeTicket_eq (tk := tk), ← hu]
    · simp only [createTicket, setTicket, updGroup, Pool.release_liveFromFree hf, hq]
    · simp only [createTicket, setTicket, updGroup, ticket?]
      rw [Store.get?_set_of_ne _ _ (Ne.symm mn)]
      exact h
  have tickets : ∀ l, ticket? u l = if l = m then some (freshCopy s tk) else if l = n then none else ticket? s l := by
    intro l
    rw [← hu]
    simp only [ticket?]
    by_cases hln : l = n
    · subst hln
      rw [Store.get?_erase_self, if_neg (Ne.symm mn), if_pos rfl]
    · rw [Store.get?_erase_of_ne _ hln, if_neg hln]
      by_cases hlm : l = m
      · rw [hlm, Store.get?_set_self, if_pos rfl]
      · rw [Store.get?_set_of_ne _ _ hlm, if_neg hlm]
  have ofCopy : ticket? u m = some (freshCopy s tk) := by rw [tickets, if_pos rfl]
  have st : u.stations = s.stations := by rw [← hu]
  have blocked : ∀ l ∈ (station u tk.homeStation).blocked, l ≠ m ∧ (ticket? u l).isSome = true := by
    intro l hlb
    rw [show station u tk.homeStation = station s tk.homeStation by unfold station; rw [st]] at hlb
    obtain ⟨b, hlive, -⟩ := (hb tk.homeStation).2 l hlb
    have lm : l ≠ m := by rintro rfl; rw [ticket?, absent] at hlive; cases hlive
    have ln : l ≠ n := by rintro rfl; exact hn _ hlb
    exact ⟨lm, by rw [tickets, if_neg lm, if_neg ln, hlive]; rfl⟩
  have lines : LinesSound u := by rw [← hu]; exact hl
  obtain ⟨offers, blocks, enters⟩ := offer_offers lines ofCopy (by rw [st]; exact hx) blocked
  refine ⟨_, m, (offer m u).2, made, u, ?_, ?_, absent, below, tickets, fun g => ?_, fun x => ?_, offers⟩
  · rw [hns, ← hu]
    unfold nextSeq
    rfl
  · rw [← hu]
    exact hcs
  · rw [← hu]
    simp only [group?]
    rw [Store.get?_update, Store.get?_update]
    by_cases hg : g = tk.group
    · simp only [hg, if_true, Option.map_map]
      congr 1
      funext gr
      simp only [Function.comp_apply, removeNumber_replaceSlot mn]
    · simp [hg]
  · refine ⟨fun e => (enters x e).1, fun hg => ?_⟩
    cases e : (offer m u).2 with
    | none => exact absurd ⟨x, hg⟩ (blocks e)
    | some y =>
      congr 1
      rcases hg with ⟨ha, rfl⟩ | ⟨hna, -, hax⟩ <;> rcases (enters y e).1 with ⟨hb, rfl⟩ | ⟨hnb, -, hay⟩
      · rfl
      · exact absurd ha hnb
      · exact absurd hb hna
      · exact Option.some.inj (hay.symm.trans hax)

/-- A copy that cannot be made leaves the state as it is, but for the STOCK_OUT (SHORT) of a refused draw. -/
theorem requestCopy_refused {n : Nat} {tk : Ticket} {s : State} (h : ¬CanCopy tk s) :
    (s.ticketPool.free = 0 → requestCopy n tk s = (s, .noTickets))
      ∧ (0 < s.ticketPool.free → ∃ k, stockOf s tk.component = some k
          ∧ requestCopy n tk s = (pushNotice (.stockOut tk.component .short k tk.quantity) s, .noStock)) := by
  unfold requestCopy
  refine ⟨fun h0 => by rw [if_pos h0], fun h0 => ?_⟩
  have hs : Short s tk.component tk.quantity := by
    by_contra hs
    exact h ⟨h0, hs⟩
  obtain ⟨k, hk, hlt⟩ := hs
  refine ⟨k, hk, ?_⟩
  rw [if_neg (by omega), copyDraw_short hk hlt]

/-! ## Automatic remakes (R152, R154) -/

/-- A failed remake escalates the ticket's group (R154). -/
theorem escalate_escalates {n : Nat} {tk : Ticket} {s t : State} (source : RemakeSource) (ns : List Notice)
    (ht : t = noticedAll ns s)
    (hns : ns = if remakeCause tk s = .noStock then
        (stockOf s tk.component).toList.map fun k => .stockOut tk.component .short k tk.quantity else []) :
    Escalates source n tk s (escalate tk.group n tk (remakeCause tk s) source t) := by
  have hg : t.groups = s.groups := by rw [ht, noticedAll_rest]
  unfold Escalates
  rw [← hns, noticedAll_append, ← ht, noticedAll_cons, noticedAll_nil]
  unfold escalate
  refine ⟨?_, fun g => ?_⟩
  · rw [pushNotice_with (s := t) _ (by rfl)]
    unfold pushNotice
    split <;> rfl
  · rw [pushNotice_group_get, group_get_updGroup]
    unfold group?
    rw [hg]
    split <;> simp_all

/-- An automatic remake of a live ticket that stands in no blocked list. -/
theorem automaticRemake_remakes {n : Nat} {tk : Ticket} {s : State} (source : RemakeSource) (hl : LinesSound s)
    (h : ticket? s n = some tk) (hx : tk.homeStation < s.stations.length) (hb : BlockedSound s)
    (hn : ∀ x, n ∉ (station s x).blocked) :
    Remakes source n (automaticRemake tk.group n source s).2 s (automaticRemake tk.group n source s).1 := by
  refine ⟨tk, h, ?_⟩
  unfold automaticRemake
  rw [h]
  dsimp only
  by_cases hg : tk.generation < 2
  · by_cases hc : CanCopy tk s
    · obtain ⟨t, m, offerEnd, e, makes⟩ := requestCopy_makes hl h hx hb hn hc
      rw [if_pos ⟨hg, hc⟩, if_neg (by omega), e]
      exact ⟨rfl, m, offerEnd, makes⟩
    · rw [if_neg (by tauto), if_neg (by omega)]
      obtain ⟨none, short⟩ := requestCopy_refused (n := n) hc
      by_cases h0 : s.ticketPool.free = 0
      · have cause : remakeCause tk s = .noTickets := by
          unfold remakeCause
          rw [if_neg (by omega), if_pos h0]
        rw [none h0]
        refine ⟨rfl, ?_⟩
        have := escalate_escalates (n := n) (tk := tk) source [] (noticedAll_nil s).symm (by rw [cause]; rfl)
        rwa [cause] at this
      · have cause : remakeCause tk s = .noStock := by
          unfold remakeCause
          rw [if_neg (by omega), if_neg h0]
        obtain ⟨k, hk, e⟩ := short (by omega)
        rw [e]
        refine ⟨rfl, ?_⟩
        have := escalate_escalates (n := n) (tk := tk) source [.stockOut tk.component .short k tk.quantity] rfl
          (by rw [cause, hk]; rfl)
        rwa [cause] at this
  · have cause : remakeCause tk s = .generation := by
      unfold remakeCause
      rw [if_pos (by omega)]
    rw [if_neg (by tauto), if_pos (by omega)]
    refine ⟨rfl, ?_⟩
    have := escalate_escalates (n := n) (tk := tk) source [] (noticedAll_nil s).symm (by rw [cause]; rfl)
    rwa [cause] at this

/-! ## What a remake keeps -/

/-- A ticket that has been offered is QUEUED, ON_LINE or BLOCKED (R94). -/
theorem Offers.state {n : Nat} {s t : State} (h : Offers n s t) : ¬InState t .ready n ∧ ¬InState t .withdrawn n := by
  obtain ⟨tk, -, ⟨x, -, -, tk', -, he⟩ | ⟨-, tk', _, _, -, -, hb, -⟩⟩ := h
  · dsimp only at he
    split at he <;> simp [InState, he.1]
  · simp [InState, hb]

/-- An offer reaches tickets and stations alone. -/
theorem Offers.rest {n : Nat} {s t : State} (h : Offers n s t) : t = { s with tickets := t.tickets, stations := t.stations } := by
  obtain ⟨tk, -, ⟨x, -, ⟨he, -⟩, -⟩ | ⟨-, tk', _, _, -, ⟨he, -⟩, -⟩⟩ := h <;> exact he

/-- A remake of ticket `n` keeps the lines sound, the blocked lists sound, the record of every other live ticket, and the pass line; the blocked
lists gain at most the copy; and no ticket becomes READY or WITHDRAWN. -/
structure RemakeKeeps (n : Nat) (s t : State) : Prop where
  lines : LinesSound t
  blocked : BlockedSound t
  length : t.stations.length = s.stations.length
  others : ∀ m, ticket? s m ≠ none → m ≠ n → ticket? t m = ticket? s m
  joins : ∀ x, ∀ m ∈ (station t x).blocked, ticket? s m = none ∨ m ∈ (station s x).blocked
  pass : t.passLine = s.passLine
  clock : t.clock = s.clock
  still : ∀ st m, st = .ready ∨ st = .withdrawn → InState t st m → InState s st m
  slots : ∀ g gr, group? s g = some gr → ∃ gr', group? t g = some gr' ∧ ∀ o ∈ gr.tickets,
    (o ∈ gr'.tickets) ∨ o = n ∧ ∃ m ∈ gr'.tickets, ¬InState t .ready m ∧ ¬InState t .withdrawn m

theorem MakesCopy.keeps {n m : Nat} {tk : Ticket} {offerEnd : Option Nat} {s t : State} (h : MakesCopy n m tk offerEnd s t)
    (hl : LinesSound s) (hb : BlockedSound s) (hn : ∀ x, n ∉ (station s x).blocked) : RemakeKeeps n s t := by
  obtain ⟨u, hu, -, absent, -, tickets, groups, -, offers⟩ := h
  have st : u.stations = s.stations := by rw [hu]
  have at' : ∀ x, station u x = station s x := fun x => by unfold station; rw [st]
  have copyOut : ∀ x, m ∉ (station s x).blocked := by
    intro x hm
    obtain ⟨a, ha, -⟩ := (hb x).2 m hm
    rw [absent] at ha
    cases ha
  have ub : BlockedSound u := by
    intro x
    rw [at']
    refine ⟨(hb x).1, fun l hlb => ?_⟩
    obtain ⟨a, ha, hx⟩ := (hb x).2 l hlb
    refine ⟨a, ?_, hx⟩
    rw [tickets, if_neg fun e : l = m => copyOut x (e ▸ hlb), if_neg fun e : l = n => hn x (e ▸ hlb), ha]
  have ul : LinesSound u := by rw [hu]; exact hl
  obtain ⟨tl, tb, len, oth, join⟩ := offers.keeps ul ub (fun x => by rw [at']; exact copyOut x)
  have rest := offers.rest
  have copy := offers.state
  refine ⟨tl, tb, by rw [len, st], fun l hlive hln => ?_, fun x l hlb => ?_, by rw [rest, hu], by rw [rest, hu], ?_, ?_⟩
  · have lm : l ≠ m := by rintro rfl; exact hlive absent
    rw [oth l lm, tickets, if_neg lm, if_neg hln]
  · rcases join x l hlb with rfl | k
    · exact .inl absent
    · exact .inr (at' x ▸ k)
  · intro v l hv hlv
    by_cases lm : l = m
    · rw [lm] at hlv
      rcases hv with rfl | rfl
      · exact absurd hlv copy.1
      · exact absurd hlv copy.2
    · unfold InState at hlv ⊢
      rw [oth l lm, tickets, if_neg lm] at hlv
      split at hlv
      · simp at hlv
      · exact hlv
  · intro g gr hg
    have hgu := groups g
    rw [hg, Option.map_some] at hgu
    have ht : group? t g = group? u g := by unfold group?; rw [rest]
    refine ⟨_, ht.trans hgu, fun o ho => ?_⟩
    split
    · by_cases hon : o = n
      · exact .inr ⟨hon, m, List.mem_map.mpr ⟨o, ho, if_pos hon⟩, copy⟩
      · exact .inl (List.mem_map.mpr ⟨o, ho, if_neg hon⟩)
    · exact .inl ho

theorem Escalates.keeps {source : RemakeSource} {n : Nat} {tk : Ticket} {s t : State} (h : Escalates source n tk s t)
    (hl : LinesSound s) (hb : BlockedSound s) : RemakeKeeps n s t := by
  obtain ⟨ht, groups⟩ := h
  rw [noticedAll_rest] at ht
  have tickets : ∀ l, ticket? t l = ticket? s l := fun l => by unfold ticket?; rw [ht]
  have at' : ∀ x, station t x = station s x := fun x => by unfold station; rw [ht]
  refine ⟨by rw [ht]; exact hl, ?_, by rw [ht], fun l _ _ => tickets l, fun x l h => .inr (at' x ▸ h), by rw [ht], by rw [ht], ?_, ?_⟩
  · exact hb.of_eq (fun x => by rw [at']) fun l => by rw [tickets]
  · intro v l _ h
    unfold InState at h ⊢
    rwa [tickets] at h
  · intro g gr hg
    have := groups g
    rw [hg, Option.map_some] at this
    refine ⟨_, this, fun o ho => .inl ?_⟩
    split <;> exact ho

theorem Remakes.keeps {source : RemakeSource} {n : Nat} {made : Bool} {s t : State} (h : Remakes source n made s t)
    (hl : LinesSound s) (hb : BlockedSound s) (hn : ∀ x, n ∉ (station s x).blocked) : RemakeKeeps n s t := by
  obtain ⟨tk, -, h⟩ := h
  split at h
  · obtain ⟨-, m, offerEnd, h⟩ := h
    exact h.keeps hl hb hn
  · exact h.2.keeps hl hb

/-- A live group whose list holds a ticket neither READY nor WITHDRAWN. -/
def Waiting (g : Nat) (s : State) : Prop :=
  ∃ gr n, group? s g = some gr ∧ n ∈ gr.tickets ∧ ¬InState s .ready n ∧ ¬InState s .withdrawn n

theorem RemakeKeeps.waiting {g n : Nat} {s t : State} (h : RemakeKeeps n s t) (w : Waiting g s) : Waiting g t := by
  obtain ⟨gr, o, hg, ho, h1, h2⟩ := w
  obtain ⟨gr', hg', slots⟩ := h.slots g gr hg
  rcases slots o ho with k | ⟨-, m, hm, k⟩
  · exact ⟨gr', o, hg', k, fun e => h1 (h.still _ _ (.inl rfl) e), fun e => h2 (h.still _ _ (.inr rfl) e)⟩
  · exact ⟨gr', m, hg', hm, k⟩

/-- The first of several remakes, and then the others. -/
theorem automaticRemakes_cons (g n : Nat) (source : RemakeSource) (ns : List Nat) (s : State) :
    automaticRemakes g source (n :: ns) s
      = ((automaticRemakes g source ns (automaticRemake g n source s).1).1,
        (if (automaticRemake g n source s).2 then 1 else 0)
          + (automaticRemakes g source ns (automaticRemake g n source s).1).2) := by
  have count : ∀ (ns : List Nat) (u : State) (k : Nat),
      ns.foldl (fun (r : State × Nat) t =>
          ((automaticRemake g t source r.1).1, if (automaticRemake g t source r.1).2 then r.2 + 1 else r.2)) (u, k)
        = ((automaticRemakes g source ns u).1, k + (automaticRemakes g source ns u).2) := by
    intro ns
    induction ns with
    | nil => intro u k; rfl
    | cons n ns ih =>
      intro u k
      have e : automaticRemakes g source (n :: ns) u
          = ns.foldl (fun (r : State × Nat) t =>
              ((automaticRemake g t source r.1).1, if (automaticRemake g t source r.1).2 then r.2 + 1 else r.2))
            ((automaticRemake g n source u).1, if (automaticRemake g n source u).2 then 0 + 1 else 0) := rfl
      rw [e, List.foldl_cons, ih, ih]
      split <;> simp [Nat.add_assoc]
  have := count ns (automaticRemake g n source s).1 (if (automaticRemake g n source s).2 then 1 else 0)
  rw [← this]
  simp only [automaticRemakes, List.foldl_cons, Nat.zero_add]

/-- Automatic remakes of different live tickets of a group that stand in no blocked list, made one after another (R151). -/
theorem automaticRemakes_remakes {g : Nat} (source : RemakeSource) {ns : List Nat} {s : State} (hl : LinesSound s) (hb : BlockedSound s)
    (hd : ns.Nodup)
    (hn : ∀ n ∈ ns, (∀ x, n ∉ (station s x).blocked)
      ∧ ∃ tk, ticket? s n = some tk ∧ tk.group = g ∧ tk.homeStation < s.stations.length) :
    RemakesEach source ns (automaticRemakes g source ns s).2 s (automaticRemakes g source ns s).1
      ∧ LinesSound (automaticRemakes g source ns s).1
      ∧ (automaticRemakes g source ns s).1.passLine = s.passLine
      ∧ (Waiting g s → Waiting g (automaticRemakes g source ns s).1) := by
  induction ns generalizing s with
  | nil => exact ⟨⟨rfl, rfl⟩, hl, rfl, id⟩
  | cons n ns ih =>
    obtain ⟨out, tk, htk, rfl, hx⟩ := hn n (by simp)
    have one := automaticRemake_remakes source hl htk hx hb out
    have keeps := one.keeps hl hb out
    rw [List.nodup_cons] at hd
    have rest := ih keeps.lines keeps.blocked hd.2 fun l hln => by
      obtain ⟨lout, tk', h1, h2, h3⟩ := hn l (by simp [hln])
      refine ⟨fun x hlx => ?_, tk', ?_, h2, by rw [keeps.length]; exact h3⟩
      · rcases keeps.joins x l hlx with k | k
        · rw [h1] at k; cases k
        · exact lout x k
      · rw [keeps.others l (by simp [h1]) (fun e => hd.1 (e ▸ hln)), h1]
    rw [automaticRemakes_cons]
    obtain ⟨r1, r2, r3, r4⟩ := rest
    exact ⟨⟨_, _, _, one, r1, rfl⟩, r2, r3.trans keeps.pass, fun w => r4 (keeps.waiting w)⟩

/-! ## Refired groups (R150, R157) -/

/-- die_at recomputed is the earliest of the group's list, and no other group changes. -/
theorem recomputeDie_group {g : Nat} {gr : Group} {s : State} (h : group? s g = some gr) (l : Nat) :
    group? (recomputeDie g s) l = if l = g then some { gr with dieAt := earliestDie s gr.tickets } else group? s l := by
  unfold recomputeDie
  rw [group_get_updGroup]
  split
  · rename_i e
    rw [e, h]
    rfl
  · rfl

/-- A list with a ticket neither READY nor WITHDRAWN is not complete, so the completion test changes nothing (R149). -/
theorem completionTest_waits {g n : Nat} {gr : Group} {s : State} (h : group? s g = some gr) (hm : n ∈ gr.tickets)
    (hn : ¬InState s .ready n ∧ ¬InState s .withdrawn n) : completionTest g s = s := by
  unfold completionTest
  rw [h]
  dsimp only
  rw [if_neg]
  rintro ⟨-, hc⟩
  unfold listComplete at hc
  rw [Bool.and_eq_true, List.all_eq_true] at hc
  have := hc.1 n hm
  simp only [ticketIs, Bool.or_eq_true, decide_eq_true_eq] at this
  exact this.elim hn.1 hn.2

/-- A record produced for a sound pass line. -/
theorem sendRecord_pass {s : State} (r : LineRecord) (h : LineSound s.passLine) :
    sendRecord .pass r s = { s with passLine := produced r s.passLine } :=
  sendRecord_eq r h

/-- GROUP_UP of a live group, on a sound pass line (R164). -/
theorem sendGroupUp_eq {g : Nat} {gr : Group} {s : State} (hg : group? s g = some gr) (h : LineSound s.passLine) :
    sendGroupUp g s = { s with passLine := produced (groupShown s g gr) s.passLine } := by
  unfold sendGroupUp
  rw [hg]
  dsimp only
  rw [groupUpRecord_eq, sendRecord_pass _ h]

/-- Die times depend on the tickets and the menu store alone. -/
theorem earliestDie_congr {s t : State} (ht : t.tickets = s.tickets) (hc : t.components = s.components) (ns : List Nat) :
    earliestDie t ns = earliestDie s ns := by
  unfold earliestDie dieTime holdWindow ticket?
  rw [ht, hc]

theorem inState_congr {s t : State} (ht : t.tickets = s.tickets) (st : TicketState) (n : Nat) :
    InState t st n ↔ InState s st n := by
  unfold InState ticket?
  rw [ht]

/-! ## Die expiries (R150, R151) -/

/-- The tickets that have died become DEAD, with DYING, in list order. -/
theorem makeDeadAll_eq (g : Nat) (ns : List Nat) (s : State) (h : LineSound s.passLine) :
    ns.foldl (fun s t => makeDead g t s) s
        = { s with
            tickets := (ns.foldl (fun s t => makeDead g t s) s).tickets
            passLine := ns.foldl (fun ln n => produced (.dying g n) ln) s.passLine }
      ∧ LineSound (ns.foldl (fun ln n => produced (.dying g n) ln) s.passLine)
      ∧ ∀ n, ticket? (ns.foldl (fun s t => makeDead g t s) s) n
          = (ticket? s n).map fun tk => if n ∈ ns then { tk with state := .dead, readyAt := none } else tk := by
  induction ns generalizing s with
  | nil => exact ⟨rfl, h, fun n => by simp⟩
  | cons m ns ih =>
    have one : makeDead g m s
        = { s with
            tickets := s.tickets.update m fun tk => { tk with state := .dead, readyAt := none }
            passLine := produced (.dying g m) s.passLine } :=
      sendRecord_pass (s := updTicket m _ s) _ h
    obtain ⟨h1, h2, h3⟩ := ih (makeDead g m s) (by rw [one]; exact produced_sound h)
    rw [List.foldl_cons, List.foldl_cons]
    refine ⟨?_, ?_, fun n => ?_⟩
    · conv_lhs => rw [h1]
      rw [one]
    · rw [one] at h2
      exact h2
    · rw [h3]
      have : ticket? (makeDead g m s) n
          = (ticket? s n).map fun tk => if n = m then { tk with state := .dead, readyAt := none } else tk := by
        rw [one]
        simp only [ticket?, Store.get?_update]
        split <;> simp
      rw [this, Option.map_map]
      congr 1
      funext tk
      simp only [Function.comp_apply, List.mem_cons]
      by_cases e : n = m <;> by_cases k : n ∈ ns <;> simp [e, k]

/-- The die expiry of a group some ticket of which has died. -/
theorem dieExpiry_expires {g : Nat} {gr : Group} {s : State} (hl : LinesSound s) (hb : BlockedSound s) (hg : group? s g = some gr)
    (hd : gr.tickets.Nodup)
    (hn : ∀ n ∈ gr.tickets, ∃ tk, ticket? s n = some tk ∧ tk.group = g ∧ tk.homeStation < s.stations.length)
    (hr : ∀ n, InState s .ready n → ∀ x, n ∉ (station s x).blocked)
    (some' : ∃ n ∈ gr.tickets, ∃ d ≤ s.clock, DiesAt s n d) : DieExpires g s (dieExpiry g s) := by
  unfold dieExpiry
  rw [hg]
  dsimp only
  generalize hdied : gr.tickets.filter (hasDied s) = died
  have mem : ∀ n, n ∈ died ↔ n ∈ gr.tickets ∧ ∃ d ≤ s.clock, DiesAt s n d := by
    intro n
    rw [← hdied, List.mem_filter, hasDied_iff]
  obtain ⟨hu, ul, tickets⟩ := makeDeadAll_eq g died s hl.2
  generalize died.foldl (fun s t => makeDead g t s) s = u at hu tickets ⊢
  have at' : ∀ x, station u x = station s x := fun x => by unfold station; rw [hu]
  have ulines : LinesSound u := by
    refine ⟨fun st h => hl.1 st ?_, ?_⟩
    · rw [hu] at h
      exact h
    · rw [hu]
      exact ul
  have ub : BlockedSound u := hb.of_eq (fun x => by rw [at']) fun n => by
    rw [tickets]
    cases ticket? s n with
    | none => rfl
    | some tk => rw [Option.map_some, Option.map_some, Option.map_some]; split <;> rfl
  have wait : Waiting g u := by
    obtain ⟨n, hm, hdies⟩ := some'
    have hnd : n ∈ died := (mem n).mpr ⟨hm, hdies⟩
    refine ⟨gr, n, by unfold group? at hg ⊢; rw [hu]; exact hg, hm, ?_⟩
    unfold InState
    rw [tickets]
    cases ticket? s n <;> simp [hnd]
  obtain ⟨each, vl, vpass, vwait⟩ := automaticRemakes_remakes .die ulines ub (hdied ▸ hd.filter _) fun n hnd => by
    obtain ⟨hm, d, -, hdies⟩ := (mem n).mp hnd
    obtain ⟨tk, htk, hgr, hx⟩ := hn n hm
    refine ⟨fun x => ?_, { tk with state := .dead, readyAt := none }, by rw [tickets, htk, Option.map_some, if_pos hnd], hgr, by rw [hu]; exact hx⟩
    rw [at']
    refine hr n ?_ x
    obtain ⟨a, r, c, ha, hs, -⟩ := hdies
    simp [InState, ha, hs]
  generalize automaticRemakes g .die died u = r at each vl vpass vwait ⊢
  obtain ⟨v, made⟩ := r
  dsimp only at each vl vpass vwait ⊢
  obtain ⟨gr', n, hg', hm, wait'⟩ := vwait wait
  rw [sendGroupUp_eq hg' vl.2, pushNotice_with (s := v) _ (by rfl)]
  generalize hw : ({ ({ v with passLine := produced (groupShown v g gr') v.passLine } : State) with
    link := (pushNotice (.groupDying g gr.wave gr.table died.length made) v).link } : State) = w
  have wt : w.tickets = v.tickets := by rw [← hw]
  have wc : w.components = v.components := by rw [← hw]
  have wg : ∀ l, group? w l = group? v l := fun l => by rw [← hw]; rfl
  have hgw : group? w g = some gr' := by rw [wg, hg']
  rw [completionTest_waits (n := n) (gr := { gr' with dieAt := earliestDie w gr'.tickets })
    (by rw [recomputeDie_group hgw, if_pos rfl]) hm
    (by rw [inState_congr (t := recomputeDie g w) wt, inState_congr (t := recomputeDie g w) wt]; exact wait')]
  refine ⟨gr, gr', died, made, u, v, earliestDie v gr'.tickets, hg, hdied ▸ List.filter_sublist, mem, hu, tickets, each, hg',
    earliestDie_earliest v _, ?_, fun h => ?_⟩
  · rw [← hw]
    unfold recomputeDie updGroup pushNotice
    dsimp only
    split <;> rfl
  · rw [recomputeDie_group hgw, earliestDie_congr wt wc, wg]

/-- What a REFIRE makes of the group in whose list its copy stands. -/
theorem refireGroup_reopens {g : Nat} {gr : Group} {s : State} (hl : LinesSound s) (hb : BlockedSound s) (hg : group? s g = some gr)
    (hd : gr.tickets.Nodup)
    (hn : ∀ n ∈ gr.tickets, ∃ tk, ticket? s n = some tk ∧ tk.group = g ∧ tk.homeStation < s.stations.length)
    (hr : ∀ n, InState s .ready n → ∀ x, n ∉ (station s x).blocked) (hw : Waiting g s) : ReopensGroup g s (refireGroup g s) := by
  obtain ⟨gr₀, n, hg₀, hm, wait⟩ := hw
  rw [hg] at hg₀
  cases hg₀
  unfold refireGroup
  rw [hg]
  dsimp only
  have early := earliestDie_earliest s gr.tickets
  cases hs : gr.state with
  | pending => exact ⟨gr, _, s, hg, early, by rw [hs]⟩
  | assembling =>
    dsimp only
    rw [sendGroupUp_eq hg hl.2]
    generalize hw : ({ s with passLine := produced (groupShown s g gr) s.passLine } : State) = w
    have hgw : group? w g = some gr := by rw [← hw]; exact hg
    have wt : w.tickets = s.tickets := by rw [← hw]
    have wc : w.components = s.components := by rw [← hw]
    rw [completionTest_waits (n := n) (gr := { gr with dieAt := earliestDie w gr.tickets })
      (by rw [recomputeDie_group hgw, if_pos rfl]) hm
      (by rw [inState_congr (t := recomputeDie g w) wt, inState_congr (t := recomputeDie g w) wt]; exact wait)]
    refine ⟨gr, _, s, hg, early, ?_⟩
    rw [hs]
    refine ⟨by rw [← hw]; rfl, fun h => ?_⟩
    rw [recomputeDie_group hgw, earliestDie_congr wt wc, hs, ← hw]
    rfl
  | complete =>
    dsimp only
    generalize hv : updGroup g (fun gr => { gr with state := .assembling, pickupAt := none, unpickedReported := false }) s = v
    have hgv : group? v g = some { gr with state := .assembling, pickupAt := none, unpickedReported := false } := by
      rw [← hv, group_get_updGroup, if_pos rfl, hg]
      rfl
    have vp : v.passLine = s.passLine := by rw [← hv]; rfl
    rw [sendRecord_pass _ (by rw [vp]; exact hl.2)]
    generalize hx : ({ v with passLine := produced (.waitGroup g) v.passLine } : State) = x
    have hgx : group? x g = some { gr with state := .assembling, pickupAt := none, unpickedReported := false } := by
      rw [← hx]
      exact hgv
    have xp : x.passLine = produced (.waitGroup g) s.passLine := by rw [← hx, ← vp]
    rw [sendGroupUp_eq hgx (by rw [xp]; exact produced_sound hl.2)]
    generalize hw : ({ x with
      passLine := produced (groupShown x g { gr with state := .assembling, pickupAt := none, unpickedReported := false })
        x.passLine } : State) = w
    have hgw : group? w g = some { gr with state := .assembling, pickupAt := none, unpickedReported := false } := by
      rw [← hw]
      exact hgx
    have wt : w.tickets = s.tickets := by rw [← hw, ← hx, ← hv]; rfl
    have wc : w.components = s.components := by rw [← hw, ← hx, ← hv]; rfl
    have ws : w.stations = s.stations := by rw [← hw, ← hx, ← hv]; rfl
    have wclock : w.clock = s.clock := by rw [← hw, ← hx, ← hv]; rfl
    rw [completionTest_waits (n := n)
      (gr := { gr with state := .assembling, pickupAt := none, unpickedReported := false, dieAt := earliestDie w gr.tickets })
      (by rw [recomputeDie_group hgw, if_pos rfl]) hm
      (by rw [inState_congr (t := recomputeDie g w) wt, inState_congr (t := recomputeDie g w) wt]; exact wait)]
    generalize hu : recomputeDie g w = u
    have ug : ∀ h, group? u h = if h = g then
        some { gr with state := .assembling, dieAt := earliestDie s gr.tickets, pickupAt := none, unpickedReported := false }
        else group? s h := by
      intro h
      rw [← hu, recomputeDie_group hgw, earliestDie_congr wt wc]
      split
      · rfl
      · rename_i ne
        rw [← hw, ← hx, ← hv]
        exact (group_get_updGroup s g h _).trans (if_neg ne)
    have ut : u.tickets = s.tickets := by rw [← hu]; exact wt
    have us : u.stations = s.stations := by rw [← hu]; exact ws
    have uc : u.components = s.components := by rw [← hu]; exact wc
    have uclock : u.clock = s.clock := by rw [← hu]; exact wclock
    have up : u.passLine = produced (groupShown s g gr) (produced (.waitGroup g) s.passLine) := by
      rw [← hu, ← hw, ← hx, ← hv]
      rfl
    refine ⟨gr, earliestDie s gr.tickets, u, hg, early, ?_⟩
    rw [hs]
    refine ⟨?_, ug, ?_⟩
    · rw [← up, ← hu, ← hw, ← hx, ← hv]
      rfl
    · have due : dieDue u g = true ↔ ∃ e ∈ earliestDie s gr.tickets, e ≤ s.clock := by
        unfold dieDue
        rw [ug, if_pos rfl, uclock]
        cases earliestDie s gr.tickets <;> simp
      by_cases hdue : ∃ e ∈ earliestDie s gr.tickets, e ≤ s.clock
      · rw [if_pos hdue, if_pos (due.mpr hdue)]
        have tick : ∀ n, ticket? u n = ticket? s n := fun n => by unfold ticket?; rw [ut]
        have at' : ∀ x, station u x = station s x := fun x => by unfold station; rw [us]
        have dies : ∀ n d, DiesAt u n d ↔ DiesAt s n d := by
          intro n d
          unfold DiesAt
          rw [tick, uc]
        refine dieExpiry_expires
          (gr := { gr with
            state := .assembling, dieAt := earliestDie s gr.tickets, pickupAt := none, unpickedReported := false })
          ⟨by rw [us]; exact hl.1, by rw [up]; exact produced_sound (produced_sound hl.2)⟩
          (hb.of_eq (fun x => by rw [at']) fun n => by rw [tick]) (by rw [ug, if_pos rfl]) hd ?_ ?_ ?_
        · intro n hn'
          rw [tick, us]
          exact hn n hn'
        · intro n hn' x
          rw [at']
          exact hr n ((inState_congr ut _ _).mp hn') x
        · obtain ⟨e, he, hle⟩ := hdue
          obtain ⟨n, hn', hdn⟩ := early.1 e he
          exact ⟨n, hn', e, by rw [uclock]; exact hle, (dies n e).mpr hdn⟩
      · rw [if_neg hdue, if_neg (by rw [due]; exact hdue)]

end Sys2Proof.Machine
end

