-- ==== Sys2Proof/Laws/Draws.lean ====
section
/-!
SUPPORT. What the wave draw and the copy draw do, in the words of Safety.lean (R9 to R13).
-/

namespace Sys2Proof.Machine

/-- Two canonical stores that hold the same records are the same. -/
theorem Store.ext {α : Type} {m m' : Store α} (h : m.rising = true) (h' : m'.rising = true) (hg : ∀ n, m.get? n = m'.get? n) :
    m = m' := by
  rw [Store.rising_iff] at h h'
  have nd : ∀ {l : Store α}, (l.Pairwise fun d e => d.1 < e.1) → l.Nodup := fun hl =>
    hl.imp fun k e => by subst e; omega
  have mem : ∀ {a b : Store α}, (a.Pairwise fun d e => d.1 < e.1) → (b.Pairwise fun d e => d.1 < e.1) →
      (∀ n, a.get? n = b.get? n) → ∀ e ∈ a, e ∈ b := by
    intro a b ha _ hab e he
    have := Store.get?_of_mem ((Store.rising_iff a).mpr ha) he
    rw [hab] at this
    exact Store.mem_of_get? this
  have perm : m.Perm m' := (List.perm_ext_iff_of_nodup (nd h) (nd h')).mpr fun e =>
    ⟨mem h h' hg e, mem h' h (fun n => (hg n).symm) e⟩
  exact perm.eq_of_pairwise (fun a b _ _ h1 h2 => by omega) h h'

/-- The stock need holds the tracked components of the plan, each with the sum of its quantities (R9). -/
theorem stockNeed_spec (s : State) (es : List (Nat × Nat)) (hq : ∀ e ∈ es, 0 < e.2) (need : Store Nat) (done : List (Nat × Nat))
    (hr : need.rising = true)
    (hn : ∀ c, need.get? c = if (stockOf s c).isSome = true ∧ 0 < portions c done then some (portions c done) else none) :
    let all := es.foldl (fun need e =>
      match stockOf s e.1 with
      | some _ => need.set e.1 ((need.get? e.1).getD 0 + e.2)
      | none => need) need
    all.rising = true ∧ ∀ c, all.get? c
      = if (stockOf s c).isSome = true ∧ 0 < portions c (done ++ es) then some (portions c (done ++ es)) else none := by
  induction es generalizing need done with
  | nil => simpa using ⟨hr, hn⟩
  | cons e es ih =>
    dsimp only
    rw [List.foldl_cons, show done ++ e :: es = (done ++ [e]) ++ es by simp]
    apply ih (fun d hd => hq d (List.mem_cons_of_mem _ hd))
    · split
      · exact Store.rising_set _ _ hr
      · exact hr
    · intro c
      have hp : portions c (done ++ [e]) = portions c done + if e.1 = c then e.2 else 0 := by
        unfold portions
        by_cases h : e.1 = c <;> simp [List.filter_append, h]
      rw [hp]
      have h2 := hq e (by simp)
      cases hs : stockOf s e.1 with
      | none =>
        dsimp only
        rw [hn c]
        by_cases h : e.1 = c
        · subst h; simp [hs]
        · simp [h]
      | some k =>
        dsimp only
        by_cases h : e.1 = c
        · subst h
          rw [Store.get?_set_self, hn, hs]
          by_cases hd : 0 < portions e.1 done
          · simp [hd]
          · simp [hd]; omega
        · rw [Store.get?_set_of_ne _ _ (fun k => h k.symm), hn c]
          simp [h]

theorem ticketList_pos {plan : List Nat} {r : TableRecord} {e : Nat × Nat} (h : e ∈ ticketList plan r) : 0 < e.2 := by
  unfold ticketList at h
  simpa using (List.mem_filter.mp h).2

/-- The need of a wave as a list over the component records (R9). -/
theorem stockNeed_eq {s : State} (hs : s.components.rising = true) (plan : List ServedTable)
    (hq : ∀ v ∈ plan, ∀ e ∈ v.tickets, 0 < e.2) :
    stockNeed s plan = s.components.filterMap fun e =>
      if e.2.stock.isSome = true ∧ 0 < portions e.1 (plan.flatMap ServedTable.tickets) then
        some (e.1, portions e.1 (plan.flatMap ServedTable.tickets)) else none := by
  have hq' : ∀ e ∈ plan.flatMap ServedTable.tickets, 0 < e.2 := by
    intro e he
    obtain ⟨v, hv, he⟩ := List.mem_flatMap.mp he
    exact hq v hv e he
  obtain ⟨h1, h2⟩ := stockNeed_spec s _ hq' [] [] rfl (fun c => by simp [portions])
  rw [List.nil_append] at h2
  generalize portions = pf at *
  apply Store.ext h1
  · rw [Store.rising_iff] at hs ⊢
    rw [List.pairwise_filterMap]
    exact hs.imp fun h b hb b' hb' => by
      split at hb <;> split at hb' <;> simp_all
      rw [← hb, ← hb']; exact h
  · intro c
    rw [h2]
    have : ∀ m : Store Component, m.rising = true → Store.get? (m.filterMap fun e =>
        if e.2.stock.isSome = true ∧ 0 < pf e.1 (plan.flatMap ServedTable.tickets) then
          some (e.1, pf e.1 (plan.flatMap ServedTable.tickets)) else none) c
        = if ((m.get? c).bind Component.stock).isSome = true ∧ 0 < pf c (plan.flatMap ServedTable.tickets) then
          some (pf c (plan.flatMap ServedTable.tickets)) else none := by
      intro m
      induction m with
      | nil => intro _; simp
      | cons e m ih =>
        intro hm
        obtain ⟨k, r⟩ := e
        have hm' := (List.pairwise_cons.mp ((Store.rising_iff _).mp hm))
        have ih := ih ((Store.rising_iff _).mpr hm'.2)
        rw [List.filterMap_cons, Store.get?_cons]
        by_cases hk : k = c
        · subst hk
          rw [if_pos rfl]
          dsimp only
          by_cases hc : r.stock.isSome = true ∧ 0 < pf k (plan.flatMap ServedTable.tickets)
          · rw [if_pos hc]
            simp only [Store.get?_cons, if_true, Option.bind_some]
            rw [if_pos hc]
          · rw [if_neg hc]
            simp only [Option.bind_some]
            rw [if_neg hc, ih]
            have : Store.get? m k = none := by
              cases hg : Store.get? m k with
              | none => rfl
              | some a =>
                have := hm'.1 _ (Store.mem_of_get? hg)
                simp at this
            simp [this]
        · rw [if_neg hk, ← ih]
          dsimp only
          split
          · rename_i h; split at h <;> simp_all
          · rename_i h
            split at h
            · cases h; rw [Store.get?_cons, if_neg hk]
            · cases h
    exact (this _ hs).symm

/-- Draws of distinct components, each covered: the counts fall, with each component's notices in turn (R10). -/
theorem drawAll_eq (need : Store Nat) (s : State) (hn : need.rising = true)
    (hc : ∀ e ∈ need, ∃ r n, s.components.get? e.1 = some r ∧ r.stock = some n) :
    ∃ cs, need.foldl (fun s e => drawStock e.1 e.2 s) s
        = noticedAll (need.flatMap fun e => ((s.components.get? e.1).toList.flatMap fun r => r.stock.toList.flatMap fun n =>
            drawNotices e.1 e.2 n r.lowLevel)) { s with components := cs }
      ∧ ∀ c, cs.get? c = (s.components.get? c).map fun r => { r with stock := r.stock.map fun n => n - (need.get? c).getD 0 } := by
  induction need generalizing s with
  | nil =>
    refine ⟨s.components, rfl, fun c => ?_⟩
    cases s.components.get? c with
    | none => rfl
    | some r => obtain ⟨_, _, _, k, _⟩ := r; cases k <;> rfl
  | cons e need ih =>
    obtain ⟨d, q⟩ := e
    obtain ⟨h1, h2⟩ := List.pairwise_cons.mp ((Store.rising_iff _).mp hn)
    obtain ⟨r, n, hr, hk⟩ := hc (d, q) (by simp)
    dsimp only at hr
    have hd : drawStock d q s = noticedAll (drawNotices d q n r.lowLevel) (setStock d (n - q) s) := by
      unfold drawStock
      rw [hr]
      dsimp only
      rw [hk]
      exact drawTracked_eq _ _ _ _ _
    have hg : ∀ c, (drawStock d q s).components.get? c
        = if c = d then some { r with stock := some (n - q) } else s.components.get? c := by
      intro c
      rw [hd, noticedAll_rest]
      simp only [setStock, Store.get?_update]
      split
      · subst_vars; rw [hr]; rfl
      · rfl
    have hne : ∀ e ∈ need, e.1 ≠ d := fun e he => by have := h1 e he; simp at this; omega
    obtain ⟨cs, e1, e2⟩ := ih (drawStock d q s) ((Store.rising_iff _).mpr h2) fun e he => by
      rw [hg, if_neg (hne e he)]
      exact hc e (List.mem_cons_of_mem _ he)
    refine ⟨cs, ?_, fun c => ?_⟩
    · rw [List.foldl_cons]
      dsimp only
      rw [e1, List.flatMap_cons, noticedAll_append]
      have l : ∀ e ∈ need, ((drawStock d q s).components.get? e.1) = s.components.get? e.1 := fun e he => by
        rw [hg, if_neg (hne e he)]
      have l2 : (need.flatMap fun e => (((drawStock d q s).components.get? e.1).toList.flatMap fun r => r.stock.toList.flatMap fun n =>
            drawNotices e.1 e.2 n r.lowLevel))
          = need.flatMap fun e => ((s.components.get? e.1).toList.flatMap fun r => r.stock.toList.flatMap fun n =>
            drawNotices e.1 e.2 n r.lowLevel) := by
        clear e1 e2 ih hc hn h2 h1
        induction need with
        | nil => rfl
        | cons e need ih' =>
          rw [List.flatMap_cons, List.flatMap_cons, l e (by simp), ih' (fun d hd => hne d (List.mem_cons_of_mem _ hd))
            fun d hd => l d (List.mem_cons_of_mem _ hd)]
      rw [l2, hr]
      simp only [Option.toList_some, List.flatMap_cons, List.flatMap_nil, List.append_nil, hk]
      congr 1
      rw [hd, noticedAll_with (s := s) (t := { s with components := cs }) _ rfl,
        noticedAll_with (s := s) (t := setStock d (n - q) s) _ rfl]
      rfl
    · rw [e2, hg, Store.get?_cons]
      by_cases hcd : c = d
      · subst hcd
        rw [if_pos rfl, if_pos rfl, hr]
        have : Store.get? need c = none := by
          cases hx : Store.get? need c with
          | none => rfl
          | some a => exact absurd rfl (hne _ (Store.mem_of_get? hx))
        rw [this]
        simp [hk]
      · rw [if_neg hcd, if_neg (fun h => hcd h.symm)]

/-- Notices of short components, one after another. -/
theorem noticeShortAll_eq (l : List (Nat × Nat)) (s : State) :
    l.foldl (fun s e => noticeShort e.1 e.2 s) s = noticedAll (l.map fun e => .stockOut e.1 .short ((stockOf s e.1).getD 0) e.2) s := by
  induction l generalizing s with
  | nil => rfl
  | cons e l ih =>
    rw [List.foldl_cons, ih, List.map_cons, noticedAll_cons]
    have : ∀ c, stockOf (noticeShort e.1 e.2 s) c = stockOf s c := by
      intro c
      unfold noticeShort pushNotice stockOf
      split <;> rfl
    simp only [this]
    rfl

/-- The wave draw (R10): refused with one notice for each short component, or made, with the notices of R12 and R13. -/
theorem waveDraw_eq {s : State} (hs : s.components.rising = true) (plan : List ServedTable)
    (hq : ∀ v ∈ plan, ∀ e ∈ v.tickets, 0 < e.2) :
    let need := fun c => portions c (plan.flatMap ServedTable.tickets)
    ((∃ c, Short s c (need c)) → waveDraw (stockNeed s plan) s = (noticedAll (shortNotices s need) s, false))
      ∧ ((¬∃ c, Short s c (need c)) → ∃ cs, waveDraw (stockNeed s plan) s
            = (noticedAll (waveDrawNotices s need) { s with components := cs }, true)
          ∧ ∀ c, cs.get? c = (s.components.get? c).map fun r => { r with stock := r.stock.map fun n => n - need c }) := by
  have hneed := stockNeed_eq hs plan hq
  have hread : ∀ c, (stockNeed s plan).get? c
      = if (stockOf s c).isSome = true ∧ 0 < portions c (plan.flatMap ServedTable.tickets) then
          some (portions c (plan.flatMap ServedTable.tickets)) else none :=
    (stockNeed_spec s _ (fun e he => by obtain ⟨v, hv, he⟩ := List.mem_flatMap.mp he; exact hq v hv e he) [] [] rfl
      (fun c => by simp [portions])).2
  generalize plan.flatMap ServedTable.tickets = es at *
  dsimp only
  have hget : ∀ e ∈ s.components, s.components.get? e.1 = some e.2 := fun e he => Store.get?_of_mem hs he
  have hst : ∀ e ∈ s.components, stockOf s e.1 = e.2.stock := fun e he => by unfold stockOf; rw [hget e he]; rfl
  have hrise : (stockNeed s plan).rising = true := by
    rw [hneed]
    rw [Store.rising_iff] at hs ⊢
    rw [List.pairwise_filterMap]
    exact hs.imp fun h b hb b' hb' => by
      split at hb <;> split at hb' <;> simp_all
      rw [← hb, ← hb']; exact h
  have hsh : (stockNeed s plan).filter (fun e => isShort s e.1 e.2)
      = s.components.filterMap fun e => if (∃ n ∈ e.2.stock, n < portions e.1 es) then some (e.1, portions e.1 es) else none := by
    rw [hneed, List.filter_filterMap]
    apply List.filterMap_congr
    intro e he
    have := hst e he
    unfold isShort
    cases hk : e.2.stock with
    | none => simp
    | some n =>
      by_cases h0 : 0 < portions e.1 es
      · simp [h0, this, hk, Option.filter]
      · have : portions e.1 es = 0 := by omega
        simp [this]
  have hempty : ((stockNeed s plan).filter fun e => isShort s e.1 e.2).isEmpty = true ↔ ¬∃ c, Short s c (portions c es) := by
    rw [hsh, List.isEmpty_iff, List.filterMap_eq_nil_iff]
    constructor
    · rintro h ⟨c, n, hn, hlt⟩
      unfold stockOf at hn
      cases hc : s.components.get? c with
      | none => simp [hc] at hn
      | some r =>
        rw [hc] at hn
        have := h _ (Store.mem_of_get? hc)
        rw [if_pos ⟨n, by simpa using hn, hlt⟩] at this
        cases this
    · intro h e he
      rw [if_neg]
      rintro ⟨n, hn, hlt⟩
      exact h ⟨e.1, n, by rw [hst e he]; exact hn, hlt⟩
  refine ⟨fun hS => ?_, fun hS => ?_⟩
  · unfold waveDraw
    dsimp only
    rw [if_neg (by rw [hempty]; exact fun h => h hS), noticeShortAll_eq, hsh]
    congr 2
    unfold shortNotices
    rw [List.map_filterMap]
    clear hsh hempty hneed hrise
    revert hst hget
    generalize s.components = cs
    intro hget hst
    have : ∀ l : Store Component, (∀ e ∈ l, stockOf s e.1 = e.2.stock) →
      List.filterMap (fun x => Option.map (fun e : Nat × Nat => Notice.stockOut e.1 StockOutCause.short ((stockOf s e.1).getD 0) e.2)
          (if (∃ n ∈ x.2.stock, n < portions x.1 es) then some (x.1, portions x.1 es) else none)) l =
        List.flatMap (fun e => List.flatMap (fun n =>
          if n < portions e.1 es then [Notice.stockOut e.1 StockOutCause.short n (portions e.1 es)] else []) e.2.stock.toList) l := by
      intro l
      induction l with
      | nil => intro _; rfl
      | cons e l ih =>
        intro hl
        rw [List.filterMap_cons, List.flatMap_cons, ih fun d hd => hl d (List.mem_cons_of_mem _ hd)]
        have h1 := hl e (by simp)
        cases hk : e.2.stock with
        | none => simp
        | some n =>
          by_cases hlt : n < portions e.1 es
          · simp [hlt, h1, hk]
          · simp [hlt]
    exact this cs hst
  · obtain ⟨cs, h1, h2⟩ := drawAll_eq (stockNeed s plan) s hrise (fun e he => by
      rw [hneed] at he
      obtain ⟨d, hd, hde⟩ := List.mem_filterMap.mp he
      split at hde
      · rename_i hh
        cases hde
        obtain ⟨n, hn⟩ := Option.isSome_iff_exists.mp hh.1
        exact ⟨d.2, n, hget d hd, hn⟩
      · cases hde)
    refine ⟨cs, ?_, fun c => ?_⟩
    · unfold waveDraw
      dsimp only
      rw [if_pos (hempty.mpr hS), h1]
      congr 2
      rw [hneed]
      unfold waveDrawNotices
      have : ∀ l : Store Component, (∀ e ∈ l, s.components.get? e.1 = some e.2) →
        List.flatMap (fun e : Nat × Nat => List.flatMap (fun r : Component => List.flatMap (fun n => drawNotices e.1 e.2 n r.lowLevel) r.stock.toList)
            (s.components.get? e.1).toList)
          (List.filterMap (fun e : Nat × Component => if e.2.stock.isSome = true ∧ 0 < portions e.1 es then some (e.1, portions e.1 es) else none) l) =
        List.flatMap (fun e => List.flatMap (fun n => drawNotices e.1 (portions e.1 es) n e.2.lowLevel) e.2.stock.toList) l := by
        intro l
        induction l with
        | nil => intro _; rfl
        | cons e l ih =>
          intro hl
          rw [List.filterMap_cons, List.flatMap_cons, ← ih fun d hd => hl d (List.mem_cons_of_mem _ hd)]
          have hg := hl e (by simp)
          cases hk : e.2.stock with
          | none => simp
          | some n =>
            by_cases h0 : 0 < portions e.1 es
            · simp [h0, hg, hk]
            · have h0 : portions e.1 es = 0 := by omega
              have : drawNotices e.1 0 n e.2.lowLevel = [] := by
                unfold drawNotices
                cases e.2.lowLevel with
                | none => simp; omega
                | some l => simp; omega
              simp [h0, this]
      exact this _ hget
    · rw [h2]
      cases hc : s.components.get? c with
      | none => rfl
      | some r =>
        rw [hread]
        have : stockOf s c = r.stock := by unfold stockOf; rw [hc]; rfl
        rw [this]
        cases hk : r.stock with
        | none => simp [hk]
        | some n =>
          by_cases h0 : 0 < portions c es
          · simp [h0]
          · have : portions c es = 0 := by omega
            simp [this]

end Sys2Proof.Machine
end

