-- ==== Sys2Proof/Laws/Service.lean ====
section
/-!
SUPPORT. What the running of the service can do: whatever the calendar, the stations, the pass, the waves and the load monitors do, the menu,
the floor's size, the tables' covers, marks and substitutions, the stations' configurations, the lines' presence, the host link's
receiver, buffer, decoder, replies and transmitter, the clock and the sizes of the pools stay as they are.
-/

namespace Sys2Proof.Machine

/-- `t` is `s` but for what the running of the service changes. -/
structure OnlyService (s t : State) : Prop where
  pending : t.pending = s.pending
  straps : t.straps = s.straps
  clock : t.clock = s.clock
  courses : t.courses = s.courses
  link : t.link = { s.link with notices := t.link.notices, lost := t.link.lost, seq := t.link.seq }
  record : ∀ c, (t.components.get? c).map (fun r => { r with stock := none })
    = (s.components.get? c).map fun r => { r with stock := none }
  rows : t.floor.rows = s.floor.rows
  columns : t.floor.columns = s.floor.columns
  table : ∀ u, { tableRecord t u with liveCourses := [] } = { tableRecord s u with liveCourses := [] }
  length : t.stations.length = s.stations.length
  config : ∀ x, (station t x).config = (station s x).config
  presence : ∀ l, (lineOf t l).presence = (lineOf s l).presence
  receiver : ∀ l, (lineOf t l).receiver = (lineOf s l).receiver
  tickets : t.ticketPool.total = s.ticketPool.total
  groups : t.groupPool.total = s.groupPool.total

theorem OnlyService.refl (s : State) : OnlyService s s := by
  constructor <;> intros <;> rfl

theorem OnlyService.trans {s t u : State} (h : OnlyService s t) (k : OnlyService t u) : OnlyService s u where
  pending := k.pending.trans h.pending
  straps := k.straps.trans h.straps
  clock := k.clock.trans h.clock
  courses := k.courses.trans h.courses
  link := by rw [k.link, h.link]
  record c := (k.record c).trans (h.record c)
  rows := k.rows.trans h.rows
  columns := k.columns.trans h.columns
  table u := (k.table u).trans (h.table u)
  length := k.length.trans h.length
  config x := (k.config x).trans (h.config x)
  presence l := (k.presence l).trans (h.presence l)
  receiver l := (k.receiver l).trans (h.receiver l)
  tickets := k.tickets.trans h.tickets
  groups := k.groups.trans h.groups

theorem OnlyService.foldl {α : Type} (f : State → α → State) (h : ∀ s a, OnlyService s (f s a)) (l : List α) (s : State) :
    OnlyService s (l.foldl f s) := by
  induction l generalizing s with
  | nil => exact .refl s
  | cons a l ih => exact (h s a).trans (ih _)

/-- An offer or a drain is such a change. -/
theorem OnlyPlaces.service {s t : State} (h : OnlyPlaces s t) : OnlyService s t where
  pending := h.pending
  straps := h.straps
  clock := h.clock
  courses := h.courses
  link := by rw [h.link]
  record c := by rw [h.components]
  rows := by rw [h.floor]
  columns := by rw [h.floor]
  table u := by unfold tableRecord; rw [h.floor]
  length := h.length
  config := h.config
  presence := h.presence
  receiver := h.receiver
  tickets := by rw [h.ticketPool]
  groups := by rw [h.groupPool]

/-- A record produced for a terminal is such a change. -/
theorem OnlyLines.service {s t : State} (h : OnlyLines s t) : OnlyService s t :=
  h.places.service

/-- A draw, a return or a notice is such a change. -/
theorem OnlyStock.service {s t : State} (h : OnlyStock s t) : OnlyService s t where
  pending := by rw [h.rest]
  straps := by rw [h.rest]
  clock := by rw [h.rest]
  courses := by rw [h.rest]
  link := by rw [h.link]
  record := h.record
  rows := by rw [h.rest]
  columns := by rw [h.rest]
  table u := by unfold tableRecord; rw [h.rest]
  length := by rw [h.rest]
  config x := by unfold station; rw [h.rest]
  presence l := by cases l <;> (simp only [lineOf, station]; rw [h.rest])
  receiver l := by cases l <;> (simp only [lineOf, station]; rw [h.rest])
  tickets := by rw [h.rest]
  groups := by rw [h.rest]

/-- A change of tickets, groups, waves, the engine, the calendar and the frozen set alone. -/
theorem OnlyService.ofRest {s t : State}
    (h : t = { s with
      tickets := t.tickets, groups := t.groups, waves := t.waves, engine := t.engine, calendar := t.calendar,
      frozen := t.frozen }) : OnlyService s t := by
  rw [h]
  constructor <;> intros <;> rfl

/-- The ticket store and its pool change, and the pool keeps its size. -/
theorem OnlyService.withTickets {s u : State} (h : OnlyService s u) (ts : Store Ticket) (p : Pool)
    (hp : p.total = u.ticketPool.total) : OnlyService s { u with tickets := ts, ticketPool := p } := by
  refine h.trans ?_
  constructor
  case tickets => exact hp
  all_goals intros; rfl

/-- The ticket pool changes and keeps its size. -/
theorem OnlyService.withTicketPool {s u : State} (h : OnlyService s u) (p : Pool) (hp : p.total = u.ticketPool.total) :
    OnlyService s { u with ticketPool := p } :=
  h.withTickets _ p hp

/-- The group store and its pool change, and the pool keeps its size. -/
theorem OnlyService.withGroups {s u : State} (h : OnlyService s u) (gs : Store Group) (p : Pool)
    (hp : p.total = u.groupPool.total) : OnlyService s { u with groups := gs, groupPool := p } := by
  refine h.trans ?_
  constructor
  case groups => exact hp
  all_goals intros; rfl

/-- Both pools change and keep their sizes. -/
theorem OnlyService.withPools {s u : State} (h : OnlyService s u) (p q : Pool) (hp : p.total = u.ticketPool.total)
    (hq : q.total = u.groupPool.total) : OnlyService s { u with ticketPool := p, groupPool := q } :=
  (h.withTicketPool p hp).withGroups _ q hq

/-- The release engine changes. -/
theorem OnlyService.withEngine {s u : State} (h : OnlyService s u) (e : Engine) : OnlyService s { u with engine := e } :=
  h.trans (.ofRest rfl)

/-- A change of a controller that keeps its configuration and its line. -/
theorem OnlyService.ofStation (x : Nat) (f : Station → Station) (s : State) (hc : ∀ st, (f st).config = st.config)
    (hn : ∀ st, (f st).line = st.line) : OnlyService s (updStation x f s) := by
  have hline : ∀ l, lineOf (updStation x f s) l = lineOf s l := by
    intro l
    cases l
    · simp only [lineOf, station_updStation]; split <;> simp [hn]
    · rfl
  constructor
  case config => intro y; rw [station_updStation]; split <;> simp [hc]
  case length => simp
  case presence => intro l; rw [hline]
  case receiver => intro l; rw [hline]
  all_goals intros; rfl

/-- A table's live set changes. -/
theorem OnlyService.ofTable (u : Nat) (cs : List Nat) (s : State) :
    OnlyService s (setTableRecord u { tableRecord s u with liveCourses := cs } s) := by
  constructor
  case table => intro v; rw [tableRecord_setTableRecord]; split <;> simp_all
  all_goals intros; rfl

theorem pushNotice_service (n : Notice) (s : State) : OnlyService s (pushNotice n s) :=
  (pushNotice_stock n s).service

theorem returnStock_service (c q : Nat) (s : State) : OnlyService s (returnStock c q s) :=
  (returnStock_stock c q s).service

theorem sendRecord_service (l : LineId) (r : LineRecord) (s : State) : OnlyService s (sendRecord l r s) :=
  (sendRecord_only l r s).service

theorem updGroup_service (g : Nat) (f : Group → Group) (s : State) : OnlyService s (updGroup g f s) :=
  .ofRest rfl

theorem updTicket_service (t : Nat) (f : Ticket → Ticket) (s : State) : OnlyService s (updTicket t f s) :=
  .ofRest rfl

theorem updWave_service (w : Nat) (f : Wave → Wave) (s : State) : OnlyService s (updWave w f s) :=
  .ofRest rfl

theorem leaveCalendar_service (t : Nat) (s : State) : OnlyService s (leaveCalendar t s) :=
  .ofRest rfl

theorem joinCalendar_service (t : Nat) (s : State) : OnlyService s (joinCalendar t s) :=
  .ofRest rfl

theorem addLiveCourse_service (u p : Nat) (s : State) : OnlyService s (addLiveCourse u p s) :=
  .ofTable u _ s

theorem removeLiveCourse_service (u p : Nat) (s : State) : OnlyService s (removeLiveCourse u p s) :=
  .ofTable u _ s

theorem offer_service (t : Nat) (s : State) : OnlyService s (offer t s).1 :=
  (offer_places t s).service

theorem drain_service (x : Nat) (s : State) : OnlyService s (drain x s) :=
  (drain_places x s).service

/-! ## Re-timing, freeing and withdrawal (R74, R87, R100) -/

theorem refreshFireTime_service (x t : Nat) (s : State) : OnlyService s (refreshFireTime x t s) := by
  unfold refreshFireTime
  split
  · exact .ofRest rfl
  · exact .refl s

theorem retime_service (x : Nat) (s : State) : OnlyService s (retime x s).1 := by
  unfold retime
  dsimp only
  refine .trans ?_ (offerAll_places _ _).service
  refine .trans ?_ (.foldl _ (fun s t => leaveCalendar_service t s) _ _)
  exact .trans (.foldl _ (fun s t => refreshFireTime_service x t s) (calendaredAt s x) s) (.ofRest rfl)

theorem freeTicket_service (t : Nat) (s : State) : OnlyService s (freeTicket t s) := by
  unfold freeTicket
  split
  · exact .refl s
  · dsimp only
    exact (updGroup_service _ _ _).withTickets _ _ (Pool.release_total _)

theorem leaveStation_service (t : Nat) (tk : Ticket) (r : LineRecord) (s : State) : OnlyService s (leaveStation t tk r s).1 :=
  (leaveStation_places t tk r s).service

theorem undoTicket_service (t : Nat) (tk : Ticket) (s : State) : OnlyService s (undoTicket t tk s).1 := by
  unfold undoTicket
  split
  · exact .trans (leaveCalendar_service _ _) (returnStock_service _ _ _)
  · exact .trans (leaveBlocked_places _ _ _).service (returnStock_service _ _ _)
  · exact .trans (leaveStation_service _ _ _ _) (returnStock_service _ _ _)
  · exact leaveStation_service _ _ _ _
  all_goals exact .refl s

theorem drainAfter_service (at? : Option Nat) (s : State) : OnlyService s (drainAfter at? s) := by
  cases at?
  · exact .refl s
  · exact drain_service _ s

theorem withdrawFree_service (t : Nat) (s : State) : OnlyService s (withdrawFree t s) := by
  unfold withdrawFree
  split
  · exact .refl s
  · exact .trans (undoTicket_service _ _ _) (.trans (freeTicket_service _ _) (drainAfter_service _ _))

theorem withdrawKeep_service (t : Nat) (s : State) : OnlyService s (withdrawKeep t s) := by
  unfold withdrawKeep
  split
  · exact .refl s
  · split
    · exact .refl s
    · exact .refl s
    · exact .trans (undoTicket_service _ _ _) (.trans (updTicket_service _ _ _) (drainAfter_service _ _))

/-! ## Groups and remakes (R86, R148 to R157, R163) -/

theorem sendGroupUp_service (g : Nat) (s : State) : OnlyService s (sendGroupUp g s) := by
  unfold sendGroupUp
  split
  · exact sendRecord_service _ _ _
  · exact .refl s

theorem completionTest_service (g : Nat) (s : State) : OnlyService s (completionTest g s) := by
  unfold completionTest
  split
  · exact .refl s
  · split
    · exact .trans (updGroup_service _ _ _) (sendRecord_service _ _ _)
    · exact .refl s

theorem recomputeDie_service (g : Nat) (s : State) : OnlyService s (recomputeDie g s) :=
  updGroup_service _ _ _

theorem groupArrival_service (g t : Nat) (s : State) : OnlyService s (groupArrival g t s) := by
  unfold groupArrival
  split
  · exact .refl s
  · dsimp only
    refine .trans ?_ (completionTest_service _ _)
    refine .trans ?_ (recomputeDie_service _ _)
    refine .trans ?_ (sendRecord_service _ _ _)
    split
    · exact .trans (updGroup_service _ _ _) (sendGroupUp_service _ _)
    · exact .refl s

theorem createTicket_service (n : Nat) (tk : Ticket) (s : State) : OnlyService s (createTicket n tk s) := by
  constructor <;> intros <;> rfl

/-- The request for a copy, whole (R86). -/
theorem requestCopy_service (t : Nat) (tk : Ticket) (s : State) : OnlyService s (requestCopy t tk s).1 := by
  unfold requestCopy
  split
  · exact .refl s
  · have h := (copyDraw_stock tk.component tk.quantity s).service
    split
    · rename_i u e
      rw [e] at h
      exact h
    · rename_i u e
      rw [e] at h
      refine .trans ?_ (offer_service _ _)
      refine .trans ?_ (freeTicket_service _ _)
      refine .trans ?_ (updGroup_service _ _ _)
      exact (h.trans (createTicket_service _ _ _)).withTicketPool _ (Pool.liveFromFree_total _)

theorem escalate_service (g t : Nat) (tk : Ticket) (cause : EscalationCause) (source : RemakeSource) (s : State) :
    OnlyService s (escalate g t tk cause source s) :=
  .trans (updGroup_service _ _ _) (pushNotice_service _ _)

theorem automaticRemake_service (g t : Nat) (source : RemakeSource) (s : State) :
    OnlyService s (automaticRemake g t source s).1 := by
  unfold automaticRemake
  split
  · exact .refl s
  · rename_i tk _
    split
    · exact escalate_service _ _ _ _ _ _
    · have h := requestCopy_service t tk s
      split <;> rename_i e <;> rw [e] at h
      · exact h
      · exact h.trans (escalate_service _ _ _ _ _ _)
      · exact h.trans (escalate_service _ _ _ _ _ _)

theorem automaticRemakes_service (g : Nat) (source : RemakeSource) (ts : List Nat) (s : State) :
    OnlyService s (automaticRemakes g source ts s).1 := by
  unfold automaticRemakes
  generalize 0 = n
  induction ts generalizing s n with
  | nil => exact .refl s
  | cons t ts ih => exact .trans (automaticRemake_service g t source s) (ih _ _)

theorem makeDead_service (g t : Nat) (s : State) : OnlyService s (makeDead g t s) :=
  .trans (updTicket_service _ _ _) (sendRecord_service _ _ _)

/-- The die expiry, whole (R151). -/
theorem dieExpiry_service (g : Nat) (s : State) : OnlyService s (dieExpiry g s) := by
  unfold dieExpiry
  split
  · exact .refl s
  · dsimp only
    refine .trans ?_ (completionTest_service _ _)
    refine .trans ?_ (recomputeDie_service _ _)
    refine .trans ?_ (pushNotice_service _ _)
    refine .trans ?_ (sendGroupUp_service _ _)
    refine .trans ?_ (automaticRemakes_service _ _ _ _)
    exact .foldl _ (fun s t => makeDead_service g t s) _ _

theorem refireGroup_service (g : Nat) (s : State) : OnlyService s (refireGroup g s) := by
  unfold refireGroup
  split
  · exact .refl s
  · split
    · exact .refl s
    · exact .trans (sendGroupUp_service _ _) (.trans (recomputeDie_service _ _) (completionTest_service _ _))
    · dsimp only
      have h : ∀ u, OnlyService s u → OnlyService s (if dieDue u g then dieExpiry g u else u) := by
        intro u hu
        split
        · exact hu.trans (dieExpiry_service _ _)
        · exact hu
      apply h
      refine .trans ?_ (completionTest_service _ _)
      refine .trans ?_ (recomputeDie_service _ _)
      refine .trans ?_ (sendGroupUp_service _ _)
      refine .trans ?_ (sendRecord_service _ _ _)
      exact updGroup_service _ _ _

theorem freeGroup_service (g : Nat) (how : Ending) (s : State) : OnlyService s (freeGroup g how s) := by
  unfold freeGroup
  split
  · exact .refl s
  · dsimp only
    refine .trans ?_ (updWave_service _ _ _)
    have h : ∀ u, OnlyService s u → ∀ (c : Prop) [Decidable c],
        OnlyService s (if c then sendRecord .pass (.withdrawGroup g) u else u) := by
      intro u hu c _
      split
      · exact hu.trans (sendRecord_service _ _ _)
      · exact hu
    apply h
    refine .withGroups ?_ _ _ (Pool.release_total _)
    refine .trans ?_ (removeLiveCourse_service _ _ _)
    exact .foldl _ (fun s t => freeTicket_service t s) _ _

/-! ## Waves (R39, R45, R47, R55 to R59) -/

theorem endWave_service (w : Nat) (reason : DoneReason) (s : State) : OnlyService s (endWave w reason s) := by
  unfold endWave
  split
  · exact .refl s
  · refine .trans ?_ (pushNotice_service _ _)
    exact .ofRest rfl

theorem completeWave_service (w : Nat) (s : State) : OnlyService s (completeWave w s) := by
  unfold completeWave
  split
  · exact .refl s
  · split
    · exact endWave_service _ _ _
    · exact .refl s

theorem stagingLapse_service (w : Nat) (s : State) : OnlyService s (stagingLapse w s) := by
  unfold stagingLapse
  split
  · exact .refl s
  · split
    · refine .trans ?_ (pushNotice_service _ _)
      exact .ofRest rfl
    · exact .refl s

theorem createReleased_service (w g table goTime : Nat) (e : Nat × Nat) (s : State) :
    OnlyService s (createReleased w g table goTime e s) := by
  unfold createReleased
  dsimp only
  have h : ∀ u, OnlyService s u → ∀ (c : Prop) [Decidable c] (a b : State), OnlyService u a → OnlyService u b →
      OnlyService s (if c then a else b) := by
    intro u hu c _ a b ha hb
    split
    · exact hu.trans ha
    · exact hu.trans hb
  refine h _ ?_ _ _ _ (joinCalendar_service _ _) (.trans (updWave_service _ _ _) (offer_service _ _))
  refine .trans ?_ (updWave_service _ _ _)
  refine .trans ?_ (updGroup_service _ _ _)
  exact (createTicket_service _ _ _).withTicketPool _ (Pool.liveFromReserved_total _)

theorem visitTable_service (w i : Nat) (wv : Wave) (v : ServedTable) (s : State) : OnlyService s (visitTable w i wv v s) := by
  unfold visitTable
  dsimp only
  refine .trans ?_ (.foldl _ (fun s e => createReleased_service _ _ _ _ e s) _ _)
  refine .trans ?_ (addLiveCourse_service _ _ _)
  refine .trans ?_ (updWave_service _ _ _)
  exact (OnlyService.refl s).withGroups _ _ (Pool.liveFromReserved_total _)

theorem returnReservations_service (w : Nat) (s : State) : OnlyService s (returnReservations w s) := by
  unfold returnReservations
  split
  · exact .refl s
  · refine .trans ?_ (updWave_service _ _ _)
    exact (OnlyService.refl s).withPools _ _ (Pool.unreserve_total _ _) (Pool.unreserve_total _ _)

theorem endRelease_service (w : Nat) (s : State) : OnlyService s (endRelease w s) := by
  unfold endRelease
  dsimp only
  refine .trans ?_ (completeWave_service _ _)
  split
  · refine .trans ?_ (pushNotice_service _ _)
    exact (OnlyService.trans (returnReservations_service w s) (updWave_service w _ _)).withEngine _
  · exact (OnlyService.trans (returnReservations_service w s) (updWave_service w _ _)).withEngine _

/-- The release engine's visit, whole (R45, R47). -/
theorem releaseVisit_service (s : State) : OnlyService s (releaseVisit s) := by
  unfold releaseVisit
  split
  · split
    · exact .refl s
    · dsimp only
      split
      · exact endRelease_service _ _
      · rename_i w _ _ _ wv _ _ v _
        have h : OnlyService s { visitTable w s.engine.next wv v s with
            engine := { (visitTable w s.engine.next wv v s).engine with next := s.engine.next + 1 } } :=
          (visitTable_service _ _ _ _ _).withEngine _
        split
        · exact h.trans (endRelease_service _ _)
        · exact h
  · exact .refl s

theorem returnTable_service (v : ServedTable) (s : State) : OnlyService s (returnTable v s) :=
  .foldl _ (fun s (e : Nat × Nat) => returnStock_service e.1 e.2 s) _ _

theorem stopEngine_service (w : Nat) (s : State) : OnlyService s (stopEngine w s) := by
  unfold stopEngine
  split
  · refine .trans ?_ (returnReservations_service _ _)
    refine .trans ?_ (.foldl _ (fun s v => returnTable_service v s) _ _)
    exact .ofRest rfl
  · exact .refl s

theorem withdrawGroup_service (g : Nat) (s : State) : OnlyService s (withdrawGroup g s) :=
  .trans (.foldl _ (fun s t => withdrawFree_service t s) _ _) (freeGroup_service _ _ _)

/-- The cancellation of a wave, whole (R55 to R57). -/
theorem cancelWave_service (w : Nat) (s : State) : OnlyService s (cancelWave w s).1 := by
  unfold cancelWave
  refine .trans (stopEngine_service w s) ?_
  exact .trans (.foldl _ (fun s g => withdrawGroup_service g s) _ _) (endWave_service _ _ _)

/-! ## Expiries and load (R90, R132 to R135, R143, R161) -/

theorem fireExpiry_service (s : State) : OnlyService s (fireExpiry s) :=
  .foldl _ (fun s t => .trans (leaveCalendar_service t s) (offer_service t _)) _ _

theorem pickupExpiry_service (g : Nat) (s : State) : OnlyService s (pickupExpiry g s) := by
  unfold pickupExpiry
  split
  · exact .refl s
  · split
    · split
      · exact .trans (pushNotice_service _ _) (updGroup_service _ _ _)
      · exact .refl s
    · exact .refl s

/-- A change of load state, carried through (R135). -/
theorem changeLoad_service (x : Nat) (after : LoadState) (s : State) : OnlyService s (changeLoad x after s).1 := by
  unfold changeLoad
  dsimp only
  refine .trans ?_ (pushNotice_service _ _)
  refine .trans ?_ (sendRecord_service _ _ _)
  have h : ∀ u, OnlyService s u → ∀ (c : Prop) [Decidable c], OnlyService s (if c then drain x u else u) := by
    intro u hu c _
    split
    · exact hu.trans (drain_service _ _)
    · exact hu
  apply h
  split
  · refine .trans ?_ (retime_service _ _)
    exact .ofStation _ _ _ (fun _ => rfl) fun _ => rfl
  · exact .ofStation _ _ _ (fun _ => rfl) fun _ => rfl

theorem loadSample_service (x : Nat) (s : State) : OnlyService s (loadSample x s) := by
  unfold loadSample
  split
  · exact .refl s
  · split
    · dsimp only
      split
      · exact .ofStation _ _ _ (fun _ => rfl) fun _ => rfl
      · refine .trans ?_ (changeLoad_service _ _ _)
        exact .ofStation _ _ _ (fun _ => rfl) fun _ => rfl
    · exact .refl s

theorem endLoad_service (x : Nat) (s : State) : OnlyService s (endLoad x s) := by
  unfold endLoad
  dsimp only
  split
  · exact .ofStation _ _ _ (fun _ => rfl) fun _ => rfl
  · refine .trans ?_ (changeLoad_service _ _ _)
    exact .ofStation _ _ _ (fun _ => rfl) fun _ => rfl

end Sys2Proof.Machine
end

