-- ==== Sys2Proof/Laws/LoadChanges.lean ====
section
/-!
SUPPORT. What a change of load state and the end of the load monitor's work do, in the words of Safety.lean (R74, R97, R134 to R136, R143).
-/

namespace Sys2Proof.Machine

/-- Re-timing leaves every station's load record. -/
theorem retime_load (x y : Nat) (s : State) : (station (retime x s).1 y).load = (station s y).load := by
  unfold retime
  dsimp only
  rw [(offerAll_places _ _).load, leaveAll_spec, (refreshAll_spec x (calendaredAt s x) s).1]
  rfl

/-- A new load record leaves the places sound. -/
theorem Calendared.setLoad {s : State} (h : Calendared s) (x : Nat) (f : LoadRecord → LoadRecord) :
    Calendared (updStation x (fun st => { st with load := f st.load }) s) where
  lines := (linesSound_iff _).mpr fun l => by
    have := h.lines.line l
    cases l with
    | pass => exact this
    | station y =>
      have e : (station (updStation x (fun st => { st with load := f st.load }) s) y).line
          = (station s y).line := by
        rw [station_updStation]
        split <;> rfl
      change LineSound (station _ y).line
      rw [e]
      exact this
  blocked := h.blocked.of_eq
    (fun y => by
      rw [station_updStation]
      split <;> rfl)
    fun _ => rfl
  nodup := h.nodup
  live n hn := by
    obtain ⟨h1, tk, h2, h3⟩ := h.live n hn
    refine ⟨fun y => ?_, tk, h2, by simpa [updStation] using h3⟩
    rw [station_updStation]
    split
    · exact h1 _
    · exact h1 _

/-- A change of load state does what R135 says. -/
theorem changeLoad_changes (x : Nat) (after : LoadState) {s : State} {c : StationConfig} (h : Calendared s)
    (hc : (station s x).config = some c) :
    ChangesLoad x after s (changeLoad x after s).1 (changeLoad x after s).2.1 (changeLoad x after s).2.2 := by
  have len : x < s.stations.length := by
    by_contra hx
    simp [station, List.getD_eq_getElem?_getD, List.getElem?_eq_none (Nat.le_of_not_lt hx)] at hc
  have k := h.setLoad x fun ld => { ld with state := after }
  unfold changeLoad ChangesLoad
  dsimp only
  set before := (station s x).load.state with hb
  set changed := updStation x (fun st => { st with load := { st.load with state := after } }) s with hch
  have atX : station changed x = { station s x with load := { (station s x).load with state := after } } := by
    rw [hch, station_updStation, if_pos ⟨rfl, len⟩]
  generalize hr : (if stretchChanges before after = true then retime x changed else (changed, 0, 0)) = r
  have keeps : OnlyService changed r.1 ∧ (station r.1 x).load = (station changed x).load ∧ LinesSound r.1 ∧ BlockedSound r.1 := by
    rw [← hr]
    split
    · obtain ⟨-, r2, r3⟩ := retime_retimes x k
      exact ⟨retime_service x changed, retime_load x x changed, r2, r3⟩
    · exact ⟨.refl _, rfl, k.lines, k.blocked⟩
  obtain ⟨k1, k2, k3, k4⟩ := keeps
  generalize hv : (if before = .tripped then drain x r.1 else r.1) = v
  have kv : OnlyService r.1 v ∧ (station v x).load = (station r.1 x).load ∧ LineSound (station v x).line := by
    rw [← hv]
    split
    · exact ⟨drain_service x r.1, (drain_places x r.1).load x, (drain_spec x k3 k4).2.1.line (.station x)⟩
    · exact ⟨.refl _, rfl, k3.line (.station x)⟩
  obtain ⟨v1, v2, v3⟩ := kv
  have kc : (station v x).config = some c := by rw [v1.config, k1.config, atX]; exact hc
  have kl : (station v x).load = { (station s x).load with state := after } := by rw [v2, k2, atX]
  have kp : (station v x).line.presence = (station s x).line.presence := by
    have e := (v1.presence (.station x)).trans (k1.presence (.station x))
    refine e.trans ?_
    change (station changed x).line.presence = _
    rw [atX]
  refine ⟨c, r.1, v, hc, fun e => ?_, fun e => ?_, fun e => ?_, fun e => ?_, ?_⟩
  · have : stretchChanges before after = false := by simp [stretchChanges, e]
    rw [← hr, this]
    exact ⟨rfl, rfl, rfl⟩
  · have : stretchChanges before after = true := by
      unfold stretchChanges
      by_cases e1 : before = .normal <;> by_cases e2 : after = .normal <;> simp_all
    rw [← hr, this]
    exact (retime_retimes x k).1
  · rw [← hv, if_pos e]
    exact drain_drains x k3 k4
  · rw [← hv, if_neg e]
  · have e1 : stationRecord v x = .stationStatus after (if after = .normal then 64 else c.derateStretch)
        ((station v x).rushQueue.length + (station v x).ordinaryQueue.length) c.queueLimit := by
      unfold stationRecord stretchOf queueCount
      dsimp only
      rw [kc, kl]
      cases after <;> rfl
    have sent := sendRecord_only (.station x) (stationRecord v x) v
    have e2 : (station (sendRecord (.station x) (stationRecord v x) v) x).line.presence = (station s x).line.presence :=
      (sent.presence (.station x)).trans kp
    rw [e2, sent.load, kl, e1, sendRecord_eq _ (l := .station x) v3]

/-- A change of load state with nothing in the calendar re-times and fires nothing. -/
theorem ChangesLoad.nothing_retimed {x : Nat} {after : LoadState} {s t : State} {retimed fired : Nat}
    (h : ChangesLoad x after s t retimed fired) (he : s.calendar = []) : retimed = 0 ∧ fired = 0 := by
  obtain ⟨c, u, v, -, h1, h2, -⟩ := h
  by_cases e : (station s x).load.state = .normal ↔ after = .normal
  · exact (h1 e).2
  · obtain ⟨w, due, -, -, hd, -, -, -, -, hr, hf⟩ := h2 e
    have none : calendaredFor { s with stations := s.stations.modify x fun st => { st with load := { st.load with state := after } } } x
        = [] := by simp [calendaredFor, he]
    rw [none] at hr hd
    have : due = [] := List.eq_nil_iff_forall_not_mem.mpr fun n hn => by simpa using ((hd n).mp hn).1
    exact ⟨hr, by rw [hf, this]; rfl⟩

/-- The end of the load monitor's work at a station does what R143 says, with nothing in the calendar. -/
theorem endLoad_ends (x : Nat) {s : State} (h : Calendared s) (he : s.calendar = [])
    (hd : (station s x).load.state ≠ .normal → (station s x).config ≠ none) : EndsLoad x s (endLoad x s) := by
  have k := h.setLoad x fun ld => { ld with accumulator := 0, nextSample := none }
  have kept : (station (updStation x (fun st => { st with load := { st.load with accumulator := 0, nextSample := none } }) s) x).load.state
        = (station s x).load.state
      ∧ (station (updStation x (fun st => { st with load := { st.load with accumulator := 0, nextSample := none } }) s) x).config
        = (station s x).config := by
    rw [station_updStation]
    split <;> exact ⟨rfl, rfl⟩
  unfold endLoad EndsLoad
  dsimp only
  rw [kept.1]
  refine ⟨fun e => by rw [if_pos e]; rfl, fun e => ?_⟩
  rw [if_neg e]
  obtain ⟨c, hc⟩ := Option.ne_none_iff_exists'.mp (hd e)
  have changes := changeLoad_changes x .normal k (kept.2.trans hc)
  obtain ⟨h1, h2⟩ := changes.nothing_retimed he
  rw [h1, h2] at changes
  exact changes

end Sys2Proof.Machine
end

