-- ==== Sys2Proof/Laws/PerInstr.lean ====
section
/-!
SUPPORT. What holds of every command as syntax, said once for each: a host request names no unit of the part, so it is well formed; its
kind code is one of the 27 that R187 gives the host; and no other command has that code.
-/

namespace Sys2Proof.Laws.RequestCodes

/-- Command `i`, if it is a host request, is well formed and alone has its kind code, which lies in 1 to 27 (R187). -/
def Statement (i : Instr) : Prop :=
  ∀ k, Machine.requestCode i = some k → i.wellFormed = true ∧ 1 ≤ k.toNat ∧ k.toNat ≤ 27
    ∧ ∀ j, Machine.requestCode j = some k → j = i

theorem reset (stationLevels : List Bool) (passLevel : Bool) : Statement (.reset stationLevels passLevel) := by
  intro k h
  cases h

theorem clockTick : Statement (.clockTick) := by
  intro k h
  cases h

theorem hostFrameArrival (bytes : List Byte) : Statement (.hostFrameArrival bytes) := by
  intro k h
  cases h

theorem hostFrameEnd : Statement (.hostFrameEnd) := by
  intro k h
  cases h

theorem unknownKind : Statement (.unknownKind) := by
  intro k h
  cases h

theorem identify : Statement .identify := by
  intro k h
  cases h
  exact ⟨rfl, by decide, by decide, fun j hj => by cases j <;> first | rfl | cases hj⟩

theorem restart : Statement .restart := by
  intro k h
  cases h
  exact ⟨rfl, by decide, by decide, fun j hj => by cases j <;> first | rfl | cases hj⟩

theorem setClock : Statement .setClock := by
  intro k h
  cases h
  exact ⟨rfl, by decide, by decide, fun j hj => by cases j <;> first | rfl | cases hj⟩

theorem queryClock : Statement .queryClock := by
  intro k h
  cases h
  exact ⟨rfl, by decide, by decide, fun j hj => by cases j <;> first | rfl | cases hj⟩

theorem beginService : Statement .beginService := by
  intro k h
  cases h
  exact ⟨rfl, by decide, by decide, fun j hj => by cases j <;> first | rfl | cases hj⟩

theorem endService : Statement .endService := by
  intro k h
  cases h
  exact ⟨rfl, by decide, by decide, fun j hj => by cases j <;> first | rfl | cases hj⟩

theorem defineStation : Statement .defineStation := by
  intro k h
  cases h
  exact ⟨rfl, by decide, by decide, fun j hj => by cases j <;> first | rfl | cases hj⟩

theorem defineComponent : Statement .defineComponent := by
  intro k h
  cases h
  exact ⟨rfl, by decide, by decide, fun j hj => by cases j <;> first | rfl | cases hj⟩

theorem defineCourse : Statement .defineCourse := by
  intro k h
  cases h
  exact ⟨rfl, by decide, by decide, fun j hj => by cases j <;> first | rfl | cases hj⟩

theorem defineFloor : Statement .defineFloor := by
  intro k h
  cases h
  exact ⟨rfl, by decide, by decide, fun j hj => by cases j <;> first | rfl | cases hj⟩

theorem setTable : Statement .setTable := by
  intro k h
  cases h
  exact ⟨rfl, by decide, by decide, fun j hj => by cases j <;> first | rfl | cases hj⟩

theorem markTables : Statement .markTables := by
  intro k h
  cases h
  exact ⟨rfl, by decide, by decide, fun j hj => by cases j <;> first | rfl | cases hj⟩

theorem restock : Statement .restock := by
  intro k h
  cases h
  exact ⟨rfl, by decide, by decide, fun j hj => by cases j <;> first | rfl | cases hj⟩

theorem queryStation : Statement .queryStation := by
  intro k h
  cases h
  exact ⟨rfl, by decide, by decide, fun j hj => by cases j <;> first | rfl | cases hj⟩

theorem queryComponent : Statement .queryComponent := by
  intro k h
  cases h
  exact ⟨rfl, by decide, by decide, fun j hj => by cases j <;> first | rfl | cases hj⟩

theorem queryTable : Statement .queryTable := by
  intro k h
  cases h
  exact ⟨rfl, by decide, by decide, fun j hj => by cases j <;> first | rfl | cases hj⟩

theorem queryWave : Statement .queryWave := by
  intro k h
  cases h
  exact ⟨rfl, by decide, by decide, fun j hj => by cases j <;> first | rfl | cases hj⟩

theorem queryGroup : Statement .queryGroup := by
  intro k h
  cases h
  exact ⟨rfl, by decide, by decide, fun j hj => by cases j <;> first | rfl | cases hj⟩

theorem queryTicket : Statement .queryTicket := by
  intro k h
  cases h
  exact ⟨rfl, by decide, by decide, fun j hj => by cases j <;> first | rfl | cases hj⟩

theorem stageWave : Statement .stageWave := by
  intro k h
  cases h
  exact ⟨rfl, by decide, by decide, fun j hj => by cases j <;> first | rfl | cases hj⟩

theorem releaseWave : Statement .releaseWave := by
  intro k h
  cases h
  exact ⟨rfl, by decide, by decide, fun j hj => by cases j <;> first | rfl | cases hj⟩

theorem holdWave : Statement .holdWave := by
  intro k h
  cases h
  exact ⟨rfl, by decide, by decide, fun j hj => by cases j <;> first | rfl | cases hj⟩

theorem resumeWave : Statement .resumeWave := by
  intro k h
  cases h
  exact ⟨rfl, by decide, by decide, fun j hj => by cases j <;> first | rfl | cases hj⟩

theorem cancelWave : Statement .cancelWave := by
  intro k h
  cases h
  exact ⟨rfl, by decide, by decide, fun j hj => by cases j <;> first | rfl | cases hj⟩

theorem rearmStation : Statement .rearmStation := by
  intro k h
  cases h
  exact ⟨rfl, by decide, by decide, fun j hj => by cases j <;> first | rfl | cases hj⟩

theorem refire : Statement .refire := by
  intro k h
  cases h
  exact ⟨rfl, by decide, by decide, fun j hj => by cases j <;> first | rfl | cases hj⟩

theorem sendShort : Statement .sendShort := by
  intro k h
  cases h
  exact ⟨rfl, by decide, by decide, fun j hj => by cases j <;> first | rfl | cases hj⟩

theorem stagingLapse (wave : Nat) : Statement (.stagingLapse wave) := by
  intro k h
  cases h

theorem releaseVisit : Statement (.releaseVisit) := by
  intro k h
  cases h

theorem fireExpiry : Statement (.fireExpiry) := by
  intro k h
  cases h

theorem loadSample (station : Nat) : Statement (.loadSample station) := by
  intro k h
  cases h

theorem dieExpiry (group : Nat) : Statement (.dieExpiry group) := by
  intro k h
  cases h

theorem pickupExpiry (group : Nat) : Statement (.pickupExpiry group) := by
  intro k h
  cases h

theorem ready (station : Nat) (ticket : Number) : Statement (.ready station ticket) := by
  intro k h
  cases h

theorem spoil (station : Nat) (ticket : Number) : Statement (.spoil station ticket) := by
  intro k h
  cases h

theorem resync (station : Nat) : Statement (.resync station) := by
  intro k h
  cases h

theorem lineFrameDiscard (line : LineId) (bytes : List Byte) : Statement (.lineFrameDiscard line bytes) := by
  intro k h
  cases h

theorem picked (group : Number) : Statement (.picked group) := by
  intro k h
  cases h

theorem passRefire (group ticket : Number) : Statement (.passRefire group ticket) := by
  intro k h
  cases h

theorem passResync : Statement (.passResync) := by
  intro k h
  cases h

theorem presenceFall (station : Nat) : Statement (.presenceFall station) := by
  intro k h
  cases h

theorem presenceRise (station : Nat) : Statement (.presenceRise station) := by
  intro k h
  cases h

theorem passPresenceFall : Statement (.passPresenceFall) := by
  intro k h
  cases h

theorem passPresenceRise : Statement (.passPresenceRise) := by
  intro k h
  cases h

theorem lineFrameEnd (line : LineId) : Statement (.lineFrameEnd line) := by
  intro k h
  cases h

theorem refreshRunEnd (line : LineId) : Statement (.refreshRunEnd line) := by
  intro k h
  cases h

theorem refreshBegin (line : LineId) : Statement (.refreshBegin line) := by
  intro k h
  cases h

end Sys2Proof.Laws.RequestCodes
end

