-- ==== Sys2Proof/Laws/Requests.lean ====
section
/-!
SUPPORT. What a host request's step comes to, once: with its frame first it is the request's handler on the state without that frame, then
one reply; without, nothing (R172, R173).
-/

namespace Sys2Proof.Machine

/-- A request whose frame the decoder takes. -/
theorem takeRequest_of_takes {kind : Byte} {f : Frame} {rest : List Frame} {s : State}
    (handle : List Byte → State → State × Answer) (h : Takes f rest s) (hk : f.kind = kind) :
    takeRequest kind handle s
      = settle (pushReply ⟨f.tag, kind, (handle f.body (dequeued rest s)).2⟩ (handle f.body (dequeued rest s)).1) := by
  obtain ⟨hd, hr, hi⟩ := h
  simp only [takeRequest, decoderFrame, hd, hr, hi, if_true, List.head?_cons, hk, takeFrame, List.tail_cons, dequeued]

/-- A refusing handler leaves nothing but the refusal. -/
theorem takeRequest_refused {kind : Byte} {f : Frame} {rest : List Frame} {s : State} {r : Reason}
    {handle : List Byte → State → State × Answer} (h : Takes f rest s) (hk : f.kind = kind)
    (hh : handle f.body (dequeued rest s) = refuse r (dequeued rest s)) :
    takeRequest kind handle s = refusedWith f rest r s := by
  subst hk
  rw [takeRequest_of_takes handle h rfl, hh]
  rfl

/-- A request that is not the decoder's next one. -/
theorem takeRequest_idle {kind : Byte} {s : State} (handle : List Byte → State → State × Answer)
    (h : s.link.decoder = .stopped ∨ Config.replyQueue ≤ s.link.replies.length
      ∨ s.link.input.head?.map Frame.kind ≠ some kind) : takeRequest kind handle s = s := by
  unfold takeRequest decoderFrame
  rcases h with h | h | h
  · simp [h]
  · cases hd : s.link.decoder <;> simp [Nat.not_lt.mpr h]
  · cases hd : s.link.decoder
    · cases hi : s.link.input with
      | nil => simp
      | cons f rest =>
        rw [hi] at h
        have hk : f.kind ≠ kind := fun e => h (by simp [e])
        by_cases hl : s.link.replies.length < Config.replyQueue <;> simp [hl, hk]
    · simp

/-- The end of an event at a busy host transmitter. -/
theorem settle_of_busy {s : State} (h : s.link.tx ≠ .idle) : settle s = s := by
  unfold settle
  split <;> simp_all

/-- The end of an event with nothing to send. -/
theorem settle_of_quiet {s : State} (hr : s.link.replies = []) (hn : s.link.notices = []) : settle s = s := by
  unfold settle
  split
  · rename_i h
    unfold chooseHostFrame
    rw [hr, hn]
    cases s with
    | mk _ _ link =>
      cases link
      simp_all
  · rfl
  · rfl

end Sys2Proof.Machine
end

