-- ==== Sys2Proof/Laws/Visits.lean ====
section
/-!
SUPPORT. What a release visit and the end of a release do, and when a region fits and where it is cut, in the words of Safety.lean.
-/

namespace Sys2Proof.Machine

/-! ## Regions (R24, R25) -/

theorem regionValid_iff (fl : Floor) (r : Region) : regionValid fl r = true ↔ RegionFits fl r := by
  unfold regionValid RegionFits floorSize
  cases r.placement <;> simp [and_assoc]

theorem clippedSize_eq (fl : Floor) (r : Region) : clippedSize fl r = cutSize fl r := by
  unfold clippedSize cutSize
  cases r.placement with
  | rect row column width height => simp only [clipPlacement, placementSize, Placement.rect.injEq]; grind
  | linear start count => simp only [clipPlacement, placementSize, floorSize, Placement.linear.injEq]; grind

/-! ## Tickets of a visit (R45, R71, R85, R89) -/

/-- What the creations of a visit's tickets ask of the state, with `k` of them still to come. -/
structure VisitReady (k : Nat) (s : State) : Prop where
  lines : LinesSound s
  blocked : BlockedSound s
  calendar : ∀ m ∈ s.calendar, (ticket? s m).isSome = true
  homes : ∀ c, componentStation s c < s.stations.length
  reserved : k ≤ s.ticketPool.reserved

/-- Each ticket of a visit is created and placed as R45 says, and leaves the state ready for the next. -/
theorem createReleased_creates {w g table go k : Nat} (e : Nat × Nat) {s : State} (h : VisitReady (k + 1) s) :
    CreatesTicket w g table go e s (createReleased w g table go e s) ∧ VisitReady k (createReleased w g table go e s) := by
  obtain ⟨hl, hb, hc, hx, hp⟩ := h
  obtain ⟨absent, below⟩ := s.tickets.firstAbsent_spec
  have fresh : releasedTicket s w g table go e = visitTicket s w g table go e := rfl
  unfold createReleased
  rw [fresh]
  generalize hn : s.tickets.firstAbsent = n at absent below
  generalize htk : visitTicket s w g table go e = tk
  have home : tk.homeStation = componentStation s e.1 := by rw [← htk]; rfl
  have pool : s.ticketPool.liveFromReserved = ⟨s.ticketPool.free, s.ticketPool.reserved - 1, s.ticketPool.live + 1⟩ := by
    unfold Pool.liveFromReserved
    rw [Nat.min_eq_left (by omega)]
  dsimp only
  rw [show (createTicket n tk s).ticketPool = s.ticketPool from rfl, pool]
  generalize hv : updWave w _ _ = v
  have vt : ∀ l, ticket? v l = if l = n then some tk else ticket? s l := by
    intro l
    rw [← hv]
    change (s.tickets.set n tk).get? l = if l = n then some tk else s.tickets.get? l
    split
    · subst_vars; exact Store.get?_set_self ..
    · exact Store.get?_set_of_ne _ _ ‹_›
  have vg : ∀ l, group? v l
      = (group? s l).map fun gr => if l = g then { gr with tickets := gr.tickets ++ [n] } else gr := by
    intro l
    rw [← hv]
    change (s.groups.update g _).get? l = (s.groups.get? l).map _
    rw [Store.get?_update]
    by_cases hlg : l = g <;> simp [hlg]
  have vw : ∀ l, wave? v l = (wave? s l).map fun wv => if l = w then
      { wv with
        reservedTickets := wv.reservedTickets - 1, release := { wv.release with tickets := wv.release.tickets + 1 } }
      else wv := by
    intro l
    rw [← hv]
    change (s.waves.update w _).get? l = (s.waves.get? l).map _
    rw [Store.get?_update]
    by_cases hlw : l = w <;> simp [hlw]
  have vs : v = { s with
      link := { s.link with seq := nextSeq s.link.seq }
      tickets := v.tickets
      ticketPool := ⟨s.ticketPool.free, s.ticketPool.reserved - 1, s.ticketPool.live + 1⟩
      groups := v.groups
      waves := v.waves } := by rw [← hv]; rfl
  clear hv
  have live : ∀ m tk', ticket? s m = some tk' → m ≠ n ∧ ticket? v m = some tk' := by
    intro m tk' hm
    have mn : m ≠ n := by rintro rfl; rw [ticket?, absent] at hm; cases hm
    exact ⟨mn, by rw [vt, if_neg mn, hm]⟩
  have vb : BlockedSound v := by
    intro x
    rw [show station v x = station s x by rw [vs]; rfl]
    refine ⟨(hb x).1, fun m hm => ?_⟩
    obtain ⟨tk', h1, h2⟩ := (hb x).2 m hm
    exact ⟨tk', (live m tk' h1).2, h2⟩
  have vl : LinesSound v := by rw [vs]; exact hl
  have clock : v.clock = s.clock := by rw [vs]
  rw [clock]
  by_cases due : tk.fireTime ≤ (s.clock : Int)
  · rw [if_neg (by omega)]
    generalize hu : updWave w (fun wv =>
      { wv with release :=
        { wv.release with
          fired := wv.release.fired + 1, maxLateness := max wv.release.maxLateness (behind s.clock tk.fireTime) } }) v = u
    have ut : ∀ l, ticket? u l = ticket? v l := fun l => by rw [← hu]; rfl
    have us : ∀ x, station u x = station v x := fun x => by rw [← hu]; rfl
    have ustat : u.stations = s.stations := by rw [← hu, updWave_stations, vs]
    have ub : BlockedSound u := vb.of_eq (fun x => by rw [us]) (fun l => by rw [ut])
    have ul : LinesSound u := by rw [← hu]; exact vl
    have un : ticket? u n = some tk := by rw [ut, vt, if_pos rfl]
    have out : ∀ x, n ∉ (station u x).blocked := by
      intro x hm
      rw [us, show station v x = station s x by rw [vs]; rfl] at hm
      obtain ⟨tk', h1, -⟩ := (hb x).2 n hm
      exact (live n tk' h1).1 rfl
    obtain ⟨offers, -, -⟩ := offer_offers ul un (by rw [home, ustat]; exact hx _) fun m hm => by
      obtain ⟨tk', h1, -⟩ := (ub _).2 m hm
      exact ⟨by rintro rfl; exact out _ hm, by rw [h1]; rfl⟩
    refine ⟨⟨n, u, ?_⟩, ?_⟩
    · rw [htk]
      refine ⟨absent, below, ?_, fun l => by rw [ut, vt], fun l => ?_, fun l => ?_, by rw [if_pos due]; exact offers⟩
      · rw [← hu, updWave, vs]
        rfl
      · rw [← hu, updWave_group_get, vg]
      · rw [← hu, wave?, updWave_waves, Store.get?_update, ← wave?, vw]
        by_cases hlw : l = w
        · simp only [hlw, due, if_true, Option.map_map]
          rfl
        · simp [hlw]
    · obtain ⟨tl, tb, len, oth, -⟩ := offers.keeps ul ub out
      have rest : (offer n u).1 = { u with tickets := (offer n u).1.tickets, stations := (offer n u).1.stations } := by
        obtain ⟨tk', -, ⟨x, -, ⟨he, -⟩, -⟩ | ⟨-, tk'', _, _, -, ⟨he, -⟩, -⟩⟩ := offers <;> exact he
      refine ⟨tl, tb, fun m hm => ?_, fun c => ?_, ?_⟩
      · rw [rest, ← hu] at hm
        have hm : m ∈ s.calendar := by rw [vs] at hm; exact hm
        obtain ⟨tk', h1⟩ := Option.isSome_iff_exists.mp (hc m hm)
        obtain ⟨mn, h2⟩ := live m tk' h1
        rw [oth m mn, ut, h2]
        rfl
      · rw [len, ustat]
        have : componentStation (offer n u).1 c = componentStation s c := by rw [rest, ← hu, vs]; rfl
        rw [this]
        exact hx c
      · rw [rest, ← hu, updWave, vs]
        dsimp only
        omega
  · rw [if_pos (by omega)]
    unfold joinCalendar
    dsimp only
    generalize hj : updTicket n (fun tk => { tk with state := .calendared }) v = j
    have jt : ∀ l, ticket? j l = if l = n then some { tk with state := .calendared } else ticket? v l := by
      intro l
      rw [← hj, ticket?, updTicket_tickets, Store.get?_update]
      split
      · subst_vars; rw [← ticket?, vt, if_pos rfl]; rfl
      · rfl
    have jr : j = { v with tickets := j.tickets } := by rw [← hj]; rfl
    have cal : j.calendar = s.calendar := by rw [jr, vs]
    rw [cal]
    obtain ⟨ahead, behind, split, place, after, before⟩ := insertBefore_split (calendarBefore j) n s.calendar
    rw [place]
    have keys : ∀ m ∈ s.calendar, calendarBefore j n m = true
        ↔ FiresAhead { j with calendar := ahead ++ n :: behind } n m := by
      intro m hm
      obtain ⟨tk', h1⟩ := Option.isSome_iff_exists.mp (hc m hm)
      obtain ⟨mn, h2⟩ := live m tk' h1
      exact calendarBefore_iff (by rw [jt, if_pos rfl]) (by rw [jt, if_neg mn, h2])
    refine ⟨⟨n, v, ?_⟩, ?_⟩
    · rw [htk]
      refine ⟨absent, below, vs, vt, vg, fun l => ?_, ?_⟩
      · rw [vw]
        congr 1
        funext wv
        split
        · simp only [Int.toNat_of_nonpos (show (s.clock : Int) - tk.fireTime ≤ 0 by omega), Nat.min_zero, Nat.max_zero]
        · rfl
      · rw [if_neg due]
        refine ⟨ahead, behind, split, ?_, jt, fun m hm k => ?_, fun m hm => ?_⟩
        · rw [jr]
        · rw [← keys m (split ▸ List.mem_append_left _ hm), after m hm] at k
          cases k
        · refine (keys m (split ▸ List.mem_append_right _ ?_)).mp (before m hm)
          exact List.mem_of_mem_head? hm
    · have js : j.stations = s.stations := by rw [jr, vs]
      have homes : ∀ l, (ticket? j l).map Ticket.homeStation = (ticket? v l).map Ticket.homeStation := by
        intro l
        rw [jt]
        split
        · subst_vars; rw [vt, if_pos rfl]; rfl
        · rfl
      refine ⟨?_, ?_, fun m hm => ?_, fun c => ?_, ?_⟩
      · rw [jr]; exact vl
      · exact vb.of_eq (t := { j with calendar := ahead ++ n :: behind }) (fun x => by rw [jr]; rfl) homes
      · change (ticket? j m).isSome = true
        rw [jt]
        by_cases mn : m = n
        · rw [if_pos mn]
          rfl
        · rw [if_neg mn]
          have hm : m ∈ s.calendar := by
            rw [split]
            rcases List.mem_append.mp (show m ∈ ahead ++ n :: behind from hm) with h | h
            · exact List.mem_append_left _ h
            · exact List.mem_append_right _ ((List.mem_cons.mp h).resolve_left mn)
          obtain ⟨tk', h1⟩ := Option.isSome_iff_exists.mp (hc m hm)
          rw [(live m tk' h1).2]
          rfl
      · change componentStation j c < j.stations.length
        rw [js, show componentStation j c = componentStation s c by rw [jr, vs]; rfl]
        exact hx c
      · change k ≤ j.ticketPool.reserved
        rw [jr, vs]
        dsimp only
        omega

/-- The tickets of a visit are created one after another. -/
theorem createAll_creates {w g table go : Nat} (es : List (Nat × Nat)) {s : State} (h : VisitReady es.length s) :
    CreatesTickets w g table go es s (es.foldl (fun s e => createReleased w g table go e s) s) := by
  induction es generalizing s with
  | nil => rfl
  | cons e es ih =>
    obtain ⟨creates, ready⟩ := createReleased_creates (w := w) (g := g) (table := table) (go := go) e h
    exact ⟨_, creates, ih ready⟩

/-! ## The end of a release (R47) -/

/-- The end of a release whose reservations are among those of the pools, of a wave that is not complete (R47). -/
theorem endRelease_ends {w : Nat} {wv : Wave} {s : State} (h : wave? s w = some wv)
    (ht : wv.reservedTickets ≤ s.ticketPool.reserved) (hg : wv.reservedGroups ≤ s.groupPool.reserved)
    (hd : wv.ending.served + wv.ending.short + wv.ending.cancelled < wv.release.groups) :
    EndsRelease w s (endRelease w s) := by
  have waves : ∀ v, (((s.waves.update w fun wv => { wv with reservedTickets := 0, reservedGroups := 0 }).update w
      fun wv => { wv with state := .active }).get? v)
        = if v = w then some { wv with state := .active, reservedTickets := 0, reservedGroups := 0 } else wave? s v := by
    intro v
    rw [Store.get?_update, Store.get?_update, ← wave?]
    split
    · subst_vars; rw [h]; rfl
    · rfl
  refine ⟨wv, h, ?_⟩
  unfold endRelease returnReservations
  rw [h]
  dsimp only
  simp only [updWave, wave?, waves, if_true, Pool.unreserve, Nat.min_eq_left ht, Nat.min_eq_left hg]
  unfold completeWave
  simp only [wave?, pushNotice_waves, waves, if_true]
  rw [if_neg (by simp only [liveGroupCount]; omega)]
  refine ⟨?_, fun v => by rw [pushNotice_waves]; exact waves v⟩
  unfold pushNotice
  split <;> rfl

end Sys2Proof.Machine
end

