-- ==== Sys2Proof/Laws/Withdrawals.lean ====
section
/-!
SUPPORT. What leaving a station, a return of stock and a withdrawal do, in the words of Safety.lean (R14, R87, R100, R110, R111).
-/

namespace Sys2Proof.Machine

/-! ## Places that every ticket of a blocked list has (R81, R96) -/

/-- The places and records of an invariant state meet what the laws of offers and drains ask. -/
theorem Coherent.blockedSound {s : State} (h : Coherent s) (p : Placed s) : BlockedSound s := by
  obtain ⟨h1, -, -, -, h5, -⟩ := h
  obtain ⟨-, p2, -⟩ := p
  intro x
  by_cases hx : x < 24
  · have hx' : x ∈ List.range Config.stations := List.mem_range.mpr hx
    refine ⟨(p2 x hx').1, fun n hn => ?_⟩
    have := (h5 x hx').1 n hn
    cases hk : ticket? s n with
    | none => simp [hk] at this
    | some tk => exact ⟨tk, rfl, by simp [hk] at this; exact this.2⟩
  · have : station s x = {} := by
      have h1 : s.stations.length = 24 := h1
      simp [station, List.getD_eq_getElem?_getD, List.getElem?_eq_none (show s.stations.length ≤ x by omega)]
    rw [this]
    simp

theorem Coherent.calendared {s : State} (h : Coherent s) (p : Placed s) (l : LinesSound s) : Calendared s := by
  have hb := h.blockedSound p
  obtain ⟨h1, h2, -, h4, h5, -⟩ := h
  obtain ⟨p1, -, -⟩ := p
  refine ⟨l, hb, h4.1, fun n hn => ?_⟩
  have hs := h4.2 n hn
  cases hk : ticket? s n with
  | none => simp [InState, hk] at hs
  | some tk =>
    simp only [InState, hk, Option.map_some, Option.some.injEq] at hs
    refine ⟨fun x hx => ?_, tk, rfl, ?_⟩
    · by_cases hlt : x < 24
      · have := (h5 x (List.mem_range.mpr hlt)).1 n hx
        rw [hk] at this
        simp [hs] at this
      · have : station s x = {} := by
          have h1 : s.stations.length = 24 := h1
          simp [station, List.getD_eq_getElem?_getD, List.getElem?_eq_none (show s.stations.length ≤ x by omega)]
        rw [this] at hx
        simp at hx
    · have := (p1 (n, tk) (Store.mem_of_get? hk)).2
      have h1 : s.stations.length = 24 := h1
      have : tk.homeStation < 24 := this
      omega

/-! ## Stock (R14) -/

/-- A return (R14). -/
theorem returnStock_returns (c q : Nat) (s : State) : Returns c q s (returnStock c q s) := by
  have id : ∀ r : Component, r.stock = none → ({ r with stock := r.stock.map fun n => min 9999 (n + q) } : Component) = r := by
    rintro ⟨a, b, e, k, l⟩ h
    cases h
    rfl
  unfold returnStock
  cases hs : stockOf s c with
  | none =>
    refine ⟨rfl, fun d => ?_⟩
    dsimp only
    by_cases hd : d = c
    · subst hd
      unfold stockOf at hs
      cases hr : s.components.get? d with
      | none => rfl
      | some r =>
        rw [hr] at hs
        simp only [Option.map_some, if_true]
        rw [id r (by simpa using hs)]
    · cases s.components.get? d <;> simp [hd]
  | some n =>
    refine ⟨rfl, fun d => ?_⟩
    simp only [setStock, Store.get?_update]
    by_cases hd : d = c
    · subst hd
      unfold stockOf at hs
      cases hr : s.components.get? d with
      | none => simp
      | some r =>
        rw [hr] at hs
        have hs : r.stock = some n := by simpa using hs
        simp [hs, Config.stockMax]
    · cases s.components.get? d <;> simp [hd]

/-! ## Leaving a station (R110, R111) -/

theorem updStation_updStation (x : Nat) (f g : Station → Station) (s : State) :
    updStation x g (updStation x f s) = updStation x (fun st => g (f st)) s := by
  simp [updStation, List.modify_modify_eq, Function.comp_def]

/-- A record sent to a station whose line is sound, within a change of that station. -/
theorem sendRecord_station {x : Nat} {s : State} (r : LineRecord) (h : LineSound (station s x).line) :
    sendRecord (.station x) r s = updStation x (fun st => { st with line := produced r st.line }) s :=
  sendRecord_eq (l := .station x) r h

/-- A change of a station's places leaves its line as it is. -/
theorem line_updStation {x : Nat} {f : Station → Station} (s : State) (hf : ∀ st, (f st).line = st.line) :
    (station (updStation x f s) x).line = (station s x).line := by
  rw [station_updStation]
  split
  · exact hf _
  · rfl

theorem line_updStation_any {x y : Nat} {f : Station → Station} (s : State) (hf : ∀ st, (f st).line = st.line) :
    (station (updStation x f s) y).line = (station s y).line := by
  rw [station_updStation]
  split
  · exact hf _
  · rfl

theorem sound_updStation {x : Nat} {f : Station → Station} {s : State} (h : LineSound (station s x).line)
    (hf : ∀ st, (f st).line = st.line) : LineSound (station (updStation x f s) x).line := by
  rw [line_updStation s hf]
  exact h

/-- A record sent to a station after a change of its places. -/
theorem sendRecord_after {x : Nat} {f : Station → Station} {s : State} (r : LineRecord) (h : LineSound (station s x).line)
    (hf : ∀ st, (f st).line = st.line) :
    sendRecord (.station x) r (updStation x f s) = updStation x (fun st => { f st with line := produced r st.line }) s := by
  rw [sendRecord_station _ (sound_updStation h hf), updStation_updStation]
  exact updStation_congr (by rw [hf])

/-- A ticket at a station whose line is sound leaves its place. -/
theorem leaveStation_leaves {n : Nat} {tk : Ticket} {r : LineRecord} {s : State} (hl : LineSound (station s tk.station).line)
    (hs : tk.state = .queued ∨ tk.state = .onLine) :
    LeavesPlace r n tk s (leaveStation n tk r s).1 ∧ ((leaveStation n tk r s).2 = true ↔ Departs tk s) := by
  unfold leaveStation LeavesPlace Departs
  rcases hs with hs | hs
  · rw [hs]
    dsimp only
    rw [sendRecord_after _ hl]
    · exact ⟨updStation_congr rfl, by simp⟩
    · intro; rfl
  · rw [hs]
    cases hp : tk.position with
    | none => simp
    | some i =>
      dsimp only
      rw [sendRecord_after _ hl]
      swap
      · intro; rfl
      have after : ∀ f : Station → Station, wholeQueue (f (station s tk.station)) = wholeQueue (station s tk.station) →
          wholeQueue (station (updStation tk.station f s) tk.station) = wholeQueue (station s tk.station) := by
        intro f hf
        rw [station_updStation]
        split
        · exact hf
        · rfl
      have hw : (station s tk.station).rushQueue ++ (station s tk.station).ordinaryQueue = wholeQueue (station s tk.station) := rfl
      unfold moveHead
      rw [after _ rfl, hw]
      cases hq : wholeQueue (station s tk.station) with
      | nil => exact ⟨updStation_congr rfl, by simp⟩
      | cons m ms =>
        dsimp only
        rw [updStation_updStation, sendRecord_station]
        swap
        · change LineSound (station (updStation _ _ s) _).line
          rw [station_updStation]
          split
          · exact produced_sound hl
          · exact hl
        refine ⟨⟨rfl, ?_, fun k => ?_⟩, by simp⟩
        · change (updStation _ _ (updStation _ _ s)).stations = (updStation _ _ s).stations
          rw [updStation_updStation]
          refine congrArg State.stations (updStation_congr ?_)
          simp [removeNumber]
        · change ticket? (updTicket _ _ _) k = _
          rw [ticket_get_updTicket]
          change (if k = m then Option.map _ (ticket? s k) else ticket? s k) = _
          cases ticket? s k <;> by_cases hk : k = m <;> simp [hk]

/-- Leaving a station keeps lines and blocked lists sound, and every other record as it was but for the ticket that moved up. -/
theorem leaveStation_keeps (n : Nat) (tk : Ticket) (r : LineRecord) {s : State} (hl : LinesSound s) :
    LinesSound (leaveStation n tk r s).1
      ∧ (∀ x, (station (leaveStation n tk r s).1 x).blocked = (station s x).blocked)
      ∧ ∀ m, (ticket? (leaveStation n tk r s).1 m).map (fun tk => (tk.homeStation, tk.group))
        = (ticket? s m).map fun tk => (tk.homeStation, tk.group) := by
  have lines : ∀ {s : State} (x : Nat) (f : Station → Station), LinesSound s → (∀ st, LineSound st.line → LineSound (f st).line) →
      LinesSound (updStation x f s) := by
    intro s x f h hf
    rw [linesSound_iff] at h ⊢
    rintro (y | _)
    · simp only [lineOf]
      rw [station_updStation]
      split
      · exact hf _ (h (.station y))
      · exact h (.station y)
    · exact h .pass
  have blocked : ∀ {s : State} (x y : Nat) (f : Station → Station), (∀ st, (f st).blocked = st.blocked) →
      (station (updStation x f s) y).blocked = (station s y).blocked := by
    intro s x y f hf
    rw [station_updStation]
    split
    · exact hf _
    · rfl
  have send : ∀ {s : State} (x : Nat) (r : LineRecord), LinesSound s →
      sendRecord (.station x) r s = updStation x (fun st => { st with line := produced r st.line }) s :=
    fun x r h => sendRecord_station r (h.line (.station x))
  unfold leaveStation
  dsimp only
  split
  · have h1 := lines tk.station (fun st =>
      { st with rushQueue := removeNumber n st.rushQueue, ordinaryQueue := removeNumber n st.ordinaryQueue }) hl fun _ h => h
    rw [send _ _ h1]
    refine ⟨lines _ _ h1 fun _ h => produced_sound h, fun x => ?_, fun m => rfl⟩
    exact Eq.trans (blocked _ _ _ (by intro; rfl)) (blocked _ _ _ (by intro; rfl))
  · rename_i i _ _
    have h1 := lines tk.station (fun st => { st with positions := st.positions.set i none }) hl fun _ h => h
    have h2 := lines tk.station (fun st => { st with line := produced r st.line }) h1 fun _ h => produced_sound h
    rw [send _ _ h1]
    unfold moveHead
    split
    · refine ⟨h2, fun x => ?_, fun m => rfl⟩
      exact Eq.trans (blocked _ _ _ (by intro; rfl)) (blocked _ _ _ (by intro; rfl))
    · rename_i h ms _
      dsimp only
      have h3 := lines tk.station (fun st =>
        { st with
          rushQueue := removeNumber h st.rushQueue
          ordinaryQueue := removeNumber h st.ordinaryQueue
          positions := st.positions.set i (some h) }) h2 fun _ h => h
      have h4 : LinesSound (updTicket h (fun tk => { tk with state := .onLine, position := some i })
          (updStation tk.station (fun st =>
            { st with
              rushQueue := removeNumber h st.rushQueue
              ordinaryQueue := removeNumber h st.ordinaryQueue
              positions := st.positions.set i (some h) })
            (updStation tk.station (fun st => { st with line := produced r st.line })
              (updStation tk.station (fun st => { st with positions := st.positions.set i none }) s)))) := h3
      rw [send _ _ h4]
      refine ⟨lines _ _ h4 fun _ h => produced_sound h, fun x => ?_, fun m => ?_⟩
      · refine Eq.trans (blocked _ _ _ (by intro; rfl)) ?_
        change (station (updStation _ _ (updStation _ _ (updStation _ _ s))) x).blocked = _
        exact Eq.trans (blocked _ _ _ (by intro; rfl)) (Eq.trans (blocked _ _ _ (by intro; rfl)) (blocked _ _ _ (by intro; rfl)))
      · change (ticket? (updTicket _ _ _) m).map _ = _
        rw [ticket_get_updTicket]
        change Option.map _ (if m = h then Option.map _ (ticket? s m) else ticket? s m) = _
        cases ticket? s m <;> by_cases hk : m = h <;> simp [hk]
  · exact ⟨hl, fun _ => rfl, fun _ => rfl⟩

/-! ## Withdrawal (R87, R100) -/

/-- What the undoing of a withdrawal does: the ticket leaves its place, and its stock returns unless a station has begun it; the answer names
the station to drain for. -/
theorem undoTicket_undoes {n : Nat} {tk : Ticket} {s : State} (hl : LinesSound s) :
    (∃ u, LeavesPlace (.pullTicket n) n tk s u
        ∧ (tk.state = .calendared ∨ tk.state = .blocked ∨ tk.state = .queued →
            Returns tk.component tk.quantity u (undoTicket n tk s).1)
        ∧ (tk.state ≠ .calendared ∧ tk.state ≠ .blocked ∧ tk.state ≠ .queued → (undoTicket n tk s).1 = u))
      ∧ (undoTicket n tk s).2 = (if Departs tk s then some tk.station else none)
      ∧ LinesSound (undoTicket n tk s).1
      ∧ (∀ x, ((station (undoTicket n tk s).1 x).blocked).Sublist (station s x).blocked
          ∧ (tk.state = .blocked → x = tk.homeStation → x < s.stations.length → n ∉ (station (undoTicket n tk s).1 x).blocked))
      ∧ (∀ m, (ticket? (undoTicket n tk s).1 m).map (fun tk => (tk.homeStation, tk.group))
        = (ticket? s m).map fun tk => (tk.homeStation, tk.group))
      ∧ (undoTicket n tk s).1.ticketPool = s.ticketPool := by
  have ret : ∀ c q (v : State), LinesSound v → LinesSound (returnStock c q v) := by
    intro c q v h
    have := (returnStock_returns c q v).1
    rw [this]
    exact h
  have retStation : ∀ c q (v : State) x, station (returnStock c q v) x = station v x := by
    intro c q v x
    rw [(returnStock_returns c q v).1]
    rfl
  have retTicket : ∀ c q (v : State) m, ticket? (returnStock c q v) m = ticket? v m := by
    intro c q v m
    rw [(returnStock_returns c q v).1]
    rfl
  have retPool : ∀ c q (v : State), (returnStock c q v).ticketPool = v.ticketPool := by
    intro c q v
    rw [(returnStock_returns c q v).1]
  have pool : (leaveStation n tk (.pullTicket n) s).1.ticketPool = s.ticketPool := (leaveStation_places n tk _ s).ticketPool
  obtain ⟨k1, k2, k3⟩ := leaveStation_keeps n tk (.pullTicket n) hl
  obtain ⟨st, hs⟩ : ∃ st, tk.state = st := ⟨_, rfl⟩
  cases st
  case calendared =>
    rw [show undoTicket n tk s = (returnStock tk.component tk.quantity (leaveCalendar n s), none) by unfold undoTicket; rw [hs]]
    refine ⟨⟨leaveCalendar n s, ?_, fun _ => returnStock_returns _ _ _, by simp [hs]⟩, by simp [hs, Departs], ret _ _ _ hl,
      fun x => ?_, fun m => ?_, retPool _ _ _⟩
    · unfold LeavesPlace; rw [hs]; rfl
    · rw [retStation]; exact ⟨List.Sublist.refl _, by simp [hs]⟩
    · rw [retTicket]; rfl
  case blocked =>
    rw [show undoTicket n tk s = (returnStock tk.component tk.quantity (leaveBlocked tk.homeStation n s), none) by
      unfold undoTicket; rw [hs]]
    have e : ∀ x, (station (leaveBlocked tk.homeStation n s) x).blocked
        = if x = tk.homeStation ∧ tk.homeStation < s.stations.length then removeNumber n (station s x).blocked
          else (station s x).blocked := by
      intro x
      unfold leaveBlocked
      rw [station_updStation]
      split <;> rfl
    refine ⟨⟨leaveBlocked tk.homeStation n s, ?_, fun _ => returnStock_returns _ _ _, by simp [hs]⟩, by simp [hs, Departs],
      ret _ _ _ ?_, fun x => ?_, fun m => ?_, retPool _ _ _⟩
    · unfold LeavesPlace; rw [hs]; rfl
    · rw [linesSound_iff] at hl ⊢
      rintro (y | _)
      · have := hl (.station y)
        simp only [lineOf, leaveBlocked] at this ⊢
        rw [line_updStation_any]
        · exact this
        · intro; rfl
      · exact hl .pass
    · rw [retStation, e]
      split
      · exact ⟨List.filter_sublist, fun _ _ _ => by simp [removeNumber]⟩
      · rename_i h
        exact ⟨List.Sublist.refl _, fun _ hx hlt => absurd ⟨hx, hx ▸ hlt⟩ h⟩
    · rw [retTicket]; rfl
  case queued =>
    obtain ⟨l1, l2⟩ := leaveStation_leaves (n := n) (r := .pullTicket n) (hl.line (.station tk.station)) (.inl hs)
    have hd : Departs tk s := .inl hs
    rw [show undoTicket n tk s = (returnStock tk.component tk.quantity (leaveStation n tk (.pullTicket n) s).1,
        if (leaveStation n tk (.pullTicket n) s).2 then some tk.station else none) by unfold undoTicket; rw [hs]]
    refine ⟨⟨_, l1, fun _ => returnStock_returns _ _ _, by simp [hs]⟩, ?_, ret _ _ _ k1, fun x => ?_, fun m => ?_, ?_⟩
    · rw [if_pos hd, if_pos (l2.mpr hd)]
    · rw [retStation, k2]; exact ⟨List.Sublist.refl _, by simp [hs]⟩
    · rw [retTicket]; exact k3 m
    · rw [retPool]; exact pool
  case onLine =>
    obtain ⟨l1, l2⟩ := leaveStation_leaves (n := n) (r := .pullTicket n) (hl.line (.station tk.station)) (.inr hs)
    rw [show undoTicket n tk s = ((leaveStation n tk (.pullTicket n) s).1,
        if (leaveStation n tk (.pullTicket n) s).2 then some tk.station else none) by unfold undoTicket; rw [hs]]
    refine ⟨⟨_, l1, by simp [hs], fun _ => rfl⟩, ?_, k1, fun x => ?_, k3, pool⟩
    · by_cases hd : Departs tk s
      · rw [if_pos hd, if_pos (l2.mpr hd)]
      · rw [if_neg hd, if_neg fun h => hd (l2.mp h)]
    · rw [k2]; exact ⟨List.Sublist.refl _, by simp [hs]⟩
  all_goals
    rw [show undoTicket n tk s = (s, none) by unfold undoTicket; rw [hs]]
    refine ⟨⟨s, ?_, by simp [hs], fun _ => rfl⟩, by simp [hs, Departs], hl, fun x => ⟨List.Sublist.refl _, by simp [hs]⟩,
      fun m => rfl, rfl⟩
    unfold LeavesPlace; rw [hs]

/-- Lists of blocked tickets stay sound when ticket `n`, which stands in none of them any more, changes or goes. -/
theorem BlockedSound.without {n : Nat} {s t : State} (h : BlockedSound s)
    (hb : ∀ x, ((station t x).blocked).Sublist (station s x).blocked ∧ n ∉ (station t x).blocked)
    (ht : ∀ m, m ≠ n → (ticket? t m).map Ticket.homeStation = (ticket? s m).map Ticket.homeStation) : BlockedSound t := by
  intro x
  obtain ⟨h1, h2⟩ := hb x
  refine ⟨h1.nodup (h x).1, fun m hm => ?_⟩
  obtain ⟨tk, h3, h4⟩ := (h x).2 m (h1.subset hm)
  have := ht m fun e => h2 (e ▸ hm)
  rw [h3] at this
  cases hk : ticket? t m with
  | none => simp [hk] at this
  | some tk' => exact ⟨tk', rfl, by rw [hk] at this; simp at this; omega⟩

/-- The drain that ends a withdrawal. -/
theorem drainAfter_drains {tk : Ticket} {s w : State} (hl : LinesSound w) (hb : BlockedSound w) :
    (if Departs tk s then Drains tk.station w (drainAfter (if Departs tk s then some tk.station else none) w)
      else drainAfter (if Departs tk s then some tk.station else none) w = w) := by
  split
  · exact drain_drains _ hl hb
  · rfl

/-- A ticket that stands in no blocked list but its own, of a state with sound lines and lists, is withdrawn (R100). -/
theorem withdraw_withdraws {n : Nat} {tk : Ticket} {s : State} (hl : LinesSound s) (hb : BlockedSound s) (hk : ticket? s n = some tk)
    (hn : ∀ x, n ∈ (station s x).blocked → tk.state = .blocked ∧ x = tk.homeStation) (hp : 0 < s.ticketPool.live) :
    Withdraws false n s (withdrawFree n s)
      ∧ (tk.state ≠ .ready → tk.state ≠ .withdrawn → Withdraws true n s (withdrawKeep n s)) := by
  obtain ⟨⟨u, u1, u2, u3⟩, hd, vl, vb, vt, vp⟩ := undoTicket_undoes (n := n) (tk := tk) hl
  generalize hv : (undoTicket n tk s).1 = v at *
  have split2 : undoTicket n tk s = (v, if Departs tk s then some tk.station else none) := by rw [← hd, ← hv]
  have out : ∀ x, n ∉ (station v x).blocked := by
    intro x hx
    obtain ⟨h1, h2⟩ := vb x
    obtain ⟨h3, h4⟩ := hn x (h1.subset hx)
    refine h2 h3 h4 ?_ hx
    by_contra hlt
    have : station s x = {} := by
      simp [station, List.getD_eq_getElem?_getD, List.getElem?_eq_none (Nat.le_of_not_lt hlt)]
    have := h1.subset hx
    simp_all
  have vhome : ∀ m, (ticket? v m).map Ticket.homeStation = (ticket? s m).map Ticket.homeStation := by
    intro m
    have := congrArg (Option.map Prod.fst) (vt m)
    simpa [Option.map_map, Function.comp_def] using this
  refine ⟨?_, fun hr hw => ?_⟩
  · have free : ∃ w, freeTicket n v = w
        ∧ w = { v with tickets := w.tickets, groups := w.groups, ticketPool := w.ticketPool }
        ∧ (∀ m, ticket? w m = if m = n then none else ticket? v m)
        ∧ (∀ g, group? w g = (group? v g).map fun gr =>
            if g = tk.group then { gr with tickets := gr.tickets.filter fun m => decide (m ≠ n) } else gr)
        ∧ w.ticketPool = ⟨v.ticketPool.free + 1, v.ticketPool.reserved, v.ticketPool.live - 1⟩ := by
      refine ⟨_, rfl, ?_⟩
      have hg := vt n
      unfold freeTicket
      rw [hk] at hg
      cases hvn : ticket? v n with
      | none => simp [hvn] at hg
      | some tk' =>
        have hg : tk'.group = tk.group := by rw [hvn] at hg; simp at hg; exact hg.2
        dsimp only
        rw [hg]
        refine ⟨rfl, fun m => ?_, fun g => ?_, ?_⟩
        · change Store.get? (Store.erase v.tickets n) m = _
          by_cases hm : m = n
          · subst hm; rw [if_pos rfl, Store.get?_erase_self]
          · rw [if_neg hm, Store.get?_erase_of_ne _ hm]; rfl
        · change group? (updGroup _ _ v) g = _
          rw [group_get_updGroup]
          cases group? v g <;> by_cases h : g = tk.group <;> simp [h, removeNumber]
        · change Pool.release v.ticketPool = _
          rw [← vp] at hp
          simp only [Pool.release, Nat.min_eq_left (show 1 ≤ v.ticketPool.live from hp)]
    obtain ⟨w, w0, w1, w2, w3, w4⟩ := free
    have wl : LinesSound w := by rw [w1]; exact vl
    have wb : BlockedSound w := hb.without (n := n) (fun x => by
      have : station w x = station v x := by rw [w1]; rfl
      rw [this]
      exact ⟨(vb x).1, out x⟩) fun m hm => by rw [w2, if_neg hm]; exact vhome m
    refine ⟨tk, u, v, w, hk, by simp, u1, u2, u3, by simp, fun _ => ⟨w1, w2, w3, w4⟩, ?_⟩
    have : withdrawFree n s = drainAfter (if Departs tk s then some tk.station else none) w := by
      unfold withdrawFree
      rw [hk]
      dsimp only
      rw [split2]
      dsimp only
      rw [w0]
    rw [this]
    exact drainAfter_drains wl wb
  · generalize hw' : updTicket n (fun tk => { tk with state := .withdrawn, position := none, readyAt := none }) v = w
    have w1 : w = { v with tickets := w.tickets } := by rw [← hw']; rfl
    have w2 : ∀ m, ticket? w m = (ticket? v m).map fun o =>
            if m = n then { o with state := .withdrawn, position := none, readyAt := none } else o := by
      intro m
      rw [← hw', ticket_get_updTicket]
      cases ticket? v m <;> by_cases hm : m = n <;> simp [hm]
    have wl : LinesSound w := by rw [w1]; exact vl
    have wb : BlockedSound w := hb.without (n := n) (fun x => by
      have : station w x = station v x := by rw [w1]; rfl
      rw [this]
      exact ⟨(vb x).1, out x⟩) fun m hm => by
        rw [w2, ← vhome m]
        cases ticket? v m <;> simp [hm]
    refine ⟨tk, u, v, w, hk, fun _ => ⟨hr, hw⟩, u1, u2, u3, fun _ => ⟨w1, w2⟩, by simp, ?_⟩
    have : withdrawKeep n s = drainAfter (if Departs tk s then some tk.station else none) w := by
      unfold withdrawKeep
      rw [hk]
      dsimp only
      rw [split2]
      split
      · exact absurd ‹_› hr
      · exact absurd ‹_› hw
      · rw [← hw']
    rw [this]
    exact drainAfter_drains wl wb

end Sys2Proof.Machine
end

