-- ==== Sys2Proof/Tests/Slice0.lean ====
section
/-!
SUPPORT. Tests of single steps, with expected results from the rules and the worked examples of spec/, and for every obligation with
hypotheses a witness: concrete values that meet all of them, one for each clause, at the ends of ranges where a clause has them.
-/

namespace Sys2Proof.Machine

/-! One theorem after another: elaborated side by side, each evaluation in the kernel waits for those before it, in a thread of its own. -/
set_option Elab.async false

/-! ## Small states -/

/-- The state after a command; the state itself where the command stops. -/
def after (c : Instr) (s : State) : State :=
  match exec c s with
  | .next t => t
  | .fault _ => s
  | .refused _ => s

/-- A request frame with tag 7. -/
def req (kind : Byte) (body : List Byte) : Frame :=
  ⟨kind, 7#8, body⟩

/-- The state with that request alone in the input buffer. -/
def asked (kind : Byte) (body : List Byte) (s : State) : State :=
  { s with link := { s.link with input := [req kind body] } }

/-- The answer being sent to the host. -/
def told (s : State) : Option Answer :=
  match s.link.tx with
  | .reply r => some r.answer
  | .notice _ => none
  | .idle => none

/-- The notice being sent to the host. -/
def noticed (s : State) : Option Notice :=
  match s.link.tx with
  | .notice n => some n.notice
  | .reply _ => none
  | .idle => none

/-- The state while a notice is being sent. -/
def talking (s : State) : State :=
  { s with link := { s.link with tx := .notice ⟨false, .stockLow 1 1 1⟩ } }

/-- The request of this kind and body is the one that the decoder takes next. -/
abbrev Asks (kind : Byte) (body : List Byte) (s : State) : Prop :=
  Takes (req kind body) [] s ∧ (req kind body).kind = kind ∧ (req kind body).body = body

def grill : StationConfig := ⟨2, 3, 30, some 1, 200, 600, 20, 80⟩

def oven : StationConfig := ⟨2, 3, 20, none, 200, 600, 20, 80⟩

def salmon : Component := ⟨0, 120, 100, some 20, some 5⟩

def bread : Component := ⟨1, 60, 0, none, none⟩

/-- A station that has been defined, with its terminal connected. -/
def here (c : StationConfig) : Station :=
  { config := some c, line := { presence := .present }, positions := List.replicate c.positions none }

/-- In SETUP at 1000: two stations, two components, one course and a floor of two rows of three tables. -/
def kitchen : State :=
  { State.reset with
    clock := 1000
    components := [(3, salmon), (4, bread)]
    courses := [(0, [3, 4])]
    floor := { rows := 2, columns := 3, tables := [(0, { covers := 4 }), (1, { covers := 2 })] }
    stations := here grill :: here oven :: List.replicate 22 {}
    passLine := { presence := .present } }

/-- The same in SERVICE. -/
def evening : State :=
  { kitchen with link := { mode := .service } }

def oneWave : Wave :=
  { state := .staged, course := 0, region := ⟨.rect 0 0 2 1, .forward⟩, skipMark := none, goTime := 2000, stagger := 30,
    stagedAt := 900 }

/-- Wave 5 has this record. -/
def withWave (wv : Wave) (s : State) : State :=
  { s with waves := [(5, wv)], frozen := if wv.state = .held then [5] else [] }

/-- Wave 5 is STAGED. -/
def stagedEvening : State :=
  withWave oneWave evening

def servedPlan : List ServedTable := [⟨0, [(3, 4), (4, 4)]⟩, ⟨1, [(3, 2), (4, 2)]⟩]

/-- Wave 5 is RELEASING and no visit has been taken. -/
def releasingEvening : State :=
  { withWave { oneWave with state := .releasing, reservedTickets := 4, reservedGroups := 2 } evening with
    engine := { status := .running, wave := some 5, plan := servedPlan, next := 0 }
    ticketPool := ⟨4092, 4, 0⟩
    groupPool := ⟨1022, 2, 0⟩ }

def fish : Ticket :=
  { wave := 5, group := 7, table := 0, component := 3, homeStation := 0, station := 0, quantity := 4, goTime := 2000,
    fireTime := 1850, dueReady := 1970, seq := 0, state := .calendared }

def roll : Ticket :=
  { wave := 5, group := 7, table := 0, component := 4, homeStation := 1, station := 1, quantity := 4, goTime := 2000,
    fireTime := 1920, dueReady := 1980, seq := 1, state := .calendared }

/-- A ticket cooking at position 0. -/
def cooking (tk : Ticket) : Ticket :=
  { tk with state := .onLine, position := some 0, firedAt := some 1000 }

/-- A ticket reported READY at this reading. -/
def readySince (r : Nat) (tk : Ticket) : Ticket :=
  { tk with state := .ready, firedAt := some 900, readyAt := some r }

def plate : Group :=
  { wave := 5, table := 0, course := 0, orderIndex := 0, goTime := 2000, covers := 4, tickets := [10, 11] }

/-- A station controller with the ticket where its state has it. -/
def placed (n : Nat) (tk : Ticket) (st : Station) : Station :=
  match tk.state with
  | .onLine => { st with positions := st.positions.set 0 (some n) }
  | .queued => { st with ordinaryQueue := [n] }
  | .blocked => { st with blocked := [n] }
  | .calendared => st
  | .ready => st
  | .dead => st
  | .withdrawn => st

def servingWave : Wave :=
  { oneWave with state := .active, release := { groups := 1, tickets := 2 } }

/-- Wave 5 is ACTIVE with one plate group, 7, of tickets 10 and 11. -/
def dining (a b : Ticket) (gr : Group) : State :=
  { withWave servingWave evening with
    floor := { rows := 2, columns := 3, tables := [(0, { covers := 4, liveCourses := [0] }), (1, { covers := 2 })] }
    tickets := [(10, a), (11, b)]
    ticketPool := ⟨4094, 0, 2⟩
    calendar := (if a.state = .calendared then [10] else []) ++ (if b.state = .calendared then [11] else [])
    stations := placed 10 a (here grill) :: placed 11 b (here oven) :: List.replicate 22 {}
    groups := [(7, gr)]
    groupPool := ⟨1023, 0, 1⟩ }

/-- The part at another reading of the clock. -/
def atReading (t : Nat) (s : State) : State :=
  { s with clock := t }

/-- Station 0 changed. -/
def grillWith (f : Station → Station) (s : State) : State :=
  updStation 0 f s

/-- Wave 5 is HELD since 1000. -/
def heldEvening : State :=
  withWave { servingWave with state := .held, holdSince := some 1000 } (dining (cooking fish) roll plate)

/-- The parts of the invariant of a whole service, decided one by one. -/
def soundly (s : State) : Bool :=
  decide (Coherent s) && decide (Placed s) && decide (Ordered s) && decide (WavesConsistent s) && decide (Accounted s)

theorem sound_of {s : State} (h : soundly s = true) : Sound s := by
  simp only [soundly, Bool.and_eq_true, decide_eq_true_eq] at h
  exact ⟨h.1.1.1.1, h.1.1.1.2, h.1.1.2, h.1.2, h.2⟩

/-! ## Commands that name no unit of the part -/

theorem test_ill_formed_reset : (Instr.reset (List.replicate 23 true) true).wellFormed = false := by decide
theorem test_ill_formed_lapse : (Instr.stagingLapse 64).wellFormed = false := by decide
theorem test_ill_formed_sample : (Instr.loadSample 24).wellFormed = false := by decide
theorem test_ill_formed_die : (Instr.dieExpiry 1024).wellFormed = false := by decide
theorem test_ill_formed_pickup : (Instr.pickupExpiry 1024).wellFormed = false := by decide
theorem test_ill_formed_ready : (Instr.ready 24 0#16).wellFormed = false := by decide
theorem test_ill_formed_spoil : (Instr.spoil 24 0#16).wellFormed = false := by decide
theorem test_ill_formed_resync : (Instr.resync 24).wellFormed = false := by decide
theorem test_ill_formed_line : (Instr.lineFrameDiscard (.station 24) []).wellFormed = false := by decide
theorem test_ill_formed_fall : (Instr.presenceFall 24).wellFormed = false := by decide
theorem test_ill_formed_rise : (Instr.presenceRise 24).wellFormed = false := by decide
theorem test_ill_formed_frame_end : (Instr.lineFrameEnd (.station 24)).wellFormed = false := by decide
theorem test_ill_formed_run_end : (Instr.refreshRunEnd (.station 24)).wellFormed = false := by decide
theorem test_ill_formed_begin : (Instr.refreshBegin (.station 24)).wellFormed = false := by decide
theorem test_well_formed_pass : (Instr.lineFrameEnd .pass).wellFormed = true := by decide

/-- A command that names no unit of the part stops. -/
theorem test_ill_formed_stops :
    (match exec (.loadSample 24) State.reset with | .fault .noSuchUnit => true | _ => false) = true := by decide

/-! ## Arithmetic, walks and formats, from the worked examples -/

/-- 10.1.1: a terminal reports ticket 700 ready. -/
theorem test_ready_frame_bytes :
    Frame.bytes ⟨0xB0#8, 0#8, [0xBC#8, 0x02#8]⟩ = [0xC3#8, 0x04#8, 0xB0#8, 0x00#8, 0xBC#8, 0x02#8, 0x8E#8] := by decide

/-- 2.3.1: the RECT region, clipped, in SNAKE and REVERSE order. -/
theorem test_walk_snake :
    walkOrder { rows := 10, columns := 12 } ⟨.rect 2 9 5 3, .snake⟩ = [33, 34, 35, 47, 46, 45, 57, 58, 59] := by decide
theorem test_walk_reverse :
    walkOrder { rows := 10, columns := 12 } ⟨.rect 2 9 5 3, .reverse⟩ = [59, 58, 57, 47, 46, 45, 35, 34, 33] := by decide
/-- 2.3.1: the LINEAR region of 20 tables from 30, in SNAKE order. -/
theorem test_walk_linear_snake :
    walkOrder { rows := 10, columns := 12 } ⟨.linear 30 20, .snake⟩
      = [30, 31, 32, 33, 34, 35, 47, 46, 45, 44, 43, 42, 41, 40, 39, 38, 37, 36, 48, 49] := by decide
/-- 2.3.1: the size that CLIPPED reports. -/
theorem test_walk_clipped : clippedSize { rows := 10, columns := 12 } ⟨.linear 110 20, .forward⟩ = some (10, 0) := by decide

/-- 2.5.1: tables 46 and 45 of the skip example. -/
theorem test_skip_marked_before_busy : skipTest 5 (some 3) { covers := 6, mark := 3, liveCourses := [5] } = .skippedMarked := by
  decide
theorem test_skip_other_course_served : skipTest 5 (some 3) { covers := 16, mark := 0, liveCourses := [2] } = .served := by
  decide

/-- 2.6.1, covers 10: beef 1, potato 2, beans 3, salmon 4, risotto 5. -/
theorem test_ticket_list_covers_10 :
    ticketList [1, 2, 3] { covers := 10, substitutions := [⟨1, 4, 2⟩, ⟨1, 5, 1⟩, ⟨2, 3, 3⟩] }
      = [(1, 7), (2, 7), (3, 13), (4, 2), (5, 1)] := by decide
/-- 2.6.1, covers 4: soup 1, bread 2, consommé 3, roll 4. -/
theorem test_ticket_list_covers_4 :
    ticketList [1, 2] { covers := 4, substitutions := [⟨1, 3, 4⟩, ⟨2, 4, 1⟩] } = [(2, 3), (3, 4), (4, 1)] := by decide

/-- R69's examples: 437 at stretch 80 and 1 at stretch 65. -/
theorem test_effective_cook : effectiveCook 437 80 = 547 ∧ effectiveCook 1 65 = 2 := by decide

/-- 7.9: the sample at 40,015 and the evaluation of R133 at the half derate level. -/
theorem test_sampled_accumulator : sampledAccumulator ⟨4, 16, 45, some 6, 200, 600, 20, 80⟩ 192 12 = 256 := by decide
theorem test_evaluate_half_level :
    evaluateLoad ⟨4, 16, 45, some 6, 200, 600, 20, 80⟩ 96 .derated = .normal
      ∧ evaluateLoad ⟨4, 16, 45, some 6, 200, 600, 20, 80⟩ 116 .derated = .derated := by decide

/-! ## Power and time -/

theorem test_reset_presence :
    ((station (after (.reset (true :: List.replicate 23 false) true) evening) 0).line.presence,
      (station (after (.reset (true :: List.replicate 23 false) true) evening) 1).line.presence) = (.present, .absent) := by
  decide
theorem test_reset_clears : (after (.reset (List.replicate 24 true) true) evening).components = [] := by decide
theorem test_clock_counts : (after .clockTick kitchen).clock = 1001 := by decide +kernel
theorem test_clock_saturates : (after .clockTick (atReading 16777215 kitchen)).clock = 16777215 := by decide +kernel

/-! ## The host link -/

/-- The bytes of QUERY_CLOCK with tag 5: 2 + 4 + 5 = 11 and 256 - 11 = 245. -/
theorem test_frame_arrival :
    (after (.hostFrameArrival [0xC3#8, 2#8, 4#8, 5#8, 245#8]) kitchen).link.input = [⟨4#8, 5#8, []⟩] := by decide
theorem test_frame_arrival_bad_length :
    noticed (after (.hostFrameArrival [0xC3#8, 1#8]) kitchen) = some (.linkError (.badLength 1#8)) := by decide
/-- 65 bad frames in one run at an idle transmitter: each is an event, so the first is being reported and the others fill the queue (R175). -/
theorem test_frame_arrival_bad_run :
    let s := after (.hostFrameArrival ((List.replicate 65 [0xC3#8, 1#8]).flatten)) kitchen
    (noticed s, s.link.notices.length, s.link.lost) = (some (.linkError (.badLength 1#8)), 64, false) := by decide +kernel
/-- 9.4.1: a reply leaves ahead of a notice. -/
theorem test_frame_end_reply_first :
    told (after .hostFrameEnd { talking kitchen with
      link := { (talking kitchen).link with
        replies := [⟨1#8, 4#8, .refused .busy⟩], notices := [⟨false, .stockLow 1 1 1⟩] } }) = some (.refused .busy) := by
  decide
/-- R187: the code of a notice is no request. -/
theorem test_unknown_kind : told (after .unknownKind (asked 0x90#8 [] kitchen)) = some (.refused .unknownKind) := by decide
theorem test_identify : told (after .identify (asked 0x01#8 [] kitchen)) = some (.accepted {} (.identity .setup)) := by decide
theorem test_identify_malformed : told (after .identify (asked 0x01#8 [0#8] kitchen)) = some (.refused .malformed) := by decide
theorem test_restart_stops_decoder : (after .restart (asked 0x02#8 [] evening)).link.decoder = .stopped := by decide
theorem test_restart_resets : (after .hostFrameEnd (after .restart (asked 0x02#8 [] evening))).courses = [] := by decide

/-! ## Service control -/

/-- 19,500 is 0x4C2C. -/
theorem test_set_clock : (after .setClock (asked 0x03#8 [0x2C#8, 0x4C#8, 0#8, 0#8] kitchen)).clock = 19500 := by decide
theorem test_set_clock_in_service :
    told (after .setClock (asked 0x03#8 [0x2C#8, 0x4C#8, 0#8, 0#8] evening)) = some (.refused .mode) := by decide
theorem test_query_clock : told (after .queryClock (asked 0x04#8 [] evening)) = some (.accepted {} (.clockReading 1000 false)) := by
  decide
theorem test_begin_service :
    (station (after .beginService (asked 0x05#8 [0#8] kitchen)) 0).load.nextSample = some 1005 := by decide
theorem test_begin_service_limit :
    told (after .beginService (asked 0x05#8 [1#8, 9#8, 0#8] kitchen)) = some (.refused .range) := by decide
theorem test_end_service_refused : told (after .endService (asked 0x06#8 [0#8] stagedEvening)) = some (.refused .state) := by
  decide +kernel
theorem test_end_service_forced :
    ((after .endService (asked 0x06#8 [1#8] stagedEvening)).waves, (after .endService (asked 0x06#8 [1#8] stagedEvening)).link.mode)
      = ([], .setup) := by decide +kernel

/-! ## Definitions and queries -/

/-- S2: positions 2, queue limit 3, carry 30, levels 200 and 600, cool step 20, stretch 80, alternate S3. -/
theorem test_define_station :
    (station (after .defineStation (asked 0x07#8
      [2#8, 2#8, 3#8, 30#8, 0#8, 200#8, 0#8, 88#8, 2#8, 20#8, 0#8, 80#8, 1#8, 3#8] kitchen)) 2).config
      = some ⟨2, 3, 30, some 3, 200, 600, 20, 80⟩ := by decide
theorem test_define_station_own_alternate :
    told (after .defineStation (asked 0x07#8
      [2#8, 2#8, 3#8, 30#8, 0#8, 200#8, 0#8, 88#8, 2#8, 20#8, 0#8, 80#8, 1#8, 2#8] kitchen)) = some (.refused .range) := by
  decide
/-- Component 37 of 1.6, here at S1: cook time 600, hold window 240, stock 120, low level 40. -/
theorem test_define_component :
    (after .defineComponent (asked 0x08#8
      [37#8, 0#8, 1#8, 88#8, 2#8, 240#8, 0#8, 3#8, 120#8, 0#8, 40#8, 0#8] kitchen)).components.get? 37
      = some ⟨1, 600, 240, some 120, some 40⟩ := by decide
theorem test_define_component_no_station :
    told (after .defineComponent (asked 0x08#8 [37#8, 0#8, 2#8, 88#8, 2#8, 240#8, 0#8, 0#8] kitchen))
      = some (.refused .noSuch) := by decide
theorem test_define_course :
    (after .defineCourse (asked 0x0A#8 [9#8, 2#8, 4#8, 0#8, 3#8, 0#8] kitchen)).courses.get? 9 = some [4, 3] := by decide
theorem test_define_course_repeats :
    told (after .defineCourse (asked 0x0A#8 [9#8, 2#8, 4#8, 0#8, 4#8, 0#8] kitchen)) = some (.refused .range) := by decide
theorem test_define_floor_erases :
    (after .defineFloor (asked 0x0B#8 [2#8, 3#8] kitchen)).floor = { rows := 2, columns := 3 } := by decide
theorem test_define_floor_too_large : told (after .defineFloor (asked 0x0B#8 [21#8, 20#8] kitchen)) = some (.refused .range) := by
  decide
theorem test_set_table :
    tableRecord (after .setTable (asked 0x0C#8 [5#8, 0#8, 8#8, 3#8, 1#8, 3#8, 0#8, 4#8, 0#8, 2#8] kitchen)) 5
      = { covers := 8, mark := 3, substitutions := [⟨3, 4, 2⟩] } := by decide
theorem test_set_table_off_floor : told (after .setTable (asked 0x0C#8 [6#8, 0#8, 8#8, 3#8, 0#8] kitchen)) = some (.refused .noSuch) := by
  decide
/-- MARK_TABLES with SET 3 on the first row, asked for wider than the floor. -/
theorem test_mark_tables :
    told (after .markTables (asked 0x0D#8 [0#8, 0#8, 0#8, 0#8, 0#8, 0#8, 5#8, 1#8, 0#8, 3#8, 0#8] kitchen))
      = some (.accepted { clipped := true } (.tablesMarked 3 (some (3, 1)))) := by decide
theorem test_mark_tables_replace :
    (tableRecord (after .markTables (asked 0x0D#8 [0#8, 0#8, 0#8, 0#8, 0#8, 0#8, 3#8, 1#8, 1#8, 0#8, 6#8] kitchen)) 1).mark = 6 := by
  decide
/-- 1.6: RESTOCK ADD 9990 is clamped. -/
theorem test_restock_clamped :
    told (after .restock (asked 0x0E#8 [3#8, 0#8, 0#8, 0x06#8, 0x27#8] kitchen))
      = some (.accepted { clamped := true } (.restocked 3 9999)) := by decide
theorem test_restock_untracked : told (after .restock (asked 0x0E#8 [4#8, 0#8, 1#8, 5#8, 0#8] kitchen)) = some (.refused .state) := by
  decide
theorem test_query_station_undefined : told (after .queryStation (asked 0x0F#8 [2#8] kitchen)) = some (.refused .noSuch) := by decide
theorem test_query_station :
    told (after .queryStation (asked 0x0F#8 [0#8] (dining (cooking fish) roll plate)))
      = some (.accepted {} (.stationReport grill .present .normal 0 64 0 0 1 0 0 false)) := by decide
theorem test_query_component :
    told (after .queryComponent (asked 0x10#8 [3#8, 0#8] evening)) = some (.accepted {} (.componentReport salmon)) := by decide
theorem test_query_table :
    told (after .queryTable (asked 0x11#8 [4#8, 0#8] evening)) = some (.accepted {} (.tableReport 1 1 {})) := by decide
theorem test_query_wave_free :
    told (after .queryWave (asked 0x12#8 [63#8] evening)) = some (.accepted {} (.waveReport .idle none none none)) := by decide
theorem test_query_group_free :
    told (after .queryGroup (asked 0x09#8 [0#8, 0#8] evening)) = some (.accepted {} (.groupReport 0 none ⟨1024, 0, 0⟩)) := by decide
theorem test_query_ticket_range : told (after .queryTicket (asked 0x13#8 [0#8, 16#8] evening)) = some (.refused .range) := by decide

/-! ## Waves -/

/-- Two tables of two tickets: fire times 2000 - 30 - 120 and later. -/
theorem test_stage_wave :
    told (after .stageWave (asked 0x14#8
      [6#8, 0#8, 0#8, 0#8, 0#8, 0#8, 0#8, 0#8, 3#8, 1#8, 0xD0#8, 7#8, 0#8, 0#8, 30#8, 0#8] evening))
      = some (.accepted {} (.staged ⟨3, 1, 0, 0, 2, 4⟩ 1850 2030 30 none)) := by decide
theorem test_stage_wave_in_setup :
    told (after .stageWave (asked 0x14#8
      [6#8, 0#8, 0#8, 0#8, 0#8, 0#8, 0#8, 0#8, 3#8, 1#8, 0xD0#8, 7#8, 0#8, 0#8, 30#8, 0#8] kitchen)) = some (.refused .mode) := by
  decide
/-- The need of 4 + 2 portions of component 3 is drawn. -/
theorem test_release_wave :
    (stockOf (after .releaseWave (asked 0x15#8 [5#8] stagedEvening)) 3,
      (after .releaseWave (asked 0x15#8 [5#8] stagedEvening)).ticketPool) = (some 14, ⟨4092, 4, 0⟩) := by decide
theorem test_release_wave_short :
    told (after .releaseWave (asked 0x15#8 [5#8] (setStock 3 5 stagedEvening))) = some (.refused .noStock) := by decide
theorem test_release_visit :
    (after .releaseVisit releasingEvening).groups
      = [(0, { wave := 5, table := 0, course := 0, orderIndex := 0, goTime := 2000, covers := 4, tickets := [0, 1] })] := by decide
theorem test_release_visit_calendars : (after .releaseVisit releasingEvening).calendar = [0, 1] := by decide
theorem test_lapse : (after (.stagingLapse 5) (atReading 1500 stagedEvening)).waves = [] := by decide
theorem test_lapse_early : (after (.stagingLapse 5) (atReading 1499 stagedEvening)).waves = [(5, oneWave)] := by decide
theorem test_hold_wave :
    told (after .holdWave (asked 0x16#8 [5#8] (dining (cooking fish) roll plate))) = some (.accepted {} (.held 1)) := by decide
theorem test_hold_wave_staged : told (after .holdWave (asked 0x16#8 [5#8] stagedEvening)) = some (.refused .state) := by decide
/-- Resumed at 1930 after 930 s: the group is kept, since the fish is cooking, and the roll, due at 1920, fires. -/
theorem test_resume_kept :
    told (after .resumeWave (asked 0x17#8 [5#8, 0#8] (atReading 1930 heldEvening)))
      = some (.accepted { late := true } (.resumed 0 1 1)) := by decide
theorem test_cancel_wave :
    told (after .cancelWave (asked 0x18#8 [5#8] (dining (cooking fish) roll plate))) = some (.accepted {} (.waveCancelled 1 2)) := by
  decide
theorem test_cancel_releasing :
    (stockOf (after .cancelWave (asked 0x18#8 [5#8] releasingEvening)) 3,
      (after .cancelWave (asked 0x18#8 [5#8] releasingEvening)).engine.status) = (some 26, .aborted) := by decide

/-! ## Stations, the load monitor and the pass -/

theorem test_fire_expiry :
    (station (after .fireExpiry (atReading 1850 (dining fish roll plate))) 0).positions = [some 10, none] := by decide
/-- A full queue sends the ticket to the alternate. -/
theorem test_fire_expiry_alternate :
    (station (after .fireExpiry (atReading 1850 (grillWith (fun st => { st with ordinaryQueue := [20, 21, 22] })
      (dining fish roll plate)))) 1).positions = [some 10, none] := by decide
theorem test_load_sample_cools :
    (station (after (.loadSample 0) (grillWith (fun st => { st with load := ⟨256, .derated, some 1000⟩ }) evening)) 0).load
      = ⟨236, .derated, some 1005⟩ := by decide
theorem test_rearm :
    told (after .rearmStation (asked 0x19#8 [0#8] (grillWith (fun st => { st with load := ⟨150, .tripped, some 1005⟩ }) evening)))
      = some (.accepted {} (.rearmed 0 .derated 150 80 0 0)) := by decide
theorem test_rearm_too_hot :
    told (after .rearmStation (asked 0x19#8 [0#8] (grillWith (fun st => { st with load := ⟨600, .tripped, some 1005⟩ }) evening)))
      = some (.refused .tooHot) := by decide
/-- 8.10: a first READY makes the group ASSEMBLING; the hold window of 100 sets die_at. -/
theorem test_ready :
    ((group? (after (.ready 0 10#16) (dining (cooking fish) roll plate)) 7).map fun gr => (gr.state, gr.dieAt))
      = some (.assembling, some 1100) := by decide
theorem test_ready_completes :
    ((group? (after (.ready 0 10#16) (dining (cooking fish) (readySince 990 roll) { plate with state := .assembling })) 7).map
      fun gr => (gr.state, gr.pickupAt)) = some (.complete, some 1090) := by decide
/-- The copy takes the lowest entry, 0, and the spoiled ticket's slot. -/
theorem test_spoil :
    ((group? (after (.spoil 0 10#16) (dining (cooking fish) roll plate)) 7).map Group.tickets) = some [0, 11] := by decide
theorem test_spoil_third_generation :
    noticed (after (.spoil 0 10#16) (dining { cooking fish with generation := 2 } roll plate))
      = some (.groupEscalated 7 5 0 10 3 .generation .spoil) := by decide
theorem test_resync :
    (station (after (.resync 1) evening) 1).line.tx = .refreshing [.stationStatus .normal 64 0 3] := by decide
/-- A good READY frame among the bytes is taken as the record it is (log 7). -/
theorem test_line_frame :
    ((ticket? (after (.lineFrameDiscard (.station 0) [0xC3#8, 4#8, 0xB0#8, 0#8, 10#8, 0#8, 66#8])
      (dining (cooking fish) roll plate)) 10).map Ticket.state) = some .ready := by decide
theorem test_line_frame_bad_check :
    ((ticket? (after (.lineFrameDiscard (.station 0) [0xC3#8, 4#8, 0xB0#8, 0#8, 10#8, 0#8, 67#8])
      (dining (cooking fish) roll plate)) 10).map Ticket.state) = some .onLine := by decide
theorem test_picked :
    noticed (after (.picked 7#16) (dining (readySince 990 fish) (readySince 990 roll) { plate with state := .complete }))
      = some (.waveDone 5 .served 1 1 0 0) := by decide
theorem test_picked_stale : (after (.picked 8#16) evening).passLine.tx = .sending (.passStale 0xE0#8 8 none) := by decide
theorem test_refire :
    told (after .refire (asked 0x1A#8 [7#8, 0#8, 10#8, 0#8]
      (dining (readySince 990 fish) (readySince 990 roll) { plate with state := .complete })))
      = some (.accepted {} (.refired 0 1 (some 0))) := by decide
theorem test_pass_refire :
    ((group? (after (.passRefire 7#16 11#16)
      (dining (readySince 990 fish) (readySince 990 roll) { plate with state := .complete })) 7).map fun gr =>
        (gr.state, gr.tickets, gr.dieAt)) = some (.assembling, [10, 0], some 1090) := by decide
theorem test_send_short :
    told (after .sendShort (asked 0x1B#8 [7#8, 0#8] (dining (readySince 990 fish) roll { plate with state := .assembling })))
      = some (.accepted {} (.sentShort .shortGo 1 1)) := by decide
theorem test_die_expiry :
    noticed (after (.dieExpiry 7) (atReading 1090
      (dining (readySince 990 fish) roll { plate with state := .assembling, dieAt := some 1090 })))
      = some (.groupDying 7 5 0 1 1) := by decide
theorem test_pickup_expiry :
    noticed (after (.pickupExpiry 7)
      (dining (readySince 910 fish) (readySince 910 roll) { plate with state := .complete, pickupAt := some 1000 }))
      = some (.groupUnpicked 7 5 0 false 1000) := by decide
theorem test_pass_resync : (after .passResync evening).passLine.tx = .refreshing [.passRun 0] := by decide

/-! ## Presence and transmitters -/

theorem test_presence_fall : noticed (after (.presenceFall 0) evening) = some (.stationState 0 .presence .absent .normal .normal 0 0 0) := by
  decide
theorem test_presence_rise :
    (station (after (.presenceRise 1) (after (.presenceFall 1) evening)) 1).line.tx = .refreshing [.stationStatus .normal 64 0 3] := by
  decide
theorem test_pass_presence_fall : (after .passPresenceFall evening).passLine.presence = .absent := by decide
theorem test_pass_presence_rise : (after .passPresenceRise State.reset).passLine.tx = .refreshing [.passRun 0] := by decide
theorem test_line_frame_end :
    (after (.lineFrameEnd .pass) { evening with
      passLine := { presence := .present, queue := [.go 1 false], tx := .sending (.arrive 1 2) } }).passLine.tx
      = .sending (.go 1 false) := by decide
theorem test_refresh_run_end :
    (after (.refreshRunEnd .pass) { evening with passLine := { presence := .present, tx := .refreshing [.passRun 0] } }).passLine.tx
      = .idle := by decide
theorem test_refresh_begin :
    (after (.refreshBegin .pass) { evening with passLine := { presence := .present, refreshPending := true } }).passLine.tx
      = .refreshing [.passRun 0] := by decide

/-- No word spells a command (log 22). -/
theorem test_no_word_is_a_command : decodeTableWord 32 0xC3028E = none := by decide

/-! ## Witnesses: the step, reset and the clock -/

theorem witness_StepRunsTheFrontCommand :
    { State.reset with pending := [.clockTick, .passResync] }.pending = .clockTick :: [.passResync] ∧ State.reset.pending = [] := by
  decide
theorem witness_CommandsOfThePartComplete :
    (Instr.loadSample 23).wellFormed = true ∧ (Instr.loadSample 24).wellFormed = false := by decide
theorem witness_ResetLeavesTheHostLinkTable_reset :
    ∃ levels pass t, exec (.reset levels pass) evening = .next t :=
  ⟨List.replicate 24 true, true, _, rfl⟩
theorem witness_ResetLeavesTheHostLinkTable_restart :
    ∃ s t, (∃ tag q figures, s.link.tx = .reply ⟨tag, 0x02#8, .accepted q figures⟩ ∧ s.link.decoder = .stopped)
      ∧ exec .hostFrameEnd s = .next t :=
  ⟨after .restart (asked 0x02#8 [] evening), _, ⟨7#8, {}, .noFigures, rfl, rfl⟩, rfl⟩
theorem witness_ResetPutsEveryBlockInItsResetState : (List.replicate 24 true).length = 24 := by decide
theorem witness_ClockTickAdvancesTheClock :
    NothingDue (atReading 16777214 kitchen) ∧ HostSettled (atReading 16777214 kitchen)
      ∧ (atReading 16777214 kitchen).clock < 16777215 := by decide +kernel
theorem witness_ClockTickAdvancesTheClock_saturated :
    NothingDue (atReading 16777215 kitchen) ∧ HostSettled (atReading 16777215 kitchen)
      ∧ (atReading 16777215 kitchen).clock = 16777215 := by decide +kernel
theorem witness_ClockTickAdvancesTheClock_in_service :
    NothingDue (dining fish roll plate) ∧ HostSettled (dining fish roll plate) ∧ (dining fish roll plate).clock < 16777215 := by
  decide +kernel
/-- The die expiry of group 7 is due at the reading that ends. -/
theorem witness_ClockTickAdvancesTheClock_due :
    let s := dining (readySince 900 fish) (readySince 990 roll) { plate with state := .assembling, dieAt := some 1000 }
    s.groups.rising = true ∧ (∀ e ∈ s.groups, e.1 < 1024) ∧ ¬NothingDue s ∧ s.clock < 16777215 := by decide +kernel
theorem witness_ClockTickAdvancesTheClock_due_saturated :
    let s := atReading 16777215
      (dining (readySince 900 fish) (readySince 990 roll) { plate with state := .assembling, dieAt := some 1000 })
    s.groups.rising = true ∧ (∀ e ∈ s.groups, e.1 < 1024) ∧ ¬NothingDue s ∧ ¬s.clock < 16777215 := by decide +kernel

/-! ## Witnesses: the host link -/

/-- The longest body. -/
def longFrame : Frame := ⟨0x04#8, 1#8, List.replicate 248 0xC3#8⟩

/-- The input buffer and the notice queue filled to these counts, with a notice being sent. -/
def linkFilled (frames notices : Nat) (s : State) : State :=
  { talking s with link :=
      { (talking s).link with
        input := List.replicate frames (req 4#8 []), notices := List.replicate notices ⟨false, .stockLow 1 1 1⟩ } }

theorem witness_FramesArriveAsTheyWereSent_room :
    longFrame.body.length ≤ 248 ∧ (linkFilled 3 0 kitchen).link.receiver = .hunting
      ∧ (linkFilled 3 0 kitchen).link.input.length < 4 := by decide +kernel
theorem witness_FramesArriveAsTheyWereSent_full :
    longFrame.body.length ≤ 248 ∧ (linkFilled 4 0 kitchen).link.receiver = .hunting
      ∧ 4 ≤ (linkFilled 4 0 kitchen).link.input.length := by decide +kernel
theorem witness_BadFramesRaiseLinkError :
    kitchen.link.receiver = .hunting ∧ ((1#8 : Byte).toNat < 2 ∨ 250 < (1#8 : Byte).toNat)
      ∧ ((251#8 : Byte).toNat < 2 ∨ 250 < (251#8 : Byte).toNat) ∧ (req 4#8 []).body.length ≤ 248
      ∧ byteSum (req 4#8 []).covered + 0#8 ≠ 0#8 ∧ 0xC3#8 ∉ [0xC2#8, 0xC4#8] ∧ HostSettled kitchen := by decide
/-- A reply to IDENTIFY being sent behind an accepted RESTART: the decoder is stopped, and the RESTART's own reply waits (R184). -/
def restarting : State :=
  { kitchen with link :=
      { kitchen.link with
        decoder := .stopped, tx := .reply ⟨1#8, 0x01#8, .accepted {} (.identity .setup)⟩
        replies := [⟨2#8, 0x02#8, .accepted {} .noFigures⟩] } }

theorem witness_HostTransmitterChoosesReplyFirst_reply :
    restarting.link.tx ≠ .idle ∧ (∀ tag q figures, restarting.link.tx ≠ .reply ⟨tag, 0x02#8, .accepted q figures⟩)
      ∧ restarting.link.decoder ≠ .taking ∧ ∃ r rest, restarting.link.replies = r :: rest := by
  refine ⟨by decide, fun tag q figures h => ?_, by decide, _, _, rfl⟩
  injection h with h
  injection h with _ h
  exact absurd h (by decide)
theorem witness_HostTransmitterChoosesReplyFirst_notice :
    ∃ s : State, (s.link.tx ≠ .idle ∧ ∃ q figures, s.link.tx = .reply ⟨1#8, 0x02#8, .accepted q figures⟩)
      ∧ s.link.decoder = .taking ∧ ∃ n rest, s.link.replies = [] ∧ s.link.notices = n :: rest :=
  ⟨{ kitchen with link :=
      { kitchen.link with tx := .reply ⟨1#8, 0x02#8, .accepted {} .noFigures⟩, notices := [⟨false, .stockLow 1 1 1⟩] } },
    ⟨by decide, _, _, rfl⟩, rfl, _, _, rfl, rfl⟩
theorem witness_HostTransmitterChoosesReplyFirst_idle :
    (talking kitchen).link.tx ≠ .idle ∧ (talking kitchen).link.decoder = .taking
      ∧ (talking kitchen).link.replies = [] ∧ (talking kitchen).link.notices = [] := by decide
theorem witness_LostNoticesSetTheLostFlag :
    ((251#8 : Byte).toNat < 2 ∨ 250 < (251#8 : Byte).toNat) ∧ (linkFilled 0 63 kitchen).link.receiver = .hunting
      ∧ (linkFilled 0 63 kitchen).link.tx ≠ .idle ∧ (linkFilled 0 63 kitchen).link.notices.length < 64 := by decide +kernel
theorem witness_LostNoticesSetTheLostFlag_full :
    ((1#8 : Byte).toNat < 2 ∨ 250 < (1#8 : Byte).toNat) ∧ (linkFilled 0 64 kitchen).link.receiver = .hunting
      ∧ (linkFilled 0 64 kitchen).link.tx ≠ .idle ∧ 64 ≤ (linkFilled 0 64 kitchen).link.notices.length := by decide +kernel
theorem witness_LostNoticesSetTheLostFlag_idle :
    kitchen.link.tx = .idle ∧ kitchen.link.replies = [] ∧ kitchen.link.notices = [] := by decide
theorem witness_LostNoticesSetTheLostFlag_frames :
    (linkFilled 4 64 kitchen).link.tx ≠ .idle ∧ (linkFilled 4 64 kitchen).link.receiver = .hunting
      ∧ 4 ≤ (linkFilled 4 64 kitchen).link.input.length ∧ longFrame.body.length ≤ 248
      ∧ byteSum (req 4#8 []).covered + 0#8 ≠ 0#8 := by decide +kernel
theorem witness_LostNoticesSetTheLostFlag_lapse :
    (talking (atReading 1500 stagedEvening)).link.tx ≠ .idle ∧ wave? (talking (atReading 1500 stagedEvening)) 5 = some oneWave
      ∧ oneWave.state = .staged ∧ oneWave.stagedAt + 600 ≤ (talking (atReading 1500 stagedEvening)).clock := by decide
theorem witness_LostNoticesSetTheLostFlag_fall :
    (talking evening).link.tx ≠ .idle ∧ (talking evening).stations.length = 24
      ∧ (station (talking evening) 1).line.presence = .present ∧ (station (talking evening) 1).config ≠ none := by decide
theorem witness_UnknownKindsAreRefused :
    (Takes (req 0#8 [9#8]) [] (asked 0#8 [9#8] evening) ∧ (req 0#8 [9#8]).kind.toNat = 0)
      ∧ Takes (req 28#8 []) [] (asked 28#8 [] evening) ∧ 27 < (req 28#8 []).kind.toNat := by decide
theorem witness_RequestsWaitForTheDecoder :
    requestCode .identify = some 0x01#8 ∧ (asked 0x02#8 [] kitchen).link.input.head?.map Frame.kind ≠ some 0x01#8 := by decide
theorem witness_RequestsWaitForTheDecoder_stopped :
    requestCode .sendShort = some 0x1B#8 ∧ (after .restart (asked 0x02#8 [] evening)).link.decoder = .stopped := by decide
theorem witness_RequestsWaitForTheDecoder_full :
    requestCode .queryClock = some 0x04#8
      ∧ 4 ≤ { talking kitchen with link := { (talking kitchen).link with
          replies := List.replicate 4 ⟨1#8, 4#8, .refused .busy⟩ } }.link.replies.length := by decide
theorem witness_EveryTakenRequestGetsOneReply :
    requestCode .releaseWave = some 0x15#8 ∧ Asks 0x15#8 [5#8] (asked 0x15#8 [5#8] (talking stagedEvening))
      ∧ (asked 0x15#8 [5#8] (talking stagedEvening)).link.tx ≠ .idle := by decide
/-- A presence byte of 2, a list one number short, an operation code of 2, and a LINEAR region whose last byte is not 0. -/
theorem witness_EveryTakenRequestGetsOneReply_malformed :
    (Asks 0x05#8 [2#8] (asked 0x05#8 [2#8] (talking kitchen)) ∧ ¬LaidOut .beginService [2#8])
      ∧ ¬LaidOut .defineCourse [0#8, 2#8, 3#8, 0#8] ∧ ¬LaidOut .restock [0#8, 0#8, 2#8, 0#8, 0#8]
      ∧ ¬LaidOut .markTables [1#8, 0#8, 0#8, 0#8, 1#8, 0#8, 0#8, 1#8, 2#8, 0#8, 0#8] := by
  refine ⟨⟨by decide, ?_⟩, ?_, ?_, ?_⟩
  · rintro ⟨o, h⟩
    exact absurd (readBegin_eq.mpr h) (by simp [readBegin])
  · rintro ⟨p, cs, h⟩
    exact absurd (readCourse_eq.mpr h) (by simp [readCourse, readNumbers, num1])
  · rintro ⟨c, hc, n, hn, op, h⟩
    exact absurd (readRestock_eq.mpr ⟨hc, hn, h⟩) (by simp [readRestock, restockOfCode])
  · rintro ⟨r, op, h⟩
    exact absurd (readMarks_eq.mpr h) (by simp [readMarks, readRegion, orderOfCode])
/-- The operation CLEAR, with parameters that it does not use. -/
theorem witness_EveryTakenRequestGetsOneReply_laid :
    LaidOut .releaseWave (le1 5) ∧ LaidOut .markTables [1#8, 2#8, 0#8, 0#8, 1#8, 0#8, 0#8, 0#8, 2#8, 9#8, 9#8] :=
  ⟨⟨5, by decide, rfl⟩, ⟨.linear 0 1, .snake⟩, .clear, [2#8, 9#8, 9#8], ⟨by decide, by decide⟩, trivial, ⟨9#8, 9#8, by decide⟩,
    by decide⟩
theorem witness_RepliesLeaveInOrder :
    (kitchen.link.tx = .idle ∧ kitchen.link.replies = []) ∧ (talking kitchen).link.tx ≠ .idle := by decide
theorem witness_IdentifyGivesTheIdentity : Asks 0x01#8 [] (asked 0x01#8 [] evening) ∧ Asks 0x01#8 [0#8] (asked 0x01#8 [0#8] evening) := by
  decide
theorem witness_RestartStopsTheDecoderAndResets : Asks 0x02#8 [] (asked 0x02#8 [] evening) ∧ Asks 0x02#8 [0#8] (asked 0x02#8 [0#8] evening) := by
  decide
theorem witness_RestartStopsTheDecoderAndResets_end :
    (after .restart (asked 0x02#8 [] evening)).link.tx = .reply ⟨7#8, 0x02#8, .accepted {} .noFigures⟩
      ∧ (after .restart (asked 0x02#8 [] evening)).link.decoder = .stopped
      ∧ (after .restart (asked 0x02#8 [] evening)).stations.length = 24 := by decide
theorem witness_SetClockSetsTheClock :
    Asks 0x03#8 (le4 16777215) (asked 0x03#8 (le4 16777215) kitchen)
      ∧ Asks 0x03#8 (le4 16777216) (asked 0x03#8 (le4 16777216) kitchen)
      ∧ Asks 0x03#8 (le4 5) (asked 0x03#8 (le4 5) evening) ∧ evening.link.mode = .service := by decide
theorem witness_SetClockSetsTheClock_malformed :
    Asks 0x03#8 [1#8] (asked 0x03#8 [1#8] kitchen) ∧ (req 0x03#8 [1#8]).body.length ≠ 4 := by decide
theorem witness_QueryClockGivesTheReading :
    Asks 0x04#8 [] (asked 0x04#8 [] (atReading 16777215 kitchen)) ∧ Asks 0x04#8 [0#8] (asked 0x04#8 [0#8] kitchen) := by decide
theorem witness_BeginServiceStartsTheService :
    Asks 0x05#8 (beginBody none) (asked 0x05#8 (beginBody none) kitchen) ∧ fitsBelow 65536 (none : Option Nat)
      ∧ Asks 0x05#8 (beginBody (some 600)) (asked 0x05#8 (beginBody (some 600)) kitchen) ∧ fitsBelow 65536 (some 600)
      ∧ Asks 0x05#8 (beginBody (some 601)) (asked 0x05#8 (beginBody (some 601)) kitchen) ∧ fitsBelow 65536 (some 601) := by decide

/-- A part whose only station names an alternate that is not defined. -/
def lonelyKitchen : State :=
  { kitchen with stations := here grill :: List.replicate 23 {} }

theorem witness_BeginServiceStartsTheService_alternate :
    ∃ st ∈ lonelyKitchen.stations, ∃ a ∈ st.config.bind StationConfig.alternate, (station lonelyKitchen a).config = none := by decide
theorem witness_EndServiceTearsTheServiceDown :
    Asks 0x06#8 (le1 2) (asked 0x06#8 (le1 2) evening) ∧ Asks 0x06#8 (le1 1) (asked 0x06#8 (le1 1) kitchen)
      ∧ (asked 0x06#8 (le1 1) kitchen).link.mode = .setup := by decide
theorem witness_EndServiceTearsTheServiceDown_state :
    Asks 0x06#8 (le1 0) (asked 0x06#8 (le1 0) stagedEvening) ∧ stagedEvening.link.mode = .service
      ∧ ∃ w < 64, waveState stagedEvening w ≠ .free := by decide +kernel
theorem witness_EndServiceTearsTheServiceDown_forced :
    Asks 0x06#8 (le1 1) (asked 0x06#8 (le1 1) (dining (cooking fish) roll plate))
      ∧ (dining (cooking fish) roll plate).link.mode = .service := by decide
theorem witness_EndServiceTearsTheServiceDown_calm :
    Asks 0x06#8 (le1 0) (asked 0x06#8 (le1 0) evening) ∧ evening.link.mode = .service ∧ ∀ w < 64, waveState evening w = .free := by
  decide +kernel
theorem witness_EndServiceTearsTheServiceDown_sound :
    Sound (asked 0x06#8 (le1 1) (dining (cooking fish) roll plate)) ∧ Sound (asked 0x06#8 (le1 0) evening) :=
  ⟨sound_of (by decide +kernel), sound_of (by decide +kernel)⟩
/-- The same with station 0 DERATED, which the teardown takes back to NORMAL; and with nothing to cancel. -/
theorem witness_EndServiceTearsTheServiceDown_whole :
    (∃ s, s = asked 0x06#8 (le1 1) (grillWith (fun st => { st with load := ⟨150, .derated, some 1005⟩ }) (dining (cooking fish) roll plate))
        ∧ (station s 0).load.state = .derated ∧ waveState s 5 ≠ .free
        ∧ Sound s ∧ LinesSound s ∧ CountersInRange s ∧ StoresCanonical s ∧ UndefinedAtRest s)
      ∧ LinesSound (asked 0x06#8 (le1 0) evening) ∧ CountersInRange (asked 0x06#8 (le1 0) evening)
        ∧ StoresCanonical (asked 0x06#8 (le1 0) evening) ∧ UndefinedAtRest (asked 0x06#8 (le1 0) evening) :=
  ⟨⟨_, rfl, by decide, by decide, sound_of (by decide +kernel), by decide +kernel⟩, by decide +kernel⟩

/-! ## Witnesses: definitions -/

theorem witness_DefineStationWritesTheRecord :
    Asks 0x07#8 (stationBody 23 grill) (asked 0x07#8 (stationBody 23 grill) kitchen) ∧ kitchen.stations.length = 24 ∧ 23 < 256
      ∧ grill.positions < 256 ∧ grill.queueLimit < 256 ∧ grill.carry < 65536 ∧ grill.derateLevel < 65536
      ∧ grill.tripLevel < 65536 ∧ grill.coolStep < 65536 ∧ grill.derateStretch < 256 ∧ fitsBelow 256 grill.alternate := by decide
theorem witness_DefineStationWritesTheRecord_range :
    Asks 0x07#8 (stationBody 24 oven) (asked 0x07#8 (stationBody 24 oven) kitchen) ∧ fitsBelow 256 oven.alternate := by decide
theorem witness_DefineComponentWritesTheRecord_range :
    Asks 0x08#8 (componentBody 512 bread) (asked 0x08#8 (componentBody 512 bread) kitchen) ∧ bread.station < 256
      ∧ bread.cookTime < 65536 ∧ bread.holdWindow < 65536 ∧ fitsBelow 65536 bread.stock ∧ fitsBelow 65536 bread.lowLevel
      ∧ 511 < 512 := by decide

/-- A component at the ends of its ranges. -/
def longRoast : Component := ⟨1, 5400, 900, some 9999, some 9999⟩

theorem witness_DefineComponentWritesTheRecord :
    Asks 0x08#8 (componentBody 511 longRoast) (asked 0x08#8 (componentBody 511 longRoast) kitchen)
      ∧ fitsBelow 65536 longRoast.stock ∧ fitsBelow 65536 longRoast.lowLevel ∧ longRoast.station ≤ 23 ∧ 1 ≤ longRoast.cookTime
      ∧ longRoast.cookTime ≤ 5400 ∧ longRoast.holdWindow ≤ 900 ∧ (∀ n ∈ longRoast.stock, n ≤ 9999)
      ∧ (∀ l ∈ longRoast.lowLevel, 1 ≤ l ∧ l ≤ 9999) ∧ (longRoast.stock = none → longRoast.lowLevel = none)
      ∧ kitchen.link.mode = .setup ∧ (station kitchen longRoast.station).config ≠ none := by decide
theorem witness_DefineComponentWritesTheRecord_refused :
    (Asks 0x08#8 (componentBody 0 bread) (asked 0x08#8 (componentBody 0 bread) evening) ∧ evening.link.mode = .service)
      ∧ Asks 0x08#8 (componentBody 0 { bread with station := 23 }) (asked 0x08#8 (componentBody 0 { bread with station := 23 }) kitchen)
      ∧ (station kitchen 23).config = none := by decide
theorem witness_DefineCourseWritesThePlan_range :
    Asks 0x0A#8 (courseBody 128 [3]) (asked 0x0A#8 (courseBody 128 [3]) kitchen) ∧ [3].length < 256 ∧ (∀ c ∈ [3], c < 65536)
      ∧ ¬([3, 3] : List Nat).Nodup := by decide
theorem witness_DefineCourseWritesThePlan :
    Asks 0x0A#8 (courseBody 127 [4, 3]) (asked 0x0A#8 (courseBody 127 [4, 3]) kitchen) ∧ ([4, 3] : List Nat) ≠ []
      ∧ [4, 3].length ≤ 8 ∧ (∀ c ∈ [4, 3], c ≤ 511) ∧ ([4, 3] : List Nat).Nodup ∧ kitchen.link.mode = .setup
      ∧ (∀ c ∈ [4, 3], kitchen.components.get? c ≠ none) ∧ ∃ c ∈ [511], kitchen.components.get? c = none := by decide
theorem witness_DefineCourseWritesThePlan_mode :
    Asks 0x0A#8 (courseBody 0 [4]) (asked 0x0A#8 (courseBody 0 [4]) evening) ∧ evening.link.mode = .service := by decide
theorem witness_DefineFloorResetsEveryTable_range :
    Asks 0x0B#8 (le1 41 ++ le1 1) (asked 0x0B#8 (le1 41 ++ le1 1) kitchen) ∧ 40 < 41 := by decide
theorem witness_DefineFloorResetsEveryTable :
    Asks 0x0B#8 (le1 40 ++ le1 10) (asked 0x0B#8 (le1 40 ++ le1 10) kitchen) ∧ 40 * 10 ≤ 400 ∧ kitchen.link.mode = .setup := by decide
theorem witness_DefineFloorResetsEveryTable_mode :
    Asks 0x0B#8 (le1 1 ++ le1 1) (asked 0x0B#8 (le1 1 ++ le1 1) evening) ∧ evening.link.mode = .service := by decide

/-- A SET_TABLE of the floor's last table, with all its covers replaced. -/
def lastTable : TableForm := ⟨5, 16, 15, [⟨3, 4, 16⟩]⟩

theorem witness_SetTableWritesTheRecord :
    Asks 0x0C#8 (tableBody lastTable) (asked 0x0C#8 (tableBody lastTable) evening) ∧ lastTable.table ≤ 399 ∧ lastTable.covers ≤ 16
      ∧ lastTable.mark ≤ 15 ∧ lastTable.entries.length ≤ 4
      ∧ (∀ e ∈ lastTable.entries, e.source ≤ 511 ∧ e.target ≤ 511 ∧ e.target ≠ e.source ∧ 1 ≤ e.count ∧ e.count ≤ 16
        ∧ ((lastTable.entries.filter fun d => decide (d.source = e.source)).map Substitution.count).sum ≤ lastTable.covers)
      ∧ (lastTable.entries.map fun e => (e.source, e.target)).Nodup
      ∧ lastTable.table < evening.floor.rows * evening.floor.columns
      ∧ (∀ e ∈ lastTable.entries, evening.components.get? e.source ≠ none ∧ evening.components.get? e.target ≠ none)
      ∧ (tableRecord evening lastTable.table).liveCourses = [] ∧ evening.engine.status ≠ .running := by decide
theorem witness_SetTableWritesTheRecord_range :
    Asks 0x0C#8 (tableBody ⟨400, 0, 0, []⟩) (asked 0x0C#8 (tableBody ⟨400, 0, 0, []⟩) evening) ∧ 399 < 400 := by decide
theorem witness_SetTableWritesTheRecord_noSuch :
    Asks 0x0C#8 (tableBody ⟨6, 0, 0, []⟩) (asked 0x0C#8 (tableBody ⟨6, 0, 0, []⟩) evening)
      ∧ evening.floor.rows * evening.floor.columns ≤ 6 := by decide
theorem witness_SetTableWritesTheRecord_state :
    Asks 0x0C#8 (tableBody ⟨0, 4, 0, []⟩) (asked 0x0C#8 (tableBody ⟨0, 4, 0, []⟩) (dining fish roll plate))
      ∧ (tableRecord (dining fish roll plate) 0).liveCourses ≠ [] := by decide
theorem witness_SetTableWritesTheRecord_busy :
    Asks 0x0C#8 (tableBody ⟨0, 4, 0, []⟩) (asked 0x0C#8 (tableBody ⟨0, 4, 0, []⟩) releasingEvening)
      ∧ (tableRecord releasingEvening 0).liveCourses = [] ∧ releasingEvening.engine.status = .running := by decide

/-- A region wider than the floor. -/
def wideRow : Region := ⟨.rect 1 2 40 1, .snake⟩

theorem witness_MarkTablesChangesMarks :
    Asks 0x0D#8 (regionBytes wideRow ++ markOpBytes (.replace 0 15)) (asked 0x0D#8 (regionBytes wideRow ++ markOpBytes (.replace 0 15)) evening)
      ∧ placementFits wideRow.placement ∧ markOpFits (.replace 0 15) ∧ RegionFits evening.floor wideRow
      ∧ cutSize evening.floor wideRow = some (1, 1) ∧ evening.engine.status ≠ .running := by
  refine ⟨by decide, ?_, ?_, ?_, by decide, by decide⟩ <;> simp [placementFits, markOpFits, RegionFits, wideRow, evening, kitchen]
/-- Regions up to the floor's edge, which need no cut, and LINEAR ones one table past it. -/
theorem witness_MarkTablesChangesMarks_edge :
    (RegionFits evening.floor ⟨.rect 0 0 3 2, .forward⟩ ∧ cutSize evening.floor ⟨.rect 0 0 3 2, .forward⟩ = none)
      ∧ (RegionFits evening.floor ⟨.linear 5 1, .forward⟩ ∧ cutSize evening.floor ⟨.linear 5 1, .forward⟩ = none)
      ∧ RegionFits evening.floor ⟨.linear 0 400, .forward⟩ ∧ cutSize evening.floor ⟨.linear 0 400, .forward⟩ = some (6, 0) := by
  refine ⟨⟨?_, by decide⟩, ⟨?_, by decide⟩, ?_, by decide⟩ <;> simp [RegionFits, evening, kitchen]
theorem witness_MarkTablesChangesMarks_range :
    Asks 0x0D#8 (regionBytes wideRow ++ markOpBytes (.setMark 16)) (asked 0x0D#8 (regionBytes wideRow ++ markOpBytes (.setMark 16)) evening)
      ∧ markOpFits (.setMark 16) ∧ ¬16 ≤ 15 := by
  refine ⟨by decide, ?_, by decide⟩; simp [markOpFits]
/-- An origin row at the floor's rows, a start at its size, and a width of 0 and of 41. -/
theorem witness_MarkTablesChangesMarks_off :
    ¬RegionFits evening.floor ⟨.rect 2 0 1 1, .forward⟩ ∧ ¬RegionFits evening.floor ⟨.linear 6 1, .forward⟩
      ∧ ¬RegionFits evening.floor ⟨.rect 0 0 0 1, .forward⟩ ∧ ¬RegionFits evening.floor ⟨.rect 0 0 41 1, .forward⟩ := by
  simp [RegionFits, evening, kitchen]
theorem witness_MarkTablesChangesMarks_busy :
    Asks 0x0D#8 (regionBytes wideRow ++ markOpBytes .clear) (asked 0x0D#8 (regionBytes wideRow ++ markOpBytes .clear) releasingEvening)
      ∧ RegionFits releasingEvening.floor wideRow ∧ releasingEvening.engine.status = .running := by
  refine ⟨by decide, ?_, by decide⟩
  simp [RegionFits, wideRow, releasingEvening, withWave, evening, kitchen]
theorem witness_RestockChangesOneCount :
    Asks 0x0E#8 (le2 3 ++ restockOpBytes .add ++ le2 65535) (asked 0x0E#8 (le2 3 ++ restockOpBytes .add ++ le2 65535) evening)
      ∧ evening.components.get? 3 = some salmon ∧ salmon.stock = some 20
      ∧ Asks 0x0E#8 (le2 3 ++ restockOpBytes .set ++ le2 9999) (asked 0x0E#8 (le2 3 ++ restockOpBytes .set ++ le2 9999) evening) := by
  decide
theorem witness_RestockChangesOneCount_refused :
    Asks 0x0E#8 (le2 3 ++ restockOpBytes .set ++ le2 10000) (asked 0x0E#8 (le2 3 ++ restockOpBytes .set ++ le2 10000) evening)
      ∧ 9999 < 10000 ∧ evening.components.get? 511 = none ∧ evening.components.get? 4 = some bread ∧ bread.stock = none := by decide

/-! ## Witnesses: queries -/

theorem witness_QueriesOfDefinitionsAnswer :
    Asks 0x0F#8 (le1 24) (asked 0x0F#8 (le1 24) evening) ∧ Asks 0x0F#8 (le1 1) (asked 0x0F#8 (le1 1) evening)
      ∧ Asks 0x10#8 (le2 512) (asked 0x10#8 (le2 512) evening) ∧ Asks 0x10#8 (le2 3) (asked 0x10#8 (le2 3) evening)
      ∧ Asks 0x11#8 (le2 400) (asked 0x11#8 (le2 400) evening) ∧ Asks 0x11#8 (le2 5) (asked 0x11#8 (le2 5) evening) := by decide
theorem witness_QueriesOfTheServiceAnswer :
    Asks 0x12#8 (le1 64) (asked 0x12#8 (le1 64) stagedEvening) ∧ Asks 0x12#8 (le1 5) (asked 0x12#8 (le1 5) stagedEvening)
      ∧ Asks 0x09#8 (le2 1024) (asked 0x09#8 (le2 1024) evening) ∧ Asks 0x09#8 (le2 7) (asked 0x09#8 (le2 7) (dining fish roll plate))
      ∧ Asks 0x13#8 (le2 4096) (asked 0x13#8 (le2 4096) evening) ∧ Asks 0x13#8 (le2 10) (asked 0x13#8 (le2 10) (dining fish roll plate)) := by
  decide

/-! ## Witnesses: waves -/

/-- A STAGE_WAVE at the ends of its ranges; the last go time is 16,777,215. -/
def lateForm : StageForm := ⟨63, 0, ⟨.linear 0 400, .reverse⟩, 16777095, 200, some 15⟩

theorem witness_StageWaveRecordsThePlan :
    (Asks 0x14#8 (stageBody lateForm) (asked 0x14#8 (stageBody lateForm) evening) ∧ fitsBelow 256 lateForm.skipMark)
      ∧ placementFits lateForm.region.placement ∧ lateForm.wave ≤ 63 ∧ lateForm.course ≤ 127 ∧ lateForm.goTime ≤ 16777215
      ∧ (∀ m ∈ lateForm.skipMark, 1 ≤ m ∧ m ≤ 15) ∧ RegionFits evening.floor lateForm.region
      ∧ servedTables evening lateForm.course lateForm.skipMark lateForm.region = [1, 0]
      ∧ lateForm.goTime + (2 - 1) * min lateForm.stagger 120 ≤ 16777215 ∧ evening.link.mode = .service
      ∧ evening.courses.get? lateForm.course ≠ none ∧ waveState evening lateForm.wave = .free := by
  refine ⟨by decide, ?_, by decide, by decide, by decide, by decide, ?_, by decide, by decide, by decide, by decide, by decide⟩ <;>
    simp [placementFits, RegionFits, lateForm, evening, kitchen]
theorem witness_StageWaveRecordsThePlan_range :
    Asks 0x14#8 (stageBody { lateForm with goTime := 16777096 }) (asked 0x14#8 (stageBody { lateForm with goTime := 16777096 }) evening)
      ∧ servedTables evening lateForm.course lateForm.skipMark lateForm.region ≠ [] ∧ 16777215 < 16777096 + (2 - 1) * min 200 120 := by
  decide
theorem witness_StageWaveRecordsThePlan_mode :
    Asks 0x14#8 (stageBody lateForm) (asked 0x14#8 (stageBody lateForm) kitchen) ∧ kitchen.link.mode = .setup := by decide
theorem witness_StageWaveRecordsThePlan_noSuch :
    Asks 0x14#8 (stageBody { lateForm with course := 127 }) (asked 0x14#8 (stageBody { lateForm with course := 127 }) evening)
      ∧ evening.courses.get? 127 = none := by decide
theorem witness_StageWaveRecordsThePlan_state :
    Asks 0x14#8 (stageBody { lateForm with wave := 5 }) (asked 0x14#8 (stageBody { lateForm with wave := 5 }) stagedEvening)
      ∧ waveState stagedEvening 5 ≠ .free := by decide
theorem witness_StageWaveRecordsThePlan_empty :
    Asks 0x14#8 (stageBody { lateForm with region := wideRow }) (asked 0x14#8 (stageBody { lateForm with region := wideRow }) evening)
      ∧ servedTables evening lateForm.course lateForm.skipMark wideRow = [] ∧ RegionFits evening.floor wideRow := by
  refine ⟨by decide, by decide, ?_⟩
  simp [RegionFits, wideRow, evening, kitchen]
/-- A walk order code of 3. -/
theorem witness_StageWaveRecordsThePlan_malformed :
    let body : List Byte := [5#8, 0#8, 1#8, 3#8, 0#8, 0#8, 1#8, 0#8, 0#8, 0#8, 0#8, 0#8, 0#8, 0#8, 0#8, 0#8]
    Asks 0x14#8 body (asked 0x14#8 body evening) ∧ ∀ h, stageFits h → body ≠ stageBody h :=
  ⟨by decide, fun _ hf e => absurd (readStage_eq.mpr ⟨hf, e⟩) (by simp [readStage, readRegion, orderOfCode])⟩

/-- The tickets that the staged wave's release walk makes. -/
def walkTickets : Nat :=
  ((servedTables stagedEvening 0 none oneWave.region).map fun u =>
    (ticketList (coursePlan stagedEvening 0) (tableRecord stagedEvening u)).length).sum

theorem witness_ReleaseWaveSetsTheWaveAside :
    Asks 0x15#8 (le1 5) (asked 0x15#8 (le1 5) stagedEvening) ∧ stagedEvening.link.mode = .service
      ∧ wave? stagedEvening 5 = some oneWave ∧ oneWave.state = .staged
      ∧ servedTables stagedEvening oneWave.course oneWave.skipMark oneWave.region = [0, 1]
      ∧ oneWave.goTime + (2 - 1) * oneWave.stagger ≤ 16777215 ∧ stagedEvening.engine.status ≠ .running
      ∧ walkTickets ≤ stagedEvening.ticketPool.free ∧ 2 ≤ stagedEvening.groupPool.free := by decide
theorem witness_ReleaseWaveSetsTheWaveAside_covered :
    ¬∃ c, Short stagedEvening c (plannedNeed stagedEvening 0 (servedTables stagedEvening 0 none oneWave.region) c) := by
  rintro ⟨c, n, hn, hc⟩
  by_cases h3 : c = 3
  · subst h3
    have h20 : n = 20 := by
      have : stockOf stagedEvening 3 = some 20 := by decide
      rw [this] at hn
      exact (Option.mem_some_iff.mp hn).symm
    have : plannedNeed stagedEvening 0 (servedTables stagedEvening 0 none oneWave.region) 3 = 6 := by decide
    omega
  · have : stockOf stagedEvening c = none := by
      by_cases h4 : c = 4
      · subst h4; decide
      · simp [stockOf, stagedEvening, withWave, evening, kitchen, Store.get?, Ne.symm h3, Ne.symm h4]
    simp [this] at hn
theorem witness_ReleaseWaveSetsTheWaveAside_noStock :
    Asks 0x15#8 (le1 5) (asked 0x15#8 (le1 5) (setStock 3 5 stagedEvening))
      ∧ Short (setStock 3 5 stagedEvening) 3
        (plannedNeed (setStock 3 5 stagedEvening) 0 (servedTables (setStock 3 5 stagedEvening) 0 none oneWave.region) 3) := by decide
theorem witness_ReleaseWaveSetsTheWaveAside_rising :
    stagedEvening.components.rising = true ∧ (setStock 3 5 stagedEvening).components.rising = true ∧ 0 < walkTickets := by decide
theorem witness_ReleaseWaveSetsTheWaveAside_refused :
    (wave? (withWave { oneWave with goTime := 16777186 } evening) 5 = some { oneWave with goTime := 16777186 }
        ∧ 16777215 < 16777186 + (2 - 1) * oneWave.stagger)
      ∧ servedTables stagedEvening 0 none wideRow = []
      ∧ { stagedEvening with engine := { status := .running, wave := some 9 } }.engine.status = .running
      ∧ { stagedEvening with ticketPool := ⟨3, 0, 4093⟩ }.ticketPool.free < walkTickets
      ∧ { stagedEvening with groupPool := ⟨1, 0, 1023⟩ }.groupPool.free < 2 := by decide
theorem witness_ReleaseWaveSetsTheWaveAside_numbers :
    Asks 0x15#8 (le1 64) (asked 0x15#8 (le1 64) evening) ∧ Asks 0x15#8 (le1 255) (asked 0x15#8 (le1 255) evening)
      ∧ (Asks 0x15#8 (le1 63) (asked 0x15#8 (le1 63) kitchen) ∧ waveState kitchen 63 ≠ .staged ∧ kitchen.link.mode = .setup)
      ∧ (Asks 0x15#8 (le1 5) (asked 0x15#8 (le1 5) heldEvening) ∧ waveState heldEvening 5 ≠ .staged ∧ heldEvening.link.mode = .service)
      ∧ wave? (withWave oneWave kitchen) 5 = some oneWave ∧ (withWave oneWave kitchen).link.mode = .setup := by decide
theorem witness_HoldWaveFreezesTheWave :
    Asks 0x16#8 (le1 5) (asked 0x16#8 (le1 5) (dining (cooking fish) roll plate))
      ∧ (dining (cooking fish) roll plate).link.mode = .service
      ∧ wave? (dining (cooking fish) roll plate) 5 = some servingWave ∧ servingWave.state = .active := by decide
theorem witness_HoldWaveFreezesTheWave_refused :
    Asks 0x16#8 (le1 64) (asked 0x16#8 (le1 64) evening) ∧ (Asks 0x16#8 (le1 63) (asked 0x16#8 (le1 63) kitchen) ∧ kitchen.link.mode = .setup)
      ∧ Asks 0x16#8 (le1 63) (asked 0x16#8 (le1 63) evening) ∧ evening.link.mode = .service ∧ waveState evening 63 ≠ .active := by decide
theorem witness_ResumeWaveMovesUnstartedGroups :
    Asks 0x17#8 (resumeBody 5 (some 900)) (asked 0x17#8 (resumeBody 5 (some 900)) heldEvening) ∧ (∀ v ∈ some 900, v ≤ 16777215)
      ∧ heldEvening.link.mode = .service ∧ (wave? heldEvening 5).map Wave.state = some .held
      ∧ (wave? heldEvening 5).bind Wave.holdSince = some 1000 ∧ heldEvening.groups.rising = true
      ∧ max ((some 900).getD 0) heldEvening.clock ≤ 16777215
      ∧ ∀ e ∈ heldEvening.groups, e.2.wave = 5 → 1000 + e.2.orderIndex * oneWave.stagger ≤ 16777215 := by decide
theorem witness_ResumeWaveMovesUnstartedGroups_range :
    Asks 0x17#8 (resumeBody 5 none) (asked 0x17#8 (resumeBody 5 none) (atReading 16776216 heldEvening))
      ∧ (wave? (atReading 16776216 heldEvening) 5).bind Wave.holdSince = some 1000
      ∧ 16777215 < max (2000 + ((atReading 16776216 heldEvening).clock - 1000)) (atReading 16776216 heldEvening).clock := by decide
theorem witness_ResumeWaveMovesUnstartedGroups_sound :
    Sound (asked 0x17#8 (resumeBody 5 none) heldEvening) ∧ LinesSound (asked 0x17#8 (resumeBody 5 none) heldEvening) :=
  ⟨sound_of (by decide +kernel), by decide +kernel⟩
theorem witness_ResumeWaveMovesUnstartedGroups_refused :
    Asks 0x17#8 (resumeBody 64 none) (asked 0x17#8 (resumeBody 64 none) heldEvening) ∧ fitsBelow 4294967296 (none : Option Nat)
      ∧ (Asks 0x17#8 (resumeBody 5 (some 16777216)) (asked 0x17#8 (resumeBody 5 (some 16777216)) heldEvening)
        ∧ fitsBelow 4294967296 (some 16777216) ∧ 16777215 < 16777216)
      ∧ (Asks 0x17#8 (resumeBody 63 (some 16777215)) (asked 0x17#8 (resumeBody 63 (some 16777215)) kitchen)
        ∧ waveState kitchen 63 ≠ .held ∧ kitchen.link.mode = .setup)
      ∧ (waveState stagedEvening 5 ≠ .held ∧ stagedEvening.link.mode = .service)
      ∧ (waveState (withWave { servingWave with state := .held, holdSince := some 1000 } kitchen) 5 = .held
        ∧ (withWave { servingWave with state := .held, holdSince := some 1000 } kitchen).link.mode = .setup) := by decide
theorem witness_CancelWaveFreesTheWave :
    (Asks 0x18#8 (le1 63) (asked 0x18#8 (le1 63) evening) ∧ evening.link.mode = .service ∧ waveState evening 63 = .free)
      ∧ (Asks 0x18#8 (le1 5) (asked 0x18#8 (le1 5) heldEvening) ∧ heldEvening.link.mode = .service ∧ waveState heldEvening 5 ≠ .free
        ∧ heldEvening.groups.rising = true)
      ∧ waveState releasingEvening 5 = .releasing := by decide
theorem witness_CancelWaveFreesTheWave_sound :
    (Sound (asked 0x18#8 (le1 5) heldEvening) ∧ LinesSound (asked 0x18#8 (le1 5) heldEvening)
        ∧ CountersInRange (asked 0x18#8 (le1 5) heldEvening))
      ∧ Sound (asked 0x18#8 (le1 5) releasingEvening) ∧ LinesSound (asked 0x18#8 (le1 5) releasingEvening)
        ∧ CountersInRange (asked 0x18#8 (le1 5) releasingEvening) :=
  ⟨⟨sound_of (by decide +kernel), by decide +kernel⟩, sound_of (by decide +kernel), by decide +kernel⟩
theorem witness_CancelWaveFreesTheWave_refused :
    Asks 0x18#8 (le1 64) (asked 0x18#8 (le1 64) evening) ∧ 63 < 64 ∧ Asks 0x18#8 (le1 255) (asked 0x18#8 (le1 255) evening)
      ∧ Asks 0x18#8 (le1 63) (asked 0x18#8 (le1 63) kitchen) ∧ kitchen.link.mode = .setup := by decide
theorem witness_StagingLapseFreesTheWave :
    wave? (atReading 1500 stagedEvening) 5 = some oneWave ∧ oneWave.state = .staged
      ∧ oneWave.stagedAt + 600 ≤ (atReading 1500 stagedEvening).clock
      ∧ wave? (atReading 1499 stagedEvening) 5 = some oneWave ∧ (atReading 1499 stagedEvening).clock < oneWave.stagedAt + 600
      ∧ HostSettled (atReading 1499 stagedEvening) := by decide
theorem witness_StagingLapseFreesTheWave_free :
    wave? stagedEvening 63 = none ∧ HostSettled stagedEvening
      ∧ waveState (after .cancelWave (asked 0x18#8 (le1 5) stagedEvening)) 5 = .free := by decide +kernel
theorem witness_ReleaseVisitCreatesTheGroup :
    releasingEvening.engine.status = .running ∧ releasingEvening.engine.wave = some 5 ∧ releasingEvening.engine.next = 0
      ∧ releasingEvening.engine.plan[0]? = some ⟨0, [(3, 4), (4, 4)]⟩ ∧ (wave? releasingEvening 5).isSome = true
      ∧ 0 + 1 < releasingEvening.engine.plan.length := by decide
theorem witness_ReleaseVisitCreatesTheGroup_last :
    (after .releaseVisit releasingEvening).engine.status = .running ∧ (after .releaseVisit releasingEvening).engine.wave = some 5
      ∧ (after .releaseVisit releasingEvening).engine.next = 1
      ∧ (after .releaseVisit releasingEvening).engine.plan[1]? = some ⟨1, [(3, 2), (4, 2)]⟩
      ∧ (after .releaseVisit releasingEvening).engine.plan.length ≤ 1 + 1
      ∧ (wave? (after .releaseVisit releasingEvening) 5).isSome = true := by decide
theorem witness_ReleaseVisitCreatesTheGroup_counts :
    let s := after .releaseVisit releasingEvening
    (wave? s 5).map (fun wv => (wv.reservedTickets, wv.reservedGroups)) = some (2, 1) ∧ s.ticketPool.reserved = 2
      ∧ s.groupPool.reserved = 1 ∧ (wave? s 5).map (fun wv => (wv.ending, wv.release.groups)) = some ({}, 1)
      ∧ s.link.seq ≤ 4294967295 ∧ HostSettled s := by decide
/-- Both fire times, 1850 - 0 and 1920, lie before 1950: one branch; at 1000, after it: the other. -/
theorem witness_ReleaseVisitCreatesTheGroup_due :
    fireTimeAt releasingEvening 0 3 2000 = 1850 ∧ fireTimeAt releasingEvening 1 4 2000 = 1920
      ∧ (releasingEvening.clock : Int) < 1850 ∧ (1920 : Int) ≤ (atReading 1950 releasingEvening).clock := by decide
/-- A visit whose tickets are calendared, one whose tickets are due, and the last one. -/
theorem witness_ReleaseVisitCreatesTheGroup_sound :
    (Sound releasingEvening ∧ LinesSound releasingEvening)
      ∧ (Sound (atReading 1950 releasingEvening) ∧ LinesSound (atReading 1950 releasingEvening))
      ∧ Sound (after .releaseVisit releasingEvening) ∧ LinesSound (after .releaseVisit releasingEvening) :=
  ⟨⟨sound_of (by decide +kernel), by decide +kernel⟩, ⟨sound_of (by decide +kernel), by decide +kernel⟩,
    sound_of (by decide +kernel), by decide +kernel⟩

/-! ## Witnesses: tickets and stations -/

theorem witness_FireExpiryOffersDueTickets :
    ((atReading 1850 (dining fish roll plate)).calendar.filter fun n =>
        (ticket? (atReading 1850 (dining fish roll plate)) n).any fun tk =>
          decide (tk.fireTime = ((atReading 1850 (dining fish roll plate)).clock : Int)
            ∧ tk.wave ∉ (atReading 1850 (dining fish roll plate)).frozen)) = [10]
      ∧ ticket? (atReading 1850 (dining fish roll plate)) 10 = some fish ∧ fish.homeStation < 24
      ∧ Able (atReading 1850 (dining fish roll plate)) 0 := by decide
theorem witness_FireExpiryOffersDueTickets_sound :
    let s := atReading 1850 (dining fish { roll with fireTime := 1850 } plate)
    Sound s ∧ LinesSound s ∧ HostSettled s
      ∧ (s.calendar.filter fun n => (ticket? s n).any fun tk =>
          decide (tk.fireTime = (s.clock : Int) ∧ tk.wave ∉ s.frozen)) = [10, 11] :=
  ⟨sound_of (by decide +kernel), by decide +kernel⟩
theorem witness_FireExpiryOffersDueTickets_alternate :
    let s := grillWith (fun st => { st with ordinaryQueue := [20, 21, 22] }) (dining fish roll plate)
    ¬Able s 0 ∧ ∃ a ∈ (station s 0).config.bind StationConfig.alternate, Able s a := by decide
theorem witness_FireExpiryOffersDueTickets_blocked :
    let s := grillWith (fun st => { st with load := { st.load with state := .tripped }, config := some { grill with alternate := none } })
      (dining fish roll plate)
    ¬Able s 0 ∧ ∀ a ∈ (station s 0).config.bind StationConfig.alternate, ¬Able s a := by decide
theorem witness_ReadyBringsTheTicketToThePass :
    Coherent (dining (cooking fish) (readySince 990 roll) { plate with state := .assembling })
      ∧ (station (dining (cooking fish) (readySince 990 roll) { plate with state := .assembling }) 0).config ≠ none
      ∧ (station (dining (cooking fish) (readySince 990 roll) { plate with state := .assembling }) 0).line.presence = .present
      ∧ ticket? (dining (cooking fish) (readySince 990 roll) { plate with state := .assembling }) (10#16 : Number).toNat
        = some (cooking fish)
      ∧ (cooking fish).station = 0 ∧ (cooking fish).state = .onLine ∧ (cooking fish).position ≠ none
      ∧ (group? (dining (cooking fish) (readySince 990 roll) { plate with state := .assembling }) 7).map Group.tickets = some [10, 11]
      ∧ ∀ o ∈ [10, 11], o = 10
        ∨ InState (dining (cooking fish) (readySince 990 roll) { plate with state := .assembling }) .ready o := by decide +kernel
theorem witness_ReadyBringsTheTicketToThePass_assembling :
    Coherent (dining { fish with state := .queued } roll plate)
      ∧ ticket? (dining { fish with state := .queued } roll plate) (10#16 : Number).toNat = some { fish with state := .queued }
      ∧ ∃ o ∈ [10, 11], o ≠ 10 ∧ ¬InState (dining { fish with state := .queued } roll plate) .ready o
        ∧ ¬InState (dining { fish with state := .queued } roll plate) .withdrawn o := by decide +kernel
theorem witness_ReadyBringsTheTicketToThePass_sound :
    (Sound (dining (cooking fish) (readySince 990 roll) { plate with state := .assembling })
        ∧ LinesSound (dining (cooking fish) (readySince 990 roll) { plate with state := .assembling })
        ∧ HostSettled (dining (cooking fish) (readySince 990 roll) { plate with state := .assembling }))
      ∧ Sound (dining { fish with state := .queued } roll plate) ∧ LinesSound (dining { fish with state := .queued } roll plate)
        ∧ HostSettled (dining { fish with state := .queued } roll plate) ∧ Departs { fish with state := .queued } evening
        ∧ ¬Departs (cooking fish) (dining (cooking fish) roll plate) :=
  ⟨⟨sound_of (by decide +kernel), by decide +kernel⟩, sound_of (by decide +kernel), by decide +kernel⟩
theorem witness_SpoilIsRemadeOrEscalated :
    Coherent (dining { cooking fish with generation := 1 } roll plate)
      ∧ (station (dining { cooking fish with generation := 1 } roll plate) 0).config ≠ none
      ∧ (station (dining { cooking fish with generation := 1 } roll plate) 0).line.presence = .present
      ∧ ticket? (dining { cooking fish with generation := 1 } roll plate) (10#16 : Number).toNat
        = some { cooking fish with generation := 1 }
      ∧ group? (dining { cooking fish with generation := 1 } roll plate) fish.group = some plate ∧ 10 ∈ plate.tickets
      ∧ { cooking fish with generation := 1 }.generation < 2
      ∧ 0 < (dining { cooking fish with generation := 1 } roll plate).ticketPool.free
      ∧ ¬Short (dining { cooking fish with generation := 1 } roll plate) fish.component fish.quantity := by decide +kernel
theorem witness_SpoilIsRemadeOrEscalated_escalated :
    Coherent (dining { cooking fish with generation := 2 } roll plate)
      ∧ ticket? (dining { cooking fish with generation := 2 } roll plate) (10#16 : Number).toNat
        = some { cooking fish with generation := 2 }
      ∧ 2 ≤ { cooking fish with generation := 2 }.generation
      ∧ { dining (cooking fish) roll plate with ticketPool := ⟨0, 4094, 2⟩ }.ticketPool.free = 0
      ∧ Short (setStock 3 3 (dining (cooking fish) roll plate)) fish.component fish.quantity := by decide +kernel
theorem witness_SpoilIsRemadeOrEscalated_sound :
    (Sound (dining (cooking fish) (readySince 990 roll) { plate with state := .assembling })
        ∧ LinesSound (dining (cooking fish) (readySince 990 roll) { plate with state := .assembling }))
      ∧ (Sound (dining { fish with state := .queued, generation := 2 } roll plate)
        ∧ LinesSound (dining { fish with state := .queued, generation := 2 } roll plate))
      ∧ Departs { fish with state := .queued, generation := 2 } evening
      ∧ group? (dining { fish with state := .queued, generation := 2 } roll plate) fish.group = some plate :=
  ⟨⟨sound_of (by decide +kernel), by decide +kernel⟩, ⟨sound_of (by decide +kernel), by decide +kernel⟩, by decide +kernel⟩
theorem witness_RecordsThatDoNotApplyAreStale_station :
    (station evening 1).config ≠ none ∧ (station evening 1).line.presence = .present ∧ HostSettled evening
      ∧ ticket? evening (10#16 : Number).toNat = none
      ∧ ticket? (dining (cooking fish) roll plate) (10#16 : Number).toNat = some (cooking fish) ∧ (cooking fish).station ≠ 1 := by decide
theorem witness_RecordsThatDoNotApplyAreStale_pass :
    evening.passLine.presence = .present ∧ HostSettled evening ∧ group? evening (1023#16 : Number).toNat = none
      ∧ (dining (cooking fish) roll plate).passLine.presence = .present
      ∧ (group? (dining (cooking fish) roll plate) 7).map Group.state ≠ some .complete
      ∧ (ticket? (dining (cooking fish) roll plate) 10).map Ticket.state = some .onLine
      ∧ 2 < { readySince 990 fish with generation := 3 }.generation := by decide

theorem witness_RecordsThatDoNotApplyAreStale_noStock :
    let s := setStock 3 3 (dining (readySince 990 { fish with generation := 2 }) roll { plate with state := .assembling })
    s.passLine.presence = .present ∧ (group? s (7#16 : Number).toNat).map Group.tickets = some [10, 11]
      ∧ (ticket? s (10#16 : Number).toNat).map (fun tk => (tk.state, tk.generation, tk.component, tk.quantity)) = some (.ready, 2, 3, 4)
      ∧ 0 < s.ticketPool.free ∧ stockOf s 3 = some 3 := by decide +kernel

/-- The pass line's transmitter busy, with this many records waiting. -/
def passWaiting (n : Nat) : State :=
  { evening with passLine :=
      { presence := .present, queue := List.replicate n (.go 1 false), tx := .sending (.go 1 false) } }

theorem witness_LineQueueTakesOrOverflows :
    HostSettled evening ∧ group? evening (0#16 : Number).toNat = none ∧ State.reset.passLine.presence = .absent
      ∧ (evening.passLine.presence = .present ∧ evening.passLine.refreshPending = false ∧ evening.passLine.tx = .idle
        ∧ evening.passLine.queue = [])
      ∧ ((passWaiting 31).passLine.tx ≠ .idle ∧ (passWaiting 31).passLine.queue.length < 32)
      ∧ (passWaiting 32).passLine.tx ≠ .idle ∧ 32 ≤ (passWaiting 32).passLine.queue.length := by decide
theorem witness_LineQueueTakesOrOverflows_pending :
    HostSettled (after .passResync (passWaiting 0)) ∧ group? (after .passResync (passWaiting 0)) (0#16 : Number).toNat = none
      ∧ (after .passResync (passWaiting 0)).passLine.presence = .present
      ∧ (after .passResync (passWaiting 0)).passLine.refreshPending = true := by decide
theorem witness_LineQueueTakesOrOverflows_sound :
    LineSound (lineOf evening (.station 0)) ∧ LineSound (lineOf (passWaiting 32) .pass) ∧ LineSound (lineOf State.reset .pass)
      ∧ (station evening 0).config ≠ none ∧ HostSettled evening ∧ ticket? evening (10#16 : Number).toNat = none := by decide
theorem witness_ResyncAsksForARefresh :
    evening.stations.length = 24 ∧ (station evening 1).config = some oven ∧ (station evening 1).line.presence = .present
      ∧ (station evening 1).line.tx = .idle ∧ evening.passLine.presence = .present ∧ evening.passLine.tx = .idle
      ∧ (passWaiting 3).passLine.tx ≠ .idle := by decide
theorem witness_LinesDiscardWhatTheyDoNotTake :
    (LineId.station 23).inPart = true ∧ HostSettled evening ∧ (lineOf evening (.station 23)).receiver = .hunting
      ∧ (lineOf evening .pass).receiver = .hunting ∧ (req 0xB0#8 [1#8, 0#8]).body.length ≤ 248
      ∧ ((1#8 : Byte).toNat < 2 ∨ 250 < (1#8 : Byte).toNat) ∧ byteSum (req 0xB0#8 [1#8, 0#8]).covered + 0#8 ≠ 0#8
      ∧ (station evening 23).config = none ∧ (req 0xB2#8 []).kind ≠ 0xE0#8 ∧ (req 0xB2#8 []).kind ≠ 0xE1#8
      ∧ (req 0xB2#8 []).kind ≠ 0xE2#8 := by decide
theorem witness_LinesDiscardWhatTheyDoNotTake_records :
    (23 ≤ 23 ∧ HostSettled evening ∧ (station evening 23).config = none ∧ (station State.reset 23).config = none)
      ∧ (let s := after (.presenceFall 0) (talking evening)
        HostSettled s ∧ (station s 0).line.presence = .absent ∧ (station s 0).config ≠ none)
      ∧ HostSettled (after .passPresenceFall evening) ∧ (after .passPresenceFall evening).passLine.presence = .absent := by decide
theorem witness_PresenceFallClearsTheLine :
    evening.stations.length = 24 ∧ (station evening 0).line.presence = .present ∧ HostSettled evening
      ∧ (station evening 0).config ≠ none ∧ evening.passLine.presence = .present := by decide
theorem witness_PresenceFallClearsTheLine_undefined :
    let s := after (.reset (List.replicate 24 true) false) evening
    s.stations.length = 24 ∧ (station s 23).line.presence = .present ∧ HostSettled s ∧ (station s 23).config = none := by decide
theorem witness_PresenceRiseRefreshesTheTerminal :
    State.reset.stations.length = 24 ∧ (station State.reset 23).line.presence = .absent ∧ HostSettled State.reset
      ∧ (station State.reset 23).config = none ∧ State.reset.passLine.presence = .absent := by decide
theorem witness_PresenceRiseRefreshesTheTerminal_defined :
    let s := grillWith (fun st => { st with line := { st.line with presence := .absent } }) evening
    s.stations.length = 24 ∧ (station s 0).line.presence = .absent ∧ HostSettled s ∧ (station s 0).config ≠ none
      ∧ (station s 0).line.tx = .idle := by decide
theorem witness_PresenceRiseRefreshesTheTerminal_busy :
    let s := grillWith (fun st => { st with line := { st.line with presence := .absent, tx := .sending (.doneTicket 1) } }) evening
    (station s 0).line.presence = .absent ∧ HostSettled s ∧ (station s 0).config ≠ none ∧ (station s 0).line.tx ≠ .idle := by decide
theorem witness_PresenceRiseRefreshesTheTerminal_sound :
    let s := grillWith (fun st => { st with line := { st.line with presence := .absent } }) (dining (cooking fish) roll plate)
    (station s 0).config = some grill ∧ Sound s ∧ LinesSound s ∧ HostSettled s :=
  ⟨by decide +kernel, sound_of (by decide +kernel), by decide +kernel⟩
theorem witness_LineTransmittersGoOn_record :
    LineId.pass.inPart = true ∧ (lineOf (passWaiting 1) .pass).tx = .sending (.go 1 false)
      ∧ (lineOf (passWaiting 1) .pass).queue = .go 1 false :: [] ∧ (lineOf (passWaiting 0) .pass).queue = []
      ∧ (lineOf (passWaiting 0) .pass).refreshPending = false := by decide
theorem witness_LineTransmittersGoOn_run :
    let s := grillWith (fun st => { st with line := { st.line with refreshPending := true, tx := .refreshing [] } }) evening
    (LineId.station 0).inPart = true ∧ (lineOf s (.station 0)).tx = .refreshing [] ∧ (lineOf s (.station 0)).queue = []
      ∧ (lineOf s (.station 0)).refreshPending = true ∧ s.stations.length = 24 := by decide
theorem witness_LineTransmittersGoOn_begin :
    let s := grillWith (fun st => { st with line := { st.line with refreshPending := true } }) evening
    (lineOf s (.station 0)).tx = .idle ∧ (lineOf s (.station 0)).queue = [] ∧ (lineOf s (.station 0)).refreshPending = true := by decide

/-! ## Witnesses: the load monitor -/

/-- Station 0 with this load record, in SERVICE at 1000. -/
def loaded (l : LoadRecord) : State :=
  grillWith (fun st => { st with load := l }) evening

theorem witness_LoadSampleIntegratesExcessDemand :
    (loaded ⟨199, .normal, some 1000⟩).stations.length = 24 ∧ (loaded ⟨199, .normal, some 1000⟩).link.mode = .service
      ∧ (station (loaded ⟨199, .normal, some 1000⟩) 0).config = some grill
      ∧ (station (loaded ⟨199, .normal, some 1000⟩) 0).load.nextSample = some 1000
      ∧ 1000 ≤ (loaded ⟨199, .normal, some 1000⟩).clock := by decide
theorem witness_LoadSampleIntegratesExcessDemand_states :
    (station (loaded ⟨620, .normal, some 1000⟩) 0).load.state = .normal ∧ 600 ≤ 620 - grill.coolStep
      ∧ (station (loaded ⟨120, .derated, some 1000⟩) 0).load.state = .derated ∧ 120 - grill.coolStep ≤ 200 / 2
      ∧ (station (loaded ⟨0, .tripped, some 1000⟩) 0).load.state = .tripped := by decide
theorem witness_LoadSampleIntegratesExcessDemand_sound :
    Sound (loaded ⟨120, .derated, some 1000⟩) ∧ LinesSound (loaded ⟨120, .derated, some 1000⟩)
      ∧ (station (after (.loadSample 0) (loaded ⟨120, .derated, some 1000⟩)) 0).load.state = .normal
      ∧ (station (after (.loadSample 0) (loaded ⟨121, .derated, some 1000⟩)) 0).load.state = .derated :=
  ⟨sound_of (by decide +kernel), by decide +kernel⟩
theorem witness_RearmTakesTheStationBack :
    (Asks 0x19#8 (le1 0) (asked 0x19#8 (le1 0) (loaded ⟨599, .tripped, none⟩)) ∧ (loaded ⟨599, .tripped, none⟩).stations.length = 24
        ∧ (loaded ⟨599, .tripped, none⟩).link.mode = .service ∧ (station (loaded ⟨599, .tripped, none⟩) 0).config = some grill
        ∧ (station (loaded ⟨599, .tripped, none⟩) 0).load.state = .tripped
        ∧ (station (loaded ⟨599, .tripped, none⟩) 0).load.accumulator < grill.tripLevel)
      ∧ grill.derateLevel / 2 < (station (loaded ⟨101, .tripped, none⟩) 0).load.accumulator
      ∧ ¬grill.derateLevel / 2 < (station (loaded ⟨100, .tripped, none⟩) 0).load.accumulator := by decide
theorem witness_RearmTakesTheStationBack_sound :
    Sound (asked 0x19#8 (le1 0) (loaded ⟨100, .tripped, none⟩)) ∧ LinesSound (asked 0x19#8 (le1 0) (loaded ⟨100, .tripped, none⟩)) :=
  ⟨sound_of (by decide +kernel), by decide +kernel⟩
theorem witness_RearmTakesTheStationBack_refused :
    (station (loaded ⟨600, .tripped, none⟩) 0).load.state = .tripped
      ∧ grill.tripLevel ≤ (station (loaded ⟨600, .tripped, none⟩) 0).load.accumulator
      ∧ (station (loaded ⟨600, .derated, none⟩) 0).load.state ≠ .tripped := by decide
theorem witness_RearmTakesTheStationBack_numbers :
    Asks 0x19#8 (le1 24) (asked 0x19#8 (le1 24) evening) ∧ 23 < 24 ∧ Asks 0x19#8 (le1 255) (asked 0x19#8 (le1 255) evening)
      ∧ (Asks 0x19#8 (le1 23) (asked 0x19#8 (le1 23) kitchen) ∧ kitchen.link.mode = .setup)
      ∧ Asks 0x19#8 (le1 23) (asked 0x19#8 (le1 23) evening) ∧ evening.link.mode = .service ∧ (station evening 23).config = none := by
  decide

/-! ## Witnesses: the pass -/

/-- Group 7 COMPLETE since 910, with its pickup limit running out at 1000. -/
def atThePass : State :=
  dining (readySince 910 fish) (readySince 910 roll) { plate with state := .complete, pickupAt := some 1000 }

theorem witness_RefireMakesARushCopy :
    Coherent atThePass ∧ (group? atThePass (7#16 : Number).toNat).map Group.tickets = some [10, 11]
      ∧ ticket? atThePass (11#16 : Number).toNat = some (readySince 910 roll) ∧ (readySince 910 roll).state = .ready
      ∧ (readySince 910 roll).generation ≤ 2 ∧ 0 < atThePass.ticketPool.free ∧ ¬Short atThePass roll.component roll.quantity
      ∧ Asks 0x1A#8 (le2 7 ++ le2 11) (asked 0x1A#8 (le2 7 ++ le2 11) atThePass) ∧ atThePass.link.mode = .service
      ∧ atThePass.passLine.presence = .present := by decide +kernel
theorem witness_RefireMakesARushCopy_refused :
    (Takes (req 0x1A#8 []) [] (asked 0x1A#8 [] atThePass) ∧ (req 0x1A#8 []).kind = 0x1A#8 ∧ (req 0x1A#8 []).body.length ≠ 4)
      ∧ Asks 0x1A#8 (le2 1024 ++ le2 4095) (asked 0x1A#8 (le2 1024 ++ le2 4095) atThePass) ∧ 1023 < 1024
      ∧ Asks 0x1A#8 (le2 1023 ++ le2 4096) (asked 0x1A#8 (le2 1023 ++ le2 4096) atThePass) ∧ 4095 < 4096
      ∧ Asks 0x1A#8 (le2 1023 ++ le2 4095) (asked 0x1A#8 (le2 1023 ++ le2 4095) kitchen) ∧ kitchen.link.mode = .setup
      ∧ group? atThePass 1023 = none ∧ (∀ gr, group? atThePass 7 = some gr → 4095 ∉ gr.tickets)
      ∧ (ticket? (dining (cooking fish) roll plate) 10).map Ticket.state = some .onLine
      ∧ 2 < { readySince 990 fish with generation := 3 }.generation
      ∧ { atThePass with ticketPool := ⟨0, 4094, 2⟩ }.ticketPool.free = 0
      ∧ (0 < (setStock 3 3 atThePass).ticketPool.free ∧ stockOf (setStock 3 3 atThePass) 3 = some 3 ∧ 3 < fish.quantity
        ∧ ticket? (setStock 3 3 atThePass) 10 = some (readySince 910 fish)) :=
  ⟨by decide, by decide, by decide, by decide, by decide, by decide, by decide, by decide,
    fun gr h => (Option.some.inj h) ▸ by decide, by decide, by decide, by decide, by decide⟩
theorem witness_RefireMakesARushCopy_sound :
    (Sound (asked 0x1A#8 (le2 7 ++ le2 11) atThePass) ∧ LinesSound (asked 0x1A#8 (le2 7 ++ le2 11) atThePass))
      ∧ Sound atThePass ∧ LinesSound atThePass :=
  ⟨⟨sound_of (by decide +kernel), by decide +kernel⟩, sound_of (by decide +kernel), by decide +kernel⟩
theorem witness_RefireMakesARushCopy_dead :
    let s := dining { readySince 910 fish with state := .dead, readyAt := none, generation := 2 } roll { plate with state := .assembling }
    Coherent s ∧ (ticket? s 10).map (fun tk => (tk.state, tk.generation)) = some (.dead, 2)
      ∧ (group? s 7).map Group.state = some .assembling ∧ ¬Short s fish.component fish.quantity := by decide +kernel
theorem witness_SendShortCompletesOrFreesTheGroup :
    let s := dining (readySince 990 fish) (cooking roll) { plate with state := .assembling }
    Asks 0x1B#8 (le2 7) (asked 0x1B#8 (le2 7) s) ∧ s.link.mode = .service ∧ Coherent s
      ∧ (group? s 7).map Group.state = some .assembling
      ∧ 0 < (plate.tickets.filter fun n => decide (InState s .ready n)).length := by decide +kernel
theorem witness_SendShortCompletesOrFreesTheGroup_cancelled :
    let s := dining (cooking fish) roll plate
    Asks 0x1B#8 (le2 7) (asked 0x1B#8 (le2 7) s) ∧ Coherent s ∧ group? s 7 = some plate ∧ plate.state ≠ .complete
      ∧ (plate.tickets.filter fun n => decide (InState s .ready n)).length = 0 := by decide +kernel
theorem witness_SendShortCompletesOrFreesTheGroup_sound :
    (Sound (asked 0x1B#8 (le2 7) (dining (readySince 990 fish) (cooking roll) { plate with state := .assembling }))
        ∧ LinesSound (asked 0x1B#8 (le2 7) (dining (readySince 990 fish) (cooking roll) { plate with state := .assembling })))
      ∧ Sound (asked 0x1B#8 (le2 7) (dining (cooking fish) roll plate))
        ∧ LinesSound (asked 0x1B#8 (le2 7) (dining (cooking fish) roll plate)) ∧ plate.state = .pending :=
  ⟨⟨sound_of (by decide +kernel), by decide +kernel⟩, sound_of (by decide +kernel), by decide +kernel⟩
theorem witness_SendShortCompletesOrFreesTheGroup_state :
    Asks 0x1B#8 (le2 7) (asked 0x1B#8 (le2 7) atThePass) ∧ (group? atThePass 7).map Group.state = some .complete := by decide
theorem witness_SendShortCompletesOrFreesTheGroup_numbers :
    Asks 0x1B#8 (le2 1024) (asked 0x1B#8 (le2 1024) evening) ∧ 1023 < 1024 ∧ Asks 0x1B#8 (le2 65535) (asked 0x1B#8 (le2 65535) evening)
      ∧ (Asks 0x1B#8 (le2 1023) (asked 0x1B#8 (le2 1023) kitchen) ∧ kitchen.link.mode = .setup)
      ∧ Asks 0x1B#8 (le2 1023) (asked 0x1B#8 (le2 1023) evening) ∧ evening.link.mode = .service ∧ group? evening 1023 = none := by decide
theorem witness_DieExpiryReplacesTheDead :
    let s := dining (readySince 900 fish) (readySince 990 roll) { plate with state := .assembling, dieAt := some 1000 }
    Coherent s ∧ (∃ d ∈ (group? s 7).bind Group.dieAt, d ≤ s.clock)
      ∧ ticket? s 10 = some (readySince 900 fish) ∧ s.components.get? fish.component = some salmon ∧ 0 < salmon.holdWindow
      ∧ 900 + salmon.holdWindow ≤ s.clock ∧ s.components.get? roll.component = some bread ∧ bread.holdWindow = 0 := by decide +kernel
theorem witness_DieExpiryReplacesTheDead_remade :
    let s := dining (readySince 900 fish) (readySince 990 roll) { plate with state := .assembling, dieAt := some 1000 }
    fish.generation < 2 ∧ 0 < s.ticketPool.free ∧ (∀ m ∈ stockOf s 3, 0 + fish.quantity ≤ m) ∧ s.link.seq ≤ 4294967295
      ∧ LineSound s.passLine := by decide
theorem witness_DieExpiryReplacesTheDead_dead :
    ∃ m ∈ stockOf (setStock 3 3 evening) 3, ¬0 + fish.quantity ≤ m := by decide
theorem witness_DieExpiryReplacesTheDead_sound :
    let s := dining (readySince 900 fish) (readySince 990 roll) { plate with state := .assembling, dieAt := some 1000 }
    (Sound s ∧ LinesSound s)
      ∧ ∃ n ∈ plate.tickets, ((ticket? s n).any fun tk =>
          decide (tk.state = .ready) && tk.readyAt.any fun r => (s.components.get? tk.component).any fun c =>
            decide (0 < c.holdWindow ∧ r + c.holdWindow ≤ s.clock)) = true :=
  ⟨⟨sound_of (by decide +kernel), by decide +kernel⟩, 10, by decide, by decide⟩
theorem witness_PickupExpiryReportsOnce :
    (group? atThePass 7).map (fun gr => (gr.state, gr.pickupAt)) = some (.complete, some 1000) ∧ 1000 ≤ atThePass.clock
      ∧ (atReading 999 atThePass).clock < 1000 ∧ HostSettled (atReading 999 atThePass) := by decide
theorem witness_PickedFreesTheGroup :
    atThePass.passLine.presence = .present ∧ (group? atThePass (7#16 : Number).toNat).map Group.state = some .complete
      ∧ wave? atThePass plate.wave = some servingWave
      ∧ servingWave.release.groups ≤ servingWave.ending.served + servingWave.ending.short + servingWave.ending.cancelled + 1
      ∧ 0 < atThePass.groupPool.live := by decide
/-- A HELD wave with another group to serve, and the ACTIVE one of the state above, whose last group is picked. -/
theorem witness_PickedFreesTheGroup_coherent :
    Coherent atThePass ∧ (group? atThePass 7).map (fun gr => gr.tickets.length) = some 2 ∧ 2 ≤ atThePass.ticketPool.live
      ∧ servingWave.state = .active
      ∧ (let wv := { servingWave with state := .held, holdSince := some 990, release := { servingWave.release with groups := 2 } }
        wave? (withWave wv atThePass) 5 = some wv
          ∧ ¬wv.release.groups ≤ wv.ending.served + 1 + wv.ending.short + wv.ending.cancelled) := by decide +kernel

/-! ## Witnesses: arithmetic, walks and invariants -/

theorem witness_EffectiveCookTimeRoundsUp : 1 ≤ 5400 ∧ 5400 ≤ 5400 ∧ 64 ≤ 128 ∧ 64 < 128 ∧ 128 ≤ 128 := by decide

theorem witness_WalkVisitsTheClippedRegionOnce :
    RegionFits kitchen.floor wideRow ∧ RegionFits kitchen.floor ⟨.linear 5 400, .forward⟩ := by
  simp [RegionFits, wideRow, kitchen]
theorem witness_WalkVisitsTheClippedRegionOnce_snake :
    RegionFits { rows := 10, columns := 12 } ⟨.linear 30 20, .snake⟩ ∧ wideRow.order = .snake := by
  simp [RegionFits, wideRow]
theorem witness_WalkVisitsTheClippedRegionOnce_records :
    salmon ∈ evening.components.get? 3 ∧ [3, 4] ∈ evening.courses.get? 0 ∧ grill ∈ (station evening 0).config := by decide
/-- Every table of at most 16 covers, here with each of the most substitutions at its largest count. -/
theorem witness_WalkVisitsTheClippedRegionOnce_list :
    let subs : List Substitution := [⟨1, 9, 16⟩, ⟨2, 9, 16⟩, ⟨3, 9, 16⟩, ⟨4, 5, 16⟩]
    ([1, 2, 3, 4, 5, 6, 7, 8] : List Nat).Nodup ∧ (subs.map fun e => (e.source, e.target)).Nodup
      ∧ (∀ e ∈ subs, e.target ≠ e.source ∧ 1 ≤ e.count ∧ e.count ≤ 16
        ∧ ((subs.filter fun d => decide (d.source = e.source)).map Substitution.count).sum ≤ 16) := by decide
theorem witness_PoolSumsAreKept :
    PoolsWhole { releasingEvening with pending := [.releaseVisit] } ∧ ∃ t, step { releasingEvening with pending := [.releaseVisit] } = .next t :=
  ⟨by decide, _, rfl⟩
theorem witness_LinksStaySound :
    (LinesSound { evening with pending := [.passResync] } ∧ LinkSound { evening with pending := [.passResync] })
      ∧ ∃ t, step { evening with pending := [.passResync] } = .next t :=
  ⟨by decide +kernel, _, rfl⟩
theorem witness_WaveTableStaysConsistent :
    WavesConsistent { heldEvening with pending := [.clockTick] } ∧ WavesConsistent { releasingEvening with pending := [.clockTick] }
      ∧ ∃ t, step { heldEvening with pending := [.clockTick] } = .next t :=
  ⟨by decide +kernel, by decide +kernel, _, rfl⟩
theorem witness_CountersAndStoresStayInForm :
    (CountersInRange { heldEvening with pending := [.clockTick] } ∧ StoresCanonical { heldEvening with pending := [.clockTick] })
      ∧ ∃ t, step { heldEvening with pending := [.clockTick] } = .next t :=
  ⟨by decide +kernel, _, rfl⟩
theorem witness_CountersAndStoresStayInForm_rest :
    UndefinedAtRest { heldEvening with pending := [.clockTick] } ∧ ∃ st ∈ heldEvening.stations, st.config = none := by
  decide +kernel
theorem witness_CountersAndStoresStayInForm_courses :
    LiveCoursesAscend { heldEvening with pending := [.clockTick] } ∧ ∃ e ∈ heldEvening.floor.tables, e.2.liveCourses ≠ [] := by decide
theorem witness_TicketPlacesStayCoherent :
    Coherent { dining (cooking fish) roll plate with pending := [.ready 0 10#16] }
      ∧ ∃ t, step { dining (cooking fish) roll plate with pending := [.ready 0 10#16] } = .next t :=
  ⟨by decide +kernel, _, rfl⟩
theorem witness_TicketPlacesStayCoherent_sound :
    (Sound { dining (cooking fish) roll plate with pending := [.ready 0 10#16] }
        ∧ StoresCanonical { dining (cooking fish) roll plate with pending := [.ready 0 10#16] })
      ∧ ∃ t, step { dining (cooking fish) roll plate with pending := [.ready 0 10#16] } = .next t :=
  ⟨⟨sound_of (by decide +kernel), by decide +kernel⟩, _, rfl⟩
/-- The fish at the pass with its hold window running, and the roll cooking, in an ASSEMBLING group. -/
theorem witness_TicketPlacesStayCoherent_times :
    ∃ s, s = { dining (readySince 990 fish) (cooking roll) { plate with state := .assembling, dieAt := some 1090 } with
          pending := [.ready 1 11#16] }
      ∧ (Sound s ∧ StoresCanonical s ∧ WithinBounds s ∧ TimesTrue s) ∧ ∃ t, step s = .next t := by
  refine ⟨_, rfl, ⟨sound_of (by decide +kernel), by decide +kernel, by decide +kernel, by decide, fun e he => ?_, by decide⟩, _, rfl⟩
  cases List.mem_singleton.mp he
  refine ⟨fun _ => ⟨fun d hd => ?_, fun n hn d h => ?_⟩, fun h => absurd rfl h⟩
  · cases hd
    exact ⟨10, by decide, readySince 990 fish, 990, salmon, rfl, rfl, rfl, rfl, by decide, rfl⟩
  · obtain ⟨tk, r, c, htk, hready, hr, hc, hw, rfl⟩ := h
    have hn : n = 10 ∨ n = 11 := by simpa [plate] using hn
    rcases hn with rfl | rfl
    · cases htk; cases hr; cases hc
      exact ⟨1090, rfl, by decide⟩
    · cases htk; cases hready
/-- The calendar with a ticket due at the next reading, and with a frozen one behind the clock. -/
theorem witness_TicketPlacesStayCoherent_calendar :
    (CalendarAhead (atReading 1849 (dining fish roll plate)) ∧ (1849 : Int) < fish.fireTime)
      ∧ CalendarAhead (atReading 1930 heldEvening) ∧ roll.fireTime < (1930 : Int) := by decide

end Sys2Proof.Machine
end

section
/-!
PROOFS. What one command can do to the state, as a run of plain changes; and the ranges, forms and orders that every such change keeps.
-/

namespace Sys2Proof.Machine

/-! ## Plain changes -/

/-- A change of a load record that keeps the accumulator's range and the record of a station at rest. -/
structure LoadChange (s : State) (x : Nat) (f : LoadRecord → LoadRecord) : Prop where
  range : ∀ l, l.accumulator ≤ Config.accumulatorMax → (f l).accumulator ≤ Config.accumulatorMax
  rest : (station s x).config = none → f {} = {}

/-- A change of the stores of numbered records other than the menu's components and the floor's tables, and of the fields that are no
store, the clock and the station controllers apart. -/
structure OnlyRecords (s t : State) : Prop where
  rest : t = { s with
    pending := t.pending, link := t.link, courses := t.courses, waves := t.waves, engine := t.engine, tickets := t.tickets
    ticketPool := t.ticketPool, calendar := t.calendar, frozen := t.frozen, groups := t.groups, groupPool := t.groupPool
    passLine := t.passLine, straps := t.straps }
  courses : s.courses.rising = true → t.courses.rising = true
  waves : s.waves.rising = true → t.waves.rising = true
  tickets : s.tickets.rising = true → t.tickets.rising = true
  groups : s.groups.rising = true → t.groups.rising = true

/-- A component's record is written whose count, if it has one, lies in its range or below the count it replaces. -/
abbrev CountKept (s : State) (c : Nat) (r : Component) : Prop :=
  ∀ n ∈ r.stock, n ≤ Config.stockMax ∨ ∃ m ∈ stockOf s c, n ≤ m

/-- One plain change of the state: the changes of which every command's effect is made. -/
inductive Changes (s : State) : State → Prop
  | lines {t : State} : OnlyLines s t → Changes s t
  | records {t : State} : OnlyRecords s t → Changes s t
  | controller (x : Nat) (f : Station → Station) :
    (∀ st, (f st).load = st.load) → (∀ st, (f st).config = none → st.config = none) → Changes s (updStation x f s)
  | load (x : Nat) (f : LoadRecord → LoadRecord) :
    LoadChange s x f → Changes s (updStation x (fun st => { st with load := f st.load }) s)
  | loads (now : Nat) : Changes s { s with stations := s.stations.map (startLoad now) }
  | table (u : Nat) (r : TableRecord) :
    ((tableRecord s u).liveCourses.Pairwise (· < ·) → r.liveCourses.Pairwise (· < ·)) → Changes s (setTableRecord u r s)
  | floor (rows columns : Nat) : Changes s { s with floor := { rows := rows, columns := columns, tables := [] } }
  | component (c : Nat) (r : Component) : CountKept s c r → Changes s { s with components := s.components.set c r }
  | clock (n : Nat) : (s.clock ≤ Config.clockMax → n ≤ Config.clockMax) → Changes s { s with clock := n }
  | reset (levels : List Presence) (level : Presence) : Changes s (resetPart levels level s)

/-- A run of plain changes. -/
inductive Runs (s : State) : State → Prop
  | refl : Runs s s
  | next {t u : State} : Runs s t → Changes t u → Runs s u

/-! ## What every run of plain changes keeps -/

/-- A property that each plain change keeps is kept by a run of them. -/
theorem Runs.keeps {P : State → Prop} (h : ∀ s t, Changes s t → P s → P t) {s t : State} (r : Runs s t) (hs : P s) : P t := by
  induction r with
  | refl => exact hs
  | next _ c ih => exact h _ _ c ih

theorem Runs.single {s t : State} (h : Changes s t) : Runs s t :=
  .next .refl h

theorem Runs.trans {s t u : State} (h : Runs s t) (k : Runs t u) : Runs s u := by
  induction k with
  | refl => exact h
  | next _ c ih => exact .next ih c

theorem getD_of_mem_stations {s : State} {st : Station} (h : st ∈ s.stations) : ∃ x < s.stations.length, station s x = st := by
  obtain ⟨x, hx, rfl⟩ := List.mem_iff_getElem.mp h
  exact ⟨x, hx, by simp [station, hx]⟩

theorem station_mem {s : State} {x : Nat} (h : x < s.stations.length) : station s x ∈ s.stations := by
  simp [station, h]

/-- A property of controllers that holds of each of them, said by number. -/
theorem forall_stations_iff {s : State} {P : Station → Prop} :
    (∀ st ∈ s.stations, P st) ↔ ∀ x < s.stations.length, P (station s x) := by
  constructor
  · exact fun h x hx => h _ (station_mem hx)
  · intro h st hst
    obtain ⟨x, hx, rfl⟩ := getD_of_mem_stations hst
    exact h x hx

/-- The controllers after one has changed, said by number. -/
theorem forall_updStation {s : State} {x : Nat} {f : Station → Station} {P : Station → Prop}
    (hs : ∀ st ∈ s.stations, P st) (hf : x < s.stations.length → P (station s x) → P (f (station s x))) :
    ∀ st ∈ (updStation x f s).stations, P st := by
  rw [forall_stations_iff] at hs ⊢
  intro y hy
  rw [updStation_stations_length] at hy
  rw [station_updStation]
  split
  · rename_i h
    rw [h.1]
    exact hf h.2 (hs x h.2)
  · exact hs y hy

/-- The controllers after a change of lines, said by number. -/
theorem OnlyLines.forall_stations {s t : State} (h : OnlyLines s t) {P : Option StationConfig → LoadRecord → Prop}
    (hs : ∀ st ∈ s.stations, P st.config st.load) : ∀ st ∈ t.stations, P st.config st.load := by
  rw [forall_stations_iff (P := fun st => P st.config st.load)] at hs ⊢
  intro x hx
  rw [h.config, h.load]
  exact hs x (h.length ▸ hx)

theorem OnlyRecords.same {s t : State} (h : OnlyRecords s t) :
    t.clock = s.clock ∧ t.components = s.components ∧ t.floor = s.floor ∧ t.stations = s.stations := by
  rw [h.rest]
  exact ⟨rfl, rfl, rfl, rfl⟩

/-- The controllers of the part after a reset. -/
theorem resetPart_stations (levels : List Presence) (level : Presence) (s : State) :
    (resetPart levels level s).stations
      = (List.range Config.stations).map fun x => { line := { presence := levels.getD x .absent } } := rfl

theorem Changes.countersInRange {s t : State} (h : Changes s t) (hs : CountersInRange s) : CountersInRange t := by
  obtain ⟨hclock, hlen, hload, hstock⟩ := hs
  cases h with
  | lines h =>
    rw [CountersInRange, h.clock, h.components, h.length]
    exact ⟨hclock, hlen, h.forall_stations (P := fun _ l => l.accumulator ≤ Config.accumulatorMax) hload, hstock⟩
  | records h =>
    obtain ⟨e1, e2, -, e4⟩ := h.same
    rw [CountersInRange, e1, e2, e4]
    exact ⟨hclock, hlen, hload, hstock⟩
  | controller x f hl hc =>
    exact ⟨hclock, by simpa using hlen, forall_updStation hload fun _ h => by rwa [hl], hstock⟩
  | load x f hf =>
    exact ⟨hclock, by simpa using hlen, forall_updStation hload fun _ h => hf.range _ h, hstock⟩
  | loads now =>
    refine ⟨hclock, by simpa using hlen, ?_, hstock⟩
    simp only [List.forall_mem_map]
    exact fun _ _ => Nat.zero_le _
  | table u r hr => exact ⟨hclock, hlen, hload, hstock⟩
  | floor rows columns => exact ⟨hclock, hlen, hload, hstock⟩
  | component c r hr =>
    refine ⟨hclock, hlen, hload, fun e he n hn => ?_⟩
    rcases Store.mem_set he with rfl | he
    · rcases hr n hn with h | ⟨m, hm, h⟩
      · exact h
      · obtain ⟨r', hr', hm'⟩ := Option.bind_eq_some_iff.mp hm
        exact h.trans (hstock _ (Store.mem_of_get? hr') m hm')
    · exact hstock e he n hn
  | clock n hn => exact ⟨hn hclock, hlen, hload, hstock⟩
  | reset levels level =>
    refine ⟨Nat.zero_le _, by simp [resetPart_stations], ?_, by simp [resetPart, State.reset]⟩
    simp only [resetPart_stations, List.forall_mem_map]
    exact fun _ _ => Nat.zero_le _

theorem setTableRecord_rising {u : Nat} {r : TableRecord} {s : State} (h : s.floor.tables.rising = true) :
    (setTableRecord u r s).floor.tables.rising = true := by
  simp only [setTableRecord]
  split
  · exact Store.rising_erase u h
  · exact Store.rising_set u r h

/-- A table record that is listed after one is written: the one written, not of reset values, or one listed before. -/
theorem mem_setTableRecord {u : Nat} {r : TableRecord} {s : State} {e : Nat × TableRecord}
    (h : e ∈ (setTableRecord u r s).floor.tables) : e = (u, r) ∧ r ≠ {} ∨ e ∈ s.floor.tables := by
  simp only [setTableRecord] at h
  split at h
  · exact .inr (Store.mem_erase.mp h).1
  · rename_i hr
    exact (Store.mem_set h).imp (fun h => ⟨h, hr⟩) id

theorem Changes.storesCanonical {s t : State} (h : Changes s t) (hs : StoresCanonical s) : StoresCanonical t := by
  obtain ⟨hcomp, hcour, htab, hwav, htic, hgro, hne⟩ := hs
  cases h with
  | lines h =>
    rw [StoresCanonical, h.components, h.courses, h.floor, h.waves, h.tickets, h.groups]
    exact ⟨hcomp, hcour, htab, hwav, htic, hgro, hne⟩
  | records h =>
    obtain ⟨-, e2, e3, -⟩ := h.same
    rw [StoresCanonical, e2, e3]
    exact ⟨hcomp, h.courses hcour, htab, h.waves hwav, h.tickets htic, h.groups hgro, hne⟩
  | controller x f hl hc => exact ⟨hcomp, hcour, htab, hwav, htic, hgro, hne⟩
  | load x f hf => exact ⟨hcomp, hcour, htab, hwav, htic, hgro, hne⟩
  | loads now => exact ⟨hcomp, hcour, htab, hwav, htic, hgro, hne⟩
  | table u r hr =>
    refine ⟨hcomp, hcour, setTableRecord_rising htab, hwav, htic, hgro, fun e he => ?_⟩
    rcases mem_setTableRecord he with ⟨rfl, hr⟩ | he
    · exact hr
    · exact hne e he
  | floor rows columns => exact ⟨hcomp, hcour, rfl, hwav, htic, hgro, by simp⟩
  | component c r hr => exact ⟨Store.rising_set c r hcomp, hcour, htab, hwav, htic, hgro, hne⟩
  | clock n hn => exact ⟨hcomp, hcour, htab, hwav, htic, hgro, hne⟩
  | reset levels level => exact ⟨rfl, rfl, rfl, rfl, rfl, rfl, by simp [resetPart, State.reset]⟩

theorem Changes.undefinedAtRest {s t : State} (h : Changes s t) (hs : UndefinedAtRest s) : UndefinedAtRest t := by
  cases h with
  | lines h => exact h.forall_stations (P := fun c l => c = none → l = {}) hs
  | records h => rw [UndefinedAtRest, h.same.2.2.2]; exact hs
  | controller x f hl hc => exact forall_updStation hs fun _ h hn => by rw [hl]; exact h (hc _ hn)
  | load x f hf =>
    refine forall_updStation hs fun _ h hn => ?_
    change f (station s x).load = _
    rw [h hn]
    exact hf.rest hn
  | loads now =>
    intro st hst hn
    obtain ⟨st', -, rfl⟩ := List.mem_map.mp hst
    have hn : st'.config = none := hn
    simp [startLoad, hn]
  | table u r hr => exact hs
  | floor rows columns => exact hs
  | component c r hr => exact hs
  | clock n hn => exact hs
  | reset levels level =>
    intro st hst _
    obtain ⟨x, -, rfl⟩ := List.mem_map.mp hst
    rfl

/-- A table's live courses ascend, listed or not. -/
theorem LiveCoursesAscend.record {s : State} (h : LiveCoursesAscend s) (u : Nat) :
    (tableRecord s u).liveCourses.Pairwise (· < ·) := by
  rw [tableRecord]
  cases hr : s.floor.tables.get? u with
  | none => exact .nil
  | some r => exact h _ (Store.mem_of_get? hr)

theorem Changes.liveCoursesAscend {s t : State} (h : Changes s t) (hs : LiveCoursesAscend s) : LiveCoursesAscend t := by
  cases h with
  | lines h => rw [LiveCoursesAscend, h.floor]; exact hs
  | records h => rw [LiveCoursesAscend, h.same.2.2.1]; exact hs
  | table u r hr =>
    intro e he
    rcases mem_setTableRecord he with ⟨rfl, -⟩ | he
    · exact hr (hs.record u)
    · exact hs e he
  | floor rows columns => intro e he; cases he
  | reset levels level => intro e he; cases he
  | controller x f hl hc => exact hs
  | load x f hf => exact hs
  | loads now => exact hs
  | component c r hr => exact hs
  | clock n hn => exact hs

end Sys2Proof.Machine
end

section
/-!
PROOFS. Every shared operation, and with it every command, is a run of plain changes.
-/

namespace Sys2Proof.Machine

/-! ## Runs of one change -/

theorem Runs.aside {s t : State}
    (h : t = { s with
      pending := t.pending, link := t.link, engine := t.engine, ticketPool := t.ticketPool, calendar := t.calendar
      frozen := t.frozen, groupPool := t.groupPool, passLine := t.passLine, straps := t.straps }) : Runs s t :=
  .single (.records ⟨by rw [h], by rw [h]; exact id, by rw [h]; exact id, by rw [h]; exact id, by rw [h]; exact id⟩)

theorem Runs.lines {s t : State} (h : OnlyLines s t) : Runs s t :=
  .single (.lines h)

theorem Runs.foldl {α : Type} (f : State → α → State) (h : ∀ s a, Runs s (f s a)) (l : List α) (s : State) :
    Runs s (l.foldl f s) := by
  induction l generalizing s with
  | nil => exact .refl
  | cons a l ih => exact (h s a).trans (ih _)

/-- A step that is taken only under a condition. -/
theorem Runs.ite {s u : State} (h : Runs s u) (c : Prop) [Decidable c] {t : State} (k : Runs u t) : Runs s (if c then t else u) := by
  split
  · exact h.trans k
  · exact h

/-- A controller changes in its places, its line or its definition. -/
theorem Runs.controller (x : Nat) (f : Station → Station) (s : State) (hl : ∀ st, (f st).load = st.load)
    (hc : ∀ st, (f st).config = none → st.config = none) : Runs s (updStation x f s) :=
  .single (.controller x f hl hc)

theorem updStation_runs (x : Nat) (f : Station → Station) (s : State) (hl : ∀ st, (f st).load = st.load := by intro _; rfl)
    (hc : ∀ st, (f st).config = st.config := by intro _; rfl) : Runs s (updStation x f s) :=
  .controller x f s hl fun st h => hc st ▸ h

theorem updLine_runs (l : LineId) (f : Line → Line) (s : State) : Runs s (updLine l f s) := by
  cases l
  · exact updStation_runs _ _ s
  · exact .aside rfl

theorem sendRecord_runs (l : LineId) (r : LineRecord) (s : State) : Runs s (sendRecord l r s) :=
  .lines (sendRecord_only l r s)

theorem askRefresh_runs (l : LineId) (s : State) : Runs s (askRefresh l s) :=
  .lines (askRefresh_only l s)

theorem pushNotice_runs (n : Notice) (s : State) : Runs s (pushNotice n s) := by
  unfold pushNotice
  split <;> exact .aside rfl

theorem chooseHostFrame_runs (s : State) : Runs s (chooseHostFrame s) := by
  unfold chooseHostFrame
  split <;> exact .aside rfl

theorem settle_runs (s : State) : Runs s (settle s) := by
  unfold settle
  split
  · exact chooseHostFrame_runs s
  · exact .refl
  · exact .refl

theorem setTicket_runs (n : Nat) (tk : Ticket) (s : State) : Runs s (setTicket n tk s) :=
  .single (.records ⟨rfl, id, id, Store.rising_set n tk, id⟩)

theorem updTicket_runs (n : Nat) (f : Ticket → Ticket) (s : State) : Runs s (updTicket n f s) :=
  .single (.records ⟨rfl, id, id, Store.rising_update n f, id⟩)

theorem updGroup_runs (g : Nat) (f : Group → Group) (s : State) : Runs s (updGroup g f s) :=
  .single (.records ⟨rfl, id, id, id, Store.rising_update g f⟩)

theorem updWave_runs (w : Nat) (f : Wave → Wave) (s : State) : Runs s (updWave w f s) :=
  .single (.records ⟨rfl, id, Store.rising_update w f, id, id⟩)

theorem freeWave_runs (w : Nat) (s : State) : Runs s (freeWave w s) :=
  .single (.records ⟨rfl, id, Store.rising_erase w, id, id⟩)

/-- The load records of a controller change, which keeps the accumulators' range and a station at rest. -/
theorem Runs.load (x : Nat) (f : LoadRecord → LoadRecord) {s : State} (h : LoadChange s x f) :
    Runs s (updStation x (fun st => { st with load := f st.load }) s) :=
  .single (.load x f h)

/-! ## Stock (R9 to R15) -/

/-- A count is written that lies in its range or below the one it replaces. -/
theorem setStock_runs {c n : Nat} {s : State} (h : n ≤ Config.stockMax ∨ ∃ m ∈ stockOf s c, n ≤ m) : Runs s (setStock c n s) := by
  unfold setStock Store.update
  split
  · exact .single (.component c _ fun _ hm => by cases hm; exact h)
  · exact .refl

theorem drawTracked_runs {c n : Nat} (q : Nat) (low : Option Nat) {s : State} (h : stockOf s c = some n) :
    Runs s (drawTracked c q n low s) := by
  rw [drawTracked_eq]
  refine .trans (setStock_runs (.inr ⟨n, h, Nat.sub_le n q⟩)) ?_
  exact .foldl _ (fun s n => pushNotice_runs n s) _ _

theorem drawStock_runs (c q : Nat) (s : State) : Runs s (drawStock c q s) := by
  unfold drawStock
  split
  · rename_i r hr
    split
    · rename_i n hn
      exact drawTracked_runs q _ (by rw [stockOf, hr]; exact hn)
    · exact .refl
  · exact .refl

theorem returnStock_runs (c q : Nat) (s : State) : Runs s (returnStock c q s) := by
  unfold returnStock
  split
  · exact setStock_runs (.inl (Nat.min_le_left _ _))
  · exact .refl

theorem copyDraw_runs (c q : Nat) (s : State) : Runs s (copyDraw c q s).1 := by
  unfold copyDraw
  split
  · exact pushNotice_runs _ s
  · exact drawStock_runs c q s

theorem waveDraw_runs (need : Store Nat) (s : State) : Runs s (waveDraw need s).1 := by
  unfold waveDraw
  dsimp only
  split
  · exact .foldl _ (fun s (e : Nat × Nat) => drawStock_runs e.1 e.2 s) _ _
  · exact .foldl _ (fun s (e : Nat × Nat) => pushNotice_runs _ s) _ _

/-! ## Places (R93 to R100) -/

theorem leaveCalendar_runs (t : Nat) (s : State) : Runs s (leaveCalendar t s) :=
  .aside rfl

theorem joinCalendar_runs (t : Nat) (s : State) : Runs s (joinCalendar t s) :=
  .trans (updTicket_runs _ _ s) (.aside rfl)

theorem leaveBlocked_runs (x t : Nat) (s : State) : Runs s (leaveBlocked x t s) :=
  updStation_runs _ _ s

theorem joinBlocked_runs (t : Nat) (s : State) : Runs s (joinBlocked t s) := by
  unfold joinBlocked
  split
  · exact .trans (setTicket_runs _ _ s) (updStation_runs _ _ _)
  · exact .refl

theorem enterStation_runs (t x : Nat) (s : State) : Runs s (enterStation t x s) := by
  unfold enterStation
  split
  · exact .refl
  · dsimp only
    split
    · refine .trans ?_ (.lines (sendRecords_only _ _ _))
      exact .trans (setTicket_runs _ _ s) (updStation_runs _ _ _)
    · refine .trans ?_ (sendRecord_runs _ _ _)
      exact .trans (setTicket_runs _ _ s) (updStation_runs _ _ _ (joinQueue_load _ _) (joinQueue_config _ _))

theorem offer_runs (t : Nat) (s : State) : Runs s (offer t s).1 := by
  unfold offer
  split
  · exact .refl
  · dsimp only
    split
    · exact enterStation_runs _ _ s
    · split
      · split
        · exact enterStation_runs _ _ s
        · exact joinBlocked_runs _ s
      · exact joinBlocked_runs _ s

theorem offerAll_runs (ts : List Nat) (s : State) : Runs s (offerAll ts s) :=
  .foldl _ (fun s t => offer_runs t s) _ _

theorem drainList_runs (fuel y : Nat) (s : State) : Runs s (drainList fuel y s) := by
  induction fuel generalizing s with
  | zero => exact .refl
  | succ fuel ih =>
    unfold drainList
    split
    · exact .refl
    · rename_i t _
      have h := offer_runs t (leaveBlocked y t s)
      split
      · rename_i u _ e
        rw [e] at h
        exact .trans (leaveBlocked_runs y t s) (h.trans (ih u))
      · exact .refl

theorem drain_runs (x : Nat) (s : State) : Runs s (drain x s) :=
  .foldl _ (fun s y => drainList_runs _ y s) _ _

theorem drainIf_runs (departed : Bool) (x : Nat) (s : State) : Runs s (drainIf departed x s) :=
  .ite .refl _ (drain_runs x s)

theorem moveHead_runs (x i : Nat) (s : State) : Runs s (moveHead x i s).1 := by
  unfold moveHead
  split
  · exact .refl
  · refine .trans ?_ (sendRecord_runs _ _ _)
    exact .trans (updStation_runs _ _ s) (updTicket_runs _ _ _)

theorem leaveStation_runs (t : Nat) (tk : Ticket) (r : LineRecord) (s : State) : Runs s (leaveStation t tk r s).1 := by
  unfold leaveStation
  dsimp only
  split
  · exact .trans (updStation_runs _ _ s) (sendRecord_runs _ _ _)
  · refine .trans ?_ (moveHead_runs _ _ _)
    exact .trans (updStation_runs _ _ s) (sendRecord_runs _ _ _)
  · exact .refl

theorem refreshFireTime_runs (x t : Nat) (s : State) : Runs s (refreshFireTime x t s) := by
  unfold refreshFireTime
  split
  · exact setTicket_runs _ _ s
  · exact .refl

theorem retime_runs (x : Nat) (s : State) : Runs s (retime x s).1 := by
  unfold retime
  dsimp only
  refine .trans ?_ (offerAll_runs _ _)
  refine .trans ?_ (.foldl _ (fun s t => leaveCalendar_runs t s) _ _)
  exact .trans (.foldl _ (fun s t => refreshFireTime_runs x t s) (calendaredAt s x) s) (.aside rfl)

theorem freeTicket_runs (t : Nat) (s : State) : Runs s (freeTicket t s) := by
  unfold freeTicket
  split
  · exact .refl
  · exact .trans (updGroup_runs _ _ s) (.single (.records ⟨rfl, id, id, Store.rising_erase t, id⟩))

theorem undoTicket_runs (t : Nat) (tk : Ticket) (s : State) : Runs s (undoTicket t tk s).1 := by
  unfold undoTicket
  split
  · exact .trans (leaveCalendar_runs _ s) (returnStock_runs _ _ _)
  · exact .trans (leaveBlocked_runs _ _ s) (returnStock_runs _ _ _)
  · exact .trans (leaveStation_runs _ _ _ s) (returnStock_runs _ _ _)
  · exact leaveStation_runs _ _ _ s
  all_goals exact .refl

theorem drainAfter_runs (at? : Option Nat) (s : State) : Runs s (drainAfter at? s) := by
  cases at?
  · exact .refl
  · exact drain_runs _ s

theorem withdrawFree_runs (t : Nat) (s : State) : Runs s (withdrawFree t s) := by
  unfold withdrawFree
  split
  · exact .refl
  · exact .trans (undoTicket_runs _ _ s) (.trans (freeTicket_runs _ _) (drainAfter_runs _ _))

theorem withdrawKeep_runs (t : Nat) (s : State) : Runs s (withdrawKeep t s) := by
  unfold withdrawKeep
  split
  · exact .refl
  · split
    · exact .refl
    · exact .refl
    · exact .trans (undoTicket_runs _ _ s) (.trans (updTicket_runs _ _ _) (drainAfter_runs _ _))

/-! ## Groups and remakes (R86, R148 to R163) -/

theorem sendGroupUp_runs (g : Nat) (s : State) : Runs s (sendGroupUp g s) := by
  unfold sendGroupUp
  split
  · exact sendRecord_runs _ _ s
  · exact .refl

theorem completionTest_runs (g : Nat) (s : State) : Runs s (completionTest g s) := by
  unfold completionTest
  split
  · exact .refl
  · exact .ite .refl _ (.trans (updGroup_runs _ _ s) (sendRecord_runs _ _ _))

theorem recomputeDie_runs (g : Nat) (s : State) : Runs s (recomputeDie g s) :=
  updGroup_runs _ _ s

theorem groupArrival_runs (g t : Nat) (s : State) : Runs s (groupArrival g t s) := by
  unfold groupArrival
  split
  · exact .refl
  · refine .trans ?_ (completionTest_runs _ _)
    refine .trans ?_ (recomputeDie_runs _ _)
    refine .trans ?_ (sendRecord_runs _ _ _)
    exact .ite .refl _ (.trans (updGroup_runs _ _ s) (sendGroupUp_runs _ _))

theorem createTicket_runs (n : Nat) (tk : Ticket) (s : State) : Runs s (createTicket n tk s) :=
  .trans (setTicket_runs n tk s) (.aside rfl)

theorem requestCopy_runs (t : Nat) (tk : Ticket) (s : State) : Runs s (requestCopy t tk s).1 := by
  unfold requestCopy
  split
  · exact .refl
  · have h := copyDraw_runs tk.component tk.quantity s
    split
    · rename_i u e
      rw [e] at h
      exact h
    · rename_i u e
      rw [e] at h
      refine h.trans (.trans ?_ (offer_runs _ _))
      refine .trans ?_ (freeTicket_runs _ _)
      refine .trans ?_ (updGroup_runs _ _ _)
      exact .trans (createTicket_runs _ _ u) (.aside rfl)

theorem escalate_runs (g t : Nat) (tk : Ticket) (cause : EscalationCause) (source : RemakeSource) (s : State) :
    Runs s (escalate g t tk cause source s) :=
  .trans (updGroup_runs _ _ s) (pushNotice_runs _ _)

theorem automaticRemake_runs (g t : Nat) (source : RemakeSource) (s : State) : Runs s (automaticRemake g t source s).1 := by
  unfold automaticRemake
  split
  · exact .refl
  · rename_i tk _
    split
    · exact escalate_runs _ _ _ _ _ s
    · have h := requestCopy_runs t tk s
      split <;> rename_i e <;> rw [e] at h
      · exact h
      · exact h.trans (escalate_runs _ _ _ _ _ _)
      · exact h.trans (escalate_runs _ _ _ _ _ _)

theorem automaticRemakes_runs (g : Nat) (source : RemakeSource) (ts : List Nat) (s : State) :
    Runs s (automaticRemakes g source ts s).1 := by
  induction ts generalizing s with
  | nil => exact .refl
  | cons t ts ih =>
    rw [automaticRemakes_cons]
    exact .trans (automaticRemake_runs g t source s) (ih _)

theorem dieExpiry_runs (g : Nat) (s : State) : Runs s (dieExpiry g s) := by
  unfold dieExpiry
  split
  · exact .refl
  · refine .trans ?_ (completionTest_runs _ _)
    refine .trans ?_ (recomputeDie_runs _ _)
    refine .trans ?_ (pushNotice_runs _ _)
    refine .trans ?_ (sendGroupUp_runs _ _)
    refine .trans ?_ (automaticRemakes_runs _ _ _ _)
    exact .foldl _ (fun s t => .trans (updTicket_runs _ _ s) (sendRecord_runs _ _ _)) _ _

theorem refireGroup_runs (g : Nat) (s : State) : Runs s (refireGroup g s) := by
  unfold refireGroup
  split
  · exact .refl
  · split
    · exact .refl
    · exact .trans (sendGroupUp_runs _ s) (.trans (recomputeDie_runs _ _) (completionTest_runs _ _))
    · refine .ite ?_ _ (dieExpiry_runs _ _)
      refine .trans ?_ (completionTest_runs _ _)
      refine .trans ?_ (recomputeDie_runs _ _)
      refine .trans ?_ (sendGroupUp_runs _ _)
      exact .trans (updGroup_runs _ _ s) (sendRecord_runs _ _ _)

theorem refireTicket_runs (g t : Nat) (tk : Ticket) (s : State) : Runs s (refireTicket g t tk s).1 := by
  unfold refireTicket
  have h := requestCopy_runs t tk s
  split <;> rename_i e <;> rw [e] at h
  · exact h.trans (refireGroup_runs _ _)
  · exact h
  · exact h

/-! ## Live course sets and freed groups (R23, R163) -/

/-- A set held in ascending order ascends with a number added. -/
theorem insertNumber_ascends (n : Nat) {l : List Nat} (h : l.Pairwise (· < ·)) : (insertNumber n l).Pairwise (· < ·) := by
  induction l with
  | nil => simp [insertNumber]
  | cons k l ih =>
    obtain ⟨hk, hl⟩ := List.pairwise_cons.mp h
    unfold insertNumber
    split
    · rename_i hn
      refine List.pairwise_cons.mpr ⟨fun m hm => ?_, h⟩
      rcases List.mem_cons.mp hm with rfl | hm
      · exact hn
      · exact hn.trans (hk m hm)
    · split
      · exact h
      · refine List.pairwise_cons.mpr ⟨fun m hm => ?_, ih hl⟩
        rcases mem_insertNumber.mp hm with rfl | hm
        · omega
        · exact hk m hm

theorem addLiveCourse_runs (u p : Nat) (s : State) : Runs s (addLiveCourse u p s) :=
  .single (.table u _ (insertNumber_ascends p))

theorem removeLiveCourse_runs (u p : Nat) (s : State) : Runs s (removeLiveCourse u p s) :=
  .single (.table u _ fun h => h.filter _)

theorem freeGroup_runs (g : Nat) (how : Ending) (s : State) : Runs s (freeGroup g how s) := by
  unfold freeGroup
  split
  · exact .refl
  · refine .trans ?_ (updWave_runs _ _ _)
    refine .ite ?_ _ (sendRecord_runs _ _ _)
    refine .trans ?_ (.single (.records ⟨rfl, id, id, id, Store.rising_erase g⟩))
    refine .trans ?_ (removeLiveCourse_runs _ _ _)
    exact .foldl _ (fun s t => freeTicket_runs t s) _ _

/-! ## Waves (R36 to R59) -/

theorem endWave_runs (w : Nat) (reason : DoneReason) (s : State) : Runs s (endWave w reason s) := by
  unfold endWave
  split
  · exact .refl
  · exact .trans (freeWave_runs w s) (pushNotice_runs _ _)

theorem completeWave_runs (w : Nat) (s : State) : Runs s (completeWave w s) := by
  unfold completeWave
  split
  · exact .refl
  · exact .ite .refl _ (endWave_runs _ _ s)

theorem stagingLapse_runs (w : Nat) (s : State) : Runs s (stagingLapse w s) := by
  unfold stagingLapse
  split
  · exact .refl
  · exact .ite .refl _ (.trans (freeWave_runs w s) (pushNotice_runs _ _))

theorem createReleased_runs (w g table goTime : Nat) (e : Nat × Nat) (s : State) :
    Runs s (createReleased w g table goTime e s) := by
  unfold createReleased
  dsimp only
  have created : ∀ n tk (fg : Group → Group) (fw : Wave → Wave),
      Runs s (updWave w fw (updGroup g fg { createTicket n tk s with ticketPool := s.ticketPool.liveFromReserved })) :=
    fun n tk fg fw => .trans (.trans (createTicket_runs n tk s) (.aside rfl)) (.trans (updGroup_runs g fg _) (updWave_runs w fw _))
  split
  · exact .trans (created _ _ _ _) (joinCalendar_runs _ _)
  · exact .trans (created _ _ _ _) (.trans (updWave_runs _ _ _) (offer_runs _ _))

theorem visitTable_runs (w i : Nat) (wv : Wave) (v : ServedTable) (s : State) : Runs s (visitTable w i wv v s) := by
  unfold visitTable
  refine .trans ?_ (.foldl _ (fun s e => createReleased_runs _ _ _ _ e s) _ _)
  refine .trans ?_ (addLiveCourse_runs _ _ _)
  refine .trans ?_ (updWave_runs _ _ _)
  exact .single (.records ⟨rfl, id, id, id, Store.rising_set _ _⟩)

theorem returnReservations_runs (w : Nat) (s : State) : Runs s (returnReservations w s) := by
  unfold returnReservations
  split
  · exact .refl
  · exact .trans (.aside rfl) (updWave_runs _ _ _)

theorem endRelease_runs (w : Nat) (s : State) : Runs s (endRelease w s) := by
  unfold endRelease
  dsimp only
  refine .trans ?_ (completeWave_runs _ _)
  have h : Runs s { updWave w (fun wv => { wv with state := .active }) (returnReservations w s) with
      engine := { status := .done, wave := some w, plan := [], next := 0 } } :=
    .trans (returnReservations_runs w s) (.trans (updWave_runs w _ _) (.aside rfl))
  split
  · exact h.trans (pushNotice_runs _ _)
  · exact h

theorem releaseVisit_runs (s : State) : Runs s (releaseVisit s) := by
  unfold releaseVisit
  split
  · split
    · exact .refl
    · dsimp only
      split
      · exact endRelease_runs _ s
      · exact .ite (.trans (visitTable_runs _ _ _ _ s) (.aside rfl)) _ (endRelease_runs _ _)
  · exact .refl

theorem stopEngine_runs (w : Nat) (s : State) : Runs s (stopEngine w s) := by
  refine .ite .refl _ (.trans ?_ (returnReservations_runs _ _))
  refine .trans ?_ (.foldl _ (fun s (v : ServedTable) => .foldl _ (fun s (e : Nat × Nat) => returnStock_runs e.1 e.2 s) _ s) _ _)
  exact .aside rfl

theorem cancelWave_runs (w : Nat) (s : State) : Runs s (cancelWave w s).1 := by
  unfold cancelWave
  refine .trans (stopEngine_runs w s) (.trans ?_ (endWave_runs _ _ _))
  exact .foldl _ (fun s g => .trans (.foldl _ (fun s t => withdrawFree_runs t s) _ s) (freeGroup_runs _ _ _)) _ _

/-- The cancellations of a teardown, from any counts on. -/
theorem cancelWaves_cons (w : Nat) (ws : List Nat) (s : State) :
    cancelWaves (w :: ws) s
      = ((cancelWaves ws (cancelWave w s).1).1, 1 + (cancelWaves ws (cancelWave w s).1).2.1,
        (cancelWave w s).2.1 + (cancelWaves ws (cancelWave w s).1).2.2.1,
        (cancelWave w s).2.2 + (cancelWaves ws (cancelWave w s).1).2.2.2) := by
  have shift : ∀ (ws : List Nat) (s : State) (a b c : Nat),
      ws.foldl (fun r w => match cancelWave w r.1 with
        | (s, groups, tickets) => (s, r.2.1 + 1, r.2.2.1 + groups, r.2.2.2 + tickets)) (s, a, b, c)
        = ((cancelWaves ws s).1, a + (cancelWaves ws s).2.1, b + (cancelWaves ws s).2.2.1, c + (cancelWaves ws s).2.2.2) := by
    intro ws
    induction ws with
    | nil => intros; rfl
    | cons v ws ih =>
      intro s a b c
      have key : cancelWaves (v :: ws) s = _ := ih (cancelWave v s).1 (0 + 1) (0 + (cancelWave v s).2.1) (0 + (cancelWave v s).2.2)
      rw [key]
      refine (ih (cancelWave v s).1 (a + 1) (b + (cancelWave v s).2.1) (c + (cancelWave v s).2.2)).trans ?_
      simp only [Nat.zero_add, Nat.add_assoc]
  refine (shift ws (cancelWave w s).1 (0 + 1) (0 + (cancelWave w s).2.1) (0 + (cancelWave w s).2.2)).trans ?_
  simp only [Nat.zero_add]

theorem cancelWaves_runs (ws : List Nat) (s : State) : Runs s (cancelWaves ws s).1 := by
  induction ws generalizing s with
  | nil => exact .refl
  | cons w ws ih => rw [cancelWaves_cons]; exact .trans (cancelWave_runs w s) (ih _)

theorem resumeTicket_runs (goTime t : Nat) (s : State) : Runs s (resumeTicket goTime t s) := by
  unfold resumeTicket
  split
  · exact setTicket_runs _ _ s
  · exact .refl

theorem leaveWaiting_runs (t : Nat) (s : State) : Runs s (leaveWaiting t s) := by
  unfold leaveWaiting
  split
  · exact .trans (leaveBlocked_runs _ _ s) (leaveCalendar_runs _ _)
  · exact .refl

theorem placeResumed_runs (retimed kept : List Nat) (s : State) : Runs s (placeResumed retimed kept s).1 := by
  unfold placeResumed
  refine .trans ?_ (offerAll_runs _ _)
  refine .trans ?_ (.foldl _ (fun s t => leaveWaiting_runs t s) _ _)
  refine .trans ?_ (.foldl _ (fun s t => .trans (leaveWaiting_runs t s) (joinCalendar_runs t _)) _ _)
  exact .aside rfl

theorem resumeWave_runs (w : Nat) (wv : Wave) (goTime : Nat) (s : State) : Runs s (resumeWave w wv goTime s).1 := by
  unfold resumeWave
  refine .trans ?_ (placeResumed_runs _ _ _)
  refine .trans ?_ (.foldl _ (fun s g => .trans (updGroup_runs _ _ s) (.foldl _ (fun s t => resumeTicket_runs _ t s) _ _)) _ _)
  exact .trans (updWave_runs w _ s) (.aside rfl)

/-! ## Expiries and load (R90, R131 to R143, R161) -/

theorem fireExpiry_runs (s : State) : Runs s (fireExpiry s) :=
  .foldl _ (fun s t => .trans (leaveCalendar_runs t s) (offer_runs t _)) _ _

theorem pickupExpiry_runs (g : Nat) (s : State) : Runs s (pickupExpiry g s) := by
  unfold pickupExpiry
  split
  · exact .refl
  · split
    · exact .ite .refl _ (.trans (pushNotice_runs _ s) (updGroup_runs _ _ _))
    · exact .refl

theorem dieExpiryIfDue_runs (g : Nat) (s : State) : Runs s (dieExpiryIfDue g s) :=
  .ite .refl _ (dieExpiry_runs g s)

/-- A station's change of load state, when a station that has not been defined changes to NORMAL alone. -/
theorem changeLoad_runs (x : Nat) (after : LoadState) {s : State} (h : (station s x).config = none → after = .normal) :
    Runs s (changeLoad x after s).1 := by
  have hload : Runs s (updStation x (fun st => { st with load := { st.load with state := after } }) s) :=
    .load x (fun l => { l with state := after }) ⟨fun _ => id, fun hn => by rw [h hn]⟩
  unfold changeLoad
  refine .trans ?_ (pushNotice_runs _ _)
  refine .trans ?_ (sendRecord_runs _ _ _)
  refine .ite (.trans hload ?_) _ (drain_runs _ _)
  split
  · exact retime_runs _ _
  · exact .refl

theorem sampledAccumulator_le {c : StationConfig} {a : Nat} (u : Nat) (h : a ≤ Config.accumulatorMax) :
    sampledAccumulator c a u ≤ Config.accumulatorMax := by
  unfold sampledAccumulator
  split
  · exact Nat.min_le_left _ _
  · exact (Nat.sub_le _ _).trans h

theorem loadSample_runs (x : Nat) (s : State) : Runs s (loadSample x s) := by
  unfold loadSample
  split
  · exact .refl
  · rename_i c hc
    refine .ite .refl _ ?_
    dsimp only
    have sampled : Runs s (updStation x (fun st => { st with load := { st.load with
        accumulator := sampledAccumulator c (station s x).load.accumulator (demand s x)
        nextSample := some (s.clock + Config.samplePeriod) } }) s) := by
      rw [updStation_congr (g := fun st => { st with load := { st.load with
        accumulator := sampledAccumulator c st.load.accumulator (demand s x)
        nextSample := some (s.clock + Config.samplePeriod) } }) rfl]
      exact .load x (fun l => { l with
        accumulator := sampledAccumulator c l.accumulator (demand s x), nextSample := some (s.clock + Config.samplePeriod) })
        ⟨fun _ h => sampledAccumulator_le _ h, fun h => by simp [hc] at h⟩
    split
    · exact sampled
    · refine sampled.trans (changeLoad_runs x _ fun h => ?_)
      rw [station_updStation] at h
      split at h <;> simp [hc] at h

theorem endLoad_runs (x : Nat) (s : State) : Runs s (endLoad x s) := by
  have h : Runs s (updStation x (fun st => { st with load := { st.load with accumulator := 0, nextSample := none } }) s) :=
    .load x (fun l => { l with accumulator := 0, nextSample := none }) ⟨fun _ _ => Nat.zero_le _, fun _ => rfl⟩
  unfold endLoad
  dsimp only
  split
  · exact h
  · exact h.trans (changeLoad_runs x .normal fun _ => rfl)

theorem finishService_runs (s : State) : Runs s (finishService s) :=
  have toSetup : ∀ u : State, Runs u { u with link := { u.link with mode := .setup } } := fun _ => .aside rfl
  have idle : Runs s { s with engine := {} } := .aside rfl
  .trans (idle.trans (.foldl _ (fun s x => endLoad_runs x s) (List.range Config.stations) _)) (toSetup _)

end Sys2Proof.Machine
end

section
/-!
PROOFS. Every request and every command is a run of plain changes, and so every step keeps the ranges, the stores' form, undefined stations at
rest and the order of the live course sets.
-/

namespace Sys2Proof.Machine

/-! ## Requests -/

/-- A request refused under a condition, and otherwise a run. -/
theorem Runs.unless {s : State} (r : Reason) (c : Prop) [Decidable c] {x : State × Answer} (h : Runs s x.1) :
    Runs s (if c then refuse r s else x).1 := by
  split
  · exact .refl
  · exact h

theorem takeFrame_runs (f : Frame) {handle : List Byte → State → State × Answer} (s : State)
    (h : ∀ b u, Runs u (handle b u).1) : Runs s (takeFrame f handle s) :=
  have dequeue : Runs s { s with link := { s.link with input := s.link.input.tail } } := .aside rfl
  have reply : ∀ r u, Runs u (pushReply r u) := fun _ _ => .aside rfl
  .trans (dequeue.trans (h f.body _)) (.trans (reply _ _) (settle_runs _))

theorem takeRequest_runs (kind : Byte) {handle : List Byte → State → State × Answer} (s : State)
    (h : ∀ b u, Runs u (handle b u).1) : Runs s (takeRequest kind handle s) := by
  unfold takeRequest
  split
  · exact .ite .refl _ (takeFrame_runs _ s h)
  · exact .refl

theorem identifyRequest_runs (b : List Byte) (s : State) : Runs s (identifyRequest b s).1 := by
  unfold identifyRequest
  split <;> exact .refl

theorem restartRequest_runs (b : List Byte) (s : State) : Runs s (restartRequest b s).1 := by
  unfold restartRequest
  split
  · exact .refl
  · exact .aside rfl

theorem setClockRequest_runs (b : List Byte) (s : State) : Runs s (setClockRequest b s).1 := by
  unfold setClockRequest
  split
  · exact .refl
  · split
    · exact .refl
    · rename_i h
      exact .unless _ _ (.single (.clock _ fun _ => Nat.not_lt.mp h))

theorem queryClockRequest_runs (b : List Byte) (s : State) : Runs s (queryClockRequest b s).1 := by
  unfold queryClockRequest
  split <;> exact .refl

theorem beginService_runs (limit : Nat) (s : State) : Runs s (beginService limit s) :=
  have begun : Runs s { s with link := { s.link with pickupLimit := limit, seq := 0, mode := .service } } := .aside rfl
  begun.trans (.single (.loads s.clock))

theorem beginServiceRequest_runs (b : List Byte) (s : State) : Runs s (beginServiceRequest b s).1 := by
  unfold beginServiceRequest
  split
  · exact .refl
  · exact .unless _ _ (.unless _ _ (.unless _ _ (beginService_runs _ s)))

theorem endServiceRequest_runs (b : List Byte) (s : State) : Runs s (endServiceRequest b s).1 := by
  unfold endServiceRequest
  split
  · exact .refl
  · refine .unless _ _ (.unless _ _ (.unless _ _ ?_))
    have h := cancelWaves_runs (wavesNotFree s) s
    split
    rename_i e
    rw [e] at h
    exact h.trans (by dsimp only [accept]; exact finishService_runs _)

theorem defineStationRequest_runs (b : List Byte) (s : State) : Runs s (defineStationRequest b s).1 := by
  unfold defineStationRequest
  split
  · exact .refl
  · refine .unless _ _ (.unless _ _ (.ite ?_ _ (askRefresh_runs _ _)))
    exact .controller _ _ s (fun _ => rfl) fun _ h => by cases h

/-- The count of a DEFINE_COMPONENT in its range (R2). -/
theorem stock_le_of_inRange {c : Nat} {r : Component} (h : componentFormInRange c r ≠ false) : ∀ n ∈ r.stock, n ≤ Config.stockMax := by
  intro n hn
  rw [Option.mem_def] at hn
  simp only [componentFormInRange, hn, Bool.not_eq_false, Bool.and_eq_true, decide_eq_true_eq] at h
  exact h.1.2

theorem defineComponentRequest_runs (b : List Byte) (s : State) : Runs s (defineComponentRequest b s).1 := by
  unfold defineComponentRequest
  split
  · exact .refl
  · split
    · exact .refl
    · rename_i h
      exact .unless _ _ (.unless _ _ (.single (.component _ _ fun n hn => .inl (stock_le_of_inRange h n hn))))

theorem defineCourseRequest_runs (b : List Byte) (s : State) : Runs s (defineCourseRequest b s).1 := by
  unfold defineCourseRequest
  split
  · exact .refl
  · exact .unless _ _ (.unless _ _ (.unless _ _ (.single (.records ⟨rfl, Store.rising_set _ _, id, id, id⟩))))

theorem defineFloorRequest_runs (b : List Byte) (s : State) : Runs s (defineFloorRequest b s).1 := by
  unfold defineFloorRequest
  split
  · exact .refl
  · exact .unless _ _ (.unless _ _ (.single (.floor _ _)))

theorem setTableRequest_runs (b : List Byte) (s : State) : Runs s (setTableRequest b s).1 := by
  unfold setTableRequest
  split
  · exact .refl
  · exact .unless _ _ (.unless _ _ (.unless _ _ (.unless _ _ (.unless _ _ (.single (.table _ _ id))))))

theorem markTable_runs (op : MarkOp) (t : Nat) (s : State) : Runs s (markTable op s t) :=
  .single (.table t _ id)

theorem markTablesRequest_runs (b : List Byte) (s : State) : Runs s (markTablesRequest b s).1 := by
  unfold markTablesRequest
  split
  · exact .refl
  · exact .unless _ _ (.unless _ _ (.unless _ _ (.foldl _ (fun u t => markTable_runs _ t u) (walkOrder _ _) s)))

theorem restockRequest_runs (b : List Byte) (s : State) : Runs s (restockRequest b s).1 := by
  unfold restockRequest
  split
  · exact .refl
  · split
    · exact .refl
    · rename_i h
      split
      · exact .refl
      · split
        · exact .refl
        · exact setStock_runs (.inl (Nat.not_lt.mp fun hn => h (.inr ⟨rfl, hn⟩)))
        · exact setStock_runs (.inl (Nat.min_le_left _ _))

theorem queryStationRequest_runs (b : List Byte) (s : State) : Runs s (queryStationRequest b s).1 := by
  unfold queryStationRequest
  split
  · exact .refl
  · refine .unless _ _ ?_
    split <;> exact .refl

theorem queryComponentRequest_runs (b : List Byte) (s : State) : Runs s (queryComponentRequest b s).1 := by
  unfold queryComponentRequest
  split
  · exact .refl
  · refine .unless _ _ ?_
    split <;> exact .refl

theorem queryTableRequest_runs (b : List Byte) (s : State) : Runs s (queryTableRequest b s).1 := by
  unfold queryTableRequest
  split
  · exact .refl
  · exact .unless _ _ (.unless _ _ .refl)

theorem queryWaveRequest_runs (b : List Byte) (s : State) : Runs s (queryWaveRequest b s).1 := by
  unfold queryWaveRequest
  split
  · exact .refl
  · exact .unless _ _ .refl

theorem queryGroupRequest_runs (b : List Byte) (s : State) : Runs s (queryGroupRequest b s).1 := by
  unfold queryGroupRequest
  split
  · exact .refl
  · exact .unless _ _ .refl

theorem queryTicketRequest_runs (b : List Byte) (s : State) : Runs s (queryTicketRequest b s).1 := by
  unfold queryTicketRequest
  split
  · exact .refl
  · exact .unless _ _ .refl

theorem stageWaveRequest_runs (b : List Byte) (s : State) : Runs s (stageWaveRequest b s).1 := by
  unfold stageWaveRequest
  split
  · exact .refl
  · refine .unless _ _ (.unless _ _ (.unless _ _ (.unless _ _ (.unless _ _ (.unless _ _ ?_)))))
    exact .single (.records ⟨rfl, id, Store.rising_set _ _, id, id⟩)

theorem startRelease_runs (before : State) (w : Nat) (wv : Wave) (plan : List ServedTable) (s : State) :
    Runs s (startRelease before w wv plan s) :=
  have pools : ∀ p q, Runs s { s with ticketPool := p, groupPool := q } := fun _ _ => .aside rfl
  .trans (pools _ _) (.trans (updWave_runs w _ _) (.aside rfl))

theorem releaseStaged_runs (w : Nat) (wv : Wave) (s : State) : Runs s (releaseStaged w wv s).1 := by
  unfold releaseStaged
  refine .unless _ _ (.unless _ _ (.unless _ _ ?_))
  have h := waveDraw_runs (stockNeed s (releasePlan s wv)) s
  split <;> rename_i e <;> rw [e] at h
  · exact h
  · exact h.trans (startRelease_runs _ _ _ _ _)

theorem releaseWaveRequest_runs (b : List Byte) (s : State) : Runs s (releaseWaveRequest b s).1 := by
  unfold releaseWaveRequest
  split
  · exact .refl
  · refine .unless _ _ ?_
    split
    · exact .unless _ _ .refl
    · exact .unless _ _ (.unless _ _ (.unless _ _ (.unless _ _ (releaseStaged_runs _ _ s))))

theorem holdWaveRequest_runs (b : List Byte) (s : State) : Runs s (holdWaveRequest b s).1 := by
  unfold holdWaveRequest
  split
  · exact .refl
  · exact .unless _ _ (.unless _ _ (.unless _ _ (.trans (updWave_runs _ _ s) (.aside rfl))))

theorem resumeWaveRequest_runs (b : List Byte) (s : State) : Runs s (resumeWaveRequest b s).1 := by
  unfold resumeWaveRequest
  split
  · exact .refl
  · refine .unless _ _ ?_
    split
    · exact .unless _ _ .refl
    · exact .unless _ _ (.unless _ _ (.unless _ _ (resumeWave_runs _ _ _ s)))

theorem cancelWaveRequest_runs (b : List Byte) (s : State) : Runs s (cancelWaveRequest b s).1 := by
  unfold cancelWaveRequest
  split
  · exact .refl
  · exact .unless _ _ (.unless _ _ (.unless _ _ (cancelWave_runs _ s)))

theorem rearmStationRequest_runs (b : List Byte) (s : State) : Runs s (rearmStationRequest b s).1 := by
  unfold rearmStationRequest
  split
  · exact .refl
  · refine .unless _ _ (.unless _ _ ?_)
    split
    · exact .refl
    · rename_i hc
      exact .unless _ _ (.unless _ _ (changeLoad_runs _ _ fun h => by simp [hc] at h))

theorem refireRequest_runs (b : List Byte) (s : State) : Runs s (refireRequest b s).1 := by
  unfold refireRequest
  split
  · exact .refl
  · rename_i g t _
    refine .unless _ _ (.unless _ _ ?_)
    split
    · exact .refl
    · rename_i tk _
      refine .unless _ _ ?_
      have h := refireTicket_runs g t tk s
      split <;> rename_i e <;> rw [e] at h <;> exact h

theorem sendShort_runs (g : Nat) (gr : Group) (s : State) : Runs s (sendShort g gr s).1 := by
  have withdrawn : Runs s (gr.tickets.foldl (fun s t => withdrawKeep t s) (updGroup g (fun gr => { gr with short := true }) s)) :=
    .trans (updGroup_runs g _ s) (.foldl _ (fun s t => withdrawKeep_runs t s) _ _)
  unfold sendShort
  dsimp only
  split
  · exact withdrawn.trans (.trans (sendGroupUp_runs _ _) (completionTest_runs _ _))
  · exact withdrawn.trans (.trans (freeGroup_runs _ _ _) (completeWave_runs _ _))

theorem sendShortRequest_runs (b : List Byte) (s : State) : Runs s (sendShortRequest b s).1 := by
  unfold sendShortRequest
  split
  · exact .refl
  · refine .unless _ _ (.unless _ _ ?_)
    split
    · exact .refl
    · exact .unless _ _ (sendShort_runs _ _ s)

/-! ## Line records -/

theorem applyReady_runs (x t : Nat) (tk : Ticket) (s : State) : Runs s (applyReady x t tk s) :=
  .trans (.trans (updTicket_runs _ _ s) (leaveStation_runs _ _ _ _)) (.trans (groupArrival_runs _ _ _) (drainIf_runs _ _ _))

theorem takeReady_runs (x t : Nat) (s : State) : Runs s (takeReady x t s) := by
  refine .ite .refl _ ?_
  split
  · exact applyReady_runs _ _ _ s
  · exact sendRecord_runs _ _ s

theorem showSpoil_runs (g : Nat) (s : State) : Runs s (showSpoil g s) := by
  unfold showSpoil
  split
  · exact .refl
  · exact .ite .refl _ (.trans (sendGroupUp_runs _ s) (completionTest_runs _ _))

theorem applySpoil_runs (x t : Nat) (tk : Ticket) (s : State) : Runs s (applySpoil x t tk s) :=
  .trans (.trans (.trans (updTicket_runs _ _ s) (leaveStation_runs _ _ _ _)) (automaticRemake_runs _ _ _ _))
    (.trans (showSpoil_runs _ _) (drainIf_runs _ _ _))

theorem takeSpoil_runs (x t : Nat) (s : State) : Runs s (takeSpoil x t s) := by
  refine .ite .refl _ ?_
  split
  · exact applySpoil_runs _ _ _ s
  · exact sendRecord_runs _ _ s

theorem takeResync_runs (x : Nat) (s : State) : Runs s (takeResync x s) :=
  .ite .refl _ (askRefresh_runs _ s)

theorem takePicked_runs (g : Nat) (s : State) : Runs s (takePicked g s) := by
  refine .ite .refl _ ?_
  split
  · split
    · exact .trans (freeGroup_runs _ _ s) (completeWave_runs _ _)
    · exact sendRecord_runs _ _ s
  · exact sendRecord_runs _ _ s

theorem takePassRefire_runs (g t : Nat) (s : State) : Runs s (takePassRefire g t s) := by
  refine .ite .refl _ ?_
  split
  · rename_i tk _
    split
    · have h := refireTicket_runs g t tk s
      split <;> rename_i e <;> rw [e] at h
      · exact h
      · exact h.trans (sendRecord_runs _ _ _)
      · exact h.trans (sendRecord_runs _ _ _)
    · exact sendRecord_runs _ _ s
  · exact sendRecord_runs _ _ s

theorem takePassResync_runs (s : State) : Runs s (takePassResync s) :=
  .ite .refl _ (askRefresh_runs _ s)

theorem takeLineFrame_runs (l : LineId) (f : Frame) (s : State) : Runs s (takeLineFrame l f s) := by
  unfold takeLineFrame
  split
  · split
    · split
      · exact takeReady_runs _ _ s
      · exact .refl
    · split
      · split
        · exact takeSpoil_runs _ _ s
        · exact .refl
      · split
        · split
          · exact takeResync_runs _ s
          · exact .refl
        · exact .refl
  · split
    · split
      · exact takePicked_runs _ s
      · exact .refl
    · split
      · split
        · exact takePassRefire_runs _ _ s
        · exact .refl
      · split
        · split
          · exact takePassResync_runs s
          · exact .refl
        · exact .refl

theorem lineByte_runs (l : LineId) (b : Byte) (s : State) : Runs s (lineByte l b s) := by
  have received := updLine_runs l (fun ln => { ln with receiver := (receiveByte b (lineOf s l).receiver).1 }) s
  unfold lineByte
  dsimp only
  split
  · exact received
  · exact received
  · exact received.trans (.trans (takeLineFrame_runs _ _ _) (settle_runs _))

/-! ## The host link, the lines and the clock -/

theorem takeGood_runs (f : Frame) (s : State) : Runs s (takeGood f s) := by
  unfold takeGood
  split
  · exact .aside rfl
  · exact pushNotice_runs _ s

theorem takeJudged_runs (j : Judged) (s : State) : Runs s (takeJudged j s) := by
  cases j
  case nothing => exact .refl
  case bad fault => exact .trans (pushNotice_runs _ s) (settle_runs _)
  case good f => exact .trans (takeGood_runs f s) (settle_runs _)

theorem hostByte_runs (b : Byte) (s : State) : Runs s (hostByte b s) :=
  have received : Runs s { s with link := { s.link with receiver := (receiveByte b s.link.receiver).1 } } := .aside rfl
  received.trans (takeJudged_runs _ _)

theorem noticePresence_runs (x : Nat) (s : State) : Runs s (noticePresence x s) :=
  pushNotice_runs _ s

theorem presenceFalls_runs (x : Nat) (s : State) : Runs s (presenceFalls x s) :=
  .ite .refl _ (.ite (updLine_runs (.station x) _ s) _ (noticePresence_runs x _))

theorem presenceRises_runs (x : Nat) (s : State) : Runs s (presenceRises x s) := by
  refine .ite .refl _ (.ite (updLine_runs (.station x) _ s) _ ?_)
  exact .trans (askRefresh_runs _ _) (.trans (drain_runs x _) (noticePresence_runs x _))

theorem advanceClock_runs (s : State) : Runs s (advanceClock s) := by
  refine .single (.clock _ fun h => ?_)
  split <;> omega

theorem takeDueExpiries_runs (s : State) : Runs s (takeDueExpiries s) := by
  unfold takeDueExpiries
  refine .trans ?_ (.foldl _ (fun s g => .trans (pickupExpiry_runs g s) (settle_runs _)) _ _)
  refine .trans ?_ (.foldl _ (fun s g => .trans (dieExpiryIfDue_runs g s) (settle_runs _)) _ _)
  refine .trans ?_ (.foldl _ (fun s x => .trans (loadSample_runs x s) (settle_runs _)) _ _)
  refine .trans ?_ (.trans (fireExpiry_runs _) (settle_runs _))
  exact .foldl _ (fun s w => .trans (stagingLapse_runs w s) (settle_runs _)) _ s

/-! ## Commands -/

/-- What a command that names a unit of the part keeps, if it keeps it where the unit is one. -/
theorem runs_of_guarded {c : Prop} [Decidable c] {s t : State} {x : Result} (hx : x = .next t → Runs s t)
    (h : (if c then x else .fault .noSuchUnit) = Host.Outcome.next t) : Runs s t := by
  split at h
  · exact hx h
  · cases h

theorem runs_of_next {s t u : State} (hu : Runs s u) (h : (Host.Outcome.next u : Result) = .next t) : Runs s t := by
  cases h
  exact hu

theorem execHostFrameEnd_runs {s t : State} (h : execHostFrameEnd s = .next t) : Runs s t := by
  unfold execHostFrameEnd at h
  split at h
  · exact runs_of_next .refl h
  · exact runs_of_next (chooseHostFrame_runs s) h
  · split at h
    · exact runs_of_next (.single (.reset _ _)) h
    · exact runs_of_next (chooseHostFrame_runs s) h

theorem execUnknownKind_runs {s t : State} (h : execUnknownKind s = .next t) : Runs s t := by
  unfold execUnknownKind at h
  split at h
  · split at h
    · exact runs_of_next .refl h
    · exact runs_of_next (takeFrame_runs _ s fun _ _ => .refl) h
  · exact runs_of_next .refl h

/-- Every command is a run of plain changes. -/
theorem exec_runs (i : Instr) {s t : State} (h : exec i s = .next t) : Runs s t := by
  cases i with
  | reset levels pass => exact runs_of_guarded (runs_of_next (.single (.reset _ _))) h
  | clockTick => exact runs_of_next (.trans (takeDueExpiries_runs s) (advanceClock_runs _)) h
  | hostFrameArrival bytes => exact runs_of_next (.foldl _ (fun s b => hostByte_runs b s) bytes s) h
  | hostFrameEnd => exact execHostFrameEnd_runs h
  | unknownKind => exact execUnknownKind_runs h
  | identify => exact runs_of_next (takeRequest_runs _ s identifyRequest_runs) h
  | restart => exact runs_of_next (takeRequest_runs _ s restartRequest_runs) h
  | setClock => exact runs_of_next (takeRequest_runs _ s setClockRequest_runs) h
  | queryClock => exact runs_of_next (takeRequest_runs _ s queryClockRequest_runs) h
  | beginService => exact runs_of_next (takeRequest_runs _ s beginServiceRequest_runs) h
  | endService => exact runs_of_next (takeRequest_runs _ s endServiceRequest_runs) h
  | defineStation => exact runs_of_next (takeRequest_runs _ s defineStationRequest_runs) h
  | defineComponent => exact runs_of_next (takeRequest_runs _ s defineComponentRequest_runs) h
  | defineCourse => exact runs_of_next (takeRequest_runs _ s defineCourseRequest_runs) h
  | defineFloor => exact runs_of_next (takeRequest_runs _ s defineFloorRequest_runs) h
  | setTable => exact runs_of_next (takeRequest_runs _ s setTableRequest_runs) h
  | markTables => exact runs_of_next (takeRequest_runs _ s markTablesRequest_runs) h
  | restock => exact runs_of_next (takeRequest_runs _ s restockRequest_runs) h
  | queryStation => exact runs_of_next (takeRequest_runs _ s queryStationRequest_runs) h
  | queryComponent => exact runs_of_next (takeRequest_runs _ s queryComponentRequest_runs) h
  | queryTable => exact runs_of_next (takeRequest_runs _ s queryTableRequest_runs) h
  | queryWave => exact runs_of_next (takeRequest_runs _ s queryWaveRequest_runs) h
  | queryGroup => exact runs_of_next (takeRequest_runs _ s queryGroupRequest_runs) h
  | queryTicket => exact runs_of_next (takeRequest_runs _ s queryTicketRequest_runs) h
  | stageWave => exact runs_of_next (takeRequest_runs _ s stageWaveRequest_runs) h
  | releaseWave => exact runs_of_next (takeRequest_runs _ s releaseWaveRequest_runs) h
  | holdWave => exact runs_of_next (takeRequest_runs _ s holdWaveRequest_runs) h
  | resumeWave => exact runs_of_next (takeRequest_runs _ s resumeWaveRequest_runs) h
  | cancelWave => exact runs_of_next (takeRequest_runs _ s cancelWaveRequest_runs) h
  | rearmStation => exact runs_of_next (takeRequest_runs _ s rearmStationRequest_runs) h
  | refire => exact runs_of_next (takeRequest_runs _ s refireRequest_runs) h
  | sendShort => exact runs_of_next (takeRequest_runs _ s sendShortRequest_runs) h
  | stagingLapse w => exact runs_of_guarded (runs_of_next (.trans (stagingLapse_runs w s) (settle_runs _))) h
  | releaseVisit => exact runs_of_next (.trans (releaseVisit_runs s) (settle_runs _)) h
  | fireExpiry => exact runs_of_next (.trans (fireExpiry_runs s) (settle_runs _)) h
  | loadSample x => exact runs_of_guarded (runs_of_next (.trans (loadSample_runs x s) (settle_runs _))) h
  | dieExpiry g => exact runs_of_guarded (runs_of_next (.trans (dieExpiryIfDue_runs g s) (settle_runs _))) h
  | pickupExpiry g => exact runs_of_guarded (runs_of_next (.trans (pickupExpiry_runs g s) (settle_runs _))) h
  | ready x n => exact runs_of_guarded (runs_of_next (.trans (takeReady_runs x _ s) (settle_runs _))) h
  | spoil x n => exact runs_of_guarded (runs_of_next (.trans (takeSpoil_runs x _ s) (settle_runs _))) h
  | resync x => exact runs_of_guarded (runs_of_next (takeResync_runs x s)) h
  | lineFrameDiscard l bytes => exact runs_of_guarded (runs_of_next (.foldl _ (fun s b => lineByte_runs l b s) bytes s)) h
  | picked g => exact runs_of_next (.trans (takePicked_runs _ s) (settle_runs _)) h
  | passRefire g n => exact runs_of_next (.trans (takePassRefire_runs _ _ s) (settle_runs _)) h
  | passResync => exact runs_of_next (takePassResync_runs s) h
  | presenceFall x => exact runs_of_guarded (runs_of_next (.trans (presenceFalls_runs x s) (settle_runs _))) h
  | presenceRise x => exact runs_of_guarded (runs_of_next (.trans (presenceRises_runs x s) (settle_runs _))) h
  | passPresenceFall =>
    have h : (if s.passLine.presence = .present then Host.Outcome.next (lineFalls .pass s) else .next s : Result) = .next t := h
    split at h
    · exact runs_of_next (updLine_runs .pass _ s) h
    · exact runs_of_next .refl h
  | passPresenceRise =>
    have h : (if s.passLine.presence = .absent then Host.Outcome.next (askRefresh .pass (lineRises .pass s)) else .next s : Result)
        = .next t := h
    split at h
    · exact runs_of_next (.trans (updLine_runs .pass _ s) (askRefresh_runs _ _)) h
    · exact runs_of_next .refl h
  | lineFrameEnd l =>
    refine runs_of_guarded (fun h => ?_) h
    split at h
    · exact runs_of_next (.lines (chooseLineFrame_only l s)) h
    · exact runs_of_next .refl h
    · exact runs_of_next .refl h
  | refreshRunEnd l =>
    refine runs_of_guarded (fun h => ?_) h
    split at h
    · exact runs_of_next (.lines (chooseLineFrame_only l s)) h
    · exact runs_of_next .refl h
    · exact runs_of_next .refl h
  | refreshBegin l => exact runs_of_guarded (runs_of_next (.lines (beginRefresh_only l s))) h

/-- The waiting commands are no plain change's to read. -/
theorem step_runs {s t : State} (h : step s = .next t) : Runs s t := by
  unfold step at h
  split at h
  · cases h
    exact .refl
  · exact .trans (.aside rfl) (exec_runs _ h)

/-- Settles O58: each property is kept by every plain change, and a step is a run of them. -/
theorem countersAndStoresStayInForm : Obligations.CountersAndStoresStayInForm :=
  ⟨fun _ _ hs h => ⟨(step_runs h).keeps (fun _ _ => Changes.countersInRange) hs.1,
      (step_runs h).keeps (fun _ _ => Changes.storesCanonical) hs.2⟩,
    fun _ _ hs h => (step_runs h).keeps (fun _ _ => Changes.undefinedAtRest) hs,
    fun _ _ hs h => (step_runs h).keeps (fun _ _ => Changes.liveCoursesAscend) hs⟩

end Sys2Proof.Machine
end

section
/-!
PROOFS. What the taking of a frame leaves unchanged, and how a request's handling gives its command's next state.
-/

namespace Sys2Proof.Machine

section
variable (rest : List Frame) (s : State)

@[simp] theorem dequeued_pending : (dequeued rest s).pending = s.pending := rfl
@[simp] theorem dequeued_clock : (dequeued rest s).clock = s.clock := rfl
@[simp] theorem dequeued_components : (dequeued rest s).components = s.components := rfl
@[simp] theorem dequeued_courses : (dequeued rest s).courses = s.courses := rfl
@[simp] theorem dequeued_floor : (dequeued rest s).floor = s.floor := rfl
@[simp] theorem dequeued_waves : (dequeued rest s).waves = s.waves := rfl
@[simp] theorem dequeued_engine : (dequeued rest s).engine = s.engine := rfl
@[simp] theorem dequeued_tickets : (dequeued rest s).tickets = s.tickets := rfl
@[simp] theorem dequeued_ticketPool : (dequeued rest s).ticketPool = s.ticketPool := rfl
@[simp] theorem dequeued_calendar : (dequeued rest s).calendar = s.calendar := rfl
@[simp] theorem dequeued_frozen : (dequeued rest s).frozen = s.frozen := rfl
@[simp] theorem dequeued_stations : (dequeued rest s).stations = s.stations := rfl
@[simp] theorem dequeued_groups : (dequeued rest s).groups = s.groups := rfl
@[simp] theorem dequeued_groupPool : (dequeued rest s).groupPool = s.groupPool := rfl
@[simp] theorem dequeued_passLine : (dequeued rest s).passLine = s.passLine := rfl
@[simp] theorem dequeued_straps : (dequeued rest s).straps = s.straps := rfl
@[simp] theorem dequeued_link_mode : (dequeued rest s).link.mode = s.link.mode := rfl
@[simp] theorem dequeued_link_decoder : (dequeued rest s).link.decoder = s.link.decoder := rfl
@[simp] theorem dequeued_link_replies : (dequeued rest s).link.replies = s.link.replies := rfl
@[simp] theorem dequeued_link_notices : (dequeued rest s).link.notices = s.link.notices := rfl
@[simp] theorem dequeued_link_lost : (dequeued rest s).link.lost = s.link.lost := rfl
@[simp] theorem dequeued_link_tx : (dequeued rest s).link.tx = s.link.tx := rfl
@[simp] theorem dequeued_link_seq : (dequeued rest s).link.seq = s.link.seq := rfl
@[simp] theorem dequeued_link_pickupLimit : (dequeued rest s).link.pickupLimit = s.link.pickupLimit := rfl
@[simp] theorem dequeued_station (x : Nat) : station (dequeued rest s) x = station s x := rfl
@[simp] theorem dequeued_ticket_get (n : Nat) : ticket? (dequeued rest s) n = ticket? s n := rfl
@[simp] theorem dequeued_group_get (g : Nat) : group? (dequeued rest s) g = group? s g := rfl
@[simp] theorem dequeued_wave_get (w : Nat) : wave? (dequeued rest s) w = wave? s w := rfl
@[simp] theorem dequeued_waveState (w : Nat) : waveState (dequeued rest s) w = waveState s w := rfl
@[simp] theorem dequeued_tableRecord (u : Nat) : tableRecord (dequeued rest s) u = tableRecord s u := rfl
@[simp] theorem dequeued_stockOf (c : Nat) : stockOf (dequeued rest s) c = stockOf s c := rfl
@[simp] theorem dequeued_componentStation (c : Nat) : componentStation (dequeued rest s) c = componentStation s c := rfl
@[simp] theorem dequeued_coursePlan (p : Nat) : coursePlan (dequeued rest s) p = coursePlan s p := rfl
@[simp] theorem dequeued_componentDefined (c : Nat) : componentDefined (dequeued rest s) c = componentDefined s c := rfl
@[simp] theorem dequeued_groupTickets (g : Nat) : groupTickets (dequeued rest s) g = groupTickets s g := rfl

end

/-- The request of frame `f`, taken from the buffer, is answered as its handling says. -/
theorem takeRequest_eq {kind : Byte} {f : Frame} {rest : List Frame} {s : State}
    {handle : List Byte → State → State × Answer} (h : Takes f rest s) (hk : f.kind = kind) {t : State} {a : Answer}
    (hh : handle f.body (dequeued rest s) = (dequeued rest t, a)) :
    takeRequest kind handle s = answered f rest a t := by
  rw [takeRequest_of_takes handle h hk, hh, ← hk]
  rfl

/-- A check that a request fails refuses it. -/
theorem takeRequest_refused_of {kind : Byte} {f : Frame} {rest : List Frame} {s : State} {r : Reason}
    {handle : List Byte → State → State × Answer} (h : Takes f rest s) (hk : f.kind = kind)
    (hh : handle f.body (dequeued rest s) = refuse r (dequeued rest s)) :
    (Host.Outcome.next (takeRequest kind handle s) : Result) = .next (refusedWith f rest r s) :=
  congrArg _ (takeRequest_refused h hk hh)

/-- The same for a request that is carried out. -/
theorem takeRequest_answered {kind : Byte} {f : Frame} {rest : List Frame} {s : State}
    {handle : List Byte → State → State × Answer} (h : Takes f rest s) (hk : f.kind = kind) {t : State} {a : Answer}
    (hh : handle f.body (dequeued rest s) = (dequeued rest t, a)) :
    (Host.Outcome.next (takeRequest kind handle s) : Result) = .next (answered f rest a t) :=
  congrArg _ (takeRequest_eq h hk hh)

end Sys2Proof.Machine
end

section
/-!
PROOFS. The reset and the restart, and the definitions of the menu: components, courses and stock.
-/

namespace Sys2Proof.Machine

/-! ## Reset and restart (R184, R185) -/

theorem map_range_length {α β : Type} {n : Nat} {l : List α} (d : α) (f : α → β) (h : l.length = n) :
    (List.range n).map (fun x => f (l.getD x d)) = l.map f := by
  apply List.ext_getElem
  · simp [h]
  · intro i h1 h2
    rw [List.length_map] at h2
    simp [h2]

/-- Settles O4. -/
theorem resetPutsEveryBlockInItsResetState : Obligations.ResetPutsEveryBlockInItsResetState := by
  intro levels pass s h
  change (if levels.length = Config.stations then _ else _) = _
  rw [if_pos h, resetPart, map_range_length _ (fun p => ({ line := { presence := p } } : Station)) (by simpa using h), List.map_map]
  rfl

theorem restartRequest_eq (b : List Byte) (s : State) :
    restartRequest b s = if b = [] then accept .noFigures { s with link := { s.link with decoder := .stopped } } else refuse .malformed s := by
  cases b <;> rfl

theorem resetKeepingPresence_eq {s : State} (h : s.stations.length = 24) :
    resetKeepingPresence s = { State.reset with
      pending := s.pending
      straps := s.straps
      stations := s.stations.map fun st => { line := { presence := st.line.presence } }
      passLine := { presence := s.passLine.presence } } := by
  rw [resetKeepingPresence, resetPart,
    map_range_length _ (fun p => ({ line := { presence := p } } : Station)) (by simpa using h), List.map_map]
  rfl

/-- Settles O15. -/
theorem restartStopsTheDecoderAndResets : Obligations.RestartStopsTheDecoderAndResets := by
  constructor
  · intro f rest s ht hk
    split
    · rename_i hb
      exact takeRequest_answered ht hk (by rw [restartRequest_eq, if_pos hb]; rfl)
    · rename_i hb
      exact takeRequest_refused_of ht hk (by rw [restartRequest_eq, if_neg hb])
  · intro tag q figures s htx hd hl
    change execHostFrameEnd s = _
    rw [execHostFrameEnd, htx]
    simp [isRestartReply, hd, resetKeepingPresence_eq hl]

/-! ## Components and courses (R2 to R5) -/

theorem componentFormInRange_iff (c : Nat) (r : Component) :
    componentFormInRange c r = true
      ↔ c ≤ 511 ∧ r.station ≤ 23 ∧ 1 ≤ r.cookTime ∧ r.cookTime ≤ 5400 ∧ r.holdWindow ≤ 900 ∧ (∀ n ∈ r.stock, n ≤ 9999)
        ∧ (∀ l ∈ r.lowLevel, 1 ≤ l ∧ l ≤ 9999) ∧ (r.stock = none → r.lowLevel = none) := by
  unfold componentFormInRange
  cases r.stock <;> cases r.lowLevel <;> simp [Config.components, Config.stations, Config.stockMax] <;> omega

/-- A DEFINE_COMPONENT whose body has been read (R2, R3). -/
theorem defineComponentRequest_of_read {b : List Byte} {c : Nat} {r : Component} (s : State) (h : readComponent b = some (c, r)) :
    defineComponentRequest b s
      = if componentFormInRange c r = false then refuse .range s
        else if s.link.mode = .service then refuse .mode s
        else if (station s r.station).config.isNone then refuse .noSuch s
        else accept .noFigures { s with components := s.components.set c r } := by
  rw [defineComponentRequest, h]

/-- Settles O21: the checks of R2 and R3 in order. -/
theorem defineComponentWritesTheRecord : Obligations.DefineComponentWritesTheRecord := by
  intro c r f rest s ht hk hb h1 h2 h3 h4 h5 h6
  have handled := defineComponentRequest_of_read (dequeued rest s) (readComponent_eq.mpr ⟨⟨h1, h2, h3, h4, h5, h6⟩, hb⟩)
  constructor
  · intro hr
    refine takeRequest_refused_of ht hk (handled.trans (if_pos ?_))
    rw [Bool.eq_false_iff, ne_eq, componentFormInRange_iff]
    rintro ⟨a1, a2, a3, a4, a5, a6, a7, a8⟩
    rcases hr with h | h | h | h | h | ⟨n, hn, h⟩ | ⟨l, hl, h⟩ | ⟨h, h'⟩
    case inr.inr.inr.inr.inr.inl => exact absurd (a6 n hn) (by omega)
    case inr.inr.inr.inr.inr.inr.inl => exact absurd (a7 l hl) (by omega)
    case inr.inr.inr.inr.inr.inr.inr => exact h' (a8 h)
    all_goals omega
  · intro a1 a2 a3 a4 a5 a6 a7 a8
    rw [(componentFormInRange_iff c r).mpr ⟨a1, a2, a3, a4, a5, a6, a7, a8⟩] at handled
    refine ⟨fun hm => ?_, fun hm hd => ?_, fun hm hd => ⟨s.components.set c r, ?_, Store.get?_set_self _ _ _,
      fun d hd => Store.get?_set_of_ne _ _ hd⟩⟩
    · exact takeRequest_refused_of ht hk (handled.trans (by simp [hm]))
    · exact takeRequest_refused_of ht hk (handled.trans (by simp [hm, hd]))
    · exact takeRequest_answered ht hk (handled.trans (by simp [hm, hd, accept]; rfl))

theorem courseFormInRange_iff (p : Nat) (cs : List Nat) :
    courseFormInRange p cs = true ↔ p ≤ 127 ∧ cs ≠ [] ∧ cs.length ≤ 8 ∧ (∀ c ∈ cs, c ≤ 511) ∧ cs.Nodup := by
  have hl : 1 ≤ cs.length ↔ cs ≠ [] := List.length_pos_iff
  simp only [courseFormInRange, Config.courses, Config.components, Bool.and_eq_true, decide_eq_true_eq, List.all_eq_true, hl,
    Nat.lt_succ_iff (n := 511), Nat.lt_succ_iff (n := 127)]
  tauto

/-- A DEFINE_COURSE whose body has been read (R5). -/
theorem defineCourseRequest_of_read {b : List Byte} {p : Nat} {cs : List Nat} (s : State) (h : readCourse b = some (p, cs)) :
    defineCourseRequest b s
      = if courseFormInRange p cs = false then refuse .range s
        else if s.link.mode = .service then refuse .mode s
        else if cs.all (componentDefined s) = false then refuse .noSuch s
        else accept .noFigures { s with courses := s.courses.set p cs } := by
  rw [defineCourseRequest, h]

theorem allDefined_iff (s : State) (cs : List Nat) : cs.all (componentDefined s) = true ↔ ∀ c ∈ cs, s.components.get? c ≠ none := by
  simp [componentDefined, Option.isSome_iff_ne_none]

/-- Settles O22: the checks of R5 in order. -/
theorem defineCourseWritesThePlan : Obligations.DefineCourseWritesThePlan := by
  intro p cs f rest s ht hk hb h1 h2 h3
  have handled := defineCourseRequest_of_read (dequeued rest s) (readCourse_eq.mpr ⟨h1, h2, h3, hb⟩)
  constructor
  · intro hr
    refine takeRequest_refused_of ht hk (handled.trans (if_pos ?_))
    rw [Bool.eq_false_iff, ne_eq, courseFormInRange_iff]
    rintro ⟨a1, a2, a3, a4, a5⟩
    rcases hr with h | h | h | ⟨c, hc, h⟩ | h
    · omega
    · exact a2 h
    · omega
    · exact absurd (a4 c hc) (by omega)
    · exact h a5
  · intro a1 a2 a3 a4 a5
    rw [(courseFormInRange_iff p cs).mpr ⟨a1, a2, a3, a4, a5⟩] at handled
    refine ⟨fun hm => ?_, fun hm hd => ?_, fun hm hd => ⟨s.courses.set p cs, ?_, Store.get?_set_self _ _ _,
      fun d hd => Store.get?_set_of_ne _ _ hd⟩⟩
    · exact takeRequest_refused_of ht hk (handled.trans (by simp [hm]))
    · have undefined : cs.all (componentDefined (dequeued rest s)) = false := by
        obtain ⟨c, hc, hn⟩ := hd
        exact List.all_eq_false.mpr ⟨c, hc, by simp [componentDefined, hn]⟩
      exact takeRequest_refused_of ht hk (handled.trans (by simp [hm, undefined]))
    · have defined : cs.all (componentDefined (dequeued rest s)) = true := (allDefined_iff _ _).mpr hd
      exact takeRequest_answered ht hk (handled.trans (by simp [hm, defined, accept]; rfl))

/-! ## Stock (R7) -/

/-- A RESTOCK whose body has been read (R7). -/
theorem restockRequest_of_read {b : List Byte} {c n : Nat} {op : RestockOp} (s : State) :
    readRestock b = some (c, op, n) → restockRequest b s
      = if Config.components ≤ c ∨ (op = .set ∧ Config.stockMax < n) then refuse .range s
        else match s.components.get? c with
          | none => refuse .noSuch s
          | some r =>
            match r.stock, op with
            | none, _ => refuse .state s
            | some _, .set => accept (.restocked c n) (setStock c n s)
            | some m, .add =>
              (setStock c (min Config.stockMax (m + n)) s,
                .accepted { clamped := decide (Config.stockMax < m + n) } (.restocked c (min Config.stockMax (m + n)))) := by
  intro h
  rw [restockRequest, h] <;> rfl

/-- Settles O26: the checks of R7 in order, and the count of each operation. -/
theorem restockChangesOneCount : Obligations.RestockChangesOneCount := by
  intro c n op f rest s ht hk hb h1 h2
  have handled := restockRequest_of_read (dequeued rest s) (readRestock_eq.mpr ⟨h1, h2, hb⟩)
  constructor
  · intro hr
    exact takeRequest_refused_of ht hk (handled.trans (if_pos (hr.imp Nat.succ_le_of_lt id)))
  · intro a1 a2
    have inRange : ¬(Config.components ≤ c ∨ op = .set ∧ Config.stockMax < n) := by
      rintro (h | ⟨h, h'⟩)
      · exact absurd h (by simp only [Config.components]; omega)
      · exact absurd (a2 h) (Nat.not_le.mpr h')
    rw [if_neg inRange] at handled
    refine ⟨fun hc => ?_, fun r hc => ⟨fun hn => ?_, fun m hm => ?_⟩⟩
    · exact takeRequest_refused_of ht hk (handled.trans (by simp [hc]))
    · exact takeRequest_refused_of ht hk (handled.trans (by simp [hc, hn]))
    · have written : ∀ k, (s.components.update c fun r => { r with stock := some k }).get? c = some { r with stock := some k } :=
        fun k => by rw [Store.get?_update_self, hc]; rfl
      cases op with
      | set =>
        refine ⟨s.components.update c fun r => { r with stock := some n }, ?_, written n,
          fun d hd => Store.get?_update_of_ne _ _ hd⟩
        exact takeRequest_answered ht hk (handled.trans (by simp [hc, hm, accept]; rfl))
      | add =>
        refine ⟨s.components.update c fun r => { r with stock := some (min 9999 (m + n)) }, ?_, written _,
          fun d hd => Store.get?_update_of_ne _ _ hd⟩
        exact takeRequest_answered ht hk (handled.trans (by simp [hc, hm]; rfl))

end Sys2Proof.Machine
end

section
/-!
PROOFS. Line records that apply to nothing: what answers them, and that nothing else changes.
-/

namespace Sys2Proof.Machine

/-! ## Line records and the host link -/

theorem settle_of_settled {s : State} (h : HostSettled s) : settle s = s := by
  by_cases hi : s.link.tx = .idle
  · exact settle_of_quiet (h hi).1 (h hi).2
  · exact settle_of_busy hi

theorem OnlyLines.hostSettled {s t : State} (h : OnlyLines s t) (hs : HostSettled s) : HostSettled t := by
  rw [HostSettled, h.link]
  exact hs

theorem settle_sendRecord {l : LineId} {r : LineRecord} {s : State} (h : HostSettled s) : settle (sendRecord l r s) = sendRecord l r s :=
  settle_of_settled ((sendRecord_only l r s).hostSettled h)

section
variable (l : LineId) (k : HostLink) (s : State)

theorem updLine_link (f : Line → Line) : updLine l f { s with link := k } = { updLine l f s with link := k } := by
  cases l <;> rfl

theorem lineOf_link : lineOf { s with link := k } l = lineOf s l := by
  cases l <;> rfl

theorem refreshRun_link : refreshRun { s with link := k } l = refreshRun s l := by
  cases l
  · simp only [refreshRun, stationRun, positionRecords_eq]
    rfl
  · rfl

theorem beginRefresh_link : beginRefresh l { s with link := k } = { beginRefresh l s with link := k } := by
  simp only [beginRefresh, lineOf_link, refreshRun_link, updLine_link]
  split <;> rfl

theorem chooseLineFrame_link : chooseLineFrame l { s with link := k } = { chooseLineFrame l s with link := k } := by
  simp only [chooseLineFrame, lineOf_link, updLine_link, beginRefresh_link]
  split <;> rfl

/-- A record for a terminal reads nothing of the host link. -/
theorem sendRecord_link (r : LineRecord) : sendRecord l r { s with link := k } = { sendRecord l r s with link := k } := by
  simp only [sendRecord, startLine, askRefresh, lineOf_link, updLine_link, beginRefresh_link, chooseLineFrame_link]
  split
  · split
    · split <;> rfl
    · rfl
  · rfl

theorem pushNotice_sendRecord (r : LineRecord) (n : Notice) :
    sendRecord l r (pushNotice n s) = pushNotice n (sendRecord l r s) := by
  have hk : (sendRecord l r s).link = s.link := (sendRecord_only l r s).link
  rw [pushNotice_with n (s := s) (t := s) rfl, sendRecord_link, pushNotice_with n hk]

end

/-! ## Records that do not apply (R116, R158, R160, R165) -/

theorem stationListens_of {s : State} {x : Nat} (hc : (station s x).config ≠ none) (hp : (station s x).line.presence = .present) :
    stationListens s x = true := by
  simp [stationListens, hp, Option.isSome_iff_ne_none, hc]

theorem atStation_eq_none {s : State} {x n : Nat}
    (h : ∀ tk, ticket? s n = some tk → tk.station ≠ x ∨ (tk.state ≠ .queued ∧ tk.state ≠ .onLine)) : atStation s x n = none := by
  unfold atStation
  split
  · rename_i tk htk
    refine if_neg ?_
    rintro ⟨hx, hs⟩
    rcases h tk htk with h | ⟨hq, ho⟩
    · exact h hx
    · exact hs.elim hq ho
  · rfl

theorem groupTicket_eq {s : State} {g n : Nat} {gr : Group} (hg : group? s g = some gr) :
    groupTicket s g n = if n ∈ gr.tickets then ticket? s n else none := by
  simp [groupTicket, groupTickets, hg]

theorem groupTicket_eq_some {s : State} {g n : Nat} {tk : Ticket} :
    groupTicket s g n = some tk ↔ ∃ gr, group? s g = some gr ∧ n ∈ gr.tickets ∧ ticket? s n = some tk := by
  unfold groupTicket groupTickets
  cases group? s g <;> simp

theorem refirable_iff (tk : Ticket) : refirable tk = true ↔ (tk.state = .ready ∨ tk.state = .dead) ∧ tk.generation ≤ 2 := by
  simp [refirable]

theorem refireTicket_noTickets {g n : Nat} {tk : Ticket} {s : State} (h : s.ticketPool.free = 0) :
    refireTicket g n tk s = (s, .noTickets) := by
  simp [refireTicket, requestCopy, h]

/-- A refire whose copy draw is refused leaves its notice alone (R13, R86). -/
theorem refireTicket_noStock {g n k : Nat} {tk : Ticket} {s : State} (h : 0 < s.ticketPool.free)
    (hk : stockOf s tk.component = some k) (hq : k < tk.quantity) :
    refireTicket g n tk s = (pushNotice (.stockOut tk.component .short k tk.quantity) s, .noStock) := by
  simp [refireTicket, requestCopy, h.ne', copyDraw_short hk hq]

/-- A REFIRE at the pass of which a condition on group, ticket or pool fails (R158, R165). -/
theorem takePassRefire_stale {g n : Nat} {s : State} (hp : s.passLine.presence = .present)
    (h : ∀ gr tk, group? s g = some gr → n ∈ gr.tickets → ticket? s n = some tk →
      (tk.state ≠ .ready ∧ tk.state ≠ .dead) ∨ 2 < tk.generation ∨ s.ticketPool.free = 0) :
    takePassRefire g n s = sendRecord .pass (.passStale 0xE1#8 g (some n)) s := by
  rw [takePassRefire, if_pos hp]
  split
  · rename_i tk htk
    obtain ⟨gr, hg, hn, hk⟩ := groupTicket_eq_some.mp htk
    split
    · rename_i hr
      obtain ⟨hs, hgen⟩ := (refirable_iff tk).mp hr
      have hfree : s.ticketPool.free = 0 := by
        rcases h gr tk hg hn hk with ⟨h1, h2⟩ | h | h
        · exact (hs.elim h1 h2).elim
        · omega
        · exact h
      rw [refireTicket_noTickets hfree]
    · rfl
  · rfl

/-- Settles O39. -/
theorem recordsThatDoNotApplyAreStale : Obligations.RecordsThatDoNotApplyAreStale := by
  refine ⟨fun x n s hx hc hp hs h => ?_, fun g s hp hs h => ?_, fun g n s hp hs h => ?_,
    fun g n gr tk k s hp hg hn htk hst hgen hfree hk hq => ?_⟩
  · have inPart : x < Config.stations := Nat.lt_succ_of_le hx
    constructor
    · change execReady x n s = _
      rw [execReady, if_pos inPart, takeReady, if_pos (stationListens_of hc hp), atStation_eq_none h, settle_sendRecord hs]
    · change execSpoil x n s = _
      rw [execSpoil, if_pos inPart, takeSpoil, if_pos (stationListens_of hc hp), atStation_eq_none h, settle_sendRecord hs]
  · change execPicked g s = _
    rw [execPicked, takePicked, if_pos hp]
    split
    · rename_i gr hg
      rw [if_neg (h gr hg), settle_sendRecord hs]
    · rw [settle_sendRecord hs]
  · change execPassRefire g n s = _
    rw [execPassRefire, takePassRefire_stale hp h, settle_sendRecord hs]
  · change execPassRefire g n s = _
    rw [execPassRefire, takePassRefire, if_pos hp, groupTicket_eq_some.mpr ⟨gr, hg, hn, htk⟩]
    dsimp only
    rw [if_pos ((refirable_iff tk).mpr ⟨hst, hgen⟩), refireTicket_noStock hfree hk hq]
    dsimp only
    rw [pushNotice_sendRecord]

end Sys2Proof.Machine
end

section
/-!
PROOFS. The walk of a region (R24 to R27): the segments of its clipped extent row by row, and what the three orders make of them.
-/

namespace Sys2Proof.Machine

/-! ## Segments, row by row -/

/-- These segments lie in the rows of a floor of `c` columns from row `b` on, one in each, each from left to right. -/
def RowsFrom (c : Nat) : Nat → List (List Nat) → Prop
  | _, [] => True
  | b, seg :: rest => (seg.Pairwise (· < ·) ∧ ∀ u ∈ seg, u / c = b) ∧ RowsFrom c (b + 1) rest

theorem RowsFrom.row_le {c b : Nat} {segs : List (List Nat)} (h : RowsFrom c b segs) : ∀ u ∈ segs.flatten, b ≤ u / c := by
  induction segs generalizing b with
  | nil => simp
  | cons seg rest ih =>
    obtain ⟨⟨-, hrow⟩, hrest⟩ := h
    intro u hu
    rcases List.mem_append.mp (List.flatten_cons ▸ hu) with hu | hu
    · exact (hrow u hu).ge
    · have := ih hrest u hu
      omega

/-- A table of an earlier row stands before one of a later row. -/
theorem lt_of_row_lt {c u v : Nat} (h : u / c < v / c) : u < v :=
  Nat.lt_of_not_le fun hle => Nat.not_lt.mpr (Nat.div_le_div_right hle) h

theorem RowsFrom.ascends {c b : Nat} {segs : List (List Nat)} (h : RowsFrom c b segs) : segs.flatten.Pairwise (· < ·) := by
  induction segs generalizing b with
  | nil => exact .nil
  | cons seg rest ih =>
    obtain ⟨⟨hseg, hrow⟩, hrest⟩ := h
    rw [List.flatten_cons, List.pairwise_append]
    refine ⟨hseg, ih hrest, fun u hu v hv => lt_of_row_lt (c := c) ?_⟩
    rw [hrow u hu]
    exact hrest.row_le v hv

theorem snakeFrom_perm (ltr : Bool) (segs : List (List Nat)) : (snakeFrom ltr segs).Perm segs.flatten := by
  induction segs generalizing ltr with
  | nil => exact .refl _
  | cons seg rest ih =>
    rw [snakeFrom, List.flatten_cons]
    refine List.Perm.append ?_ (ih _)
    split
    · exact .refl _
    · exact List.reverse_perm seg

/-- The order of a SNAKE walk from row `o`: row by row, ascending in every second row from that on, and descending in the others (R27). -/
def SnakeOrder (c o u v : Nat) : Prop :=
  u / c < v / c ∨ u / c = v / c ∧ if (u / c - o) % 2 = 0 then u < v else v < u

theorem RowsFrom.snake {c o k : Nat} {segs : List (List Nat)} (h : RowsFrom c (o + k) segs) :
    (snakeFrom (decide (k % 2 = 0)) segs).Pairwise (SnakeOrder c o) := by
  induction segs generalizing k with
  | nil => exact .nil
  | cons seg rest ih =>
    obtain ⟨⟨hseg, hrow⟩, hrest⟩ := h
    have flip : (!decide (k % 2 = 0)) = decide ((k + 1) % 2 = 0) := by
      by_cases hk : k % 2 = 0 <;> simp [hk] <;> omega
    rw [snakeFrom, List.pairwise_append, flip]
    refine ⟨?_, ih (k := k + 1) hrest, fun u hu v hv => .inl ?_⟩
    · have sameRow : ∀ u ∈ seg, ∀ v ∈ seg, (if k % 2 = 0 then u < v else v < u) → SnakeOrder c o u v := by
        intro u hu v hv huv
        refine .inr ⟨(hrow u hu).trans (hrow v hv).symm, ?_⟩
        rwa [hrow u hu, Nat.add_sub_cancel_left]
      by_cases hk : k % 2 = 0
      · rw [if_pos (decide_eq_true hk)]
        exact hseg.imp_of_mem fun hu hv h => sameRow _ hu _ hv (by rwa [if_pos hk])
      · rw [if_neg (by simpa using hk), List.pairwise_reverse]
        exact hseg.imp_of_mem fun hu hv h => sameRow _ hv _ hu (by rwa [if_neg hk])
    · have hu : u ∈ seg := by
        split at hu
        · exact hu
        · exact List.mem_reverse.mp hu
      rw [hrow u hu]
      exact hrest.row_le v ((snakeFrom_perm _ rest).mem_iff.mp hv)

theorem rowsFrom_map {c b n : Nat} {f : Nat → List Nat} (h : ∀ k < n, (f k).Pairwise (· < ·) ∧ ∀ u ∈ f k, u / c = b + k) :
    RowsFrom c b ((List.range n).map f) := by
  induction n generalizing b f with
  | zero => trivial
  | succ n ih =>
    rw [List.range_succ_eq_map, List.map_cons, List.map_map]
    refine ⟨by simpa using h 0 (Nat.succ_pos n), ih fun k hk => ?_⟩
    obtain ⟨h1, h2⟩ := h (k + 1) (Nat.succ_lt_succ hk)
    exact ⟨h1, fun u hu => (h2 u hu).trans (by omega)⟩

/-- The row in which an extent begins. -/
def originRow (columns : Nat) : Placement → Nat
  | .rect row _ _ _ => row
  | .linear start _ => start / columns

theorem row_of_index {c r j : Nat} (h : j < c) : (r * c + j) / c = r := by
  rw [Nat.add_comm, Nat.add_mul_div_right _ _ (by omega), Nat.div_eq_of_lt h, Nat.zero_add]

theorem ascending_range (w : Nat) (a : Nat) : ((List.range w).map fun j => a + j).Pairwise (· < ·) :=
  List.pairwise_map.mpr (List.pairwise_lt_range.imp fun h => Nat.add_lt_add_left h a)

/-- The segments of an extent that lies within the columns, row by row. -/
theorem segments_rows {c : Nat} {p : Placement} (h : ∀ row column width height, p = .rect row column width height → column + width ≤ c) :
    RowsFrom c (originRow c p) (segments c p) := by
  cases p with
  | rect row column width height =>
    refine rowsFrom_map fun k _ => ⟨ascending_range width _, ?_⟩
    simp only [List.mem_map, List.mem_range, forall_exists_index, and_imp]
    rintro u j hj rfl
    have := h _ _ _ _ rfl
    rw [Nat.add_assoc, row_of_index (by omega)]
    rfl
  | linear start count =>
    refine rowsFrom_map fun k _ => ⟨(ascending_range c _).filter _, ?_⟩
    simp only [List.mem_filter, List.mem_map, List.mem_range, and_imp, forall_exists_index]
    rintro u j hj rfl -
    exact row_of_index hj

/-! ## Which tables an extent has -/

theorem mem_segments_rect {c row column width height u : Nat} :
    u ∈ (segments c (.rect row column width height)).flatten
      ↔ ∃ k < height, ∃ j < width, u = (row + k) * c + column + j := by
  simp [segments, eq_comm]

theorem mem_segments_linear {c start count u : Nat} (hc : 0 < c) :
    u ∈ (segments c (.linear start count)).flatten ↔ start ≤ u ∧ u < start + count := by
  simp only [segments, List.mem_flatten, List.mem_map, List.mem_range]
  constructor
  · rintro ⟨l, ⟨k, hk, rfl⟩, hu⟩
    simpa using (List.mem_filter.mp hu).2
  · intro hu
    have hlow : start / c ≤ u / c := Nat.div_le_div_right hu.1
    have hhigh : u / c ≤ (start + count - 1) / c := Nat.div_le_div_right (by omega)
    have hrow : u / c - start / c < (start + count - 1) / c + 1 - start / c := by omega
    refine ⟨_, ⟨_, hrow, rfl⟩, ?_⟩
    simp only [List.mem_filter, List.mem_map, List.mem_range, decide_eq_true_eq]
    refine ⟨⟨u % c, Nat.mod_lt u hc, ?_⟩, hu⟩
    rw [Nat.add_sub_cancel' hlow, Nat.div_add_mod']

theorem length_segments_rect (c row column width height : Nat) :
    (segments c (.rect row column width height)).flatten.length = width * height := by
  simp [segments, List.length_flatten, Function.comp_def, Nat.mul_comm]

/-- A LINEAR extent is the run of its tables. -/
theorem flatten_segments_linear {c start count : Nat} (hc : 0 < c) :
    (segments c (.linear start count)).flatten = List.range' start count := by
  refine List.Pairwise.eq_of_mem_iff (r := (· < ·)) (segments_rows (fun _ _ _ _ h => by cases h)).ascends
    (List.pairwise_lt_range' 1) fun u => ?_
  rw [mem_segments_linear hc, List.mem_range'_1]

/-! ## The walk -/

theorem walkOrder_perm (fl : Floor) (r : Region) :
    (walkOrder fl r).Perm (segments fl.columns (clipPlacement fl r.placement)).flatten := by
  obtain ⟨p, o⟩ := r
  cases o
  · exact .refl _
  · exact List.reverse_perm _
  · exact snakeFrom_perm true _

theorem clipped_rows (fl : Floor) {r : Region} (h : RegionFits fl r) :
    RowsFrom fl.columns (originRow fl.columns r.placement) (segments fl.columns (clipPlacement fl r.placement)) := by
  obtain ⟨p, o⟩ := r
  cases p with
  | rect row column width height =>
    obtain ⟨-, -, -, hc⟩ := h
    refine segments_rows (p := clipPlacement fl (.rect row column width height)) fun _ _ _ _ e => ?_
    cases e
    omega
  | linear start count => exact segments_rows (p := clipPlacement fl (.linear start count)) fun _ _ _ _ e => by cases e

theorem columns_pos {fl : Floor} {r : Region} (h : RegionFits fl r) : 0 < fl.columns := by
  obtain ⟨p, o⟩ := r
  cases p with
  | rect row column width height => exact Nat.pos_of_ne_zero fun h0 => by simp [RegionFits, h0] at h
  | linear start count => exact Nat.pos_of_ne_zero fun h0 => by simp [RegionFits, h0] at h

theorem walkOrder_nodup {fl : Floor} {r : Region} (h : RegionFits fl r) : (walkOrder fl r).Nodup :=
  (walkOrder_perm fl r).nodup_iff.mpr ((clipped_rows fl h).ascends.imp Nat.ne_of_lt)

theorem walkOrder_length {fl : Floor} {r : Region} (h : RegionFits fl r) :
    (walkOrder fl r).length
      = match r.placement, cutSize fl r with
        | .rect .., some (width, height) => width * height
        | .rect _ _ width height, none => width * height
        | .linear .., some (count, _) => count
        | .linear _ count, none => count := by
  rw [(walkOrder_perm fl r).length_eq]
  have hc := columns_pos h
  obtain ⟨p, o⟩ := r
  cases p with
  | rect row column width height =>
    simp only [clipPlacement, length_segments_rect, cutSize]
    by_cases hcut : fl.columns - column < width ∨ fl.rows - row < height
    · simp only [if_pos hcut]
    · simp only [if_neg hcut]
      rw [Nat.min_eq_left (by omega), Nat.min_eq_left (by omega)]
  | linear start count =>
    simp only [clipPlacement, flatten_segments_linear hc, List.length_range', cutSize, floorSize]
    by_cases hcut : fl.rows * fl.columns - start < count
    · simp only [if_pos hcut]
      omega
    · simp only [if_neg hcut]
      omega

theorem mem_walkOrder {fl : Floor} {r : Region} (h : RegionFits fl r) (u : Nat) :
    u ∈ walkOrder fl r
      ↔ match r.placement with
        | .rect row column width height =>
          ∃ i j, row ≤ i ∧ i < row + height ∧ i < fl.rows ∧ column ≤ j ∧ j < column + width ∧ j < fl.columns
            ∧ u = i * fl.columns + j
        | .linear start count => start ≤ u ∧ u < start + count ∧ u < fl.rows * fl.columns := by
  rw [(walkOrder_perm fl r).mem_iff]
  have hc := columns_pos h
  obtain ⟨p, o⟩ := r
  cases p with
  | rect row column width height =>
    rw [clipPlacement, mem_segments_rect]
    constructor
    · rintro ⟨k, hk, j, hj, rfl⟩
      exact ⟨row + k, column + j, by omega, by omega, by omega, by omega, by omega, by omega, by omega⟩
    · rintro ⟨i, j, h1, h2, h3, h4, h5, h6, rfl⟩
      refine ⟨i - row, by omega, j - column, by omega, ?_⟩
      rw [Nat.add_sub_cancel' h1]
      omega
  | linear start count =>
    rw [clipPlacement, mem_segments_linear hc]
    simp only [floorSize]
    omega

theorem walkOrder_forward {fl : Floor} {r : Region} (h : RegionFits fl r) (ho : r.order = .forward) :
    (walkOrder fl r).Pairwise (· < ·) := by
  rw [walkOrder, ho]
  exact (clipped_rows fl h).ascends

theorem walkOrder_snake {fl : Floor} {r : Region} (h : RegionFits fl r) (ho : r.order = .snake) :
    (walkOrder fl r).Pairwise (SnakeOrder fl.columns (originRow fl.columns r.placement)) := by
  rw [walkOrder, ho]
  exact (clipped_rows fl h).snake (k := 0)

end Sys2Proof.Machine
end

section
/-!
PROOFS. The tables a wave's walk serves (R29, R30), and the ticket list of a table (R31, R32).
-/

namespace Sys2Proof.Machine

/-! ## Served tables (R29, R30) -/

theorem skipTest_served_iff (course : Nat) (skipMark : Option Nat) (r : TableRecord) :
    skipTest course skipMark r = .served ↔ 0 < r.covers ∧ skipMark ≠ some r.mark ∧ course ∉ r.liveCourses := by
  unfold skipTest
  split
  · simp_all
  · split
    · simp_all
    · split
      · simp_all
      · simp_all; omega

theorem servedTables_eq (s : State) (course : Nat) (skipMark : Option Nat) (r : Region) :
    servedTables s course skipMark r
      = (walkOrder s.floor r).filter fun u =>
          decide (0 < (tableRecord s u).covers ∧ skipMark ≠ some (tableRecord s u).mark
            ∧ course ∉ (tableRecord s u).liveCourses) := by
  simp only [servedTables, visitOf, skipTest_served_iff]

/-! ## Sums of substitution counts -/

theorem countSum_eq (es : List Substitution) : countSum es = (es.map Substitution.count).sum := by
  have h : ∀ n, es.foldl (fun n e => n + e.count) n = n + (es.map Substitution.count).sum := by
    induction es with
    | nil => simp
    | cons e es ih => intro n; rw [List.foldl_cons, ih, List.map_cons, List.sum_cons, Nat.add_assoc]
  simpa [countSum] using h 0

/-- The portions that table substitutions with this property move. -/
abbrev moved (es : List Substitution) (p : Substitution → Bool) : Nat :=
  ((es.filter p).map Substitution.count).sum

theorem moved_cons (e : Substitution) (es : List Substitution) (p : Substitution → Bool) :
    moved (e :: es) p = (if p e then e.count else 0) + moved es p := by
  by_cases h : p e <;> simp [moved, h]

theorem sum_ite_eq_of_nodup (k n : Nat) {cs : List Nat} (h : cs.Nodup) :
    (cs.map fun c => if k = c then n else 0).sum = if k ∈ cs then n else 0 := by
  induction cs with
  | nil => rfl
  | cons c cs ih =>
    obtain ⟨hc, hcs⟩ := List.nodup_cons.mp h
    rw [List.map_cons, List.sum_cons, ih hcs]
    by_cases hk : k = c
    · simp [hk, hc]
    · simp [hk]

/-- The counts of the entries sorted by a key, over keys that differ from each other. -/
theorem sum_moved_by_key (key : Substitution → Nat) (p : Substitution → Bool) (es : List Substitution) {cs : List Nat} (h : cs.Nodup) :
    (cs.map fun c => moved es fun e => p e && decide (key e = c)).sum = moved es fun e => p e && decide (key e ∈ cs) := by
  induction es with
  | nil => simp [moved]
  | cons e es ih =>
    simp only [moved_cons, List.sum_map_add, ih]
    congr 1
    by_cases hp : p e
    · simpa [hp] using sum_ite_eq_of_nodup (key e) e.count h
    · simp [hp]

theorem moved_le {es : List Substitution} (p : Substitution → Bool) (h : ∀ e ∈ es, e.count ≤ 16) : moved es p ≤ 16 * es.length := by
  induction es with
  | nil => simp [moved]
  | cons e es ih =>
    have := ih fun d hd => h d (List.mem_cons_of_mem _ hd)
    have := h e List.mem_cons_self
    rw [moved_cons, List.length_cons]
    split <;> omega

theorem moved_congr {es : List Substitution} {p q : Substitution → Bool} (h : ∀ e ∈ es, p e = q e) : moved es p = moved es q := by
  rw [moved, moved, List.filter_congr h]

/-! ## Substitutes (R31, R32) -/

/-- The entry applies at a table of this plan and gains for component `c` (R31). -/
abbrev gains (plan : List Nat) (c : Nat) (e : Substitution) : Bool :=
  decide (e.source ∈ plan ∧ e.target = c)

theorem substitutes_append (plan : List Nat) (es : List Substitution) (e : Substitution) :
    substitutes plan (es ++ [e])
      = if e.source ∈ plan ∧ e.target ∉ plan ∧ e.target ∉ substitutes plan es then substitutes plan es ++ [e.target]
        else substitutes plan es := by
  have step : substitutes plan (es ++ [e])
      = if e.source ∈ plan then
          if plan.contains e.target || (substitutes plan es).contains e.target then substitutes plan es
          else substitutes plan es ++ [e.target]
        else substitutes plan es := by
    unfold substitutes applyingEntries
    rw [List.filter_append, List.foldl_append]
    by_cases ha : e.source ∈ plan <;> simp [ha]
  rw [step]
  by_cases ha : e.source ∈ plan
  · by_cases hp : e.target ∈ plan
    · simp [hp]
    · by_cases hs : e.target ∈ substitutes plan es <;> simp [ha, hp, hs]
  · simp [ha]

theorem mem_substitutes {plan : List Nat} {es : List Substitution} {c : Nat} :
    c ∈ substitutes plan es ↔ c ∉ plan ∧ ∃ e ∈ es, gains plan c e = true := by
  induction es using List.reverseRecOn with
  | nil => simp [substitutes, applyingEntries]
  | append_singleton es e ih =>
    rw [substitutes_append]
    split
    · rename_i h
      obtain ⟨ha, hp, hs⟩ := h
      simp only [List.mem_append, ih, List.mem_singleton]
      grind
    · rename_i h
      rw [ih]
      constructor
      · rintro ⟨hc, d, hd, hg⟩
        exact ⟨hc, d, List.mem_append_left _ hd, hg⟩
      · rintro ⟨hc, d, hd, hg⟩
        rcases List.mem_append.mp hd with hd | hd
        · exact ⟨hc, d, hd, hg⟩
        · rw [List.mem_singleton.mp hd] at hg
          obtain ⟨ha, rfl⟩ := of_decide_eq_true hg
          by_contra hn
          exact h ⟨ha, hc, fun hs => hn (ih.mp hs)⟩

/-- The first entry that gains for a component. -/
abbrev firstGain (plan : List Nat) (es : List Substitution) (c : Nat) : Nat :=
  es.findIdx (gains plan c)

/-- Substitutes stand in the order of the entries that first gain for them (R32). -/
theorem substitutes_order (plan : List Nat) (es : List Substitution) :
    (substitutes plan es).Pairwise fun c d => firstGain plan es c < firstGain plan es d := by
  have first : ∀ (es : List Substitution) (e : Substitution), ∀ c ∈ substitutes plan es,
      firstGain plan es c < es.length ∧ firstGain plan (es ++ [e]) c = firstGain plan es c := by
    intro es e c hc
    have hlt := List.findIdx_lt_length_of_exists (mem_substitutes.mp hc).2
    exact ⟨hlt, by rw [firstGain, List.findIdx_append, if_pos hlt]⟩
  induction es using List.reverseRecOn with
  | nil => exact .nil
  | append_singleton es e ih =>
    have kept : (substitutes plan es).Pairwise fun c d => firstGain plan (es ++ [e]) c < firstGain plan (es ++ [e]) d :=
      ih.imp_of_mem fun hc hd h => by rwa [(first es e _ hc).2, (first es e _ hd).2]
    rw [substitutes_append]
    split
    · rename_i h
      obtain ⟨ha, hp, hs⟩ := h
      refine List.pairwise_append.mpr ⟨kept, List.pairwise_singleton _ _, fun c hc d hd => ?_⟩
      rw [List.mem_singleton.mp hd, (first es e c hc).2]
      have new : firstGain plan (es ++ [e]) e.target = es.length := by
        have none' : es.findIdx (gains plan e.target) = es.length :=
          List.findIdx_eq_length.mpr fun d hd => by
            by_contra hg
            exact hs (mem_substitutes.mpr ⟨hp, d, hd, by simpa using hg⟩)
        rw [firstGain, List.findIdx_append, if_neg (by rw [none']; exact Nat.lt_irrefl _)]
        simp [ha]
      exact new ▸ (first es e c hc).1
    · exact kept

theorem substitutes_nodup (plan : List Nat) (es : List Substitution) : (substitutes plan es).Nodup :=
  (substitutes_order plan es).imp fun h => by rintro rfl; exact Nat.lt_irrefl _ h

theorem substitutes_length_le (plan : List Nat) (es : List Substitution) : (substitutes plan es).length ≤ es.length := by
  induction es using List.reverseRecOn with
  | nil => exact Nat.le_refl 0
  | append_singleton es e ih =>
    rw [substitutes_append]
    split <;> simp <;> omega

/-! ## The ticket list (R32) -/

/-- The quantity of each component, planned or substitute, before those of 0 are left out (R31). -/
def wanted (plan : List Nat) (r : TableRecord) (c : Nat) : Nat :=
  if c ∈ plan then r.covers - moved r.substitutions (fun e => decide (e.source = c)) + moved r.substitutions (gains plan c)
  else moved r.substitutions (gains plan c)

theorem countSum_applying (plan : List Nat) (es : List Substitution) (c : Nat) :
    countSum ((applyingEntries plan es).filter fun e => decide (e.target = c)) = moved es (gains plan c) := by
  rw [countSum_eq, applyingEntries, List.filter_filter, moved]
  congr 2
  refine List.filter_congr fun e _ => ?_
  simp [gains, Bool.and_comm]

/-- The ticket list: each planned component, then each substitute, with the quantity wanted of it, where that is not 0. -/
theorem ticketList_eq (plan : List Nat) (r : TableRecord) :
    ticketList plan r
      = ((plan ++ substitutes plan r.substitutions).map fun c => (c, wanted plan r c)).filter fun e => decide (0 < e.2) := by
  rw [ticketList, List.map_append]
  congr 2
  · refine List.map_congr_left fun c hc => ?_
    rw [plannedQuantity, countSum_applying, countSum_eq, wanted, if_pos hc]
  · refine List.map_congr_left fun c hc => ?_
    rw [substituteQuantity, countSum_applying, wanted, if_neg (mem_substitutes.mp hc).1]

theorem ticketList_fst (plan : List Nat) (r : TableRecord) :
    (ticketList plan r).map Prod.fst
      = (plan ++ substitutes plan r.substitutions).filter fun c => decide (0 < wanted plan r c) := by
  rw [ticketList_eq, List.filter_map, List.map_map]
  exact List.map_id _

theorem mem_ticketList {plan : List Nat} {r : TableRecord} {c q : Nat} :
    (c, q) ∈ ticketList plan r ↔ 0 < q ∧ q = wanted plan r c := by
  simp only [ticketList_eq, List.mem_filter, List.mem_map, Prod.mk.injEq, decide_eq_true_eq]
  constructor
  · rintro ⟨⟨d, -, rfl, rfl⟩, hq⟩
    exact ⟨hq, rfl⟩
  · rintro ⟨hq, rfl⟩
    refine ⟨⟨c, ?_, rfl, rfl⟩, hq⟩
    rw [List.mem_append]
    by_cases hc : c ∈ plan
    · exact .inl hc
    · refine .inr (mem_substitutes.mpr ⟨hc, ?_⟩)
      rw [wanted, if_neg hc] at hq
      by_contra hn
      push Not at hn
      rw [moved, List.filter_eq_nil_iff.mpr hn] at hq
      exact Nat.lt_irrefl _ hq

theorem sum_filter_pos (l : List (Nat × Nat)) : ((l.filter fun e => decide (0 < e.2)).map Prod.snd).sum = (l.map Prod.snd).sum := by
  induction l with
  | nil => rfl
  | cons e l ih =>
    by_cases h : 0 < e.2
    · simp [h, ih]
    · simp [h, ih]; omega

/-- What R19 asks of a table's substitution list, as far as the quantities of R31 need it. -/
structure ListFits (plan : List Nat) (u : TableRecord) : Prop where
  nodup : plan.Nodup
  counts : ∀ e ∈ u.substitutions, e.count ≤ 16
  lost : ∀ e ∈ u.substitutions, moved u.substitutions (fun d => decide (d.source = e.source)) ≤ u.covers

theorem ListFits.lost_le {plan : List Nat} {u : TableRecord} (h : ListFits plan u) (c : Nat) :
    moved u.substitutions (fun e => decide (e.source = c)) ≤ u.covers := by
  by_cases hc : ∃ e ∈ u.substitutions, e.source = c
  · obtain ⟨e, he, rfl⟩ := hc
    exact h.lost e he
  · push Not at hc
    rw [moved, List.filter_eq_nil_iff.mpr (by simpa using hc)]
    exact Nat.zero_le _

/-- What a substitution takes from one component it gives to another: the quantities sum to one of each planned component for each cover. -/
theorem ListFits.sum {plan : List Nat} {u : TableRecord} (h : ListFits plan u) :
    ((ticketList plan u).map Prod.snd).sum = u.covers * plan.length := by
  have all := substitutes_nodup plan u.substitutions
  have distinct : (plan ++ substitutes plan u.substitutions).Nodup :=
    List.nodup_append.mpr ⟨h.nodup, all, fun c hc d hd => by rintro rfl; exact (mem_substitutes.mp hd).1 hc⟩
  have given : (plan.map fun c => moved u.substitutions fun e => decide (e.source = c)).sum
      = moved u.substitutions fun e => decide (e.source ∈ plan) := by
    simpa using sum_moved_by_key Substitution.source (fun _ => true) u.substitutions h.nodup
  have gained : ((plan ++ substitutes plan u.substitutions).map fun c => moved u.substitutions (gains plan c)).sum
      = moved u.substitutions fun e => decide (e.source ∈ plan) := by
    have key := sum_moved_by_key Substitution.target (fun e => decide (e.source ∈ plan)) u.substitutions distinct
    simp only [← Bool.decide_and] at key
    refine key.trans (moved_congr fun e he => decide_eq_decide.mpr ⟨fun h => h.1, fun ha => ⟨ha, ?_⟩⟩)
    rw [List.mem_append]
    by_cases ht : e.target ∈ plan
    · exact .inl ht
    · exact .inr (mem_substitutes.mpr ⟨ht, e, he, decide_eq_true ⟨ha, rfl⟩⟩)
  have planned : (plan.map fun c => wanted plan u c).sum + moved u.substitutions (fun e => decide (e.source ∈ plan))
      = u.covers * plan.length + (plan.map fun c => moved u.substitutions (gains plan c)).sum := by
    rw [← given, ← List.sum_map_add, Nat.mul_comm, ← List.sum_replicate_nat, ← List.map_const', ← List.sum_map_add]
    congr 1
    refine List.map_congr_left fun c hc => ?_
    have := h.lost_le c
    rw [wanted, if_pos hc]
    omega
  have substituted : ((substitutes plan u.substitutions).map fun c => wanted plan u c)
      = (substitutes plan u.substitutions).map fun c => moved u.substitutions (gains plan c) :=
    List.map_congr_left fun c hc => by rw [wanted, if_neg (mem_substitutes.mp hc).1]
  rw [ticketList_eq, sum_filter_pos, List.map_map]
  change ((plan ++ substitutes plan u.substitutions).map fun c => wanted plan u c).sum = _
  rw [List.map_append, List.sum_append] at gained ⊢
  rw [substituted]
  omega

theorem ListFits.quantity_le {plan : List Nat} {u : TableRecord} (h : ListFits plan u) (hc : u.covers ≤ 16)
    (hl : u.substitutions.length ≤ 4) (c : Nat) : wanted plan u c ≤ 80 := by
  have := moved_le (gains plan c) h.counts
  unfold wanted
  split <;> omega

/-- Settles O54. -/
theorem walkVisitsTheClippedRegionOnce : Obligations.WalkVisitsTheClippedRegionOnce := by
  refine ⟨fun fl r h => ⟨walkOrder_nodup h, walkOrder_length h, mem_walkOrder h, walkOrder_forward h, rfl, fun ho => ?_⟩,
    fun s course skipMark r plan => ⟨servedTables_eq s course skipMark r, planCounts_eq s course skipMark r plan⟩,
    fun s c p x => ⟨?_, ?_, ?_⟩, ?_⟩
  · have key := walkOrder_snake h ho
    cases hp : r.placement <;> rw [hp] at key <;> exact key
  · intro record h
    rw [componentStation, Option.mem_def.mp h]
  · intro plan h
    rw [coursePlan, Option.mem_def.mp h]
    rfl
  · intro config h
    rw [carry, Option.mem_def.mp h]
  · intro plan u hne hlen hnodup hcov hcov' hsub _ hes
    have fits : ListFits plan u := ⟨hnodup, fun e he => (hes e he).2.2.1, fun e he => (hes e he).2.2.2⟩
    have hpos : 0 < plan.length := List.length_pos_iff.mpr hne
    refine ⟨fun c q => ?_, fits.sum, ?_, ?_, ?_, ?_, ?_⟩
    · rw [mem_ticketList]
      by_cases hc : c ∈ plan
      · rw [wanted, if_pos hc]
        simp only [hc, true_and, not_true_eq_false, false_and, or_false]
      · rw [wanted, if_neg hc]
        simp only [hc, true_and, not_false_eq_true, false_and, false_or]
    · have sum := fits.sum
      refine List.length_pos_iff.mpr fun h0 => ?_
      rw [h0] at sum
      exact Nat.ne_of_lt (Nat.mul_pos hcov hpos) sum
    · have := substitutes_length_le plan u.substitutions
      have := List.length_filter_le (fun c => decide (0 < wanted plan u c)) (plan ++ substitutes plan u.substitutions)
      rw [← List.length_map Prod.fst, ticketList_fst]
      rw [List.length_append] at this
      omega
    · rintro ⟨c, q⟩ he
      obtain ⟨hq, rfl⟩ := mem_ticketList.mp he
      exact ⟨hq, fits.quantity_le hcov' hsub c⟩
    · rw [ticketList_fst]
      refine List.Nodup.filter _ (List.nodup_append.mpr ⟨hnodup, substitutes_nodup _ _, fun c hc d hd => ?_⟩)
      rintro rfl
      exact (mem_substitutes.mp hd).1 hc
    · refine ⟨(substitutes plan u.substitutions).filter fun c => decide (0 < wanted plan u c), ?_, ?_⟩
      · rw [ticketList_fst, List.filter_append]
        congr 1
        refine List.filter_congr fun c hc => ?_
        rw [wanted, if_pos hc]
      · exact (substitutes_order plan u.substitutions).filter _

end Sys2Proof.Machine
end

section
/-!
PROOFS. STAGE_WAVE (R36 to R38) and RELEASE_WAVE (R41 to R43).
-/

namespace Sys2Proof.Machine

/-! ## The earliest planned fire time (R38) -/

theorem foldl_min_le (fs : List Int) (f : Int) : fs.foldl min f ≤ f ∧ ∀ g ∈ fs, fs.foldl min f ≤ g := by
  induction fs generalizing f with
  | nil => simp
  | cons g fs ih =>
    obtain ⟨h1, h2⟩ := ih (min f g)
    rw [List.foldl_cons]
    refine ⟨h1.trans (min_le_left _ _), fun k hk => ?_⟩
    rcases List.mem_cons.mp hk with rfl | hk
    · exact h1.trans (min_le_right _ _)
    · exact h2 k hk

theorem foldl_min_mem (fs : List Int) (f : Int) : fs.foldl min f ∈ f :: fs := by
  induction fs generalizing f with
  | nil => simp
  | cons g fs ih =>
    rw [List.foldl_cons]
    rcases List.mem_cons.mp (ih (min f g)) with h | h
    · rw [h]
      rcases min_choice f g with h | h <;> simp [h]
    · exact List.mem_cons_of_mem _ (List.mem_cons_of_mem _ h)

theorem earliestOf_le {fs : List Int} {f : Int} (h : f ∈ fs) : earliestOf fs ≤ f := by
  cases fs with
  | nil => cases h
  | cons g fs =>
    obtain ⟨h1, h2⟩ := foldl_min_le fs g
    rcases List.mem_cons.mp h with rfl | h
    · exact h1
    · exact h2 f h

theorem earliestOf_mem {fs : List Int} (h : fs ≠ []) : earliestOf fs ∈ fs := by
  cases fs with
  | nil => exact absurd rfl h
  | cons g fs => exact foldl_min_mem fs g

theorem planFireTimes_eq (s : State) (goTime stagger i : Nat) (plan : List ServedTable) :
    planFireTimes s goTime stagger i plan
      = (plan.zipIdx i).flatMap fun e => tableFireTimes s (goTimeAt goTime stagger e.2) e.1 := by
  induction plan generalizing i with
  | nil => rfl
  | cons v plan ih => rw [planFireTimes, ih, List.zipIdx_cons, List.flatMap_cons]

theorem dequeued_earliestFire (rest : List Frame) (s : State) (goTime stagger : Nat) (plan : List ServedTable) :
    earliestFire (dequeued rest s) goTime stagger plan = earliestFire s goTime stagger plan := by
  simp only [earliestFire, planFireTimes_eq]
  rfl

/-- The fire times of the plan that serves these tables: one for each ticket of each table, at its order index's go time. -/
theorem mem_planFireTimes {s : State} {goTime stagger : Nat} {course : Nat} {served : List Nat} {f : Int} :
    f ∈ planFireTimes s goTime stagger 0 (plannedTables s course served)
      ↔ ∃ i u e, served[i]? = some u ∧ e ∈ ticketList (coursePlan s course) (tableRecord s u)
          ∧ f = fireTimeAt s (componentStation s e.1) e.1 (goTime + i * stagger) := by
  simp only [planFireTimes_eq, List.mem_flatMap, Prod.exists, List.mk_mem_zipIdx_iff_getElem?, plannedTables, List.getElem?_map,
    tableFireTimes, List.mem_map, goTimeAt]
  constructor
  · rintro ⟨v, i, hv, e1, e2, he, rfl⟩
    obtain ⟨u, hu, rfl⟩ := Option.map_eq_some_iff.mp hv
    exact ⟨i, u, e1, e2, hu, he, rfl⟩
  · rintro ⟨i, u, e1, e2, hu, he, rfl⟩
    exact ⟨_, i, by rw [hu]; rfl, e1, e2, he, rfl⟩

/-- The earliest fire time of a plan is at or before every ticket's and, where there is a ticket, some ticket's. -/
theorem earliestFire_spec (s : State) (goTime stagger course : Nat) (served : List Nat) :
    let earliest := earliestFire s goTime stagger (plannedTables s course served)
    (∀ i u e, served[i]? = some u → e ∈ ticketList (coursePlan s course) (tableRecord s u) →
        earliest ≤ fireTimeAt s (componentStation s e.1) e.1 (goTime + i * stagger))
      ∧ (0 < ((plannedTables s course served).map fun v => v.tickets.length).sum → ∃ i u e, served[i]? = some u
        ∧ e ∈ ticketList (coursePlan s course) (tableRecord s u)
        ∧ earliest = fireTimeAt s (componentStation s e.1) e.1 (goTime + i * stagger)) := by
  refine ⟨fun i u e hu he => earliestOf_le (mem_planFireTimes.mpr ⟨i, u, e, hu, he, rfl⟩), fun h => ?_⟩
  refine mem_planFireTimes.mp (earliestOf_mem fun hnil => Nat.ne_of_gt h ?_)
  refine List.sum_eq_zero fun n hn => ?_
  obtain ⟨v, hv, rfl⟩ := List.mem_map.mp hn
  obtain ⟨i, hi⟩ := List.getElem?_of_mem hv
  have none' : tableFireTimes s (goTimeAt goTime stagger i) v = [] := by
    rw [planFireTimes_eq, List.flatMap_eq_nil_iff] at hnil
    exact hnil (v, i) (List.mk_mem_zipIdx_iff_getElem?.mpr hi)
  exact List.length_eq_zero_iff.mpr (List.map_eq_nil_iff.mp none')

/-! ## The stock need (R9) -/

theorem plannedNeed_eq (s : State) (course : Nat) (served : List Nat) (c : Nat) :
    plannedNeed s course served c = portions c ((plannedTables s course served).flatMap ServedTable.tickets) := by
  rw [plannedTables, List.flatMap_map]
  rfl

theorem plannedTables_pos {s : State} {course : Nat} {served : List Nat} :
    ∀ v ∈ plannedTables s course served, ∀ e ∈ v.tickets, 0 < e.2 := by
  intro v hv e he
  obtain ⟨u, -, rfl⟩ := List.mem_map.mp hv
  exact ticketList_pos he

/-- The stock test finds a short component where there is one (R9). -/
theorem needShort_iff (s : State) (course : Nat) (served : List Nat) :
    needShort s (stockNeed s (plannedTables s course served)) = true ↔ ∃ c, Short s c (plannedNeed s course served c) := by
  have positive : ∀ e ∈ (plannedTables s course served).flatMap ServedTable.tickets, 0 < e.2 := fun e he =>
    let ⟨v, hv, he⟩ := List.mem_flatMap.mp he
    plannedTables_pos v hv e he
  obtain ⟨rising, read⟩ := stockNeed_spec s _ positive [] [] rfl fun c => by simp [portions]
  rw [List.nil_append] at read
  simp only [needShort, List.any_eq_true, isShort_iff, plannedNeed_eq]
  constructor
  · rintro ⟨e, he, hs⟩
    have found := (read e.1).symm.trans (Store.get?_of_mem rising he)
    split at found
    · exact ⟨e.1, Option.some.inj found ▸ hs⟩
    · cases found
  · rintro ⟨c, n, hn, hlt⟩
    refine ⟨(c, _), Store.mem_of_get? ((read c).trans (if_pos ⟨?_, Nat.zero_lt_of_lt hlt⟩)), n, hn, hlt⟩
    rw [Option.mem_def.mp hn]
    rfl

/-! ## STAGE_WAVE (R36 to R38) -/

theorem stageFormInRange_iff (s : State) (g : StageForm) :
    stageFormInRange s g = true
      ↔ g.wave ≤ 63 ∧ g.course ≤ 127 ∧ g.goTime ≤ 16777215 ∧ (∀ m ∈ g.skipMark, 1 ≤ m ∧ m ≤ 15) ∧ RegionFits s.floor g.region := by
  obtain ⟨wave, course, region, goTime, stagger, mark⟩ := g
  cases mark <;>
    simp [stageFormInRange, regionValid_iff, Config.waves, Config.courses, Config.clockMax, Nat.lt_succ_iff, and_assoc]

theorem lastGoInRange_iff (goTime stagger n : Nat) :
    lastGoInRange goTime stagger n = true ↔ n = 0 ∨ goTime + (n - 1) * stagger ≤ 16777215 := by
  exact decide_eq_true_iff

/-- A STAGE_WAVE whose body has been read (R36 to R38). -/
theorem stageWaveRequest_of_read {b : List Byte} {g : StageForm} (s : State) (h : readStage b = some g) :
    stageWaveRequest b s
      = if stageFormInRange s g = false then refuse .range s
        else if lastGoInRange g.goTime (clampStagger g.stagger) (servedTables s g.course g.skipMark g.region).length = false then
          refuse .range s
        else if s.link.mode = .setup then refuse .mode s
        else if (s.courses.get? g.course).isNone then refuse .noSuch s
        else if waveState s g.wave ≠ .free then refuse .state s
        else if servedTables s g.course g.skipMark g.region = [] then refuse .empty s
        else
          let plan := plannedTables s g.course (servedTables s g.course g.skipMark g.region)
          ({ s with waves := s.waves.set g.wave (stagedWave s g plan) }, stageAnswer s g plan) := by
  rw [stageWaveRequest, h]

/-- The visits of a walk sort its tables. -/
theorem visits_sum (f : Nat → Visit) (l : List Nat) :
    l.length = (l.filter fun u => decide (f u = .skippedEmpty)).length + (l.filter fun u => decide (f u = .skippedMarked)).length
      + (l.filter fun u => decide (f u = .skippedBusy)).length + (l.filter fun u => decide (f u = .served)).length := by
  induction l with
  | nil => rfl
  | cons u l ih =>
    cases h : f u <;> simp [h] <;> omega

theorem dequeued_needShort (rest : List Frame) (s : State) (plan : List ServedTable) :
    needShort (dequeued rest s) (stockNeed (dequeued rest s) plan) = needShort s (stockNeed s plan) := rfl

theorem planCounts_tickets (s : State) (course : Nat) (skipMark : Option Nat) (r : Region) (plan : List ServedTable) :
    (planCounts s course skipMark r plan).tickets = (plan.map fun v => v.tickets.length).sum := by
  rw [planCounts_eq]
  rfl

/-- The answer of an accepted STAGE_WAVE, its size that of R25 and its times those before its frame is taken. -/
theorem stageAnswer_eq (rest : List Frame) (s : State) (g : StageForm) (plan : List ServedTable) :
    stageAnswer (dequeued rest s) g plan
      = .accepted
          { late := decide (earliestFire s g.goTime (min g.stagger 120) plan ≤ (s.clock : Int))
            clipped := (cutSize s.floor g.region).isSome
            clamped := decide (120 < g.stagger)
            stockShort := needShort s (stockNeed s plan) }
          (.staged (planCounts s g.course g.skipMark g.region plan) (earliestFire s g.goTime (min g.stagger 120) plan)
            (g.goTime + (plan.length - 1) * min g.stagger 120) (min g.stagger 120) (cutSize s.floor g.region)) := by
  rw [← clippedSize_eq, ← dequeued_earliestFire rest]
  rfl

/-- Settles O29: the checks of R36 in order, and the record and reply of R37 and R38. -/
theorem stageWaveRecordsThePlan : Obligations.StageWaveRecordsThePlan := by
  refine ⟨fun f rest s ht hk hb => ?_, fun g f rest s ht hk hb h1 h2 h3 h4 h5 h6 => ?_⟩
  · have unread : readStage f.body = none :=
      Option.eq_none_iff_forall_ne_some.mpr fun g hg => hb g (readStage_eq.mp hg).1 (readStage_eq.mp hg).2
    exact takeRequest_refused_of ht hk (by rw [stageWaveRequest, unread])
  have handled := stageWaveRequest_of_read (dequeued rest s) (readStage_eq.mpr ⟨⟨h1, h2, h3, h4, h5, h6⟩, hb⟩)
  have hserved : servedTables (dequeued rest s) g.course g.skipMark g.region = servedTables s g.course g.skipMark g.region := rfl
  rw [hserved] at handled
  intro served latest
  have formOk : stageFormInRange (dequeued rest s) g = true ↔ _ := stageFormInRange_iff s g
  have lastOk := lastGoInRange_iff g.goTime (clampStagger g.stagger) served.length
  constructor
  · intro hbad
    refine takeRequest_refused_of ht hk (handled.trans ?_)
    by_cases hform : stageFormInRange (dequeued rest s) g = true
    · rw [hform, if_neg Bool.noConfusion, if_pos]
      rw [Bool.eq_false_iff, ne_eq, lastOk]
      obtain ⟨a1, a2, a3, a4, a5⟩ := formOk.mp hform
      rcases hbad with h | h | h | ⟨m, hm, h⟩ | h | ⟨hne, h⟩
      · omega
      · omega
      · omega
      · have := a4 m hm
        omega
      · exact absurd a5 h
      · rintro (h0 | hle)
        · exact hne (List.length_eq_zero_iff.mp h0)
        · exact Nat.not_lt.mpr hle h
    · rw [if_pos (Bool.eq_false_iff.mpr hform)]
  · intro a1 a2 a3 a4 a5 a6
    have hlast : lastGoInRange g.goTime (clampStagger g.stagger) served.length = true := by
      refine lastOk.mpr ?_
      by_cases hne : served = []
      · exact .inl (by rw [hne]; rfl)
      · exact .inr (a6 hne)
    rw [formOk.mpr ⟨a1, a2, a3, a4, a5⟩, if_neg Bool.noConfusion, hlast, if_neg Bool.noConfusion] at handled
    refine ⟨fun hm => ?_, fun hm hc => ?_, fun hm hc hw => ?_, fun hm hc hw he => ?_, fun hm hc hw he => ?_⟩
    · exact takeRequest_refused_of ht hk (handled.trans (by simp [hm]))
    · exact takeRequest_refused_of ht hk (handled.trans (by simp [hm, hc]))
    · exact takeRequest_refused_of ht hk (handled.trans (by simp [hm, hc, hw]))
    · exact takeRequest_refused_of ht hk (handled.trans (by simp [hm, hc, hw, served, he]))
    · obtain ⟨least, attained⟩ := earliestFire_spec s g.goTime (min g.stagger 120) g.course served
      have counts := planCounts_eq s g.course g.skipMark g.region (plannedTables s g.course served)
      have tickets := planCounts_tickets s g.course g.skipMark g.region (plannedTables s g.course served)
      have lengths : (plannedTables s g.course served).length = served.length := List.length_map _
      have accepted := takeRequest_answered (t := { s with
          waves := s.waves.set g.wave (stagedWave s g (plannedTables s g.course served)) })
        (a := stageAnswer (dequeued rest s) g (plannedTables s g.course served)) ht hk
        (handled.trans (by simp [hm, hc, hw, served, he]; exact ⟨rfl, rfl⟩))
      rw [stageAnswer_eq, lengths] at accepted
      refine ⟨_, _, _, _, accepted, Store.get?_set_self _ _ _, fun v hv => Store.get?_set_of_ne _ _ hv, rfl, lengths,
        ?_, ?_, ?_, ?_, ?_, rfl, least, fun h => attained (tickets ▸ h), decide_eq_true_iff, decide_eq_true_iff,
        Option.isSome_iff_ne_none, needShort_iff s g.course served⟩
      · rw [show (planCounts s g.course g.skipMark g.region (plannedTables s g.course served)).groups = served.length from lengths]
        exact visits_sum (visitOf s g.course g.skipMark) (walkOrder s.floor g.region)
      · simp [counts, walkCounts, List.filter_map, Function.comp_def]
      · simp [counts, walkCounts, List.filter_map, Function.comp_def]
      · simp [counts, walkCounts, List.filter_map, Function.comp_def]
      · rw [tickets, plannedTables, List.map_map]
        rfl

/-! ## RELEASE_WAVE (R41 to R43) -/

/-- A RELEASE_WAVE of a wave that has a record (R41). -/
theorem releaseWaveRequest_of_wave {b : List Byte} {w : Nat} {wv : Wave} {s : State} (h : readOne b = some w) (hw : wave? s w = some wv)
    (hle : w ≤ 63) :
    releaseWaveRequest b s
      = if wv.state = .staged ∧ lastGoInRange wv.goTime wv.stagger (servedTables s wv.course wv.skipMark wv.region).length = false then
          refuse .range s
        else if s.link.mode = .setup then refuse .mode s
        else if wv.state ≠ .staged then refuse .state s
        else if (servedTables s wv.course wv.skipMark wv.region).length = 0 then refuse .empty s
        else releaseStaged w wv s := by
  rw [releaseWaveRequest, h]
  simp only [hw]
  rw [if_neg (Nat.not_le.mpr (Nat.lt_succ_of_le hle))]

theorem Pool.reserve_of_le {n : Nat} {p : Pool} (h : n ≤ p.free) : p.reserve n = ⟨p.free - n, p.reserved + n, p.live⟩ := by
  rw [Pool.reserve, Nat.min_eq_left h]

/-- The state of an accepted release, whose frame has been taken (R42, R43). -/
theorem startRelease_eq {rest : List Frame} {s : State} {w : Nat} {wv : Wave} {served : List Nat} (cs : Store Component) (ns : List Notice)
    (ht : ((plannedTables s wv.course served).map fun v => v.tickets.length).sum ≤ s.ticketPool.free)
    (hg : served.length ≤ s.groupPool.free) :
    let plan := plannedTables s wv.course served
    let tickets := (plan.map fun v => v.tickets.length).sum
    startRelease (dequeued rest s) w wv plan (noticedAll ns { dequeued rest s with components := cs })
      = dequeued rest { noticedAll ns s with
          components := cs
          waves := s.waves.update w fun wv' => { wv' with
            state := .releasing, plan := walkCounts s wv.course wv.skipMark wv.region plan, release := {}
            reservedTickets := tickets, reservedGroups := served.length }
          ticketPool := ⟨s.ticketPool.free - tickets, s.ticketPool.reserved + tickets, s.ticketPool.live⟩
          groupPool := ⟨s.groupPool.free - served.length, s.groupPool.reserved + served.length, s.groupPool.live⟩
          engine := { status := .running, wave := some w, plan := plan, next := 0 } } := by
  intro plan tickets
  have groups : plan.length = served.length := List.length_map _
  have counted : (planCounts (dequeued rest s) wv.course wv.skipMark wv.region plan).tickets = tickets := planCounts_tickets ..
  have noticed : noticedAll ns { dequeued rest s with components := cs }
      = { dequeued rest s with components := cs, link := (dequeued rest (noticedAll ns s)).link } :=
    (noticedAll_with ns (s := dequeued rest s) (t := { dequeued rest s with components := cs }) rfl).trans
      (by rw [dequeued_noticedAll])
  have ticketPool : (dequeued rest s).ticketPool.reserve tickets = _ := Pool.reserve_of_le ht
  have groupPool : (dequeued rest s).groupPool.reserve served.length = _ := Pool.reserve_of_le hg
  rw [noticed, noticedAll_rest ns s, startRelease]
  dsimp only
  rw [counted, show (planCounts (dequeued rest s) wv.course wv.skipMark wv.region plan).groups = served.length from groups,
    ticketPool, groupPool, ← planCounts_eq]
  rfl

/-- Settles O30: the checks of R41 in order, and the state and reply of R42 and R43. -/
theorem releaseWaveSetsTheWaveAside : Obligations.ReleaseWaveSetsTheWaveAside := by
  intro w f rest s ht hk hb hw
  have read : readOne f.body = some w := readOne_eq.mpr ⟨hw, hb⟩
  refine ⟨fun hr => ?_, fun hr hns => ?_, fun wv hr hwv hst => ?_⟩
  · exact takeRequest_refused_of ht hk (by rw [releaseWaveRequest, read]; exact if_pos hr)
  · cases hwv : wave? s w with
    | none =>
      have handled : releaseWaveRequest f.body (dequeued rest s)
          = if s.link.mode = .setup then refuse .mode (dequeued rest s) else refuse .state (dequeued rest s) := by
        rw [releaseWaveRequest, read]
        simp only [dequeued_wave_get, hwv]
        exact if_neg (Nat.not_le.mpr (Nat.lt_succ_of_le hr))
      exact ⟨fun hm => takeRequest_refused_of ht hk (handled.trans (by simp [hm])),
        fun hm => takeRequest_refused_of ht hk (handled.trans (by simp [hm]))⟩
    | some wv =>
      have hns : wv.state ≠ .staged := by simpa [waveState, hwv] using hns
      have handled := releaseWaveRequest_of_wave (s := dequeued rest s) read hwv hr
      exact ⟨fun hm => takeRequest_refused_of ht hk (handled.trans (by simp [hm, hns])),
        fun hm => takeRequest_refused_of ht hk (handled.trans (by simp [hm, hns]))⟩
  · intro served plan tickets need earliest
    have handled := releaseWaveRequest_of_wave (s := dequeued rest s) read hwv hr
    have hserved : servedTables (dequeued rest s) wv.course wv.skipMark wv.region = served := rfl
    have lastOk := lastGoInRange_iff wv.goTime wv.stagger served.length
    rw [hserved] at handled
    have passed : served = [] ∨ wv.goTime + (served.length - 1) * wv.stagger ≤ 16777215 → _ := fun h =>
      handled.trans (if_neg fun hbad => Bool.eq_false_iff.mp hbad.2 (lastOk.mpr (h.imp_left List.length_eq_zero_iff.mpr)))
    refine ⟨fun hne hlt => ?_, fun hle hm => ?_, fun hm he => ?_, fun hm hne hle => ?_⟩
    · refine takeRequest_refused_of ht hk (handled.trans (if_pos ⟨hst, ?_⟩))
      rw [Bool.eq_false_iff, ne_eq, lastOk, List.length_eq_zero_iff]
      exact fun h => h.elim hne (Nat.not_le.mpr hlt)
    · exact takeRequest_refused_of ht hk ((passed hle).trans (by simp [hm]))
    · exact takeRequest_refused_of ht hk ((passed (.inl he)).trans (by simp [hm, hst, he]))
    · have staged : releaseWaveRequest f.body (dequeued rest s) = releaseStaged w wv (dequeued rest s) :=
        (passed (.inr hle)).trans (by simp [hm, hst, hne])
      have counted : (planCounts (dequeued rest s) wv.course wv.skipMark wv.region plan).tickets = tickets := planCounts_tickets ..
      have groups : (planCounts (dequeued rest s) wv.course wv.skipMark wv.region plan).groups = served.length := List.length_map _
      have hplan : releasePlan (dequeued rest s) wv = plan := rfl
      simp only [releaseStaged, hplan, counted, groups] at staged
      obtain ⟨least, attained⟩ := earliestFire_spec s wv.goTime wv.stagger wv.course served
      have hneed : (fun c => portions c (plan.flatMap ServedTable.tickets)) = need :=
        funext fun c => (plannedNeed_eq s wv.course served c).symm
      refine ⟨fun hrun => ?_, fun hrun hfree => ?_, fun hrun hfree hgr => ?_, fun hc hrun hfree hgr hshort => ?_,
        fun hc hrun hfree hgr hshort => ?_⟩
      · exact takeRequest_refused_of ht hk (staged.trans (by simp [hrun]))
      · exact takeRequest_refused_of ht hk (staged.trans (by simp [hrun, hfree]))
      · exact takeRequest_refused_of ht hk (staged.trans (by simp [hrun, hfree, hgr]))
      · have draw := (waveDraw_eq (s := dequeued rest s) hc plan plannedTables_pos).1
        rw [hneed] at draw
        refine takeRequest_answered ht hk (staged.trans ((if_neg hrun).trans ((if_neg (Nat.not_lt.mpr hfree)).trans
          ((if_neg (Nat.not_lt.mpr hgr)).trans ?_))))
        rw [draw hshort, dequeued_noticedAll]
        rfl
      · have draw := (waveDraw_eq (s := dequeued rest s) hc plan plannedTables_pos).2
        rw [hneed] at draw
        obtain ⟨cs, draw, counts⟩ := draw hshort
        have started := startRelease_eq (rest := rest) (w := w) cs (waveDrawNotices s need) hfree hgr
        refine ⟨cs, s.waves.update w fun v =>
            { v with
              state := .releasing
              plan := walkCounts s wv.course wv.skipMark wv.region plan
              release := {}
              reservedTickets := tickets
              reservedGroups := served.length },
          takeRequest_answered ht hk (staged.trans ((if_neg hrun).trans ((if_neg (Nat.not_lt.mpr hfree)).trans
          ((if_neg (Nat.not_lt.mpr hgr)).trans ?_)))), ?_, fun v hv => Store.get?_update_of_ne _ _ hv, counts, least,
          attained⟩
        · rw [draw]
          simp only [dequeued_earliestFire]
          exact congrArg₂ Prod.mk started rfl
        · rw [Store.get?_update_self, show s.waves.get? w = some wv from hwv]
          rfl

end Sys2Proof.Machine
end

section
/-!
PROOFS. Places: where each ticket stands, and what leaving a place, entering a station and draining make of the places and of the records that
name them (R81, R94 to R100, R110).
-/

namespace Sys2Proof.Machine

/-! ## Places and the records that name them (R81) -/

/-- A spot of a station controller at which a ticket can stand. -/
inductive Spot where
  | blocked
  | queue
  | position (i : Nat)

/-- A place at which a ticket can stand. -/
inductive Place where
  | calendar
  | station (x : Nat) (p : Spot)

/-- Controller `st` holds ticket `n` at a spot. -/
def Spot.Holds (st : Station) (n : Nat) : Spot → Prop
  | .blocked => n ∈ st.blocked
  | .queue => n ∈ wholeQueue st
  | .position i => st.positions[i]? = some (some n)

/-- Ticket `n` stands at a place. -/
def StandsAt (s : State) (n : Nat) : Place → Prop
  | .calendar => n ∈ s.calendar
  | .station x p => p.Holds (station s x) n

/-- A ticket's record names a place as the one where it stands. -/
def Names (tk : Ticket) : Place → Prop
  | .calendar => tk.state = .calendared
  | .station x .blocked => tk.state = .blocked ∧ tk.homeStation = x
  | .station x .queue => tk.state = .queued ∧ tk.station = x
  | .station x (.position i) => tk.state = .onLine ∧ tk.station = x ∧ tk.position = some i

/-- Ticket `n` stands at no place. -/
def Unplaced (s : State) (n : Nat) : Prop :=
  ∀ p, ¬StandsAt s n p

/-- Every place that holds a ticket other than `n` is the one that its record names. -/
def ToldBut (n : Nat) (s : State) : Prop :=
  ∀ m ≠ n, ∀ p, StandsAt s m p → ∃ tk, ticket? s m = some tk ∧ Names tk p

/-- Every place that holds a ticket is the one that its record names. -/
def Told (s : State) : Prop :=
  ∀ m p, StandsAt s m p → ∃ tk, ticket? s m = some tk ∧ Names tk p

theorem Names.unique {tk : Ticket} {p q : Place} (hp : Names tk p) (hq : Names tk q) : p = q := by
  rcases p with _ | ⟨x, _ | _ | i⟩ <;> rcases q with _ | ⟨y, _ | _ | j⟩ <;> simp_all [Names]

theorem Told.but {s : State} (h : Told s) (n : Nat) : ToldBut n s :=
  fun m _ => h m

theorem Told.names {s : State} {n : Nat} {tk : Ticket} {p : Place} (h : Told s) (hk : ticket? s n = some tk) (hp : StandsAt s n p) :
    Names tk p := by
  obtain ⟨tk', hk', hn⟩ := h n p hp
  obtain rfl : tk = tk' := Option.some.inj (hk.symm.trans hk')
  exact hn

theorem ToldBut.told {s : State} {n : Nat} (h : ToldBut n s) (hn : ∀ p, StandsAt s n p → ∃ tk, ticket? s n = some tk ∧ Names tk p) :
    Told s := by
  intro m p hp
  by_cases hm : m = n
  · exact hm ▸ hn p (hm ▸ hp)
  · exact h m hm p hp

theorem ToldBut.told_of_unplaced {s : State} {n : Nat} (h : ToldBut n s) (hn : Unplaced s n) : Told s :=
  h.told fun p hp => absurd hp (hn p)

/-- A ticket whose record names no place, or that is not live, stands at none. -/
theorem Told.unplaced {s : State} {n : Nat} (h : Told s) (hn : ∀ tk, ticket? s n = some tk → ∀ p, ¬Names tk p) : Unplaced s n := by
  intro p hp
  obtain ⟨tk, hk, hp⟩ := h n p hp
  exact hn tk hk p hp

theorem station_of_length_le {s : State} {x : Nat} (h : s.stations.length ≤ x) : station s x = {} := by
  simp [station, List.getD_eq_getElem?_getD, List.getElem?_eq_none h]

theorem not_holds_reset (n : Nat) (p : Spot) : ¬p.Holds {} n := by
  cases p <;> simp [Spot.Holds, wholeQueue]

theorem StandsAt.lt_length {s : State} {n x : Nat} {p : Spot} (h : StandsAt s n (.station x p)) : x < s.stations.length := by
  by_contra hx
  rw [StandsAt, station_of_length_le (Nat.le_of_not_lt hx)] at h
  exact not_holds_reset n p h

/-- Coherence says it of every place (R81). -/
theorem Coherent.told {s : State} (h : Coherent s) : Told s := by
  obtain ⟨hlen, -, -, ⟨-, hcal⟩, hst, -⟩ := h
  intro m p hp
  rcases p with _ | ⟨x, p⟩
  · have := hcal m hp
    cases hk : ticket? s m with
    | none => simp [InState, hk] at this
    | some tk => exact ⟨tk, rfl, by simpa [InState, hk, Names] using this⟩
  · have hx : x ∈ List.range Config.stations := List.mem_range.mpr (hlen ▸ hp.lt_length)
    obtain ⟨hb, hq, hpos⟩ := hst x hx
    cases p with
    | blocked =>
      have := hb m hp
      cases hk : ticket? s m with
      | none => simp [hk] at this
      | some tk => exact ⟨tk, rfl, by simpa [hk, Names] using this⟩
    | queue =>
      have := hq m hp
      cases hk : ticket? s m with
      | none => simp [hk] at this
      | some tk => exact ⟨tk, rfl, by simpa [hk, Names] using this⟩
    | position i =>
      have hmem : (some m, i) ∈ (station s x).positions.zipIdx := List.mk_mem_zipIdx_iff_getElem?.mpr hp
      have := List.all_eq_true.mp hpos _ hmem
      cases hk : ticket? s m with
      | none => simp [hk] at this
      | some tk => exact ⟨tk, rfl, by simpa [hk, Names] using this⟩

/-- The lists of an invariant state, as the laws of offers and drains ask for them. -/
theorem Told.blockedSound {s : State} (h : Told s) (hd : ∀ x, (station s x).blocked.Nodup) : BlockedSound s := by
  intro x
  refine ⟨hd x, fun n hn => ?_⟩
  obtain ⟨tk, hk, hp⟩ := h n (.station x .blocked) hn
  exact ⟨tk, hk, hp.2⟩

/-! ## Changes of places -/

/-- Tickets other than `n` keep their records and stand at no new place. -/
structure Moves (n : Nat) (s t : State) : Prop where
  others : ∀ m ≠ n, ticket? t m = ticket? s m
  places : ∀ m ≠ n, ∀ p, StandsAt t m p → StandsAt s m p

theorem Moves.refl (n : Nat) (s : State) : Moves n s s :=
  ⟨fun _ _ => rfl, fun _ _ _ h => h⟩

theorem Moves.trans {n : Nat} {s t u : State} (h : Moves n s t) (k : Moves n t u) : Moves n s u :=
  ⟨fun m hm => (k.others m hm).trans (h.others m hm), fun m hm p hp => h.places m hm p (k.places m hm p hp)⟩

theorem Moves.toldBut {n : Nat} {s t : State} (h : Moves n s t) (k : ToldBut n s) : ToldBut n t := by
  intro m hm p hp
  rw [h.others m hm]
  exact k m hm p (h.places m hm p hp)

/-- Places of a state that agrees in calendar and controllers' places. -/
theorem standsAt_congr {s t : State} (hc : t.calendar = s.calendar)
    (hb : ∀ x, (station t x).blocked = (station s x).blocked) (hq : ∀ x, wholeQueue (station t x) = wholeQueue (station s x))
    (hp : ∀ x, (station t x).positions = (station s x).positions) (n : Nat) (p : Place) : StandsAt t n p ↔ StandsAt s n p := by
  rcases p with _ | ⟨x, _ | _ | i⟩ <;> simp [StandsAt, Spot.Holds, hc, hb, hq, hp]

theorem OnlyLines.standsAt {s t : State} (h : OnlyLines s t) (n : Nat) (p : Place) : StandsAt t n p ↔ StandsAt s n p :=
  standsAt_congr h.calendar h.blocked (fun x => by rw [wholeQueue, h.rushQueue, h.ordinaryQueue]; rfl) h.positions n p

theorem OnlyLines.ticket_get {s t : State} (h : OnlyLines s t) (n : Nat) : ticket? t n = ticket? s n := by
  rw [ticket?, h.tickets]
  rfl

theorem OnlyLines.moves {s t : State} (h : OnlyLines s t) (n : Nat) : Moves n s t :=
  ⟨fun m _ => h.ticket_get m, fun m _ p hp => (h.standsAt m p).mp hp⟩

/-- The places of a state with one controller changed. -/
theorem standsAt_updStation {x : Nat} {f : Station → Station} {s : State} {n : Nat} {p : Place}
    (h : StandsAt (updStation x f s) n p) :
    StandsAt s n p ∧ (∀ q, p ≠ .station x q) ∨ ∃ q : Spot, p = .station x q ∧ q.Holds (f (station s x)) n := by
  rcases p with _ | ⟨y, q⟩
  · exact .inl ⟨h, fun q hq => by cases hq⟩
  · have hlt := h.lt_length
    rw [updStation_stations_length] at hlt
    rw [StandsAt, station_updStation] at h
    by_cases hy : y = x
    · subst hy
      rw [if_pos ⟨rfl, hlt⟩] at h
      exact .inr ⟨q, rfl, h⟩
    · rw [if_neg fun e => hy e.1] at h
      exact .inl ⟨h, fun q e => hy (Place.station.inj e).1⟩

/-- The controller once a ticket, numbered `n`, has left the spot where it stood. -/
def Spot.freed (n : Nat) (p : Spot) (st : Station) : Station :=
  match p with
  | .blocked => { st with blocked := removeNumber n st.blocked }
  | .queue => { st with rushQueue := removeNumber n st.rushQueue, ordinaryQueue := removeNumber n st.ordinaryQueue }
  | .position i => { st with positions := st.positions.set i none }

theorem Spot.holds_set {st : Station} {i j m : Nat} {o : Option Nat}
    (h : (Spot.position j).Holds { st with positions := st.positions.set i o } m) :
    j = i ∧ o = some m ∨ j ≠ i ∧ (Spot.position j).Holds st m := by
  simp only [Spot.Holds, List.getElem?_set] at h ⊢
  split at h
  · rename_i hij
    split at h
    · exact .inl ⟨hij.symm, Option.some.inj h⟩
    · exact absurd h (by simp)
  · rename_i hij
    exact .inr ⟨fun e => hij e.symm, h⟩

theorem Spot.holds_freed {st : Station} {p q : Spot} {n m : Nat} (h : q.Holds (p.freed n st) m) :
    q.Holds st m ∧ (q = p → m ≠ n) := by
  cases p with
  | blocked =>
    cases q with
    | blocked => exact (mem_removeNumber.mp h).imp id fun h _ => h
    | queue => exact ⟨h, by simp⟩
    | position j => exact ⟨h, by simp⟩
  | queue =>
    cases q with
    | blocked => exact ⟨h, by simp⟩
    | queue =>
      simp only [Spot.Holds, Spot.freed, wholeQueue, List.mem_append, mem_removeNumber] at h ⊢
      exact ⟨h.imp And.left And.left, fun _ => h.elim And.right And.right⟩
    | position j => exact ⟨h, by simp⟩
  | position i =>
    cases q with
    | blocked => exact ⟨h, by simp⟩
    | queue => exact ⟨h, by simp⟩
    | position j =>
      rcases holds_set h with ⟨-, e⟩ | ⟨hne, h⟩
      · exact absurd e (by simp)
      · exact ⟨h, fun e => absurd (Spot.position.inj e) hne⟩

/-- A controller's change that puts no ticket other than `n` anywhere. -/
theorem Moves.ofStation {n x : Nat} {f : Station → Station} {s : State}
    (h : ∀ m ≠ n, ∀ q : Spot, q.Holds (f (station s x)) m → q.Holds (station s x) m) : Moves n s (updStation x f s) := by
  refine ⟨fun _ _ => rfl, fun m hm p hp => ?_⟩
  rcases standsAt_updStation hp with ⟨hp, -⟩ | ⟨q, rfl, hq⟩
  · exact hp
  · exact h m hm q hq

theorem Moves.ofTicket (n : Nat) (f : Ticket → Ticket) (s : State) : Moves n s (updTicket n f s) :=
  ⟨fun m hm => by rw [ticket_get_updTicket, if_neg hm], fun _ _ _ hp => hp⟩

theorem Moves.ofRecord (n : Nat) (tk : Ticket) (s : State) : Moves n s (setTicket n tk s) :=
  ⟨fun _ hm => ticket_get_setTicket_of_ne s tk hm, fun _ _ _ hp => hp⟩

theorem leaveCalendar_moves (n : Nat) (s : State) : Moves n s (leaveCalendar n s) := by
  refine ⟨fun _ _ => rfl, fun _ _ p hp => ?_⟩
  cases p with
  | calendar => exact (mem_removeNumber.mp hp).1
  | station x p => exact hp

/-- Ticket `n` leaves the one spot where it may stand. -/
theorem freed_moves (n x : Nat) (p : Spot) (s : State) : Moves n s (updStation x (p.freed n) s) :=
  Moves.ofStation fun _ _ _ hq => (Spot.holds_freed hq).1

theorem freed_unplaced {n x : Nat} {p : Spot} {s : State} (h : ∀ q, StandsAt s n q → q = .station x p) :
    Unplaced (updStation x (p.freed n) s) n := by
  intro q hq
  rcases standsAt_updStation hq with ⟨hq, hne⟩ | ⟨q, rfl, held⟩
  · exact hne p (h q hq)
  · obtain ⟨hq, hne⟩ := Spot.holds_freed held
    exact hne (Place.station.inj (h (.station x q) hq)).2 rfl

theorem freed_blocked (n x : Nat) (p : Spot) (s : State) (y : Nat) :
    (station (updStation x (p.freed n) s) y).blocked.Sublist (station s y).blocked := by
  rw [station_updStation]
  split
  · cases p with
    | blocked => exact List.filter_sublist
    | queue => exact .refl _
    | position i => exact .refl _
  · exact .refl _

/-! ## Tickets carried along by a drain or a move of the queue head (R98, R110) -/

/-- A waiting ticket's record once it has entered a station or moved up to a cook position. -/
def Shifts (o o' : Ticket) : Prop :=
  (o.state = .blocked ∨ o.state = .queued) ∧ (o'.state = .queued ∨ o'.state = .onLine)
    ∧ o' = { o with
        state := o'.state, station := o'.station, position := o'.position, dueReady := o'.dueReady
        lateness := o'.lateness, firedAt := o'.firedAt }

theorem Shifts.trans {o o' o'' : Ticket} (h : Shifts o o') (k : Shifts o' o'') : Shifts o o'' := by
  obtain ⟨h1, -, h3⟩ := h
  obtain ⟨-, k2, k3⟩ := k
  refine ⟨h1, k2, ?_⟩
  rw [k3, h3]

/-- Every ticket keeps its record or shifts, places are told as before, and the blocked lists only lose tickets. -/
structure Carries (s t : State) : Prop where
  told : Told t
  tickets : ∀ m, ticket? t m = ticket? s m ∨ ∃ o o', ticket? s m = some o ∧ ticket? t m = some o' ∧ Shifts o o'
  blocked : ∀ x, (station t x).blocked.Sublist (station s x).blocked
  unplaced : ∀ m, Unplaced s m → Unplaced t m

theorem Carries.refl {s : State} (h : Told s) : Carries s s :=
  ⟨h, fun _ => .inl rfl, fun _ => .refl _, fun _ => id⟩

theorem Carries.trans {s t u : State} (h : Carries s t) (k : Carries t u) : Carries s u := by
  refine ⟨k.told, fun m => ?_, fun x => (k.blocked x).trans (h.blocked x), fun m hm => k.unplaced m (h.unplaced m hm)⟩
  rcases k.tickets m with e | ⟨o, o', ho, ho', hs⟩
  · rw [e]
    exact h.tickets m
  · rcases h.tickets m with e | ⟨p, p', hp, hp', hs'⟩
    · exact .inr ⟨o, o', e ▸ ho, ho', hs⟩
    · obtain rfl : p' = o := Option.some.inj (hp'.symm.trans ho)
      exact .inr ⟨p, o', hp, ho', hs'.trans hs⟩

/-- A field of the record that a shift leaves alone. -/
theorem Carries.map_eq {α : Type} {s t : State} (h : Carries s t) (f : Ticket → α) (hf : ∀ o o', Shifts o o' → f o' = f o) (m : Nat) :
    (ticket? t m).map f = (ticket? s m).map f := by
  rcases h.tickets m with e | ⟨o, o', ho, ho', hs⟩
  · rw [e]
  · rw [ho, ho', Option.map_some, Option.map_some, hf o o' hs]

theorem Carries.isSome_eq {s t : State} (h : Carries s t) (m : Nat) : (ticket? t m).isSome = (ticket? s m).isSome := by
  simpa using congrArg Option.isSome (h.map_eq (fun _ => ()) (fun _ _ _ => rfl) m)

theorem Carries.eq_none {s t : State} (h : Carries s t) {m : Nat} (hm : ticket? s m = none) : ticket? t m = none := by
  simpa [hm] using h.isSome_eq m

/-- A ticket that does not wait keeps its record. -/
theorem Carries.same {s t : State} (h : Carries s t) {m : Nat} {tk : Ticket} (hk : ticket? s m = some tk)
    (hs : tk.state ≠ .blocked ∧ tk.state ≠ .queued) : ticket? t m = some tk := by
  rcases h.tickets m with e | ⟨o, o', ho, -, h1, -⟩
  · rw [e, hk]
  · obtain rfl : tk = o := Option.some.inj (hk.symm.trans ho)
    exact absurd h1 (not_or.mpr hs)

theorem OnlyLines.carries {s t : State} (h : OnlyLines s t) (k : Told s) : Carries s t := by
  refine ⟨fun m p hp => ?_, fun m => .inl (h.ticket_get m), fun x => by rw [h.blocked],
    fun m hm p hp => hm p ((h.standsAt m p).mp hp)⟩
  rw [h.ticket_get]
  exact k m p ((h.standsAt m p).mp hp)

/-- A ticket that has left its places, its record and the others' standing as they were. -/
theorem Moves.carries {n : Nat} {s t : State} (h : Moves n s t) (k : ToldBut n s) (hu : Unplaced t n) (hn : ticket? t n = ticket? s n)
    (hb : ∀ x, (station t x).blocked.Sublist (station s x).blocked) : Carries s t := by
  refine ⟨(h.toldBut k).told_of_unplaced hu, fun m => .inl ?_, hb, fun m hm p hp => ?_⟩
  · by_cases hmn : m = n
    · exact hmn ▸ hn
    · exact h.others m hmn
  · by_cases hmn : m = n
    · exact hu p (hmn ▸ hp)
    · exact hm p (h.places m hmn p hp)

/-! ## Leaving a station (R110, R111) -/

/-- The controller once ticket `n` has moved up from the queue into cook position `i`. -/
def movedUp (n i : Nat) (st : Station) : Station :=
  { st with
    rushQueue := removeNumber n st.rushQueue
    ordinaryQueue := removeNumber n st.ordinaryQueue
    positions := st.positions.set i (some n) }

theorem holds_movedUp {st : Station} {n i m : Nat} {q : Spot} (h : q.Holds (movedUp n i st) m) :
    m = n ∧ q = .position i ∨ q.Holds st m ∧ (m = n → q ≠ .queue) := by
  cases q with
  | blocked => exact .inr ⟨h, fun _ => by simp⟩
  | queue =>
    simp only [Spot.Holds, wholeQueue, movedUp, List.mem_append, mem_removeNumber] at h ⊢
    exact .inr ⟨h.imp And.left And.left, fun e => absurd e (h.elim And.right And.right)⟩
  | position j =>
    rcases Spot.holds_set h with ⟨rfl, e⟩ | ⟨-, h⟩
    · exact .inl ⟨(Option.some.inj e).symm, rfl⟩
    · exact .inr ⟨h, fun _ => by simp⟩

/-- The queue head moves up. -/
theorem moveHead_carries (x i : Nat) {s : State} (h : Told s) : Carries s (moveHead x i s).1 := by
  unfold moveHead
  split
  · exact .refl h
  · rename_i n ns hq
    have standing : StandsAt s n (.station x .queue) := by simp [StandsAt, Spot.Holds, hq]
    obtain ⟨tk, hk, hnames⟩ := h n _ standing
    have up : Moves n s (updStation x (movedUp n i) s) :=
      Moves.ofStation fun m hm q hp => (holds_movedUp hp).elim (fun e => absurd e.1 hm) And.left
    have moves := up.trans (Moves.ofTicket n (fun tk => { tk with state := .onLine, position := some i }) _)
    have now : ticket? (updTicket n (fun tk => { tk with state := .onLine, position := some i }) (updStation x (movedUp n i) s)) n
        = some { tk with state := .onLine, position := some i } := by
      rw [ticket_get_updTicket, if_pos rfl, updStation_ticket_get, hk, Option.map_some]
    have carried : Carries s
        (updTicket n (fun tk => { tk with state := .onLine, position := some i }) (updStation x (movedUp n i) s)) := by
      refine ⟨(moves.toldBut (h.but n)).told fun p hp => ⟨_, now, ?_⟩, fun m => ?_, fun y => ?_, fun m hm p hp => ?_⟩
      · have only : ∀ q, StandsAt s n q → q = .station x .queue := fun q hp => (h.names hk hp).unique hnames
        have hp : StandsAt (updStation x (movedUp n i) s) n p := hp
        rcases standsAt_updStation hp with ⟨hp, hne⟩ | ⟨q, rfl, hq⟩
        · exact absurd (only p hp) (hne _)
        · rcases holds_movedUp hq with ⟨-, rfl⟩ | ⟨hq, hne⟩
          · exact ⟨rfl, hnames.2, rfl⟩
          · exact absurd (Place.station.inj (only (.station x q) hq)).2 (hne rfl)
      · by_cases hm : m = n
        · subst hm
          exact .inr ⟨tk, _, hk, now, .inr hnames.1, .inr rfl, rfl⟩
        · exact .inl (moves.others m hm)
      · rw [updTicket_station, station_updStation]
        split <;> exact .refl _
      · refine hm p (moves.places m (fun e => ?_) p hp)
        exact hm (.station x .queue) (e ▸ standing)
    exact carried.trans ((sendRecord_only _ _ _).carries carried.told)

/-- A ticket at a station leaves its place: it stands nowhere, and the queue head may have moved up. -/
theorem leaveStation_carries {n : Nat} {tk : Ticket} {s : State} (r : LineRecord) (h : ToldBut n s)
    (hn : ∀ p, StandsAt s n p → Names tk p) (hs : tk.state = .queued ∨ tk.state = .onLine) :
    Carries s (leaveStation n tk r s).1 ∧ Unplaced (leaveStation n tk r s).1 n := by
  have leaves : ∀ p : Spot, Names tk (.station tk.station p) →
      Carries s (sendRecord (.station tk.station) r (updStation tk.station (p.freed n) s))
        ∧ Unplaced (sendRecord (.station tk.station) r (updStation tk.station (p.freed n) s)) n := by
    intro p names
    have unplaced := freed_unplaced (s := s) (x := tk.station) (p := p) fun q hq => (hn q hq).unique names
    have carried := (freed_moves n tk.station p s).carries h unplaced rfl (freed_blocked n tk.station p s)
    have only := sendRecord_only (.station tk.station) r (updStation tk.station (p.freed n) s)
    have sent := only.carries carried.told
    exact ⟨carried.trans sent, sent.unplaced n unplaced⟩
  unfold leaveStation
  split
  · rename_i hst
    exact leaves .queue ⟨hst, rfl⟩
  · rename_i i hst hpos
    obtain ⟨carried, unplaced⟩ := leaves (.position i) ⟨hst, rfl, hpos⟩
    have up := moveHead_carries tk.station i carried.told
    exact ⟨carried.trans up, up.unplaced n unplaced⟩
  · rename_i hq hp
    have unplaced : Unplaced s n := by
      intro p hp'
      have names := hn p hp'
      rcases p with _ | ⟨x, _ | _ | i⟩
      · rcases hs with e | e <;> exact absurd (e.symm.trans names) (by simp)
      · rcases hs with e | e <;> exact absurd (e.symm.trans names.1) (by simp)
      · exact hq names.1
      · exact hp i names.1 names.2.2
    exact ⟨.refl (h.told_of_unplaced unplaced), unplaced⟩

/-! ## Entries and offers (R94, R96, R109) -/

/-- A ticket has taken a place, and its record names it. -/
structure TakesPlace (n : Nat) (tk : Ticket) (s t : State) : Prop where
  moves : Moves n s t
  ticket : ∃ tk', ticket? t n = some tk' ∧ (∀ p, StandsAt t n p → Names tk' p)
    ∧ (tk'.state = .queued ∨ tk'.state = .onLine ∨ tk'.state = .blocked)
    ∧ tk' = { tk with
        state := tk'.state, station := tk'.station, position := tk'.position, dueReady := tk'.dueReady
        lateness := tk'.lateness, firedAt := tk'.firedAt }

theorem TakesPlace.told {n : Nat} {tk : Ticket} {s t : State} (h : TakesPlace n tk s t) (k : ToldBut n s) : Told t := by
  obtain ⟨tk', hk, hp, -⟩ := h.ticket
  exact (h.moves.toldBut k).told fun p hp' => ⟨tk', hk, hp p hp'⟩

theorem TakesPlace.lines {n : Nat} {tk : Ticket} {s t u : State} (h : TakesPlace n tk s t) (k : OnlyLines t u) :
    TakesPlace n tk s u := by
  obtain ⟨moves, tk', hk, hp, rest⟩ := h
  exact ⟨moves.trans (k.moves n), tk', (k.ticket_get n).trans hk, fun p h => hp p ((k.standsAt n p).mp h), rest⟩

theorem enterStation_takes {n : Nat} {tk : Ticket} {s : State} (x : Nat) (hk : ticket? s n = some tk) (hu : Unplaced s n) :
    TakesPlace n tk s (enterStation n x s) ∧ (∀ y, (station (enterStation n x s) y).blocked = (station s y).blocked)
      ∧ ∀ tk', ticket? (enterStation n x s) n = some tk' → tk'.state = .queued ∨ tk'.state = .onLine := by
  unfold enterStation
  rw [hk]
  dsimp only
  split
  · rename_i i _
    have blocked : ∀ tk' y, (station (updStation x (fun st => { st with positions := st.positions.set i (some n) })
        (setTicket n tk' s)) y).blocked = (station s y).blocked := by
      intro tk' y
      rw [station_updStation]
      split <;> rfl
    have takes : TakesPlace n tk s (updStation x (fun st => { st with positions := st.positions.set i (some n) })
        (setTicket n { entryTimes s x tk with state := .onLine, position := some i } s)) := by
      refine ⟨(Moves.ofRecord n _ s).trans (Moves.ofStation fun m hm q hq => ?_), _, ticket_get_setTicket_self s n _, fun p hp => ?_,
        .inr (.inl rfl), rfl⟩
      · cases q with
        | blocked => exact hq
        | queue => exact hq
        | position j =>
          rcases Spot.holds_set hq with ⟨-, e⟩ | ⟨-, hq⟩
          · exact absurd (Option.some.inj e).symm hm
          · exact hq
      · rcases standsAt_updStation hp with ⟨hp, -⟩ | ⟨q, rfl, held⟩
        · exact absurd hp (hu p)
        · cases q with
          | blocked => exact absurd held (hu (.station x .blocked))
          | queue => exact absurd held (hu (.station x .queue))
          | position j =>
            rcases Spot.holds_set held with ⟨rfl, -⟩ | ⟨-, held⟩
            · exact ⟨rfl, rfl, rfl⟩
            · exact absurd held (hu (.station x (.position j)))
    have only := sendRecords_only (.station x) [showRecord n (entryTimes s x tk), .lineTicket n i]
      (updStation x (fun st => { st with positions := st.positions.set i (some n) })
        (setTicket n { entryTimes s x tk with state := .onLine, position := some i } s))
    refine ⟨takes.lines only, fun y => (only.blocked y).trans (blocked _ y), fun tk' hk' => .inr ?_⟩
    rw [← Option.some.inj ((ticket_get_setTicket_self s n _).symm.trans ((only.ticket_get n).symm.trans hk'))]
  · have blocked : ∀ tk' y, (station (updStation x (joinQueue n tk.rush) (setTicket n tk' s)) y).blocked = (station s y).blocked := by
      intro tk' y
      rw [station_updStation, joinQueue]
      split
      · split <;> rfl
      · rfl
    have joined : ∀ m (q : Spot), q.Holds (joinQueue n tk.rush (station s x)) m → q.Holds (station s x) m ∨ m = n ∧ q = .queue := by
      intro m q hq
      cases hr : tk.rush <;> cases q <;> simp [joinQueue, hr, Spot.Holds, wholeQueue] at hq ⊢ <;> tauto
    have takes : TakesPlace n tk s (updStation x (joinQueue n tk.rush)
        (setTicket n { entryTimes s x tk with state := .queued } s)) := by
      refine ⟨(Moves.ofRecord n _ s).trans (Moves.ofStation fun m hm q hq => ?_), _, ticket_get_setTicket_self s n _, fun p hp => ?_,
        .inl rfl, rfl⟩
      · exact (joined m q hq).resolve_right fun e => hm e.1
      · rcases standsAt_updStation hp with ⟨hp, -⟩ | ⟨q, rfl, held⟩
        · exact absurd hp (hu p)
        · rcases joined n q held with held | ⟨-, rfl⟩
          · exact absurd held (hu (.station x q))
          · exact ⟨rfl, rfl⟩
    have only := sendRecord_only (.station x) (showRecord n (entryTimes s x tk))
      (updStation x (joinQueue n tk.rush) (setTicket n { entryTimes s x tk with state := .queued } s))
    refine ⟨takes.lines only, fun y => (only.blocked y).trans (blocked _ y), fun tk' hk' => .inl ?_⟩
    rw [← Option.some.inj ((ticket_get_setTicket_self s n _).symm.trans ((only.ticket_get n).symm.trans hk'))]

theorem joinBlocked_takes {n : Nat} {tk : Ticket} {s : State} (hk : ticket? s n = some tk) (hu : Unplaced s n) :
    TakesPlace n tk s (joinBlocked n s) := by
  unfold joinBlocked
  rw [hk]
  refine ⟨(Moves.ofRecord n _ s).trans (Moves.ofStation fun m hm q hq => ?_), _, ticket_get_setTicket_self s n _, fun p hp => ?_,
    .inr (.inr rfl), rfl⟩
  · cases q with
    | blocked => exact (mem_insertBefore.mp hq).resolve_left hm
    | queue => exact hq
    | position j => exact hq
  · rcases standsAt_updStation hp with ⟨hp, -⟩ | ⟨q, rfl, held⟩
    · exact absurd hp (hu p)
    · cases q with
      | blocked => exact ⟨rfl, rfl⟩
      | queue => exact absurd held (hu (.station _ .queue))
      | position j => exact absurd held (hu (.station _ (.position j)))

/-- An offer of a ticket that stands nowhere; where it enters a station, the blocked lists are as they were. -/
theorem offer_takes {n : Nat} {tk : Ticket} {s : State} (hk : ticket? s n = some tk) (hu : Unplaced s n) :
    TakesPlace n tk s (offer n s).1
      ∧ ∀ x, (offer n s).2 = some x → ∃ y, (offer n s).1 = enterStation n y s := by
  unfold offer
  rw [hk]
  dsimp only
  split
  · exact ⟨(enterStation_takes _ hk hu).1, fun _ _ => ⟨_, rfl⟩⟩
  · split
    · split
      · exact ⟨(enterStation_takes _ hk hu).1, fun _ _ => ⟨_, rfl⟩⟩
      · exact ⟨joinBlocked_takes hk hu, fun _ h => absurd h (by simp)⟩
    · exact ⟨joinBlocked_takes hk hu, fun _ h => absurd h (by simp)⟩

/-! ## Drains (R97, R98) -/

/-- A blocked ticket enters a station. -/
theorem unblocks_carries {n y : Nat} {s : State} (x : Nat) (h : Told s) (hn : n ∈ (station s y).blocked) :
    Carries s (enterStation n x (leaveBlocked y n s)) := by
  obtain ⟨tk, hk, hnames⟩ := h n (.station y .blocked) hn
  have unplaced : Unplaced (leaveBlocked y n s) n :=
    freed_unplaced (p := .blocked) fun q hq => (h.names hk hq).unique hnames
  have moves : Moves n s (leaveBlocked y n s) := freed_moves n y .blocked s
  obtain ⟨takes, blocked, entered⟩ := enterStation_takes x (s := leaveBlocked y n s) hk unplaced
  refine ⟨takes.told (moves.toldBut (h.but n)), fun m => ?_, fun z => ?_, fun m hm p hp => ?_⟩
  · by_cases hm : m = n
    · subst hm
      obtain ⟨tk', hk', -, -, rest⟩ := takes.ticket
      exact .inr ⟨tk, tk', hk, hk', .inl hnames.1, entered tk' hk', rest⟩
    · exact .inl ((moves.trans takes.moves).others m hm)
  · rw [blocked]
    exact freed_blocked n y .blocked s z
  · have hmn : m ≠ n := fun e => hm (.station y .blocked) (e ▸ hn)
    exact hm p ((moves.trans takes.moves).places m hmn p hp)

theorem drainList_carries {y : Nat} (fuel : Nat) {s : State} (h : Told s) : Carries s (drainList fuel y s) := by
  induction fuel generalizing s with
  | zero => exact .refl h
  | succ fuel ih =>
    unfold drainList
    split
    · exact .refl h
    · rename_i n hf
      have hn := List.mem_of_find?_eq_some hf
      split
      · rename_i t x he
        obtain ⟨tk, hk, hnames⟩ := h n (.station y .blocked) hn
        obtain ⟨-, enters⟩ := offer_takes (s := leaveBlocked y n s) hk
          (freed_unplaced (p := .blocked) fun q hq => (h.names hk hq).unique hnames)
        rw [he] at enters
        obtain ⟨z, rfl⟩ := enters x rfl
        have first := unblocks_carries z h hn
        exact first.trans (ih first.told)
      · exact .refl h

theorem drain_carries (x : Nat) {s : State} (h : Told s) : Carries s (drain x s) := by
  unfold drain
  generalize x :: stationsNaming s x = ys
  induction ys generalizing s with
  | nil => exact .refl h
  | cons y ys ih =>
    have first := drainList_carries (y := y) (station s y).blocked.length h
    exact first.trans (ih first.told)

end Sys2Proof.Machine
end

section
/-!
PROOFS. What withdrawals and the freeing of groups leave as it was, and what they make of the places, the lists and the counts (R87, R100, R163).
-/

namespace Sys2Proof.Machine

/-! ## What a withdrawal leaves as it was (R100) -/

/-- A group's record but for its ticket list. -/
def Group.unlisted (gr : Group) : Group :=
  { gr with tickets := [] }

/-- What a withdrawal or a run of them can change: tickets and their places, the tickets' lists, counts and lines. -/
structure OnlyWithdraws (s t : State) : Prop where
  rest : t = { s with
    components := t.components, tickets := t.tickets, ticketPool := t.ticketPool, calendar := t.calendar
    stations := t.stations, groups := t.groups, passLine := t.passLine }
  groups : ∀ g, (group? t g).map Group.unlisted = (group? s g).map Group.unlisted
  reserved : t.ticketPool.reserved = s.ticketPool.reserved

theorem OnlyWithdraws.refl (s : State) : OnlyWithdraws s s :=
  ⟨rfl, fun _ => rfl, rfl⟩

theorem OnlyWithdraws.trans {s t u : State} (h : OnlyWithdraws s t) (k : OnlyWithdraws t u) : OnlyWithdraws s u where
  rest := by rw [k.rest, h.rest]
  groups g := (k.groups g).trans (h.groups g)
  reserved := k.reserved.trans h.reserved

theorem OnlyWithdraws.foldl {f : State → Nat → State} (h : ∀ s n, OnlyWithdraws s (f s n)) (ns : List Nat) (s : State) :
    OnlyWithdraws s (ns.foldl f s) := by
  induction ns generalizing s with
  | nil => exact .refl s
  | cons n ns ih => exact (h s n).trans (ih _)

/-- What the undoing of a withdrawal and its drain can change: tickets and their places, counts and lines. -/
structure OnlyUndoes (s t : State) : Prop where
  rest : t = { s with
    components := t.components, tickets := t.tickets, calendar := t.calendar, stations := t.stations, passLine := t.passLine }

theorem OnlyUndoes.refl (s : State) : OnlyUndoes s s :=
  ⟨rfl⟩

theorem OnlyUndoes.trans {s t u : State} (h : OnlyUndoes s t) (k : OnlyUndoes t u) : OnlyUndoes s u :=
  ⟨by rw [k.rest, h.rest]⟩

theorem OnlyUndoes.groups {s t : State} (h : OnlyUndoes s t) : t.groups = s.groups := by
  rw [h.rest]

theorem OnlyUndoes.ticketPool {s t : State} (h : OnlyUndoes s t) : t.ticketPool = s.ticketPool := by
  rw [h.rest]

theorem OnlyUndoes.withdraws {s t : State} (h : OnlyUndoes s t) : OnlyWithdraws s t where
  rest := by rw [h.rest]
  groups g := by rw [group?, group?, h.groups]
  reserved := by rw [h.ticketPool]

theorem OnlyPlaces.undoes {s t : State} (h : OnlyPlaces s t) : OnlyUndoes s t :=
  ⟨by rw [h.rest]⟩

theorem returnStock_undoes (c q : Nat) (s : State) : OnlyUndoes s (returnStock c q s) :=
  ⟨by rw [(returnStock_returns c q s).1]⟩

theorem undoTicket_undoing (n : Nat) (tk : Ticket) (s : State) : OnlyUndoes s (undoTicket n tk s).1 := by
  unfold undoTicket
  split
  · exact OnlyUndoes.trans (t := leaveCalendar n s) ⟨rfl⟩ (returnStock_undoes _ _ _)
  · exact (leaveBlocked_places _ n s).undoes.trans (returnStock_undoes _ _ _)
  · exact (leaveStation_places n tk _ s).undoes.trans (returnStock_undoes _ _ _)
  · exact (leaveStation_places n tk _ s).undoes
  all_goals exact .refl s

theorem drainAfter_undoes (at? : Option Nat) (s : State) : OnlyUndoes s (drainAfter at? s) := by
  cases at? with
  | none => exact .refl s
  | some x => exact (drain_places x s).undoes

theorem withdrawKeep_undoes (n : Nat) (s : State) : OnlyUndoes s (withdrawKeep n s) := by
  unfold withdrawKeep
  split
  · exact .refl s
  · split
    · exact .refl s
    · exact .refl s
    · exact (undoTicket_undoing n _ s).trans (.trans (t := updTicket n _ _) ⟨rfl⟩ (drainAfter_undoes _ _))

theorem freeTicket_withdraws (n : Nat) (s : State) : OnlyWithdraws s (freeTicket n s) := by
  unfold freeTicket
  split
  · exact .refl s
  · refine ⟨rfl, fun g => ?_, rfl⟩
    change Option.map _ (group? (updGroup _ _ s) g) = _
    rw [group_get_updGroup]
    split
    · rw [Option.map_map]
      rfl
    · rfl

theorem withdrawFree_withdraws (n : Nat) (s : State) : OnlyWithdraws s (withdrawFree n s) := by
  unfold withdrawFree
  split
  · exact .refl s
  · exact (undoTicket_undoing n _ s).withdraws.trans ((freeTicket_withdraws n _).trans (drainAfter_undoes _ _).withdraws)

/-! ## Tickets and places after a withdrawal (R87, R100) -/

theorem returnStock_carries (c q : Nat) {s : State} (h : Told s) : Carries s (returnStock c q s) := by
  unfold returnStock
  split <;> exact ⟨h, fun _ => .inl rfl, fun _ => .refl _, fun _ => id⟩

/-- The undoing of a withdrawal: the ticket stands nowhere, and keeps its record. -/
theorem undoTicket_carries {n : Nat} {tk : Ticket} {s : State} (h : Told s) (hk : ticket? s n = some tk) :
    Carries s (undoTicket n tk s).1 ∧ Unplaced (undoTicket n tk s).1 n := by
  have names : ∀ p, StandsAt s n p → Names tk p := fun p hp => h.names hk hp
  have returned : ∀ {t : State}, Carries s t ∧ Unplaced t n → Carries s (returnStock tk.component tk.quantity t)
      ∧ Unplaced (returnStock tk.component tk.quantity t) n := by
    rintro t ⟨hc, hu⟩
    have back := returnStock_carries tk.component tk.quantity hc.told
    exact ⟨hc.trans back, back.unplaced n hu⟩
  have left := leaveStation_carries (.pullTicket n) (h.but n) names
  have idle : (∀ p, ¬Names tk p) → Carries s s ∧ Unplaced s n := fun hno => ⟨.refl h, fun p hp => hno p (names p hp)⟩
  unfold undoTicket
  split
  · rename_i hst
    refine returned ?_
    have unplaced : Unplaced (leaveCalendar n s) n := by
      intro p hp
      have moved : StandsAt s n p := by
        cases p with
        | calendar => exact (mem_removeNumber.mp hp).1
        | station x p => exact hp
      obtain rfl := (names p moved).unique (q := .calendar) hst
      exact (mem_removeNumber.mp hp).2 rfl
    exact ⟨(leaveCalendar_moves n s).carries (h.but n) unplaced rfl fun _ => .refl _, unplaced⟩
  · rename_i hst
    refine returned ?_
    have unplaced : Unplaced (leaveBlocked tk.homeStation n s) n :=
      freed_unplaced (p := .blocked) fun p hp => (names p hp).unique ⟨hst, rfl⟩
    exact ⟨(freed_moves n tk.homeStation .blocked s).carries (h.but n) unplaced rfl (freed_blocked n _ .blocked s), unplaced⟩
  · rename_i hst
    exact returned (left (.inl hst))
  · rename_i hst
    exact left (.inr hst)
  all_goals
    rename_i hst
    refine idle fun p hp => ?_
    rcases p with _ | ⟨x, _ | _ | i⟩ <;> simp [Names, hst] at hp

/-- Every ticket outside a list keeps its record or shifts, places are told, and the blocked lists only lose tickets. -/
structure CarriesBut (ns : List Nat) (s t : State) : Prop where
  told : Told t
  tickets : ∀ m ∉ ns, ticket? t m = ticket? s m ∨ ∃ o o', ticket? s m = some o ∧ ticket? t m = some o' ∧ Shifts o o'
  blocked : ∀ x, (station t x).blocked.Sublist (station s x).blocked

theorem CarriesBut.map_eq {α : Type} {ns : List Nat} {s t : State} (h : CarriesBut ns s t) (f : Ticket → α)
    (hf : ∀ o o', Shifts o o' → f o' = f o) {m : Nat} (hm : m ∉ ns) : (ticket? t m).map f = (ticket? s m).map f := by
  rcases h.tickets m hm with e | ⟨o, o', ho, ho', hs⟩
  · rw [e]
  · rw [ho, ho', Option.map_some, Option.map_some, hf o o' hs]

theorem Carries.carriesBut {s t : State} (h : Carries s t) (ns : List Nat) : CarriesBut ns s t :=
  ⟨h.told, fun m _ => h.tickets m, h.blocked⟩

theorem CarriesBut.mono {ns ms : List Nat} {s t : State} (h : CarriesBut ns s t) (hs : ns ⊆ ms) : CarriesBut ms s t :=
  ⟨h.told, fun m hm => h.tickets m fun hn => hm (hs hn), h.blocked⟩

theorem CarriesBut.trans {ns : List Nat} {s t u : State} (h : CarriesBut ns s t) (k : CarriesBut ns t u) : CarriesBut ns s u := by
  refine ⟨k.told, fun m hm => ?_, fun x => (k.blocked x).trans (h.blocked x)⟩
  rcases k.tickets m hm with e | ⟨o, o', ho, ho', hs⟩
  · rw [e]
    exact h.tickets m hm
  · rcases h.tickets m hm with e | ⟨p, p', hp, hp', hs'⟩
    · exact .inr ⟨o, o', e ▸ ho, ho', hs⟩
    · obtain rfl : p' = o := Option.some.inj (hp'.symm.trans ho)
      exact .inr ⟨p, o', hp, ho', hs'.trans hs⟩

/-- The record of a ticket that stands nowhere changes or is cleared. -/
theorem Moves.carriesBut {n : Nat} {s t : State} (h : Moves n s t) (k : Told s) (hu : Unplaced t n)
    (hb : ∀ x, (station t x).blocked.Sublist (station s x).blocked) : CarriesBut [n] s t :=
  ⟨(h.toldBut (k.but n)).told_of_unplaced hu, fun m hm => .inl (h.others m fun e => hm (List.mem_singleton.mpr e)), hb⟩

theorem drainAfter_carries (at? : Option Nat) {s : State} (h : Told s) : Carries s (drainAfter at? s) := by
  cases at? with
  | none => exact .refl h
  | some x => exact drain_carries x h

theorem freeTicket_ticket {n : Nat} {tk : Ticket} {s : State} (hk : ticket? s n = some tk) (m : Nat) :
    ticket? (freeTicket n s) m = if m = n then none else ticket? s m := by
  rw [freeTicket_eq hk]
  split
  · rename_i h
    rw [h]
    exact Store.get?_erase_self _ _
  · rename_i h
    exact Store.get?_erase_of_ne _ h

theorem freeTicket_group {n : Nat} {tk : Ticket} {s : State} (hk : ticket? s n = some tk) (g : Nat) :
    group? (freeTicket n s) g
      = (group? s g).map fun gr => if g = tk.group then { gr with tickets := removeNumber n gr.tickets } else gr := by
  rw [freeTicket_eq hk]
  change Store.get? (Store.update s.groups _ _) g = _
  rw [Store.get?_update]
  split
  · rfl
  · exact Option.map_id'.symm

theorem freeTicket_standsAt {n : Nat} {tk : Ticket} {s : State} (hk : ticket? s n = some tk) (m : Nat) (p : Place) :
    StandsAt (freeTicket n s) m p ↔ StandsAt s m p := by
  rw [freeTicket_eq hk]
  exact standsAt_congr rfl (fun _ => rfl) (fun _ => rfl) (fun _ => rfl) m p

theorem freeTicket_moves {n : Nat} {tk : Ticket} {s : State} (hk : ticket? s n = some tk) : Moves n s (freeTicket n s) :=
  ⟨fun m hm => by rw [freeTicket_ticket hk, if_neg hm], fun m _ p hp => (freeTicket_standsAt hk m p).mp hp⟩

theorem freeTicket_carries {n : Nat} {tk : Ticket} {s : State} (h : Told s) (hk : ticket? s n = some tk) (hu : Unplaced s n) :
    CarriesBut [n] s (freeTicket n s) :=
  (freeTicket_moves hk).carriesBut h (fun p hp => hu p ((freeTicket_standsAt hk n p).mp hp)) fun x => by
    rw [freeTicket_eq hk]
    exact .refl _

/-- The parts of a withdrawal that frees. -/
theorem withdrawFree_eq {n : Nat} {tk : Ticket} {s : State} (hk : ticket? s n = some tk) :
    withdrawFree n s = drainAfter (undoTicket n tk s).2 (freeTicket n (undoTicket n tk s).1) := by
  rw [withdrawFree, hk]

theorem undoTicket_ticket {n : Nat} {tk : Ticket} {s : State} (h : Told s) (hk : ticket? s n = some tk) :
    ∃ tk', ticket? (undoTicket n tk s).1 n = some tk' ∧ tk'.group = tk.group := by
  have := (undoTicket_carries h hk).1.map_eq Ticket.group (fun _ _ hs => by rw [hs.2.2]) n
  simpa [hk] using this

theorem withdrawFree_pool {n : Nat} {tk : Ticket} {s : State} (h : Told s) (hk : ticket? s n = some tk) :
    (withdrawFree n s).ticketPool = s.ticketPool.release := by
  obtain ⟨tk', hk', -⟩ := undoTicket_ticket h hk
  rw [withdrawFree_eq hk, (drainAfter_undoes _ _).ticketPool, freeTicket_eq hk']
  exact congrArg Pool.release (undoTicket_undoing n tk s).ticketPool

/-- A live ticket is withdrawn and freed. -/
theorem withdrawFree_carries {n : Nat} {tk : Ticket} {s : State} (h : Told s) (hk : ticket? s n = some tk) :
    CarriesBut [n] s (withdrawFree n s) ∧ ticket? (withdrawFree n s) n = none
      ∧ ∀ g, group? (withdrawFree n s) g
        = (group? s g).map fun gr => if g = tk.group then { gr with tickets := removeNumber n gr.tickets } else gr := by
  obtain ⟨undone, unplaced⟩ := undoTicket_carries h hk
  obtain ⟨tk', hk', hg⟩ := undoTicket_ticket h hk
  have freed := freeTicket_carries undone.told hk' unplaced
  have drained := drainAfter_carries (undoTicket n tk s).2 freed.told
  rw [withdrawFree_eq hk]
  refine ⟨(undone.carriesBut [n]).trans (freed.trans (drained.carriesBut [n])), ?_, fun g => ?_⟩
  · exact drained.eq_none (by rw [freeTicket_ticket hk', if_pos rfl])
  · rw [group?, (drainAfter_undoes _ _).groups, ← group?, freeTicket_group hk', hg, group?, (undoTicket_undoing n tk s).groups]
    rfl

/-! ## Counts of records -/

theorem Store.length_eq_card {α : Type} {m : Store α} (h : m.rising = true) : m.length = m.keys.toFinset.card := by
  have nodup : m.keys.Nodup := by
    rw [Store.rising_iff] at h
    exact (List.pairwise_map.mpr h).imp fun h => Nat.ne_of_lt h
  rw [List.toFinset_card_of_nodup nodup, Store.keys, List.length_map]

theorem Store.length_congr {α β : Type} {m : Store α} {m' : Store β} (h : m.rising = true) (h' : m'.rising = true)
    (hg : ∀ n, (m.get? n).isSome = (m'.get? n).isSome) : m.length = m'.length := by
  rw [Store.length_eq_card h, Store.length_eq_card h']
  refine congrArg Finset.card (Finset.ext fun n => ?_)
  rw [List.mem_toFinset, List.mem_toFinset, ← Store.get?_isSome_iff, ← Store.get?_isSome_iff, hg]

/-- A store that has lost one record. -/
theorem Store.length_of_removed {α β : Type} {m : Store α} {m' : Store β} {n : Nat} (h : m.rising = true) (h' : m'.rising = true)
    (hn : (m.get? n).isSome = true) (hn' : m'.get? n = none) (hg : ∀ l ≠ n, (m'.get? l).isSome = (m.get? l).isSome) :
    m'.length + 1 = m.length := by
  have keys : m'.keys.toFinset = m.keys.toFinset.erase n := by
    refine Finset.ext fun l => ?_
    rw [Finset.mem_erase, List.mem_toFinset, List.mem_toFinset, ← Store.get?_isSome_iff, ← Store.get?_isSome_iff]
    by_cases hl : l = n
    · rw [hl, hn']
      simp
    · rw [hg l hl]
      simp [hl]
  have mem : n ∈ m.keys.toFinset := List.mem_toFinset.mpr ((Store.get?_isSome_iff m n).mp hn)
  rw [Store.length_eq_card h, Store.length_eq_card h', keys]
  exact Finset.card_erase_add_one mem

theorem Changes.numbered {s t : State} (h : Changes s t) (hs : s.tickets.rising = true ∧ s.groups.rising = true) :
    t.tickets.rising = true ∧ t.groups.rising = true := by
  cases h with
  | lines h => exact ⟨h.tickets ▸ hs.1, h.groups ▸ hs.2⟩
  | records h => exact ⟨h.tickets hs.1, h.groups hs.2⟩
  | reset levels level => exact ⟨rfl, rfl⟩
  | _ => exact hs

/-- A run of changes keeps the tickets and groups in rising number. -/
theorem Runs.numbered {s t : State} (h : Runs s t) (hs : s.tickets.rising = true ∧ s.groups.rising = true) :
    t.tickets.rising = true ∧ t.groups.rising = true :=
  h.keeps (P := fun s => s.tickets.rising = true ∧ s.groups.rising = true) (fun _ _ => Changes.numbered) hs

/-! ## What a run of withdrawals needs and keeps -/

/-- The live tickets stand in their groups' lists, once, and in no other. -/
structure Listed (s : State) : Prop where
  nodup : ∀ g gr, group? s g = some gr → gr.tickets.Nodup
  members : ∀ g gr, group? s g = some gr → ∀ n ∈ gr.tickets, (ticket? s n).map Ticket.group = some g
  listed : ∀ n tk, ticket? s n = some tk → ∃ gr, group? s tk.group = some gr ∧ n ∈ gr.tickets

/-- A ticket leaves its group's list and is freed. -/
theorem Listed.freed {n : Nat} {tk : Ticket} {s t : State} (h : Listed s) (hk : ticket? s n = some tk) (gone : ticket? t n = none)
    (others : ∀ m ≠ n, (ticket? t m).map Ticket.group = (ticket? s m).map Ticket.group)
    (groups : ∀ g, group? t g
      = (group? s g).map fun gr => if g = tk.group then { gr with tickets := removeNumber n gr.tickets } else gr) : Listed t := by
  refine ⟨fun g gr hg => ?_, fun g gr hg m hm => ?_, fun m o ho => ?_⟩
  · obtain ⟨old, hold, rfl⟩ := Option.map_eq_some_iff.mp ((groups g).symm.trans hg)
    have nodup := h.nodup g old hold
    split
    · exact nodup.filter _
    · exact nodup
  · obtain ⟨old, hold, rfl⟩ := Option.map_eq_some_iff.mp ((groups g).symm.trans hg)
    have inOld : m ∈ old.tickets ∧ (g = tk.group → m ≠ n) := by
      split at hm
      · exact ⟨(mem_removeNumber.mp hm).1, fun _ => (mem_removeNumber.mp hm).2⟩
      · rename_i hne
        exact ⟨hm, fun e => absurd e hne⟩
    have hgo := h.members g old hold m inOld.1
    have hmn : m ≠ n := by
      rintro rfl
      rw [hk] at hgo
      exact inOld.2 (Option.some.inj hgo).symm rfl
    exact (others m hmn).trans hgo
  · have hmn : m ≠ n := by
      rintro rfl
      exact absurd (gone.symm.trans ho) (by simp)
    obtain ⟨old, hold, hgo⟩ : ∃ old, ticket? s m = some old ∧ old.group = o.group := by
      simpa [ho] using (others m hmn).symm
    obtain ⟨gr, hg, hm⟩ := h.listed m old hold
    rw [hgo] at hg
    refine ⟨_, (groups o.group).trans (congrArg _ hg), ?_⟩
    split
    · exact mem_removeNumber.mpr ⟨hm, hmn⟩
    · exact hm

/-- The pools count the live tickets and groups. -/
structure Counted (s : State) : Prop where
  numbered : s.tickets.rising = true ∧ s.groups.rising = true
  tickets : s.ticketPool.live = s.tickets.length
  groups : s.groupPool.live = s.groups.length

/-- A state whose places, lists, counts and live course sets are as withdrawals need them. -/
structure Working (s : State) : Prop where
  told : Told s
  blocked : ∀ x, (station s x).blocked.Nodup
  listed : Listed s
  counted : Counted s
  courses : ∀ u, ∀ c ∈ (tableRecord s u).liveCourses, ∃ g gr, group? s g = some gr ∧ gr.table = u ∧ gr.course = c

theorem Coherent.listed {s : State} (h : Coherent s) : Listed s := by
  obtain ⟨-, -, -, -, -, htk, hgr⟩ := h
  refine ⟨fun g gr hg => (hgr _ (Store.mem_of_get? hg)).1, fun g gr hg => (hgr _ (Store.mem_of_get? hg)).2.1, fun n tk hk => ?_⟩
  have := htk _ (Store.mem_of_get? hk)
  cases hg : group? s tk.group with
  | none => simp [hg] at this
  | some gr => exact ⟨gr, rfl, by simpa [hg] using this⟩

theorem Sound.working {s : State} (h : Sound s) : Working s := by
  obtain ⟨coherent, placed, -, -, -, tickets, groups, -, -, -, -, -, courses, -⟩ := h
  refine ⟨coherent.told, fun x => (coherent.blockedSound placed x).1, coherent.listed,
    ⟨⟨coherent.2.1, coherent.2.2.1⟩, tickets, groups⟩, fun u c hc => ?_⟩
  unfold tableRecord at hc
  cases hr : s.floor.tables.get? u with
  | none => simp [hr] at hc
  | some r =>
    obtain ⟨d, hd, htable, hcourse⟩ := courses _ (Store.mem_of_get? hr) c (by simpa [hr] using hc)
    exact ⟨d.1, d.2, Store.get?_of_mem coherent.2.2.1 hd, htable, hcourse⟩

theorem Working.blockedSound {s : State} (h : Working s) : BlockedSound s :=
  h.told.blockedSound h.blocked

theorem Counted.ticket_live {s : State} (h : Counted s) {n : Nat} {tk : Ticket} (hk : ticket? s n = some tk) : 0 < s.ticketPool.live := by
  rw [h.tickets]
  exact List.length_pos_of_mem (Store.mem_of_get? hk)

theorem Counted.group_live {s : State} (h : Counted s) {g : Nat} {gr : Group} (hg : group? s g = some gr) : 0 < s.groupPool.live := by
  rw [h.groups]
  exact List.length_pos_of_mem (Store.mem_of_get? hg)

theorem drainAfter_lines (at? : Option Nat) {s : State} (hl : LinesSound s) (hb : BlockedSound s) : LinesSound (drainAfter at? s) := by
  cases at? with
  | none => exact hl
  | some x => exact (drain_spec x hl hb).2.1

theorem withdrawFree_lines {n : Nat} {tk : Ticket} {s : State} (h : Working s) (hl : LinesSound s) (hk : ticket? s n = some tk) :
    LinesSound (withdrawFree n s) := by
  obtain ⟨undone, unplaced⟩ := undoTicket_carries h.told hk
  obtain ⟨tk', hk', -⟩ := undoTicket_ticket h.told hk
  have freed := freeTicket_carries undone.told hk' unplaced
  have lines : LinesSound (undoTicket n tk s).1 := (undoTicket_undoes hl).2.2.1
  rw [withdrawFree_eq hk]
  refine drainAfter_lines _ (by rw [freeTicket_eq hk']; exact lines) (freed.told.blockedSound fun x => ?_)
  exact ((freed.blocked x).trans (undone.blocked x)).nodup (h.blocked x)

/-- A withdrawal as the laws of withdrawals say it. -/
theorem Working.withdraws {n : Nat} {tk : Ticket} {s : State} (h : Working s) (hl : LinesSound s) (hk : ticket? s n = some tk) :
    Withdraws false n s (withdrawFree n s) ∧ (tk.state ≠ .ready → tk.state ≠ .withdrawn → Withdraws true n s (withdrawKeep n s)) :=
  withdraw_withdraws hl h.blockedSound hk (fun x hx => (h.told.names hk (p := .station x .blocked) hx).imp id Eq.symm)
    (h.counted.ticket_live hk)

/-- A withdrawal that frees a live ticket keeps what the next one needs. -/
theorem withdrawFree_working {n : Nat} {tk : Ticket} {s : State} (h : Working s) (hk : ticket? s n = some tk) :
    Working (withdrawFree n s) := by
  obtain ⟨carried, gone, groups⟩ := withdrawFree_carries h.told hk
  have only := withdrawFree_withdraws n s
  have numbered := (withdrawFree_runs n s).numbered h.counted.numbered
  have others : ∀ m ≠ n, (ticket? (withdrawFree n s) m).map Ticket.group = (ticket? s m).map Ticket.group :=
    fun m hm => carried.map_eq Ticket.group (fun _ _ hs => by rw [hs.2.2]) fun e => hm (List.mem_singleton.mp e)
  have pool : (withdrawFree n s).ticketPool.live = s.ticketPool.live - 1 := by
    rw [withdrawFree_pool h.told hk]
    have := h.counted.ticket_live hk
    simp only [Pool.release]
    omega
  refine ⟨carried.told, fun x => (carried.blocked x).nodup (h.blocked x), h.listed.freed hk gone others groups,
    ⟨numbered, ?_, ?_⟩, fun u c hc => ?_⟩
  · have := Store.length_of_removed (n := n) h.counted.numbered.1 numbered.1 (by rw [← ticket?, hk]; rfl) gone fun m hm => by
      simpa [ticket?] using congrArg Option.isSome (others m hm)
    rw [pool, h.counted.tickets]
    omega
  · rw [only.rest]
    exact h.counted.groups.trans (Store.length_congr h.counted.numbered.2 numbered.2 fun g => by
      simpa [group?] using (congrArg Option.isSome (groups g)).symm)
  · rw [only.rest] at hc
    obtain ⟨g, gr, hg, hgu, hgc⟩ := h.courses u c hc
    have kept := only.groups g
    rw [hg, Option.map_some] at kept
    obtain ⟨gr', hg', e⟩ := Option.map_eq_some_iff.mp kept
    exact ⟨g, gr', hg', (congrArg Group.table e).trans hgu, (congrArg Group.course e).trans hgc⟩

end Sys2Proof.Machine
end

section
/-!
PROOFS. The freeing of a group as cancelled, the withdrawal of a wave's groups and the cancellation of a wave (R15, R55 to R58, R163).
-/

namespace Sys2Proof.Machine

/-! ## The withdrawals of a group's tickets (R100) -/

theorem withdrawAll_working {g : Nat} (ns : List Nat) {s : State} (h : Working s) (hd : ns.Nodup)
    (hn : ∀ n ∈ ns, (ticket? s n).map Ticket.group = some g) :
    Working (ns.foldl (fun s t => withdrawFree t s) s) ∧ CarriesBut ns s (ns.foldl (fun s t => withdrawFree t s) s)
      ∧ (∀ n ∈ ns, ticket? (ns.foldl (fun s t => withdrawFree t s) s) n = none)
      ∧ (LinesSound s → WithdrawsEach false ns s (ns.foldl (fun s t => withdrawFree t s) s)
        ∧ LinesSound (ns.foldl (fun s t => withdrawFree t s) s)) := by
  induction ns generalizing s with
  | nil => exact ⟨h, (Carries.refl h.told).carriesBut [], fun _ hm => absurd hm (by simp), fun hl => ⟨rfl, hl⟩⟩
  | cons n ns ih =>
    obtain ⟨tk, hk, -⟩ := Option.map_eq_some_iff.mp (hn n (List.mem_cons_self ..))
    have working := withdrawFree_working h hk
    obtain ⟨carried, gone, -⟩ := withdrawFree_carries h.told hk
    obtain ⟨fresh, hd⟩ := List.nodup_cons.mp hd
    obtain ⟨working, carried', gone', others⟩ := ih working hd fun m hm => by
      rw [carried.map_eq Ticket.group (fun _ _ hs => by rw [hs.2.2]) fun e => fresh (List.mem_singleton.mp e ▸ hm)]
      exact hn m (List.mem_cons_of_mem _ hm)
    rw [List.foldl_cons]
    refine ⟨working, (carried.mono (by simp)).trans (carried'.mono (List.subset_cons_self n ns)), fun m hm => ?_, fun hl => ?_⟩
    · rcases List.mem_cons.mp hm with rfl | hm
      · rcases carried'.tickets m fresh with e | ⟨o, -, ho, -⟩
        · rw [e, gone]
        · exact absurd (gone.symm.trans ho) (by simp)
      · exact gone' m hm
    · obtain ⟨others, lines⟩ := others (withdrawFree_lines h hl hk)
      exact ⟨⟨_, by simpa using (h.withdraws hl hk).1, others⟩, lines⟩

/-- A group all of whose tickets have been withdrawn has an empty list. -/
theorem withdrawAll_group {g : Nat} {gr : Group} {s : State} (h : Working s) (hg : group? s g = some gr) :
    group? (gr.tickets.foldl (fun s t => withdrawFree t s) s) g = some gr.unlisted := by
  obtain ⟨working, carried, gone, -⟩ :=
    withdrawAll_working gr.tickets h (h.listed.nodup g gr hg) (h.listed.members g gr hg)
  have only := (OnlyWithdraws.foldl (f := fun s t => withdrawFree t s) (fun s n => withdrawFree_withdraws n s) gr.tickets s).groups g
  rw [hg, Option.map_some] at only
  obtain ⟨gr', hg', e⟩ := Option.map_eq_some_iff.mp only
  have empty : gr'.tickets = [] := by
    refine List.eq_nil_iff_forall_not_mem.mpr fun n hn => ?_
    have hgn := working.listed.members g gr' hg' n hn
    have out : n ∉ gr.tickets := fun hn => by
      rw [gone n hn] at hgn
      exact absurd hgn (by simp)
    rw [carried.map_eq Ticket.group (fun _ _ hs => by rw [hs.2.2]) out] at hgn
    obtain ⟨tk, hk, rfl⟩ := Option.map_eq_some_iff.mp hgn
    obtain ⟨gr'', hg'', hn⟩ := h.listed.listed n tk hk
    obtain rfl := Option.some.inj (hg.symm.trans hg'')
    exact out hn
  rw [hg', ← e, Group.unlisted, ← empty]

/-! ## The freeing of a group (R58, R163) -/

theorem freeTicket_foldl {g : Nat} (ns : List Nat) {s : State} (hd : ns.Nodup)
    (hn : ∀ n ∈ ns, (ticket? s n).map Ticket.group = some g) (hp : ns.length ≤ s.ticketPool.live) :
    let t := ns.foldl (fun s t => freeTicket t s) s
    t = { s with
        tickets := t.tickets
        ticketPool := ⟨s.ticketPool.free + ns.length, s.ticketPool.reserved, s.ticketPool.live - ns.length⟩
        groups := t.groups }
      ∧ (∀ n, ticket? t n = if n ∈ ns then none else ticket? s n) ∧ (∀ h ≠ g, group? t h = group? s h) := by
  induction ns generalizing s with
  | nil => exact ⟨rfl, fun _ => by simp, fun _ _ => rfl⟩
  | cons n ns ih =>
    obtain ⟨tk, hk, hg⟩ := Option.map_eq_some_iff.mp (hn n (List.mem_cons_self ..))
    obtain ⟨fresh, hd⟩ := List.nodup_cons.mp hd
    have pool : (freeTicket n s).ticketPool = ⟨s.ticketPool.free + 1, s.ticketPool.reserved, s.ticketPool.live - 1⟩ := by
      rw [freeTicket_eq hk]
      simp only [List.length_cons] at hp
      simp only [Pool.release, Nat.min_eq_left (show 1 ≤ s.ticketPool.live by omega)]
    obtain ⟨rest, tickets, groups⟩ := ih (s := freeTicket n s) hd (fun m hm => by
      rw [freeTicket_ticket hk, if_neg (fun e : m = n => fresh (e ▸ hm))]
      exact hn m (List.mem_cons_of_mem _ hm)) (by
      rw [pool]
      simp only [List.length_cons] at hp ⊢
      omega)
    rw [List.foldl_cons]
    refine ⟨?_, fun m => ?_, fun h hne => ?_⟩
    · rw [rest, pool]
      rw [freeTicket_eq hk]
      simp only [List.length_cons, Nat.sub_sub, Nat.add_assoc, Nat.add_comm 1]
    · rw [tickets, freeTicket_ticket hk]
      by_cases hm : m = n
      · simp [hm]
      · simp [hm]
    · rw [groups h hne, freeTicket_group hk, hg]
      simp [hne]

/-- The state once the tickets of group `g` are freed, its course has left its table, and its entry is free. -/
def clearGroup (g : Nat) (gr : Group) (s : State) : State :=
  let u := gr.tickets.foldl (fun s t => freeTicket t s) s
  { removeLiveCourse gr.table gr.course u with groups := u.groups.erase g, groupPool := u.groupPool.release }

/-- The parts of the freeing of a group as cancelled. -/
theorem freeGroup_eq {g : Nat} {gr : Group} {s : State} (hg : group? s g = some gr) :
    freeGroup g .cancelled s
      = reportEnding gr.wave .cancelled
          (if ¬gr.state = .pending then sendRecord .pass (.withdrawGroup g) (clearGroup g gr s) else clearGroup g gr s) := by
  rw [freeGroup, hg]
  dsimp only
  simp only [and_true]
  rfl

/-- A group that is shown is sent a record. -/
theorem sendRecord_pass_unless {p : Prop} [Decidable p] {r : LineRecord} {s : State} (h : LineSound s.passLine) :
    (if ¬p then sendRecord .pass r s else s) = { s with passLine := if p then s.passLine else produced r s.passLine } := by
  by_cases hp : p
  · simp [hp]
  · simp [hp, sendRecord_pass r h]

theorem clearGroup_spec {g : Nat} {gr : Group} {s : State} (hd : gr.tickets.Nodup)
    (hn : ∀ n ∈ gr.tickets, (ticket? s n).map Ticket.group = some g) (hp : gr.tickets.length ≤ s.ticketPool.live)
    (hq : 0 < s.groupPool.live) :
    clearGroup g gr s = { s with
        tickets := (clearGroup g gr s).tickets
        ticketPool := ⟨s.ticketPool.free + gr.tickets.length, s.ticketPool.reserved, s.ticketPool.live - gr.tickets.length⟩
        floor := { s.floor with tables := (clearGroup g gr s).floor.tables }
        groups := (clearGroup g gr s).groups
        groupPool := ⟨s.groupPool.free + 1, s.groupPool.reserved, s.groupPool.live - 1⟩ }
      ∧ (∀ n, ticket? (clearGroup g gr s) n = if n ∈ gr.tickets then none else ticket? s n)
      ∧ (∀ h, group? (clearGroup g gr s) h = if h = g then none else group? s h)
      ∧ ∀ u, tableRecord (clearGroup g gr s) u =
        if u = gr.table then
          { tableRecord s u with liveCourses := (tableRecord s u).liveCourses.filter fun c => decide (c ≠ gr.course) }
        else tableRecord s u := by
  obtain ⟨rest, tickets, groups⟩ := freeTicket_foldl gr.tickets hd hn hp
  have pool : s.groupPool.release = ⟨s.groupPool.free + 1, s.groupPool.reserved, s.groupPool.live - 1⟩ := by
    simp only [Pool.release, Nat.min_eq_left (show 1 ≤ s.groupPool.live by omega)]
  rw [clearGroup]
  generalize gr.tickets.foldl (fun s t => freeTicket t s) s = u at *
  refine ⟨?_, tickets, fun h => ?_, fun v => ?_⟩
  · rw [← pool]
    rw [rest]
    rfl
  · change Store.get? (u.groups.erase g) h = _
    split
    · rename_i e
      rw [e]
      exact Store.get?_erase_self _ _
    · rename_i hne
      rw [Store.get?_erase_of_ne _ hne]
      exact groups h hne
  · refine (tableRecord_setTableRecord u gr.table v _).trans ?_
    rw [rest]
    split
    · rename_i e
      rw [e]
      rfl
    · rfl

/-- A live group is freed as cancelled. -/
theorem freeGroup_frees {g : Nat} {gr : Group} {s : State} (hg : group? s g = some gr) (hl : LineSound s.passLine)
    (hm : Listed s) (hc : Counted s) : FreesCancelled g s (freeGroup g .cancelled s) := by
  have enough : gr.tickets.length ≤ s.ticketPool.live := by
    rw [hc.tickets, Store.length_eq_card hc.numbered.1, ← List.toFinset_card_of_nodup (hm.nodup g gr hg)]
    refine Finset.card_le_card fun n hn => ?_
    obtain ⟨tk, hk, -⟩ := Option.map_eq_some_iff.mp (hm.members g gr hg n (List.mem_toFinset.mp hn))
    exact List.mem_toFinset.mpr ((Store.get?_isSome_iff s.tickets n).mp (by rw [← ticket?, hk]; rfl))
  obtain ⟨rest, tickets, groups, tables⟩ := clearGroup_spec (hm.nodup g gr hg) (hm.members g gr hg) enough (hc.group_live hg)
  rw [freeGroup_eq hg]
  generalize clearGroup g gr s = u at *
  have line : u.passLine = s.passLine := by rw [rest]
  rw [sendRecord_pass_unless (line ▸ hl)]
  refine ⟨gr, hg, ?_, tickets, tables, groups, fun w => ?_⟩
  · rw [line]
    rw [rest]
    rfl
  · rw [rest]
    refine (wave_get_updWave _ _ _ _).trans ?_
    split
    · rfl
    · exact Option.map_id'.symm

/-- The freeing of a group whose tickets are all withdrawn keeps what withdrawals need. -/
theorem clearGroup_working {g : Nat} {gr : Group} {s : State} (h : Working s) (hg : group? s g = some gr) (he : gr.tickets = []) :
    Working (clearGroup g gr s) := by
  obtain ⟨rest, tickets, groups, tables⟩ := clearGroup_spec (h.listed.nodup g gr hg) (h.listed.members g gr hg) (by simp [he])
    (h.counted.group_live hg)
  simp only [he, List.not_mem_nil, if_false, List.length_nil, Nat.add_zero, Nat.sub_zero] at rest tickets
  have numbered : (clearGroup g gr s).tickets.rising = true ∧ (clearGroup g gr s).groups.rising = true := by
    rw [clearGroup, he]
    exact ⟨h.counted.numbered.1, Store.rising_erase _ h.counted.numbered.2⟩
  generalize clearGroup g gr s = t at *
  have kept : ∀ h gr', group? t h = some gr' → h ≠ g ∧ group? s h = some gr' := fun h gr' hh => by
    rw [groups] at hh
    split at hh
    · exact absurd hh (by simp)
    · exact ⟨‹_›, hh⟩
  refine ⟨?_, ?_, ⟨?_, ?_, ?_⟩, ⟨numbered, ?_, ?_⟩, ?_⟩
  · intro n p hp
    rw [tickets]
    refine h.told n p ?_
    rw [rest] at hp
    exact hp
  · intro x
    rw [rest]
    exact h.blocked x
  · exact fun g' gr' hh => h.listed.nodup g' gr' (kept g' gr' hh).2
  · intro g' gr' hh n hn
    rw [tickets]
    exact h.listed.members g' gr' (kept g' gr' hh).2 n hn
  · intro n tk hk
    rw [tickets] at hk
    obtain ⟨gr', hh, hn⟩ := h.listed.listed n tk hk
    have hne : tk.group ≠ g := by
      rintro rfl
      obtain rfl := Option.some.inj (hg.symm.trans hh)
      rw [he] at hn
      exact absurd hn (by simp)
    exact ⟨gr', by rw [groups, if_neg hne, hh], hn⟩
  · have := Store.length_congr numbered.1 h.counted.numbered.1 fun n => congrArg Option.isSome (tickets n)
    rw [rest]
    exact h.counted.tickets.trans this.symm
  · have := Store.length_of_removed (n := g) h.counted.numbered.2 numbered.2 (by rw [← group?, hg]; rfl)
      ((groups g).trans (if_pos rfl)) fun h hh => congrArg Option.isSome ((groups h).trans (if_neg hh))
    have live := h.counted.groups
    have pool : t.groupPool.live = s.groupPool.live - 1 := by rw [rest]
    omega
  · intro u c hc
    rw [tables] at hc
    have still : c ∈ (tableRecord s u).liveCourses ∧ (u = gr.table → c ≠ gr.course) := by
      split at hc
      · obtain ⟨hc, hne⟩ := List.mem_filter.mp hc
        exact ⟨hc, fun _ => of_decide_eq_true hne⟩
      · exact ⟨hc, fun e => absurd e ‹_›⟩
    obtain ⟨g', gr', hg', rfl, rfl⟩ := h.courses u c still.1
    refine ⟨g', gr', ?_, rfl, rfl⟩
    rw [groups, if_neg, hg']
    rintro rfl
    obtain rfl := Option.some.inj (hg.symm.trans hg')
    exact still.2 rfl rfl

/-- What a working state is asked does not depend on waves, counts of stock, engine, lines and host link. -/
theorem Working.congr {s t : State} (h : Working s) (hst : ∀ x, (station t x).blocked = (station s x).blocked
      ∧ wholeQueue (station t x) = wholeQueue (station s x) ∧ (station t x).positions = (station s x).positions)
    (htk : t.tickets = s.tickets) (hgr : t.groups = s.groups) (hcal : t.calendar = s.calendar)
    (hfl : t.floor = s.floor) (htp : t.ticketPool.live = s.ticketPool.live) (hgp : t.groupPool.live = s.groupPool.live) : Working t := by
  have tickets : ∀ n, ticket? t n = ticket? s n := fun n => by rw [ticket?, ticket?, htk]
  have groups : ∀ g, group? t g = group? s g := fun g => by rw [group?, group?, hgr]
  have tables : ∀ u, tableRecord t u = tableRecord s u := fun u => by rw [tableRecord, tableRecord, hfl]
  refine ⟨fun n p hp => ?_, fun x => by rw [(hst x).1]; exact h.blocked x, ⟨?_, ?_, ?_⟩, ⟨by rw [htk, hgr]; exact h.counted.numbered,
    by rw [htp, htk]; exact h.counted.tickets, by rw [hgp, hgr]; exact h.counted.groups⟩, ?_⟩
  · rw [tickets]
    exact h.told n p ((standsAt_congr hcal (fun x => (hst x).1) (fun x => (hst x).2.1) (fun x => (hst x).2.2) n p).mp hp)
  · simpa only [groups] using h.listed.nodup
  · simpa only [groups, tickets] using h.listed.members
  · simpa only [groups, tickets] using h.listed.listed
  · simpa only [groups, tables] using h.courses

theorem OnlyLines.working {s t : State} (h : OnlyLines s t) (hs : Working s) : Working t :=
  hs.congr (fun x => ⟨h.blocked x, by rw [wholeQueue, h.rushQueue, h.ordinaryQueue]; rfl, h.positions x⟩) h.tickets h.groups
    h.calendar h.floor (by rw [h.ticketPool]) (by rw [h.groupPool])

theorem freeGroup_working {g : Nat} {gr : Group} {s : State} (h : Working s) (hg : group? s g = some gr) (he : gr.tickets = []) :
    Working (freeGroup g .cancelled s) := by
  have cleared := clearGroup_working h hg he
  have reported : ∀ u : State, Working u → Working (reportEnding gr.wave .cancelled u) := fun u hu =>
    hu.congr (fun _ => ⟨rfl, rfl, rfl⟩) rfl rfl rfl rfl rfl rfl
  rw [freeGroup_eq hg]
  split
  · exact reported _ ((sendRecord_only _ _ _).working cleared)
  · exact reported _ cleared

theorem FreesCancelled.lines {g : Nat} {s t : State} (h : FreesCancelled g s t) (hl : LinesSound s) : LinesSound t := by
  obtain ⟨gr, -, rest, -⟩ := h
  rw [rest]
  refine ⟨hl.1, ?_⟩
  change LineSound (if _ then _ else _)
  split
  · exact hl.2
  · exact produced_sound hl.2

/-- A live group of a working state is withdrawn. -/
theorem withdrawGroup_withdraws {g : Nat} {gr : Group} {s : State} (h : Working s) (hg : group? s g = some gr) :
    Working (withdrawGroup g s) ∧ (LinesSound s →
      (∃ u, WithdrawsEach false gr.tickets s u ∧ FreesCancelled g u (withdrawGroup g s)) ∧ LinesSound (withdrawGroup g s)) := by
  obtain ⟨working, -, -, each⟩ :=
    withdrawAll_working gr.tickets h (h.listed.nodup g gr hg) (h.listed.members g gr hg)
  have hg' := withdrawAll_group h hg
  have eq : withdrawGroup g s = freeGroup g .cancelled (gr.tickets.foldl (fun s t => withdrawFree t s) s) := by
    rw [withdrawGroup, groupTickets, hg]
  rw [eq]
  refine ⟨freeGroup_working working hg' rfl, fun hl => ?_⟩
  obtain ⟨each, lines⟩ := each hl
  have freed := freeGroup_frees hg' lines.2 working.listed working.counted
  exact ⟨⟨_, each, freed⟩, freed.lines lines⟩

/-! ## What the withdrawals of a wave's groups leave as it was (R56) -/

/-- What withdrawals of groups of wave `w` can change. -/
structure OnlyCancels (w : Nat) (gs : List Nat) (s t : State) : Prop where
  rest : t = { s with
    components := t.components, floor := t.floor, waves := t.waves, tickets := t.tickets, ticketPool := t.ticketPool
    calendar := t.calendar, stations := t.stations, groups := t.groups, groupPool := t.groupPool, passLine := t.passLine }
  groups : ∀ h, (group? t h).map Group.unlisted = if h ∈ gs then none else (group? s h).map Group.unlisted
  others : ∀ v ≠ w, wave? t v = wave? s v
  wave : (wave? t w).isSome = (wave? s w).isSome
  reserved : t.ticketPool.reserved = s.ticketPool.reserved ∧ t.groupPool.reserved = s.groupPool.reserved

theorem OnlyCancels.refl (w : Nat) (s : State) : OnlyCancels w [] s s :=
  ⟨rfl, fun _ => by simp, fun _ _ => rfl, rfl, rfl, rfl⟩

theorem OnlyCancels.trans {w : Nat} {gs hs : List Nat} {s t u : State} (h : OnlyCancels w gs s t) (k : OnlyCancels w hs t u) :
    OnlyCancels w (gs ++ hs) s u where
  rest := by rw [k.rest, h.rest]
  groups g := by
    rw [k.groups, h.groups]
    by_cases hg : g ∈ gs <;> by_cases hg' : g ∈ hs <;> simp [hg, hg']
  others v hv := (k.others v hv).trans (h.others v hv)
  wave := k.wave.trans h.wave
  reserved := ⟨k.reserved.1.trans h.reserved.1, k.reserved.2.trans h.reserved.2⟩

theorem OnlyWithdraws.cancels {s t : State} (h : OnlyWithdraws s t) (w : Nat) : OnlyCancels w [] s t where
  rest := by rw [h.rest]
  groups g := by simpa using h.groups g
  others v _ := by
    rw [h.rest]
    rfl
  wave := by
    rw [h.rest]
    rfl
  reserved := ⟨h.reserved, by rw [h.rest]⟩

theorem OnlyLines.cancels {s t : State} (h : OnlyLines s t) (w : Nat) : OnlyCancels w [] s t where
  rest := by rw [h.rest]
  groups g := by
    rw [group?, h.groups]
    simp [group?]
  others v _ := by rw [wave?, h.waves, wave?]
  wave := by rw [wave?, h.waves, wave?]
  reserved := by rw [h.ticketPool, h.groupPool]; exact ⟨rfl, rfl⟩

theorem freeGroup_only {g w : Nat} {gr : Group} {s : State} (hg : group? s g = some gr) (hw : gr.wave = w) :
    OnlyCancels w [g] s (freeGroup g .cancelled s) := by
  have freed : OnlyCancels w [] s (gr.tickets.foldl (fun s t => freeTicket t s) s) :=
    (OnlyWithdraws.foldl (f := fun s t => freeTicket t s) (fun s n => freeTicket_withdraws n s) gr.tickets s).cancels w
  have cleared : OnlyCancels w [g] s (clearGroup g gr s) := by
    refine freed.trans (hs := [g]) ⟨rfl, fun h => ?_, fun _ _ => rfl, rfl, rfl, rfl⟩
    change Option.map _ (Store.get? (Store.erase _ g) h) = _
    by_cases hh : h = g
    · rw [hh, Store.get?_erase_self]
      simp
    · rw [Store.get?_erase_of_ne _ hh]
      simp [hh, group?]
  have reported : ∀ u : State, OnlyCancels w [] u (reportEnding w .cancelled u) := by
    refine fun u => ⟨rfl, fun _ => by simp [reportEnding], fun v hv => ?_, ?_, rfl, rfl⟩
    · rw [reportEnding, wave_get_updWave, if_neg hv]
    · rw [reportEnding, wave_get_updWave, if_pos rfl, Option.isSome_map]
  rw [freeGroup_eq hg, hw]
  split
  · exact (cleared.trans ((sendRecord_only _ _ _).cancels w)).trans (reported _)
  · exact cleared.trans (reported _)

theorem withdrawGroup_only {g w : Nat} {s : State} (hw : ∀ gr, group? s g = some gr → gr.wave = w) :
    OnlyCancels w [g] s (withdrawGroup g s) := by
  have withdrawn : OnlyWithdraws s ((groupTickets s g).foldl (fun s t => withdrawFree t s) s) :=
    OnlyWithdraws.foldl (f := fun s t => withdrawFree t s) (fun s n => withdrawFree_withdraws n s) _ s
  have groups := withdrawn.groups g
  rw [withdrawGroup]
  cases hg : group? s g with
  | none =>
    rw [groupTickets, hg, List.foldl_nil, freeGroup, hg]
    exact ⟨rfl, fun h => by by_cases hh : h = g <;> simp [hh, hg], fun _ _ => rfl, rfl, rfl, rfl⟩
  | some gr =>
    rw [hg, Option.map_some] at groups
    obtain ⟨gr', hg', e⟩ := Option.map_eq_some_iff.mp groups
    have hw' : gr'.wave = w := (congrArg Group.wave e).trans (hw gr hg)
    exact (withdrawn.cancels w).trans (freeGroup_only hg' hw')

/-- The withdrawals of groups that are all the wave's. -/
theorem withdrawGroups_only {w : Nat} (gs : List Nat) {s : State} (hw : ∀ g ∈ gs, ∀ gr, group? s g = some gr → gr.wave = w) :
    OnlyCancels w gs s (gs.foldl (fun s g => withdrawGroup g s) s) := by
  induction gs generalizing s with
  | nil => exact .refl w s
  | cons g gs ih =>
    have first := withdrawGroup_only (hw g (List.mem_cons_self ..))
    refine first.trans (ih fun h hh gr hgr => ?_)
    have := first.groups h
    rw [hgr, Option.map_some] at this
    split at this
    · exact absurd this (by simp)
    · obtain ⟨old, hold, e⟩ := Option.map_eq_some_iff.mp this.symm
      exact (congrArg Group.wave e).symm.trans (hw h (List.mem_cons_of_mem _ hh) old hold)

/-- The withdrawals of live groups, one after another, from a working state. -/
theorem withdrawGroups_cancels {w : Nat} (gs : List Nat) {s : State} (h : Working s) (hd : gs.Nodup)
    (hw : ∀ g ∈ gs, ∃ gr, group? s g = some gr ∧ gr.wave = w) :
    Working (gs.foldl (fun s g => withdrawGroup g s) s) ∧ (LinesSound s →
      CancelsGroups gs s (gs.foldl (fun s g => withdrawGroup g s) s) ∧ LinesSound (gs.foldl (fun s g => withdrawGroup g s) s)) := by
  induction gs generalizing s with
  | nil => exact ⟨h, fun hl => ⟨rfl, hl⟩⟩
  | cons g gs ih =>
    obtain ⟨gr, hg, hgw⟩ := hw g (List.mem_cons_self ..)
    obtain ⟨fresh, hd⟩ := List.nodup_cons.mp hd
    obtain ⟨working, withdrawn⟩ := withdrawGroup_withdraws h hg
    have first : OnlyCancels w [g] s (withdrawGroup g s) := withdrawGroup_only fun gr' hg' => by
      rw [← Option.some.inj (hg.symm.trans hg'), hgw]
    obtain ⟨working, others⟩ := ih working hd fun h hh => by
      obtain ⟨old, hold, holdw⟩ := hw h (List.mem_cons_of_mem _ hh)
      have kept := first.groups h
      have hne : h ∉ [g] := fun e => fresh (by rwa [← List.mem_singleton.mp e])
      rw [if_neg hne, hold, Option.map_some] at kept
      obtain ⟨new, hnew, e⟩ := Option.map_eq_some_iff.mp kept
      exact ⟨new, hnew, (congrArg Group.wave e).trans holdw⟩
    refine ⟨working, fun hl => ?_⟩
    obtain ⟨⟨u, each, freed⟩, lines⟩ := withdrawn hl
    obtain ⟨others, lines⟩ := others lines
    exact ⟨⟨gr, u, _, hg, each, freed, others⟩, lines⟩

end Sys2Proof.Machine
end

section
/-!
PROOFS. The cancellation of a wave: its engine, its groups in ascending order index, and its end (R15, R55 to R57).
-/

namespace Sys2Proof.Machine

/-! ## The groups of a wave (R56) -/

theorem mem_waveGroups {s : State} (h : s.groups.rising = true) (w g : Nat) :
    g ∈ waveGroups s w ↔ ∃ gr ∈ group? s g, gr.wave = w := by
  simp only [waveGroups, mem_sortBefore, List.mem_map, List.mem_filter, decide_eq_true_eq, Prod.exists, exists_and_right, exists_eq_right]
  constructor
  · rintro ⟨gr, he, hw⟩
    exact ⟨gr, Store.get?_of_mem h he, hw⟩
  · rintro ⟨gr, hg, hw⟩
    exact ⟨gr, Store.mem_of_get? hg, hw⟩

theorem waveGroups_nodup {s : State} (h : s.groups.rising = true) (w : Nat) : (waveGroups s w).Nodup := by
  refine (sortBefore_perm _ _).nodup_iff.mpr ?_
  rw [Store.rising_iff] at h
  have keys : (s.groups.map Prod.fst).Nodup := (List.pairwise_map.mpr h).imp fun h => Nat.ne_of_lt h
  exact keys.sublist (List.filter_sublist.map _)

theorem waveGroups_length (s : State) (w : Nat) : (waveGroups s w).length = (s.groups.filter fun e => decide (e.2.wave = w)).length := by
  rw [waveGroups, (sortBefore_perm _ _).length_eq, List.length_map]

theorem insertBefore_ascends (f : Nat → Nat) (n : Nat) {l : List Nat} (h : l.Pairwise fun a b => f a ≤ f b) :
    (insertBefore (fun a b => decide (f a < f b)) n l).Pairwise fun a b => f a ≤ f b := by
  induction l with
  | nil => exact List.pairwise_singleton _ _
  | cons m l ih =>
    obtain ⟨least, sorted⟩ := List.pairwise_cons.mp h
    rw [insertBefore]
    split
    · rename_i hlt
      have hlt := of_decide_eq_true hlt
      refine List.pairwise_cons.mpr ⟨fun k hk => ?_, h⟩
      rcases List.mem_cons.mp hk with rfl | hk
      · exact hlt.le
      · exact hlt.le.trans (least k hk)
    · rename_i hge
      have hge : f m ≤ f n := Nat.le_of_not_lt fun h => hge (decide_eq_true h)
      refine List.pairwise_cons.mpr ⟨fun k hk => ?_, ih sorted⟩
      rcases mem_insertBefore.mp hk with rfl | hk
      · exact hge
      · exact least k hk

theorem sortBefore_ascends (f : Nat → Nat) (l : List Nat) :
    (sortBefore (fun a b => decide (f a < f b)) l).Pairwise fun a b => f a ≤ f b :=
  List.foldlRecOn l _ .nil fun _ h n _ => insertBefore_ascends f n h

theorem waveGroups_ascend (s : State) (w : Nat) :
    (waveGroups s w).Pairwise fun g h => ∀ a ∈ group? s g, ∀ b ∈ group? s h, a.orderIndex ≤ b.orderIndex := by
  refine (sortBefore_ascends (orderIndexOf s) _).imp fun {g h} hgh a ha b hb => ?_
  rwa [orderIndexOf, ha, orderIndexOf, hb] at hgh

/-! ## The engine of a cancelled wave (R15, R55) -/

theorem returnStock_inRange (c q : Nat) {s : State} (h : ∀ e ∈ s.components, ∀ n ∈ e.2.stock, n ≤ Config.stockMax) :
    ∀ e ∈ (returnStock c q s).components, ∀ n ∈ e.2.stock, n ≤ Config.stockMax := by
  unfold returnStock
  split
  · intro e he n hn
    rcases Store.mem_update he with he | ⟨r, -, rfl⟩
    · exact h e he n hn
    · obtain rfl := Option.some.inj hn
      exact Nat.min_le_left ..
  · exact h

/-- Returns of stock to counts within their range add up (R14). -/
theorem returnStock_foldl (es : List (Nat × Nat)) {s : State} (h : ∀ e ∈ s.components, ∀ n ∈ e.2.stock, n ≤ Config.stockMax) :
    let t := es.foldl (fun s e => returnStock e.1 e.2 s) s
    t = { s with components := t.components }
      ∧ ∀ c, t.components.get? c = (s.components.get? c).map fun r =>
        { r with stock := r.stock.map fun n => min 9999 (n + portions c es) } := by
  induction es generalizing s with
  | nil =>
    refine ⟨rfl, fun c => ?_⟩
    cases hc : s.components.get? c with
    | none => simp [hc]
    | some r =>
      have bound : r.stock.map (fun n => min 9999 (n + portions c [])) = r.stock := by
        refine (Option.map_congr fun n hn => ?_).trans (Option.map_id' ..)
        exact Nat.min_eq_right (h _ (Store.mem_of_get? hc) n hn)
      simp only [List.foldl_nil, hc, Option.map_some, bound]
  | cons e es ih =>
    obtain ⟨rest, counts⟩ := returnStock_returns e.1 e.2 s
    obtain ⟨rest', counts'⟩ := ih (returnStock_inRange e.1 e.2 h)
    refine ⟨by rw [List.foldl_cons, rest', rest], fun c => ?_⟩
    rw [List.foldl_cons, counts', counts, Option.map_map]
    refine Option.map_congr fun r _ => ?_
    by_cases hc : c = e.1
    · have add : portions c (e :: es) = e.2 + portions c es := by simp [portions, hc]
      simp only [Function.comp_apply, hc, if_true, Option.map_map]
      rw [← hc, add]
      refine congrArg (fun k => { r with stock := k }) (Option.map_congr fun n _ => ?_)
      simp only [Function.comp_apply]
      omega
    · have skip : portions c (e :: es) = portions c es := by simp [portions, Ne.symm hc]
      simp [hc, skip]

/-- What stands in the wave table, the pools and the engine as a cancel needs them: the one RELEASING wave's reservations are those of the pools,
and where there is none there are no reservations (R34, R44). -/
structure Reserved (s : State) : Prop where
  releasing : ∀ w wv, wave? s w = some wv → wv.state = .releasing →
    wv.reservedTickets = s.ticketPool.reserved ∧ wv.reservedGroups = s.groupPool.reserved ∧ ∀ v ≠ w, waveState s v ≠ .releasing
  idle : (∀ w, waveState s w ≠ .releasing) → s.ticketPool.reserved = 0 ∧ s.groupPool.reserved = 0

theorem returnReservations_eq {w : Nat} {wv : Wave} {s : State} (hw : wave? s w = some wv)
    (ht : wv.reservedTickets ≤ s.ticketPool.reserved) (hg : wv.reservedGroups ≤ s.groupPool.reserved) :
    returnReservations w s = { s with
      waves := s.waves.update w fun wv => { wv with reservedTickets := 0, reservedGroups := 0 }
      ticketPool :=
        ⟨s.ticketPool.free + wv.reservedTickets, s.ticketPool.reserved - wv.reservedTickets, s.ticketPool.live⟩
      groupPool := ⟨s.groupPool.free + wv.reservedGroups, s.groupPool.reserved - wv.reservedGroups, s.groupPool.live⟩ } := by
  simp only [returnReservations, hw, Pool.unreserve, Nat.min_eq_left ht, Nat.min_eq_left hg]
  rfl

theorem stopEngine_stops {w : Nat} {s : State} (hr : Reserved s)
    (hc : ∀ e ∈ s.components, ∀ n ∈ e.2.stock, n ≤ Config.stockMax) : Stops w s (stopEngine w s) := by
  unfold Stops stopEngine
  split
  · rename_i hst
    cases hw : wave? s w with
    | none => simp [waveState, hw] at hst
    | some wv =>
      have hst : wv.state = .releasing := by simpa [waveState, hw] using hst
      obtain ⟨tickets, groups, -⟩ := hr.releasing w wv hw hst
      dsimp only
      generalize hes : (s.engine.plan.drop s.engine.next) = unvisited
      have flat : ∀ u : State, unvisited.foldl (fun s v => returnTable v s) u
          = (unvisited.flatMap ServedTable.tickets).foldl (fun s e => returnStock e.1 e.2 s) u := fun u => by
        rw [List.foldl_flatMap]
        rfl
      rw [flat]
      obtain ⟨rest, counts⟩ := returnStock_foldl (unvisited.flatMap ServedTable.tickets)
        (s := { s with engine := { status := .aborted, wave := some w, plan := [], next := 0 } }) hc
      generalize (unvisited.flatMap ServedTable.tickets).foldl (fun s e => returnStock e.1 e.2 s)
        { s with engine := { status := .aborted, wave := some w, plan := [], next := 0 } } = u at *
      have hu : wave? u w = some wv := by
        rw [rest]
        exact hw
      have tp : u.ticketPool = s.ticketPool := by rw [rest]
      have gp : u.groupPool = s.groupPool := by rw [rest]
      rw [returnReservations_eq hu (tp ▸ tickets.le) (gp ▸ groups.le)]
      refine ⟨wv, rfl, ?_, counts, fun v => ?_⟩
      · rw [rest]
      · refine (Store.get?_update u.waves w v _).trans ?_
        rw [← wave?, rest]
        split
        · rename_i hv
          rw [hv]
          exact congrArg _ hw
        · rfl
  · rfl

/-! ## The end of a wave (R35, R57) -/

theorem endWave_ends {w : Nat} {wv : Wave} {s : State} (reason : DoneReason) (hw : wave? s w = some wv) :
    EndsWave w reason s (endWave w reason s) := by
  refine ⟨wv, hw, ?_, fun v => ?_, fun v => ?_⟩
  · rw [endWave, hw]
    dsimp only
    rw [pushNotice_with _ (s := s) (t := freeWave w s) rfl, pushNotice_with _ (s := s) (t := s) rfl]
    rfl
  · rw [endWave, hw]
    rw [pushNotice_wave_get]
    split
    · rename_i hv
      rw [hv, wave_get_freeWave_self]
    · rename_i hv
      rw [wave_get_freeWave_of_ne _ hv]
  · rw [endWave, hw]
    simp [freeWave, and_comm]

/-! ## The cancellation of a wave (R55 to R57) -/

/-- Returns of stock change counts alone. -/
theorem returnTables_only (vs : List ServedTable) (s : State) :
    vs.foldl (fun s v => returnTable v s) s = { s with components := (vs.foldl (fun s v => returnTable v s) s).components } := by
  have entries : ∀ (es : List (Nat × Nat)) (s : State), es.foldl (fun s e => returnStock e.1 e.2 s) s
      = { s with components := (es.foldl (fun s e => returnStock e.1 e.2 s) s).components } := by
    intro es
    induction es with
    | nil => exact fun _ => rfl
    | cons e es ih =>
      intro s
      rw [List.foldl_cons, ih, (returnStock_returns e.1 e.2 s).1]
  induction vs generalizing s with
  | nil => rfl
  | cons v vs ih => rw [List.foldl_cons, ih, returnTable, entries]

/-- What stopping the engine can change. -/
structure OnlyStops (w : Nat) (s t : State) : Prop where
  rest : t = { s with
    engine := if waveState s w = .releasing then { status := .aborted, wave := some w, plan := [], next := 0 } else s.engine
    components := t.components, waves := t.waves, ticketPool := t.ticketPool, groupPool := t.groupPool }
  others : ∀ v ≠ w, wave? t v = wave? s v
  wave : (wave? t w).isSome = (wave? s w).isSome
  live : t.ticketPool.live = s.ticketPool.live ∧ t.groupPool.live = s.groupPool.live

theorem OnlyStops.working {w : Nat} {s t : State} (h : OnlyStops w s t) (hs : Working s) : Working t :=
  hs.congr (fun x => by rw [h.rest]; exact ⟨rfl, rfl, rfl⟩) (by rw [h.rest]) (by rw [h.rest]) (by rw [h.rest]) (by rw [h.rest])
    h.live.1 h.live.2

theorem OnlyStops.lines {w : Nat} {s t : State} (h : OnlyStops w s t) (hl : LinesSound s) : LinesSound t := by
  rw [h.rest]
  exact hl

theorem endWave_working {w : Nat} (reason : DoneReason) {s : State} (h : Working s) : Working (endWave w reason s) := by
  unfold endWave
  split
  · exact h
  · exact h.congr (by simp [freeWave, station]) (by simp [freeWave]) (by simp [freeWave]) (by simp [freeWave]) (by simp [freeWave])
      (by simp [freeWave]) (by simp [freeWave])

theorem endWave_lines {w : Nat} (reason : DoneReason) {s : State} (h : LinesSound s) : LinesSound (endWave w reason s) := by
  unfold endWave
  split
  · exact h
  · rw [LinesSound, pushNotice_stations, pushNotice_passLine]
    exact h

theorem returnReservations_only (w : Nat) (s : State) :
    returnReservations w s = { s with
        waves := (returnReservations w s).waves, ticketPool := (returnReservations w s).ticketPool
        groupPool := (returnReservations w s).groupPool }
      ∧ (∀ v ≠ w, wave? (returnReservations w s) v = wave? s v)
      ∧ (wave? (returnReservations w s) w).isSome = (wave? s w).isSome
      ∧ (returnReservations w s).ticketPool.live = s.ticketPool.live ∧ (returnReservations w s).groupPool.live = s.groupPool.live := by
  unfold returnReservations
  split
  · exact ⟨rfl, fun _ _ => rfl, rfl, rfl, rfl⟩
  · refine ⟨rfl, fun v hv => ?_, ?_, rfl, rfl⟩
    · rw [wave_get_updWave, if_neg hv]
      rfl
    · rw [wave_get_updWave, if_pos rfl, Option.isSome_map]
      rfl

theorem stopEngine_only (w : Nat) (s : State) : OnlyStops w s (stopEngine w s) := by
  unfold stopEngine
  split
  · rename_i hst
    dsimp only
    have returned := returnTables_only (s.engine.plan.drop s.engine.next)
      { s with engine := { status := .aborted, wave := some w, plan := [], next := 0 } }
    generalize (s.engine.plan.drop s.engine.next).foldl (fun s v => returnTable v s)
      { s with engine := { status := .aborted, wave := some w, plan := [], next := 0 } } = u at *
    obtain ⟨rest, others, wave, live⟩ := returnReservations_only w u
    have waves : ∀ v, wave? u v = wave? s v := fun v => by
      rw [returned]
      rfl
    refine ⟨by rw [rest, returned, if_pos hst], fun v hv => (others v hv).trans (waves v), by rw [wave, waves], ?_⟩
    rw [live.1, live.2, returned]
    exact ⟨rfl, rfl⟩
  · rename_i hst
    exact ⟨by rw [if_neg hst], fun _ _ => rfl, rfl, rfl, rfl⟩

/-- What a cancel of wave `w` makes of the wave table, the groups and the engine, and what it leaves as it was. -/
structure CancelledWave (w : Nat) (s t : State) : Prop where
  gone : wave? t w = none
  others : ∀ v ≠ w, wave? t v = wave? s v
  frozen : t.frozen = removeNumber w s.frozen
  groups : ∀ h, (group? t h).map Group.unlisted = ((group? s h).map Group.unlisted).filter fun gr => decide (gr.wave ≠ w)
  engine : t.engine
    = if waveState s w = .releasing then { status := .aborted, wave := some w, plan := [], next := 0 } else s.engine
  reserved : t.ticketPool.reserved = (stopEngine w s).ticketPool.reserved ∧ t.groupPool.reserved = (stopEngine w s).groupPool.reserved

theorem cancelWave_only {w : Nat} {s : State} (h : s.groups.rising = true) (hw : wave? s w ≠ none) :
    CancelledWave w s (cancelWave w s).1 ∧ (cancelWave w s).2.1 = (s.groups.filter fun e => decide (e.2.wave = w)).length := by
  have stops := stopEngine_only w s
  unfold cancelWave
  dsimp only
  generalize hu : stopEngine w s = u at *
  have groups : u.groups = s.groups := by rw [stops.rest]
  have cancels : OnlyCancels w (waveGroups u w) u ((waveGroups u w).foldl (fun s g => withdrawGroup g s) u) :=
    withdrawGroups_only _ fun g hg gr hgr => by
      obtain ⟨gr', hgr', e⟩ := (mem_waveGroups (groups ▸ h) w g).mp hg
      rw [← Option.some.inj (hgr'.symm.trans hgr), e]
  generalize (waveGroups u w).foldl (fun s g => withdrawGroup g s) u = v at *
  obtain ⟨wv, hv⟩ : ∃ wv, wave? v w = some wv := by
    rw [← Option.isSome_iff_exists, cancels.wave, stops.wave, Option.isSome_iff_ne_none]
    exact hw
  have ended : endWave w .cancelled v = pushNotice (.waveDone w .cancelled wv.release.groups wv.ending.served wv.ending.short
      wv.ending.cancelled) (freeWave w v) := by rw [endWave, hv]
  refine ⟨⟨?_, fun v' hv' => ?_, ?_, fun h' => ?_, ?_, ?_⟩, ?_⟩
  · rw [ended, pushNotice_wave_get, wave_get_freeWave_self]
  · rw [ended, pushNotice_wave_get, wave_get_freeWave_of_ne _ hv', cancels.others v' hv', stops.others v' hv']
  · rw [ended, pushNotice_frozen, freeWave, cancels.rest, stops.rest]
  · rw [ended, pushNotice_group_get]
    refine (cancels.groups h').trans ?_
    have same : group? u h' = group? s h' := by rw [group?, groups, ← group?]
    have mem := mem_waveGroups (groups ▸ h) w h'
    rw [same] at mem ⊢
    cases hg : group? s h' with
    | none => simp
    | some gr => by_cases hgw : gr.wave = w <;> simp [mem, hg, hgw, Group.unlisted, Option.filter]
  · rw [ended, pushNotice_engine, freeWave, cancels.rest, stops.rest]
  · rw [ended, pushNotice_ticketPool, pushNotice_groupPool, hu]
    exact cancels.reserved
  · rw [waveGroups_length, groups]

/-- The whole cancellation of a wave, from a state as withdrawals and cancels need it. -/
theorem cancelWave_cancels {w : Nat} {s : State} (h : Working s) (hw : wave? s w ≠ none) :
    Working (cancelWave w s).1 ∧ (LinesSound s → Reserved s → (∀ e ∈ s.components, ∀ n ∈ e.2.stock, n ≤ Config.stockMax) →
      Cancels w s (cancelWave w s).1 (cancelWave w s).2.1 (cancelWave w s).2.2 ∧ LinesSound (cancelWave w s).1) := by
  have only := stopEngine_only w s
  have stops := stopEngine_stops (w := w) (s := s)
  have working := only.working h
  unfold cancelWave
  dsimp only
  generalize stopEngine w s = u at *
  have groups : u.groups = s.groups := by rw [only.rest]
  have group : ∀ g, group? u g = group? s g := fun g => by rw [group?, groups, ← group?]
  have rising := working.counted.numbered.2
  have mem := mem_waveGroups rising w
  obtain ⟨working', cancels⟩ := withdrawGroups_cancels (w := w) (waveGroups u w) working
    (waveGroups_nodup rising w) fun g hg => (mem g).mp hg
  have kept : OnlyCancels w (waveGroups u w) u ((waveGroups u w).foldl (fun s g => withdrawGroup g s) u) :=
    withdrawGroups_only _ fun g hg gr hgr => by
      obtain ⟨gr', hgr', e⟩ := (mem g).mp hg
      rw [← Option.some.inj (hgr'.symm.trans hgr), e]
  obtain ⟨wv, hv⟩ : ∃ wv, wave? ((waveGroups u w).foldl (fun s g => withdrawGroup g s) u) w = some wv := by
    rw [← Option.isSome_iff_exists, kept.wave, only.wave, Option.isSome_iff_ne_none]
    exact hw
  generalize (waveGroups u w).foldl (fun s g => withdrawGroup g s) u = v at *
  refine ⟨endWave_working _ working', fun hl hr hc => ?_⟩
  obtain ⟨cancels, lines⟩ := cancels (only.lines hl)
  refine ⟨⟨u, v, waveGroups u w, stops hr hc, waveGroups_nodup rising w, fun g => ?_, ?_, cancels,
    endWave_ends .cancelled hv, rfl, ?_⟩, endWave_lines _ lines⟩
  · rw [mem, group]
  · refine (waveGroups_ascend u w).imp fun {g g'} hgg => ?_
    rwa [group, group] at hgg
  · have counted : ∀ (gs : List Nat) (k : Nat), gs.foldl (fun n g => n + (groupTickets u g).length) k
        = k + (gs.map fun g => ((group? s g).toList.flatMap Group.tickets).length).sum := by
      intro gs
      induction gs with
      | nil => exact fun _ => rfl
      | cons g gs ih =>
        intro k
        have one : (groupTickets u g).length = ((group? s g).toList.flatMap Group.tickets).length := by
          rw [groupTickets, group]
          cases group? s g <;> simp
        rw [List.foldl_cons, ih, List.map_cons, List.sum_cons, one, Nat.add_assoc]
    simpa using counted (waveGroups u w) 0

end Sys2Proof.Machine
end

section
/-!
PROOFS. CANCEL_WAVE (R55 to R58).
-/

namespace Sys2Proof.Machine

/-! ## The reservations of a sound state (R34, R44) -/

/-- A sum over a store's records of which one alone counts. -/
theorem Store.sum_eq {α : Type} {m : Store α} {n : Nat} {a : α} (f : α → Nat) (h : m.rising = true) (hn : m.get? n = some a)
    (hz : ∀ e ∈ m, e.1 ≠ n → f e.2 = 0) : (m.map fun e => f e.2).sum = f a := by
  induction m with
  | nil => exact absurd hn (by simp)
  | cons e m ih =>
    rw [Store.rising_iff] at h ih
    obtain ⟨least, rising⟩ := List.pairwise_cons.mp h
    rw [List.map_cons, List.sum_cons]
    by_cases he : e.1 = n
    · have rest : (m.map fun e => f e.2).sum = 0 := by
        refine List.sum_eq_zero fun k hk => ?_
        obtain ⟨d, hd, rfl⟩ := List.mem_map.mp hk
        exact hz d (List.mem_cons_of_mem _ hd) fun e' => absurd (least d hd) (by omega)
      rw [Store.get?_cons, if_pos he] at hn
      rw [rest, Option.some.inj hn, Nat.add_zero]
    · rw [Store.get?_cons, if_neg he] at hn
      rw [hz e (List.mem_cons_self ..) he, Nat.zero_add]
      exact ih rising hn fun d hd => hz d (List.mem_cons_of_mem _ hd)

theorem Sound.reserved {s : State} (h : Sound s) : Reserved s := by
  obtain ⟨-, -, -, ⟨rising, waves, -, -⟩, -, -, -, tickets, groups, -⟩ := h
  have mem : ∀ {v : Nat} {wv : Wave}, wave? s v = some wv → (v, wv) ∈ s.waves := Store.mem_of_get?
  have one : ∀ {v : Nat} {wv : Wave}, wave? s v = some wv → wv.state = .releasing → s.engine.wave = some v := fun hv hst =>
    ((waves _ (mem hv)).2.2.2.2.2.mp hst).2
  have none' : ∀ e ∈ s.waves, e.2.state ≠ .releasing → e.2.reservedTickets = 0 ∧ e.2.reservedGroups = 0 := fun e he hst => by
    have := mt (waves e he).2.2.2.1 hst
    omega
  refine ⟨fun w wv hw hst => ?_, fun hno => ?_⟩
  · have others : ∀ e ∈ s.waves, e.1 ≠ w → e.2.state ≠ .releasing := fun e he hne hst' => by
      have he := Store.get?_of_mem rising he
      exact hne (Option.some.inj ((one he hst').symm.trans (one hw hst)))
    refine ⟨?_, ?_, fun v hv hst' => ?_⟩
    · rw [tickets, Store.sum_eq Wave.reservedTickets rising hw fun e he hne => (none' e he (others e he hne)).1]
    · rw [groups, Store.sum_eq Wave.reservedGroups rising hw fun e he hne => (none' e he (others e he hne)).2]
    · cases hwv : wave? s v with
      | none => simp [waveState, hwv] at hst'
      | some wv' => exact others _ (mem hwv) hv (by simpa [waveState, hwv] using hst')
  · have all : ∀ e ∈ s.waves, e.2.reservedTickets = 0 ∧ e.2.reservedGroups = 0 := fun e he =>
      none' e he fun hst => hno e.1 (by
        have he := Store.get?_of_mem rising he
        rw [waveState, wave?, he]
        exact hst)
    constructor
    · rw [tickets]
      exact List.sum_eq_zero fun k hk => by
        obtain ⟨e, he, rfl⟩ := List.mem_map.mp hk
        exact (all e he).1
    · rw [groups]
      exact List.sum_eq_zero fun k hk => by
        obtain ⟨e, he, rfl⟩ := List.mem_map.mp hk
        exact (all e he).2

/-! ## The reply behind an event's other effects (R173, R175) -/

/-- A reply joins the queue behind those waiting; an idle transmitter begins it. -/
theorem answers_settle {f : Frame} {a : Answer} {s t : State} (htx : t.link.tx = s.link.tx) (hr : t.link.replies = s.link.replies) :
    Answers f a s (settle (pushReply ⟨f.tag, f.kind, a⟩ t)) := by
  constructor
  · intro h
    rw [settle_of_busy (by rw [pushReply]; exact htx ▸ h)]
    exact ⟨htx, by rw [pushReply, hr]⟩
  · intro h hq
    rw [hq] at hr
    rw [settle, pushReply]
    simp only [htx, h, hr, List.nil_append, chooseHostFrame]
    exact ⟨trivial, trivial⟩

theorem OnlyService.answers {f : Frame} {rest : List Frame} {a : Answer} {s t : State} (h : OnlyService (dequeued rest s) t) :
    Answers f a s (settle (pushReply ⟨f.tag, f.kind, a⟩ t)) :=
  answers_settle (by rw [h.link]; rfl) (by rw [h.link]; rfl)

/-- An accepted request's effect and its reply. -/
theorem takeRequest_accepted {kind : Byte} {f : Frame} {rest : List Frame} {s t : State} {c : Figures}
    {handle : List Byte → State → State × Answer} (h : Takes f rest s) (hk : f.kind = kind)
    (hh : handle f.body (dequeued rest s) = accept c t) :
    (Host.Outcome.next (takeRequest kind handle s) : Result) = .next (settle (pushReply ⟨f.tag, f.kind, .accepted {} c⟩ t)) := by
  rw [takeRequest_of_takes handle h hk, hh, hk]
  rfl

/-! ## CANCEL_WAVE (R55 to R58) -/

/-- A CANCEL_WAVE whose body has been read (R55). -/
theorem cancelWaveRequest_of_read {b : List Byte} {w : Nat} (s : State) (h : readOne b = some w) :
    cancelWaveRequest b s
      = if Config.waves ≤ w then refuse .range s
        else if s.link.mode = .setup then refuse .mode s
        else if waveState s w = .free then refuse .state s
        else accept (.waveCancelled (cancelWave w s).2.1 (cancelWave w s).2.2) (cancelWave w s).1 := by
  rw [cancelWaveRequest, h]

/-- Settles O33: the checks of R55, what every cancel leaves, and the whole cancellation from a sound state. -/
theorem cancelWaveFreesTheWave : Obligations.CancelWaveFreesTheWave := by
  intro w f rest s ht hk hb hw
  have handled := cancelWaveRequest_of_read (dequeued rest s) (readOne_eq.mpr ⟨hw, hb⟩)
  refine ⟨fun hr => ?_, fun hr hm => ?_, fun hr hm hst => ?_, fun hr hm hst hg => ?_⟩
  · exact takeRequest_refused_of ht hk (handled.trans (if_pos hr))
  · exact takeRequest_refused_of ht hk (handled.trans ((if_neg (Nat.not_le.mpr (Nat.lt_succ_of_le hr))).trans (if_pos hm)))
  · exact takeRequest_refused_of ht hk (handled.trans ((if_neg (Nat.not_le.mpr (Nat.lt_succ_of_le hr))).trans
      ((if_neg (by simp [hm])).trans (if_pos hst))))
  · have handled := handled.trans ((if_neg (Nat.not_le.mpr (Nat.lt_succ_of_le hr))).trans
      ((if_neg (by simp [hm])).trans (if_neg hst)))
    have live : wave? (dequeued rest s) w ≠ none := fun e => hst (by rw [waveState, ← dequeued_wave_get rest, e])
    obtain ⟨cancelled, count⟩ := cancelWave_only (s := dequeued rest s) hg live
    have service := cancelWave_service w (dequeued rest s)
    have whole : Sound s → LinesSound s → CountersInRange s → Cancels w (dequeued rest s) (cancelWave w (dequeued rest s)).1
        (cancelWave w (dequeued rest s)).2.1 (cancelWave w (dequeued rest s)).2.2 := fun hs hl hc =>
      ((cancelWave_cancels (s := dequeued rest s) (Sound.working hs) live).2 hl (Sound.reserved hs) hc.2.2.2).1
    generalize cancelWave w (dequeued rest s) = r at *
    refine ⟨_, _, _, takeRequest_accepted ht hk handled,
      service.answers, count, ?_, ?_, ?_, ?_, ?_, ?_, ?_, ?_, ?_⟩
    · exact (settle_wave_get _ w).trans cancelled.gone
    · rw [settle_frozen]
      exact fun hf => (mem_removeNumber.mp (cancelled.frozen ▸ hf)).2 rfl
    · intro g gr hgr
      rw [settle_group_get, pushReply_group_get] at hgr
      have kept := cancelled.groups g
      rw [hgr, Option.map_some] at kept
      exact of_decide_eq_true (Option.filter_eq_some_iff.mp kept.symm).2
    · exact fun v hv => (settle_wave_get _ v).trans (cancelled.others v hv)
    · exact (settle_engine _).trans cancelled.engine
    · exact (settle_clock _).trans service.clock
    · rw [settle_link_mode]
      change r.1.link.mode = s.link.mode
      rw [service.link]
      rfl
    · exact (settle_courses _).trans service.courses
    · exact fun hs hl hc => ⟨_, whole hs hl hc, rfl⟩

end Sys2Proof.Machine
end

section
/-!
PROOFS. The cancellations of a service teardown: every wave, group and ticket is gone behind them (R56, R57, R181).
-/

namespace Sys2Proof.Machine

/-! ## The wave table (R34, R57) -/

theorem waveState_eq (s : State) (w : Nat) : waveState s w = ((wave? s w).map Wave.state).getD .free := by
  rw [waveState]
  cases wave? s w <;> rfl

theorem waveState_updWave {w : Nat} (f : Wave → Wave) (s : State) (h : ∀ wv, (f wv).state = wv.state) (v : Nat) :
    waveState (updWave w f s) v = waveState s v := by
  rw [waveState_eq, waveState_eq, wave_get_updWave]
  split
  · rw [Option.map_map]
    exact congrArg (Option.getD · _) (Option.map_congr fun wv _ => h wv)
  · rfl

theorem waveState_congr {s t : State} (h : t.waves = s.waves) (v : Nat) : waveState t v = waveState s v := by
  rw [waveState_eq, waveState_eq, wave?, wave?, h]

theorem freeGroup_waveState (g v : Nat) (s : State) : waveState (freeGroup g .cancelled s) v = waveState s v := by
  cases hg : group? s g with
  | none => rw [freeGroup, hg]
  | some gr =>
    have cleared : (clearGroup g gr s).waves = s.waves := by
      have := OnlyWithdraws.foldl (f := fun s t => freeTicket t s) (fun s n => freeTicket_withdraws n s) gr.tickets s
      rw [clearGroup]
      dsimp only
      rw [removeLiveCourse_waves, this.rest]
    rw [freeGroup_eq hg, reportEnding]
    refine (waveState_updWave _ _ ?_ v).trans ?_
    · exact fun _ => rfl
    split
    · rw [waveState_congr (sendRecord_only _ _ _).waves, waveState_congr cleared]
    · exact waveState_congr cleared v

theorem withdrawGroup_waveState (g v : Nat) (s : State) : waveState (withdrawGroup g s) v = waveState s v := by
  have withdrawn := OnlyWithdraws.foldl (f := fun s t => withdrawFree t s) (fun s n => withdrawFree_withdraws n s) (groupTickets s g) s
  rw [withdrawGroup, freeGroup_waveState]
  refine waveState_congr ?_ v
  rw [withdrawn.rest]

theorem stopEngine_waveState (w v : Nat) (s : State) : waveState (stopEngine w s) v = waveState s v := by
  unfold stopEngine
  split
  · have returned := returnTables_only (s.engine.plan.drop s.engine.next)
      { s with engine := { status := .aborted, wave := some w, plan := [], next := 0 } }
    dsimp only
    generalize (s.engine.plan.drop s.engine.next).foldl (fun s v => returnTable v s)
      { s with engine := { status := .aborted, wave := some w, plan := [], next := 0 } } = u at *
    have same : waveState u v = waveState s v := waveState_congr (by rw [returned]) v
    rw [← same, returnReservations]
    split
    · rfl
    · refine waveState_updWave _ _ ?_ v
      exact fun _ => rfl
  · rfl

/-- A cancel frees the wave, and leaves the others in their states. -/
theorem cancelWave_waveState (w v : Nat) (s : State) :
    waveState (cancelWave w s).1 v = if v = w then .free else waveState s v := by
  have groups : ∀ (gs : List Nat) (s : State), waveState (gs.foldl (fun s g => withdrawGroup g s) s) v = waveState s v := by
    intro gs
    induction gs with
    | nil => exact fun _ => rfl
    | cons g gs ih => exact fun s => (ih _).trans (withdrawGroup_waveState g v s)
  rw [cancelWave, ← stopEngine_waveState w v s, ← groups (waveGroups (stopEngine w s) w) (stopEngine w s)]
  dsimp only
  generalize (waveGroups (stopEngine w s) w).foldl (fun s g => withdrawGroup g s) (stopEngine w s) = u
  rw [waveState_eq, waveState_eq, endWave]
  cases hw : wave? u w with
  | none =>
    dsimp only
    split
    · rename_i e
      rw [e, hw]
      rfl
    · rfl
  | some wv =>
    dsimp only
    rw [pushNotice_wave_get]
    split
    · rename_i e
      rw [e, wave_get_freeWave_self]
      rfl
    · rename_i e
      rw [wave_get_freeWave_of_ne _ e]

/-! ## The reservations (R44, R55) -/

theorem stopEngine_reserved {w : Nat} {s : State} (h : Reserved s) :
    (waveState s w = .releasing →
      (stopEngine w s).ticketPool.reserved = 0 ∧ (stopEngine w s).groupPool.reserved = 0)
    ∧ (waveState s w ≠ .releasing → stopEngine w s = s) := by
  refine ⟨fun hst => ?_, fun hst => by rw [stopEngine, if_neg hst]⟩
  cases hw : wave? s w with
  | none => simp [waveState, hw] at hst
  | some wv =>
    obtain ⟨tickets, groups, -⟩ := h.releasing w wv hw (by simpa [waveState, hw] using hst)
    have returned := returnTables_only (s.engine.plan.drop s.engine.next)
      { s with engine := { status := .aborted, wave := some w, plan := [], next := 0 } }
    rw [stopEngine, if_pos hst]
    dsimp only
    generalize (s.engine.plan.drop s.engine.next).foldl (fun s v => returnTable v s)
      { s with engine := { status := .aborted, wave := some w, plan := [], next := 0 } } = u at *
    have hu : wave? u w = some wv := by
      rw [returned]
      exact hw
    have tp : u.ticketPool = s.ticketPool := by rw [returned]
    have gp : u.groupPool = s.groupPool := by rw [returned]
    rw [returnReservations_eq hu (tp ▸ tickets.le) (gp ▸ groups.le), tp, gp, tickets, groups]
    exact ⟨Nat.sub_self _, Nat.sub_self _⟩

theorem cancelWave_reserved {w : Nat} {s : State} (h : Reserved s) (hg : s.groups.rising = true) (hw : wave? s w ≠ none) :
    Reserved (cancelWave w s).1 := by
  obtain ⟨cancelled, -⟩ := cancelWave_only hg hw
  have states := fun v => cancelWave_waveState w v s
  obtain ⟨stopped, unstopped⟩ := stopEngine_reserved (w := w) h
  have kept : ∀ v wv, wave? (cancelWave w s).1 v = some wv → v ≠ w ∧ wave? s v = some wv := fun v wv hv => by
    have hne : v ≠ w := by
      rintro rfl
      exact absurd (cancelled.gone.symm.trans hv) (by simp)
    exact ⟨hne, (cancelled.others v hne).symm.trans hv⟩
  obtain ⟨tickets, groups⟩ := cancelled.reserved
  by_cases hst : waveState s w = .releasing
  · obtain ⟨wv, hwv⟩ := Option.ne_none_iff_exists'.mp hw
    obtain ⟨-, -, alone⟩ := h.releasing w wv hwv (by simpa [waveState, hwv] using hst)
    refine ⟨fun v wv' hv hst' => ?_, fun _ => ?_⟩
    · obtain ⟨hne, hv⟩ := kept v wv' hv
      exact absurd (by rw [waveState, hv]; exact hst') (alone v hne)
    · rw [tickets, groups]
      exact stopped hst
  · rw [unstopped hst] at tickets groups
    refine ⟨fun v wv hv hst' => ?_, fun hno => ?_⟩
    · obtain ⟨-, hv⟩ := kept v wv hv
      obtain ⟨e1, e2, alone⟩ := h.releasing v wv hv hst'
      refine ⟨e1.trans tickets.symm, e2.trans groups.symm, fun u hu => ?_⟩
      rw [states]
      split
      · simp
      · exact alone u hu
    · rw [tickets, groups]
      refine h.idle fun v hv => ?_
      by_cases hvw : v = w
      · exact hst (hvw ▸ hv)
      · exact hno v (by rw [states, if_neg hvw, hv])

end Sys2Proof.Machine
end

section
/-!
PROOFS. The cancellations of a service teardown, one wave after another, and what they leave (R56, R57, R181).
-/

namespace Sys2Proof.Machine

theorem cancelWaves_waveState (ws : List Nat) (v : Nat) (s : State) :
    waveState (cancelWaves ws s).1 v = if v ∈ ws then .free else waveState s v := by
  induction ws generalizing s with
  | nil => rfl
  | cons w ws ih =>
    rw [cancelWaves_cons, ih, cancelWave_waveState]
    by_cases hv : v = w <;> by_cases hvs : v ∈ ws <;> simp [hv, hvs]

theorem cancelWaves_count (ws : List Nat) (s : State) : (cancelWaves ws s).2.1 = ws.length := by
  induction ws generalizing s with
  | nil => rfl
  | cons w ws ih => rw [cancelWaves_cons, ih, List.length_cons, Nat.add_comm]

theorem cancelWaves_service (ws : List Nat) (s : State) : OnlyService s (cancelWaves ws s).1 := by
  induction ws generalizing s with
  | nil => exact .refl s
  | cons w ws ih =>
    rw [cancelWaves_cons]
    exact (cancelWave_service w s).trans (ih _)

/-- What the cancellations of these waves make of the wave table, the frozen set and the groups. -/
structure CancelledWaves (ws : List Nat) (s t : State) : Prop where
  working : Working t
  reserved : Reserved t
  gone : ∀ w ∈ ws, wave? t w = none
  others : ∀ v ∉ ws, wave? t v = wave? s v
  frozen : ∀ w ∈ t.frozen, w ∉ ws ∧ w ∈ s.frozen
  groups : ∀ g gr, group? t g = some gr → gr.wave ∉ ws ∧ (group? s g).map Group.wave = some gr.wave

theorem CancelledWave.groups_of {w g : Nat} {gr : Group} {s t : State} (h : CancelledWave w s t) (hg : group? t g = some gr) :
    gr.wave ≠ w ∧ (group? s g).map Group.wave = some gr.wave := by
  have kept := h.groups g
  rw [hg, Option.map_some] at kept
  obtain ⟨old, hne⟩ := Option.filter_eq_some_iff.mp kept.symm
  obtain ⟨gr', hg', e⟩ := Option.map_eq_some_iff.mp old
  have wave := congrArg Group.wave e
  exact ⟨of_decide_eq_true hne, by rw [hg', Option.map_some]; exact congrArg some wave⟩

/-- The cancellations of waves that are not FREE, from a sound state's lists, counts and reservations. -/
theorem cancelWaves_cancelled (ws : List Nat) {s : State} (h : Working s) (hr : Reserved s) (hd : ws.Nodup)
    (hw : ∀ w ∈ ws, wave? s w ≠ none) :
    CancelledWaves ws s (cancelWaves ws s).1 ∧ (LinesSound s → CountersInRange s →
      CancelsEach ws s (cancelWaves ws s).1 (cancelWaves ws s).2.2.1 (cancelWaves ws s).2.2.2 ∧ LinesSound (cancelWaves ws s).1) := by
  induction ws generalizing s with
  | nil =>
    exact ⟨⟨h, hr, by simp, fun _ _ => rfl, fun w hw => ⟨by simp, hw⟩, fun g gr hg => ⟨by simp, by
      rw [show group? s g = some gr from hg]
      rfl⟩⟩, fun hl _ => ⟨⟨rfl, rfl, rfl⟩, hl⟩⟩
  | cons w ws ih =>
    obtain ⟨fresh, hd⟩ := List.nodup_cons.mp hd
    have live := hw w (List.mem_cons_self ..)
    obtain ⟨working, whole⟩ := cancelWave_cancels h live
    obtain ⟨first, -⟩ := cancelWave_only h.counted.numbered.2 live
    have reserved := cancelWave_reserved hr h.counted.numbered.2 live
    obtain ⟨rest, each⟩ := ih working reserved hd fun v hv => by
      rw [first.others v fun e => fresh (e ▸ hv)]
      exact hw v (List.mem_cons_of_mem _ hv)
    have run := cancelWave_runs w s
    rw [cancelWaves_cons]
    dsimp only
    generalize cancelWaves ws (cancelWave w s).1 = r at *
    refine ⟨⟨rest.working, rest.reserved, fun v hv => ?_, fun v hv => ?_, fun v hv => ?_, fun g gr hg => ?_⟩, fun hl hc => ?_⟩
    · by_cases hvs : v ∈ ws
      · exact rest.gone v hvs
      · obtain rfl := (List.mem_cons.mp hv).resolve_right hvs
        rw [rest.others v hvs, first.gone]
    · obtain ⟨hne, hvs⟩ := not_or.mp (mt List.mem_cons.mpr hv)
      rw [rest.others v hvs, first.others v hne]
    · obtain ⟨hvs, hf⟩ := rest.frozen v hv
      rw [first.frozen] at hf
      obtain ⟨hf, hne⟩ := mem_removeNumber.mp hf
      exact ⟨by simp [hne, hvs], hf⟩
    · obtain ⟨hgs, hold⟩ := rest.groups g gr hg
      obtain ⟨old, hold, e⟩ := Option.map_eq_some_iff.mp hold
      obtain ⟨hne, hold⟩ := first.groups_of hold
      rw [e] at hne hold
      exact ⟨by simp [hne, hgs], hold⟩
    · obtain ⟨cancels, lines⟩ := whole hl hr hc.2.2.2
      obtain ⟨each, lines⟩ := each lines (run.keeps (fun _ _ => Changes.countersInRange) hc)
      exact ⟨⟨_, _, _, _, _, cancels, each, rfl, rfl⟩, lines⟩

/-! ## Nothing is left of a service (R16, R61, R103, R129, R168) -/

theorem Store.eq_nil_of_get? {α : Type} {m : Store α} (h : ∀ n, m.get? n = none) : m = [] := by
  cases m with
  | nil => rfl
  | cons e m =>
    have := h e.1
    rw [Store.get?_cons, if_pos rfl] at this
    exact absurd this (by simp)

/-- No ticket, group or wave is left, and no place holds a ticket. -/
structure Emptied (s : State) : Prop where
  tickets : s.tickets = []
  groups : s.groups = []
  waves : s.waves = []
  frozen : s.frozen = []
  calendar : s.calendar = []
  unplaced : ∀ n, Unplaced s n
  courses : ∀ u, (tableRecord s u).liveCourses = []

theorem pool_eq {p q : Pool} {n : Nat} (h : q.total = p.total) (hp : p.free + p.reserved + p.live = n) (hr : q.reserved = 0)
    (hl : q.live = 0) : q = ⟨n, 0, 0⟩ := by
  obtain ⟨free, reserved, live⟩ := q
  subst hr hl
  have : free = n := h.trans hp
  rw [this]

/-- A service all of whose waves have been cancelled. -/
theorem cancelWaves_empties {s : State} (h : Sound s) :
    Emptied (cancelWaves (wavesNotFree s) s).1
      ∧ (cancelWaves (wavesNotFree s) s).1.ticketPool = ⟨4096, 0, 0⟩ ∧ (cancelWaves (wavesNotFree s) s).1.groupPool = ⟨1024, 0, 0⟩ := by
  obtain ⟨-, -, -, ⟨rising, waves, frozen, -⟩, whole, -, -, -, -, -, served, -⟩ := id h
  have listed : ∀ v, wave? s v ≠ none → v ∈ wavesNotFree s := fun v hv => by
    obtain ⟨wv, hwv⟩ := Option.ne_none_iff_exists'.mp hv
    obtain ⟨hlt, hst, -⟩ := waves (v, wv) (Store.mem_of_get? hwv)
    refine List.mem_filter.mpr ⟨List.mem_range.mpr hlt, decide_eq_true ?_⟩
    rw [waveState, hwv]
    exact hst
  have live : ∀ w ∈ wavesNotFree s, wave? s w ≠ none := fun w hw e => by
    have := of_decide_eq_true (List.mem_filter.mp hw).2
    rw [waveState, e] at this
    exact this rfl
  obtain ⟨done, -⟩ := cancelWaves_cancelled (wavesNotFree s) h.working h.reserved (List.nodup_range.filter _) live
  have service := cancelWaves_service (wavesNotFree s) s
  generalize (cancelWaves (wavesNotFree s) s).1 = t at *
  have noWave : ∀ v, wave? t v = none := fun v => by
    by_cases hv : v ∈ wavesNotFree s
    · exact done.gone v hv
    · rw [done.others v hv]
      by_contra hne
      exact hv (listed v hne)
  have noGroup : ∀ g, group? t g = none := fun g => by
    by_contra hne
    obtain ⟨gr, hg⟩ := Option.ne_none_iff_exists'.mp hne
    obtain ⟨out, old⟩ := done.groups g gr hg
    obtain ⟨gr', hg', e⟩ := Option.map_eq_some_iff.mp old
    refine out (listed _ ?_)
    rw [← e]
    exact Option.isSome_iff_ne_none.mp (served (g, gr') (Store.mem_of_get? hg'))
  have noTicket : ∀ n, ticket? t n = none := fun n => by
    by_contra hne
    obtain ⟨tk, hk⟩ := Option.ne_none_iff_exists'.mp hne
    obtain ⟨gr, hg, -⟩ := done.working.listed.listed n tk hk
    exact absurd ((noGroup tk.group).symm.trans hg) (by simp)
  have unplaced : ∀ n, Unplaced t n := fun n p hp => by
    obtain ⟨tk, hk, -⟩ := done.working.told n p hp
    exact absurd ((noTicket n).symm.trans hk) (by simp)
  have tickets : t.tickets = [] := Store.eq_nil_of_get? noTicket
  have groups : t.groups = [] := Store.eq_nil_of_get? noGroup
  have idle := done.reserved.idle fun w hw => by
    rw [waveState, noWave w] at hw
    exact absurd hw (by simp)
  refine ⟨⟨tickets, groups, Store.eq_nil_of_get? noWave, ?_, ?_, unplaced, fun u => ?_⟩, ?_, ?_⟩
  · refine List.eq_nil_iff_forall_not_mem.mpr fun w hw => ?_
    obtain ⟨out, hf⟩ := done.frozen w hw
    refine out (listed w fun e => ?_)
    have := frozen w hf
    rw [waveState, e] at this
    exact absurd this (by simp)
  · exact List.eq_nil_iff_forall_not_mem.mpr fun n hn => unplaced n .calendar hn
  · refine List.eq_nil_iff_forall_not_mem.mpr fun c hc => ?_
    obtain ⟨g, gr, hg, -⟩ := done.working.courses u c hc
    exact absurd ((noGroup g).symm.trans hg) (by simp)
  · exact pool_eq service.tickets whole.1 idle.1 (by rw [done.working.counted.tickets, tickets]; rfl)
  · exact pool_eq service.groups whole.2 idle.2 (by rw [done.working.counted.groups, groups]; rfl)

end Sys2Proof.Machine
end

section
/-!
PROOFS. END_SERVICE: the end of the load monitor's work, and the teardown (R143, R180, R181).
-/

namespace Sys2Proof.Machine

/-! ## The end of the load monitor's work (R143) -/

theorem retime_only (x : Nat) (s : State) :
    (retime x s).1 = { s with
      tickets := (retime x s).1.tickets, calendar := (retime x s).1.calendar, stations := (retime x s).1.stations
      passLine := (retime x s).1.passLine } := by
  unfold retime
  dsimp only
  rw [leaveAll_spec, (refreshAll_spec x (calendaredAt s x) s).1]
  rw [(offerAll_places _ _).rest]

/-- What a change of load state leaves as it was, whatever it re-times and drains. -/
structure OnlyLoad (x : Nat) (s t : State) : Prop where
  engine : t.engine = s.engine
  waves : t.waves = s.waves
  loads : ∀ y ≠ x, (station t y).load = (station s y).load

theorem changeLoad_load (x : Nat) (after : LoadState) (s : State) :
    OnlyLoad x s (changeLoad x after s).1
      ∧ (station (changeLoad x after s).1 x).load
        = (station (updStation x (fun st => { st with load := { st.load with state := after } }) s) x).load := by
  unfold changeLoad
  dsimp only
  set u := updStation x (fun st => { st with load := { st.load with state := after } }) s with hu
  have others : ∀ y ≠ x, (station u y).load = (station s y).load := fun y hy => by
    rw [hu, station_updStation, if_neg fun e => hy e.1]
  generalize hr : (if stretchChanges (station s x).load.state after = true then retime x u else (u, 0, 0)) = r
  have retimed : r.1.engine = s.engine ∧ r.1.waves = s.waves ∧ ∀ y, (station r.1 y).load = (station u y).load := by
    rw [← hr]
    split
    · exact ⟨by rw [retime_only]; rfl, by rw [retime_only]; rfl, fun y => retime_load x y u⟩
    · exact ⟨rfl, rfl, fun _ => rfl⟩
  generalize hv : (if (station s x).load.state = .tripped then drain x r.1 else r.1) = v
  have drained : v.engine = s.engine ∧ v.waves = s.waves ∧ ∀ y, (station v y).load = (station u y).load := by
    obtain ⟨e1, e2, e3⟩ := retimed
    rw [← hv]
    split
    · have only := drain_places x r.1
      exact ⟨only.engine.trans e1, only.waves.trans e2, fun y => (only.load y).trans (e3 y)⟩
    · exact ⟨e1, e2, e3⟩
  obtain ⟨e1, e2, e3⟩ := drained
  have sent := sendRecord_only (.station x) (stationRecord v x) v
  refine ⟨⟨?_, ?_, fun y hy => ?_⟩, ?_⟩
  · rw [pushNotice_engine, sent.engine, e1]
  · rw [pushNotice_waves, sent.waves, e2]
  · rw [pushNotice_station, sent.load, e3, others y hy]
  · rw [pushNotice_station, sent.load, e3]

theorem endLoad_load (x : Nat) (s : State) : OnlyLoad x s (endLoad x s) ∧ (station (endLoad x s) x).load = {} := by
  unfold endLoad
  dsimp only
  set u := updStation x (fun st => { st with load := { st.load with accumulator := 0, nextSample := none } }) s with hu
  have others : ∀ y ≠ x, (station u y).load = (station s y).load := fun y hy => by
    rw [hu, station_updStation, if_neg fun e => hy e.1]
  by_cases hx : x < s.stations.length
  · have own : (station u x).load = { accumulator := 0, state := (station s x).load.state, nextSample := none } := by
      rw [hu, station_updStation, if_pos ⟨rfl, hx⟩]
    split
    · rename_i hst
      refine ⟨⟨rfl, rfl, others⟩, ?_⟩
      rw [own] at hst ⊢
      rw [show (station s x).load.state = .normal from hst]
    · obtain ⟨only, load⟩ := changeLoad_load x .normal u
      refine ⟨⟨only.engine, only.waves, fun y hy => (only.loads y hy).trans (others y hy)⟩, ?_⟩
      rw [load, station_updStation, if_pos ⟨rfl, by rw [hu]; simpa using hx⟩]
      dsimp only
      rw [own]
  · have out : station u x = {} := station_of_length_le (by rw [hu]; simpa using hx)
    rw [out, if_pos rfl]
    exact ⟨⟨rfl, rfl, others⟩, by rw [out]⟩

theorem endLoads_load (xs : List Nat) (s : State) :
    (xs.foldl (fun s x => endLoad x s) s).engine = s.engine ∧ (xs.foldl (fun s x => endLoad x s) s).waves = s.waves
      ∧ ∀ x ∈ xs, (station (xs.foldl (fun s x => endLoad x s) s) x).load = {} := by
  have kept : ∀ (xs : List Nat) (s : State) (y : Nat), (station s y).load = {} →
      (station (xs.foldl (fun s x => endLoad x s) s) y).load = {} := by
    intro xs
    induction xs with
    | nil => exact fun _ _ h => h
    | cons x xs ih =>
      refine fun s y h => ih _ y ?_
      obtain ⟨only, own⟩ := endLoad_load x s
      by_cases hy : y = x
      · exact hy ▸ own
      · rw [only.loads y hy, h]
  induction xs generalizing s with
  | nil => exact ⟨rfl, rfl, by simp⟩
  | cons x xs ih =>
    obtain ⟨only, own⟩ := endLoad_load x s
    obtain ⟨engine, waves, loads⟩ := ih (endLoad x s)
    refine ⟨engine.trans only.engine, waves.trans only.waves, fun y hy => ?_⟩
    rcases List.mem_cons.mp hy with rfl | hy
    · exact kept xs _ y own
    · exact loads y hy

/-! ## The same with no ticket left -/

/-- A change of controllers, lines and host link that leaves every place as it was. -/
structure OnlyControllers (s t : State) : Prop where
  rest : t = { s with link := t.link, stations := t.stations, passLine := t.passLine }
  places : ∀ n p, StandsAt t n p ↔ StandsAt s n p

theorem OnlyControllers.trans {s t u : State} (h : OnlyControllers s t) (k : OnlyControllers t u) : OnlyControllers s u :=
  ⟨by rw [k.rest, h.rest], fun n p => (k.places n p).trans (h.places n p)⟩

theorem OnlyLines.controllers {s t : State} (h : OnlyLines s t) : OnlyControllers s t :=
  ⟨by rw [h.rest], h.standsAt⟩

theorem setLoad_controllers (x : Nat) (f : LoadRecord → LoadRecord) (s : State) :
    OnlyControllers s (updStation x (fun st => { st with load := f st.load }) s) := by
  have kept : ∀ y, (station (updStation x (fun st => { st with load := f st.load }) s) y).blocked = (station s y).blocked
      ∧ wholeQueue (station (updStation x (fun st => { st with load := f st.load }) s) y) = wholeQueue (station s y)
      ∧ (station (updStation x (fun st => { st with load := f st.load }) s) y).positions = (station s y).positions := by
    intro y
    rw [station_updStation]
    split <;> exact ⟨rfl, rfl, rfl⟩
  exact ⟨rfl, standsAt_congr rfl (fun y => (kept y).1) (fun y => (kept y).2.1) fun y => (kept y).2.2⟩

theorem pushNotice_controllers (n : Notice) (s : State) : OnlyControllers s (pushNotice n s) := by
  refine ⟨?_, standsAt_congr (by simp) (by simp) (by simp) (by simp)⟩
  conv_lhs => rw [pushNotice_with n (s := s) (t := s) rfl]
  simp

theorem retime_of_empty {s : State} (x : Nat) (h : s.calendar = []) : retime x s = (s, 0, 0) := by
  have none : calendaredAt s x = [] := by rw [calendaredAt, h]; rfl
  unfold retime
  simp only [none, List.foldl_nil, h]
  have same : ({ s with calendar := sortBefore (calendarBefore s) [] } : State) = s := by
    rw [show sortBefore (calendarBefore s) [] = s.calendar from h.symm]
  rw [same, none]
  rfl

theorem drain_of_empty {s : State} (x : Nat) (h : ∀ y, (station s y).blocked = []) : drain x s = s := by
  have lists : ∀ fuel y, drainList fuel y s = s := by
    intro fuel y
    cases fuel with
    | zero => rfl
    | succ fuel => rw [drainList, h y]; rfl
  unfold drain
  generalize x :: stationsNaming s x = ys
  induction ys with
  | nil => rfl
  | cons y ys ih => rw [List.foldl_cons, lists, ih]

theorem Emptied.controllers {s t : State} (h : Emptied s) (k : OnlyControllers s t) : Emptied t := by
  have rest := k.rest
  refine ⟨?_, ?_, ?_, ?_, ?_, fun n p hp => h.unplaced n p ((k.places n p).mp hp), fun u => ?_⟩
  · rw [rest]; exact h.tickets
  · rw [rest]; exact h.groups
  · rw [rest]; exact h.waves
  · rw [rest]; exact h.frozen
  · rw [rest]; exact h.calendar
  · rw [rest]; exact h.courses u

theorem Emptied.blocked {s : State} (h : Emptied s) (y : Nat) : (station s y).blocked = [] :=
  List.eq_nil_iff_forall_not_mem.mpr fun n hn => h.unplaced n (.station y .blocked) hn

theorem Emptied.queues {s : State} (h : Emptied s) (y : Nat) :
    (station s y).rushQueue = [] ∧ (station s y).ordinaryQueue = [] ∧ ∀ p ∈ (station s y).positions, p = none := by
  have queue : wholeQueue (station s y) = [] :=
    List.eq_nil_iff_forall_not_mem.mpr fun n hn => h.unplaced n (.station y .queue) hn
  obtain ⟨rush, ordinary⟩ := List.append_eq_nil_iff.mp queue
  refine ⟨rush, ordinary, fun p hp => ?_⟩
  obtain ⟨i, hi⟩ := List.mem_iff_getElem?.mp hp
  cases p with
  | none => rfl
  | some n => exact absurd hi (h.unplaced n (.station y (.position i)))

theorem changeLoad_controllers {x : Nat} {after : LoadState} {s : State} (h : Emptied s) :
    OnlyControllers s (changeLoad x after s).1 := by
  have changed := setLoad_controllers x (fun ld => { ld with state := after }) s
  have empty := h.controllers changed
  unfold changeLoad
  dsimp only
  generalize updStation x (fun st => { st with load := { st.load with state := after } }) s = u at *
  rw [retime_of_empty x empty.calendar, ite_self]
  dsimp only
  rw [drain_of_empty x empty.blocked, ite_self]
  exact changed.trans ((sendRecord_only _ _ _).controllers.trans (pushNotice_controllers _ _))

theorem endLoad_controllers {s : State} (x : Nat) (h : Emptied s) : OnlyControllers s (endLoad x s) := by
  have changed := setLoad_controllers x (fun ld => { ld with accumulator := 0, nextSample := none }) s
  unfold endLoad
  dsimp only
  split
  · exact changed
  · exact changed.trans (changeLoad_controllers (h.controllers changed))

theorem endLoads_controllers (xs : List Nat) {s : State} (h : Emptied s) :
    OnlyControllers s (xs.foldl (fun s x => endLoad x s) s) := by
  induction xs generalizing s with
  | nil => exact ⟨rfl, fun _ _ => .rfl⟩
  | cons x xs ih =>
    have first := endLoad_controllers x h
    exact first.trans (ih (h.controllers first))

/-! ## Sound lines -/

theorem sendRecord_lines {s : State} (l : LineId) (r : LineRecord) (h : LinesSound s) : LinesSound (sendRecord l r s) := by
  rw [sendRecord_eq r (h.line l), linesSound_iff]
  intro m
  rw [lineOf_updLine]
  split
  · exact produced_sound (h.line m)
  · exact h.line m

theorem setLoad_lines {s : State} (x : Nat) (f : LoadRecord → LoadRecord) (h : LinesSound s) :
    LinesSound (updStation x (fun st => { st with load := f st.load }) s) := by
  rw [linesSound_iff]
  rintro (y | _)
  · have := h.line (.station y)
    rw [lineOf, station_updStation]
    split <;> exact this
  · exact h.2

theorem endLoad_lines {s : State} (x : Nat) (h : LinesSound s) (he : Emptied s) : LinesSound (endLoad x s) := by
  have lines := setLoad_lines x (fun ld => { ld with accumulator := 0, nextSample := none }) h
  have empty := he.controllers (setLoad_controllers x (fun ld => { ld with accumulator := 0, nextSample := none }) s)
  unfold endLoad
  dsimp only
  split
  · exact lines
  · generalize updStation x (fun st => { st with load := { st.load with accumulator := 0, nextSample := none } }) s = u at *
    have lines := setLoad_lines x (fun ld => { ld with state := .normal }) lines
    have empty := empty.controllers (setLoad_controllers x (fun ld => { ld with state := .normal }) u)
    unfold changeLoad
    dsimp only
    generalize updStation x (fun st => { st with load := { st.load with state := .normal } }) u = v at *
    rw [retime_of_empty x empty.calendar, ite_self]
    dsimp only
    rw [drain_of_empty x empty.blocked, ite_self]
    have sent := sendRecord_lines (.station x) (stationRecord v x) lines
    rw [LinesSound, pushNotice_stations, pushNotice_passLine]
    exact sent

/-- The load monitor's work ends at each of these stations. -/
theorem endLoads_ends (xs : List Nat) {s : State} (hl : LinesSound s) (he : Emptied s) (hu : UndefinedAtRest s) :
    EndsLoads xs s (xs.foldl (fun s x => endLoad x s) s) := by
  induction xs generalizing s with
  | nil => rfl
  | cons x xs ih =>
    have calendared : Calendared s := by
      refine ⟨hl, fun y => ?_, ?_, ?_⟩
      · rw [he.blocked]
        exact ⟨List.nodup_nil, by simp⟩
      · rw [he.calendar]
        exact List.nodup_nil
      · rw [he.calendar]
        simp
    have defined : (station s x).load.state ≠ .normal → (station s x).config ≠ none := fun hst hc => by
      by_cases hx : x < s.stations.length
      · rw [hu _ (station_mem hx) hc] at hst
        exact hst rfl
      · rw [station_of_length_le (Nat.le_of_not_lt hx)] at hst
        exact hst rfl
    exact ⟨_, endLoad_ends x calendared he.calendar defined,
      ih (endLoad_lines x hl he) (he.controllers (endLoad_controllers x he))
        ((endLoad_runs x s).keeps (fun _ _ => Changes.undefinedAtRest) hu)⟩

/-! ## END_SERVICE (R180, R181) -/

theorem mem_wavesNotFree {s : State} {w : Nat} : w ∈ wavesNotFree s ↔ w < 64 ∧ waveState s w ≠ .free := by
  simp [wavesNotFree, Config.waves]

theorem wavesNotFree_eq_nil {s : State} : wavesNotFree s = [] ↔ ∀ w < 64, waveState s w = .free := by
  simp only [List.eq_nil_iff_forall_not_mem, mem_wavesNotFree, not_and, not_not]

/-- An END_SERVICE whose body has been read (R180, R181). -/
theorem endServiceRequest_of_read {b : List Byte} {force : Nat} (s : State) (h : readOne b = some force) :
    endServiceRequest b s
      = if 1 < force then refuse .range s
        else if s.link.mode = .setup then refuse .mode s
        else if force = 0 ∧ wavesNotFree s ≠ [] then refuse .state s
        else accept (.serviceEnded (wavesNotFree s).length (cancelWaves (wavesNotFree s) s).2.2.1 (cancelWaves (wavesNotFree s) s).2.2.2)
          (finishService (cancelWaves (wavesNotFree s) s).1) := by
  rw [endServiceRequest, h, ← cancelWaves_count]

/-- What a teardown leaves, whatever state it is carried out in. -/
structure TornDown (s t : State) : Prop where
  mode : t.link.mode = .setup
  waves : ∀ w < 64, waveState t w = .free
  engine : t.engine = {}
  loads : ∀ x < 24, (station t x).load = {}
  config : ∀ x, (station t x).config = (station s x).config
  presence : ∀ x, (station t x).line.presence = (station s x).line.presence
  record : ∀ c, (t.components.get? c).map (fun r => { r with stock := none })
    = (s.components.get? c).map fun r => { r with stock := none }
  courses : t.courses = s.courses
  floor : t.floor.rows = s.floor.rows ∧ t.floor.columns = s.floor.columns
  table : ∀ u, (tableRecord t u).covers = (tableRecord s u).covers ∧ (tableRecord t u).mark = (tableRecord s u).mark
    ∧ (tableRecord t u).substitutions = (tableRecord s u).substitutions
  clock : t.clock = s.clock
  pickupLimit : t.link.pickupLimit = s.link.pickupLimit

theorem finishService_tornDown (s : State) : TornDown s (finishService (cancelWaves (wavesNotFree s) s).1) := by
  have first := cancelWaves_service (wavesNotFree s) s
  have states := cancelWaves_waveState (wavesNotFree s) (s := s)
  unfold finishService
  dsimp only
  generalize (cancelWaves (wavesNotFree s) s).1 = u at *
  obtain ⟨engine, waves, loads⟩ := endLoads_load (List.range Config.stations) { u with engine := {} }
  have service : OnlyService s ((List.range Config.stations).foldl (fun s x => endLoad x s) { u with engine := {} }) :=
    (first.withEngine {}).trans (.foldl _ (fun s x => endLoad_service x s) _ _)
  generalize (List.range Config.stations).foldl (fun s x => endLoad x s) { u with engine := {} } = v at *
  have presence := fun x => service.presence (.station x)
  refine ⟨rfl, fun w hw => ?_, engine, fun x hx => loads x (List.mem_range.mpr hx), service.config, presence, service.record,
    service.courses, ⟨service.rows, service.columns⟩, fun x => ?_, service.clock, ?_⟩
  · refine (waveState_congr (s := u) waves w).trans ((states w).trans ?_)
    split
    · rfl
    · rename_i hout
      by_contra hne
      exact hout (mem_wavesNotFree.mpr ⟨hw, hne⟩)
  · have kept := service.table x
    have covers := congrArg TableRecord.covers kept
    have mark := congrArg TableRecord.mark kept
    have substitutions := congrArg TableRecord.substitutions kept
    exact ⟨covers, mark, substitutions⟩
  · dsimp only
    rw [service.link]

/-- Settles O19: the checks of R180, what every teardown leaves, and the whole of it from a sound state. -/
theorem endServiceTearsTheServiceDown : Obligations.EndServiceTearsTheServiceDown := by
  intro force f rest s ht hk hb hf
  have handled := endServiceRequest_of_read (dequeued rest s) (readOne_eq.mpr ⟨hf, hb⟩)
  have same : wavesNotFree (dequeued rest s) = wavesNotFree s := rfl
  refine ⟨fun hr => ?_, fun hr hm => ?_, fun h0 hm hw => ?_, fun hm hforce => ?_⟩
  · exact takeRequest_refused_of ht hk (handled.trans (if_pos hr))
  · exact takeRequest_refused_of ht hk (handled.trans ((if_neg (Nat.not_lt.mpr hr)).trans (if_pos hm)))
  · have some' : wavesNotFree s ≠ [] := fun e => by
      obtain ⟨w, hlt, hst⟩ := hw
      exact hst (wavesNotFree_eq_nil.mp e w hlt)
    exact takeRequest_refused_of ht hk (handled.trans ((if_neg (by omega)).trans ((if_neg (by simp [hm])).trans
      (if_pos ⟨h0, same ▸ some'⟩))))
  · have idle : ¬(force = 0 ∧ wavesNotFree (dequeued rest s) ≠ []) := fun ⟨h0, hne⟩ => by
      rcases hforce with h1 | ⟨-, hfree⟩
      · omega
      · exact hne (wavesNotFree_eq_nil.mpr hfree)
    have handled := handled.trans ((if_neg (by omega)).trans ((if_neg (by simp [hm])).trans (if_neg idle)))
    have torn := finishService_tornDown (dequeued rest s)
    have empties : Sound s → _ := fun hs => cancelWaves_empties (s := dequeued rest s) hs
    have cancelled : Sound s → _ := fun hs =>
      (cancelWaves_cancelled (wavesNotFree s) (s := dequeued rest s) (Sound.working hs) (Sound.reserved hs)
        (List.nodup_range.filter _) fun w hw e => (mem_wavesNotFree.mp hw).2 (by rw [waveState, ← dequeued_wave_get rest, e])).2
    have run := cancelWaves_runs (wavesNotFree s) (dequeued rest s)
    rw [same] at *
    generalize cancelWaves (wavesNotFree s) (dequeued rest s) = r at *
    have engineless : Emptied r.1 → Emptied { r.1 with engine := {} } := fun e =>
      ⟨e.tickets, e.groups, e.waves, e.frozen, e.calendar, e.unplaced, e.courses⟩
    have controllers := fun e => endLoads_controllers (List.range Config.stations) (engineless e)
    have ends := fun (hl : LinesSound r.1) e hu => endLoads_ends (List.range Config.stations)
      (s := { r.1 with engine := {} }) hl (engineless e) hu
    unfold finishService at handled torn
    dsimp only at handled torn
    generalize (List.range Config.stations).foldl (fun s x => endLoad x s) { r.1 with engine := {} } = v at *
    refine ⟨_, takeRequest_accepted ht hk handled, ?_, fun w hw => ?_, ?_, fun x hx => ⟨?_, ?_, ?_⟩, ?_, ?_, ?_, ?_, fun u => ?_, ?_, ?_,
      fun hs => ?_, fun hs hl hc hst hu => ?_⟩
    · rw [settle_link_mode]
      rfl
    · rw [settle_waveState]
      exact torn.waves w hw
    · rw [settle_engine]
      exact torn.engine
    · rw [settle_station]
      exact torn.loads x hx
    · rw [settle_station]
      exact torn.config x
    · rw [settle_station]
      exact torn.presence x
    · rw [settle_components]
      exact torn.record
    · rw [settle_courses]
      exact torn.courses
    · rw [settle_floor]
      exact torn.floor.1
    · rw [settle_floor]
      exact torn.floor.2
    · rw [settle_tableRecord]
      exact torn.table u
    · rw [settle_clock]
      exact torn.clock
    · rw [settle_link_pickupLimit]
      exact torn.pickupLimit
    · obtain ⟨empty, tickets, groups⟩ := empties hs
      have empty' := (engineless empty).controllers (controllers empty)
      have rest' := (controllers empty).rest
      refine ⟨?_, ?_, ?_, ?_, ?_, ?_, ?_, fun x _ => ?_, fun u => ?_⟩
      · rw [settle_tickets]; exact empty'.tickets
      · rw [settle_ticketPool]; exact (congrArg State.ticketPool rest').trans tickets
      · rw [settle_groups]; exact empty'.groups
      · rw [settle_groupPool]; exact (congrArg State.groupPool rest').trans groups
      · rw [settle_calendar]; exact empty'.calendar
      · rw [settle_frozen]; exact empty'.frozen
      · rw [settle_waves]; exact empty'.waves
      · rw [settle_station]
        exact ⟨empty'.blocked x, empty'.queues x⟩
      · rw [settle_tableRecord]
        exact empty'.courses u
    · obtain ⟨each, lines⟩ := cancelled hs hl hc
      exact ⟨r.1, v, _, _, each, ends lines (empties hs).1 (run.keeps (fun _ _ => Changes.undefinedAtRest) hu), rfl⟩

end Sys2Proof.Machine
end

section
/-!
PROOFS. Remake copies: the state in which a copy is offered, and where its offer ends (R79, R86, R87, R94).
-/

namespace Sys2Proof.Machine

/-! ## What is told of the host link (R175, R176) -/

theorem settle_link_congr {s t : State} (h : s.link = t.link) : (settle s).link = (settle t).link := by
  have chosen : (chooseHostFrame s).link = (chooseHostFrame t).link := by
    rw [chooseHostFrame, chooseHostFrame, h]
    split <;> rfl
  rw [settle, settle, h]
  split
  · exact chosen
  · exact h
  · exact h

/-- The notices of a state and its sequence counter have nothing to do with each other. -/
theorem noticedAll_seq (ns : List Notice) (k : Nat) (s : State) :
    noticedAll ns { s with link := { s.link with seq := k } }
      = { noticedAll ns s with link := { (noticedAll ns s).link with seq := k } } := by
  induction ns generalizing s with
  | nil => rfl
  | cons n ns ih =>
    have one : pushNotice n { s with link := { s.link with seq := k } }
        = { pushNotice n s with link := { (pushNotice n s).link with seq := k } } := by
      unfold pushNotice
      dsimp only
      split <;> rfl
    rw [noticedAll_cons, one, ih, noticedAll_cons]

/-! ## Where an offer ends (R93, R94) -/

/-- The end of an offer: the station that the ticket goes to, if there is one. -/
theorem offer_end {n : Nat} {tk : Ticket} {s : State} (h : ticket? s n = some tk) (x : Nat) :
    (offer n s).2 = some x ↔ GoesTo s tk.homeStation x := by
  unfold offer GoesTo
  rw [h]
  dsimp only
  simp only [canTake_iff]
  split
  · rename_i able
    simp only [Option.some.injEq, able, true_and, not_true_eq_false, false_and, or_false]
    exact eq_comm
  · rename_i unable
    simp only [unable, false_and, not_false_eq_true, true_and, false_or]
    split
    · rename_i a ha
      split
      · rename_i able
        simp only [Option.some.injEq, ha]
        exact ⟨fun e => ⟨e ▸ able, e⟩, And.right⟩
      · rename_i unable'
        simp only [reduceCtorEq, ha, Option.some.injEq, false_iff, not_and]
        exact fun able e => unable' (e ▸ able)
    · rename_i none'
      simp [none']

theorem beginRefresh_station_passLine (x : Nat) (s : State) : (beginRefresh (.station x) s).passLine = s.passLine := by
  unfold beginRefresh
  dsimp only
  split <;> rfl

theorem startLine_station_passLine (x : Nat) (s : State) : (startLine (.station x) s).passLine = s.passLine := by
  unfold startLine chooseLineFrame
  split
  · split
    · rfl
    · exact beginRefresh_station_passLine _ _
  · rfl

/-- A record for a station's terminal leaves the pass line as it is. -/
theorem sendRecord_station_passLine (x : Nat) (r : LineRecord) (s : State) : (sendRecord (.station x) r s).passLine = s.passLine := by
  unfold sendRecord
  dsimp only
  split
  · split
    · exact startLine_station_passLine _ _
    · exact beginRefresh_station_passLine _ _
  · rfl

theorem sendRecords_station_passLine (x : Nat) (rs : List LineRecord) (s : State) :
    (sendRecords (.station x) rs s).passLine = s.passLine := by
  unfold sendRecords
  induction rs generalizing s with
  | nil => rfl
  | cons r rs ih => exact (ih _).trans (sendRecord_station_passLine x r s)

/-- An offer sends nothing to the pass terminal. -/
theorem offer_passLine (n : Nat) (s : State) : (offer n s).1.passLine = s.passLine := by
  have enters : ∀ x, (enterStation n x s).passLine = s.passLine := fun x => by
    unfold enterStation
    split
    · rfl
    · dsimp only
      split
      · exact sendRecords_station_passLine _ _ _
      · exact sendRecord_station_passLine _ _ _
  have blocks : (joinBlocked n s).passLine = s.passLine := by
    unfold joinBlocked
    split <;> rfl
  unfold offer
  split
  · rfl
  · dsimp only
    split
    · exact enters _
    · split
      · split
        · exact enters _
        · exact blocks
      · exact blocks

/-- The record with which an entry ends. -/
theorem enterStation_ticket {n : Nat} {tk : Ticket} {s : State} (x : Nat) (h : ticket? s n = some tk) :
    ∃ st p, (st = TicketState.queued ∨ st = .onLine)
      ∧ ticket? (enterStation n x s) n = some { entryTimes s x tk with state := st, position := p } := by
  unfold enterStation
  rw [h]
  dsimp only
  split
  · rename_i i _
    refine ⟨.onLine, some i, .inr rfl, ?_⟩
    rw [(sendRecords_only _ _ _).ticket_get]
    exact ticket_get_setTicket_self s n _
  · refine ⟨.queued, tk.position, .inl rfl, ?_⟩
    rw [(sendRecord_only _ _ _).ticket_get]
    exact ticket_get_setTicket_self s n _

/-- The record of a ticket that has been offered, its offer having ended at this station, or BLOCKED. -/
structure OfferedAs (tk : Ticket) (offerEnd : Option Nat) (tk' : Ticket) : Prop where
  waits : tk'.state = .queued ∨ tk'.state = .onLine ∨ tk'.state = .blocked
  blocked : tk'.state = .blocked ↔ offerEnd = none
  station : tk'.station = offerEnd.getD tk.homeStation
  rest : tk' = { tk with
    state := tk'.state, station := tk'.station, position := tk'.position, dueReady := tk'.dueReady
    lateness := tk'.lateness, firedAt := tk'.firedAt }

theorem offer_record {n : Nat} {tk : Ticket} {s : State} (h : ticket? s n = some tk) :
    ∃ tk', ticket? (offer n s).1 n = some tk' ∧ OfferedAs tk (offer n s).2 tk' := by
  have enters : ∀ x, ∃ tk', ticket? (enterStation n x s) n = some tk' ∧ OfferedAs tk (some x) tk' := fun x => by
    obtain ⟨st, p, hst, e⟩ := enterStation_ticket x h
    refine ⟨_, e, hst.imp id .inl, ?_, rfl, rfl⟩
    rcases hst with rfl | rfl <;> simp
  have blocks : ∃ tk', ticket? (joinBlocked n s) n = some tk' ∧ OfferedAs tk none tk' := by
    refine ⟨{ tk with state := .blocked, station := tk.homeStation }, ?_, .inr (.inr rfl), by simp, rfl, rfl⟩
    rw [joinBlocked, h]
    exact (updStation_ticket_get _ _ _ n).trans (ticket_get_setTicket_self s n _)
  unfold offer
  rw [h]
  dsimp only
  split
  · exact enters _
  · split
    · split
      · exact enters _
      · exact blocks
    · exact blocks

/-! ## Copies (R79, R86, R87) -/

/-- The state in which copy `m` of ticket `n` is offered: the stock drawn, the copy in the slot of `n`, and `n` freed. -/
structure Copied (n m : Nat) (tk : Ticket) (s u : State) : Prop where
  rest : u = { s with
    link := { (noticedAll
        ((s.components.get? tk.component).toList.flatMap fun r => r.stock.toList.flatMap fun k =>
          drawNotices tk.component tk.quantity k r.lowLevel) s).link with
      seq := if s.link.seq < 4294967295 then s.link.seq + 1 else s.link.seq }
    components := u.components
    tickets := u.tickets
    groups := u.groups }
  counts : ∀ c, u.components.get? c = (s.components.get? c).map fun r =>
    if c = tk.component then { r with stock := r.stock.map fun k => k - tk.quantity } else r
  absent : ticket? s m = none
  lowest : ∀ l < m, ticket? s l ≠ none
  tickets : ∀ l, ticket? u l = if l = m then some (freshCopy s tk) else if l = n then none else ticket? s l
  groups : ∀ g, group? u g = (group? s g).map fun gr =>
    if g = tk.group then { gr with tickets := gr.tickets.map fun o => if o = n then m else o } else gr

/-- The steps of a copy's creation, once its draw has been covered. -/
theorem requestCopy_eq {n : Nat} {tk : Ticket} {s d : State} (hf : 0 < s.ticketPool.free)
    (hd : copyDraw tk.component tk.quantity s = (d, true)) :
    let m := d.tickets.firstAbsent
    let u := freeTicket n (updGroup tk.group (fun gr => { gr with tickets := replaceSlot n m gr.tickets })
      { createTicket m (copyOf d tk) d with ticketPool := d.ticketPool.liveFromFree })
    requestCopy n tk s = ((offer m u).1, .made m (offer m u).2) := by
  rw [requestCopy, if_neg (Nat.ne_of_gt hf), hd]
  rfl

theorem requestCopy_copied {n : Nat} {tk : Ticket} {s : State} (h : ticket? s n = some tk) (hc : CanCopy tk s) :
    ∃ u m, requestCopy n tk s = ((offer m u).1, .made m (offer m u).2) ∧ Copied n m tk s u := by
  obtain ⟨hf, hs⟩ := hc
  obtain ⟨cs, hd, hcs⟩ := copyDraw_covered hs
  refine ⟨_, _, requestCopy_eq hf hd, ?_⟩
  obtain ⟨absent, lowest⟩ := s.tickets.firstAbsent_spec
  dsimp only
  generalize s.tickets.firstAbsent = m at *
  generalize hns : ((s.components.get? tk.component).toList.flatMap fun r => r.stock.toList.flatMap fun k =>
    drawNotices tk.component tk.quantity k r.lowLevel) = ns at *
  have hseq : (noticedAll ns s).link.seq = s.link.seq := by rw [noticedAll_rest]
  have copy : copyOf { s with link := (noticedAll ns s).link, components := cs } tk = freshCopy s tk := by
    refine copyOf_eq tk rfl hseq ?_
    rw [cookTime, cookTime, hcs]
    cases s.components.get? tk.component <;> simp
  have hmn : n ≠ m := by
    rintro rfl
    exact absurd (absent.symm.trans h) (by simp)
  rw [copy]
  have replaced : ∀ w : State, w.tickets = s.tickets.set m (freshCopy s tk) → ticket? w n = some tk := fun w hw => by
    rw [ticket?, hw, Store.get?_set_of_ne _ _ hmn]
    exact h
  have pool : s.ticketPool.liveFromFree.release = s.ticketPool := Pool.release_liveFromFree hf
  refine ⟨?_, ?_, absent, lowest, fun l => ?_, fun g => ?_⟩
  · rw [freeTicket_eq (replaced _ rfl), hns]
    simp only [updGroup, createTicket, setTicket, pool, hseq, nextSeq]
  · rw [freeTicket_eq (replaced _ rfl)]
    exact hcs
  · rw [freeTicket_ticket (replaced _ rfl)]
    by_cases hlm : l = m
    · rw [if_pos hlm, if_neg fun e => hmn (e.symm.trans hlm), hlm]
      exact Store.get?_set_self _ _ _
    · rw [if_neg hlm]
      split
      · rfl
      · exact Store.get?_set_of_ne _ _ hlm
  · rw [freeTicket_group (replaced _ rfl), group_get_updGroup]
    by_cases hg : g = tk.group
    · simp only [hg, if_true, Option.map_map]
      refine Option.map_congr fun gr _ => ?_
      simp only [Function.comp_apply, removeNumber_replaceSlot (Ne.symm hmn)]
    · simp only [if_neg hg, Option.map_id']
      rfl

/-- What a copy that has been made and offered leaves, whatever the lines took of it. -/
structure MadeCopy (n m : Nat) (tk : Ticket) (offerEnd : Option Nat) (s t : State) : Prop where
  rest : t = { s with
    link := { (noticedAll
        ((s.components.get? tk.component).toList.flatMap fun r => r.stock.toList.flatMap fun k =>
          drawNotices tk.component tk.quantity k r.lowLevel) s).link with
      seq := if s.link.seq < 4294967295 then s.link.seq + 1 else s.link.seq }
    components := t.components, tickets := t.tickets, groups := t.groups, stations := t.stations }
  config : ∀ x, (station t x).config = (station s x).config
  load : ∀ x, (station t x).load = (station s x).load
  counts : ∀ c, t.components.get? c = (s.components.get? c).map fun r =>
    if c = tk.component then { r with stock := r.stock.map fun k => k - tk.quantity } else r
  absent : ticket? s m = none
  lowest : ∀ l < m, ticket? s l ≠ none
  copy : ∃ copy, ticket? t m = some copy ∧ OfferedAs (freshCopy s tk) offerEnd copy
  others : ∀ l ≠ m, ticket? t l = if l = n then none else ticket? s l
  groups : ∀ g, group? t g = (group? s g).map fun gr =>
    if g = tk.group then { gr with tickets := gr.tickets.map fun o => if o = n then m else o } else gr
  goes : ∀ x, offerEnd = some x ↔ GoesTo s tk.homeStation x
  told : Told s → Unplaced s n → Told t ∧ ∀ l, l ≠ m → Unplaced s l → Unplaced t l

theorem Copied.stations {n m : Nat} {tk : Ticket} {s u : State} (h : Copied n m tk s u) (x : Nat) : station u x = station s x := by
  rw [h.rest]
  rfl

theorem Copied.standsAt {n m : Nat} {tk : Ticket} {s u : State} (h : Copied n m tk s u) (l : Nat) (p : Place) :
    StandsAt u l p ↔ StandsAt s l p :=
  standsAt_congr (by rw [h.rest]) (fun x => by rw [h.stations]) (fun x => by rw [h.stations]) (fun x => by rw [h.stations]) l p

theorem Copied.offered {n m : Nat} {tk : Ticket} {s u : State} (h : Copied n m tk s u) :
    MadeCopy n m tk (offer m u).2 s (offer m u).1 := by
  have fresh : ticket? u m = some (freshCopy s tk) := by rw [h.tickets, if_pos rfl]
  have places := offer_places m u
  refine ⟨?_, fun x => ?_, fun x => ?_, fun c => ?_, h.absent, h.lowest, offer_record fresh, fun l hl => ?_, fun g => ?_, fun x => ?_,
    fun told out => ?_⟩
  · rw [places.rest, offer_passLine, h.rest]
  · rw [places.config, h.stations]
  · rw [places.load, h.stations]
  · rw [places.components]
    exact h.counts c
  · rw [offer_others u hl, h.tickets, if_neg hl]
  · rw [group?, places.groups]
    exact h.groups g
  · rw [offer_end fresh, show (freshCopy s tk).homeStation = tk.homeStation from rfl]
    unfold GoesTo Able
    simp only [h.stations]
  · have copyOut : Unplaced u m := fun p hp => by
      obtain ⟨o, ho, -⟩ := told m p ((h.standsAt m p).mp hp)
      exact absurd (h.absent.symm.trans ho) (by simp)
    have but : ToldBut m u := fun l hl p hp => by
      have hp := (h.standsAt l p).mp hp
      have hln : l ≠ n := fun e => out p (e ▸ hp)
      rw [h.tickets, if_neg hl, if_neg hln]
      exact told l p hp
    obtain ⟨takes, -⟩ := offer_takes fresh copyOut
    exact ⟨takes.told but, fun l hl hout p hp => hout p ((h.standsAt l p).mp (takes.moves.places l hl p hp))⟩

/-- A copy that can be made of a live ticket is made. -/
theorem requestCopy_made {n : Nat} {tk : Ticket} {s : State} (h : ticket? s n = some tk) (hc : CanCopy tk s) :
    ∃ t m offerEnd, requestCopy n tk s = (t, .made m offerEnd) ∧ MadeCopy n m tk offerEnd s t := by
  obtain ⟨u, m, made, copied⟩ := requestCopy_copied h hc
  exact ⟨_, m, _, made, copied.offered⟩

theorem MadeCopy.stockOf {n m : Nat} {tk : Ticket} {offerEnd : Option Nat} {s t : State} (h : MadeCopy n m tk offerEnd s t) (c : Nat) :
    stockOf t c = (stockOf s c).map fun k => if c = tk.component then k - tk.quantity else k := by
  rw [Machine.stockOf, Machine.stockOf, h.counts]
  cases s.components.get? c with
  | none => rfl
  | some r => by_cases hc : c = tk.component <;> simp [hc]

end Sys2Proof.Machine
end

section
/-!
PROOFS. SPOIL: the ticket's leaving, its remake or its group's escalation, and what the pass is shown (R97, R111, R115, R152 to R154).
-/

namespace Sys2Proof.Machine

/-! ## Automatic remakes (R152, R154) -/

theorem automaticRemake_made {g n : Nat} {tk : Ticket} {s : State} (source : RemakeSource) (h : ticket? s n = some tk)
    (hg : tk.generation < 2) (hc : CanCopy tk s) :
    ∃ t m offerEnd, automaticRemake g n source s = (t, true) ∧ MadeCopy n m tk offerEnd s t := by
  obtain ⟨t, m, offerEnd, e, made⟩ := requestCopy_made h hc
  refine ⟨t, m, offerEnd, ?_, made⟩
  rw [automaticRemake, h]
  dsimp only
  rw [if_neg (by omega), e]

theorem automaticRemake_failed {n : Nat} {tk : Ticket} {s : State} (source : RemakeSource) (h : ticket? s n = some tk)
    (hno : ¬(tk.generation < 2 ∧ CanCopy tk s)) :
    ∃ t, automaticRemake tk.group n source s = (t, false) ∧ Escalates source n tk s t := by
  rw [automaticRemake, h]
  dsimp only
  by_cases hg : tk.generation < 2
  · have refused := requestCopy_refused (n := n) (tk := tk) (s := s) fun hc => hno ⟨hg, hc⟩
    rw [if_neg (by omega)]
    by_cases h0 : s.ticketPool.free = 0
    · have cause : remakeCause tk s = .noTickets := by rw [remakeCause, if_neg (by omega), if_pos h0]
      rw [refused.1 h0, ← cause]
      exact ⟨_, rfl, escalate_escalates source [] rfl (by rw [cause]; rfl)⟩
    · have cause : remakeCause tk s = .noStock := by rw [remakeCause, if_neg (by omega), if_neg h0]
      obtain ⟨k, hk, e⟩ := refused.2 (Nat.pos_of_ne_zero h0)
      rw [e, ← cause]
      exact ⟨_, rfl, escalate_escalates source [.stockOut tk.component .short k tk.quantity] rfl (by rw [cause, hk]; rfl)⟩
  · have cause : remakeCause tk s = .generation := by rw [remakeCause, if_pos (by omega)]
    rw [if_pos (by omega), ← cause]
    exact ⟨_, rfl, escalate_escalates source [] rfl (by rw [cause]; rfl)⟩

/-! ## The pass after a remake (R153) -/

/-- A group that waits for a ticket is shown again while it is ASSEMBLING. -/
theorem showSpoil_waits {g n : Nat} {gr : Group} {s : State} (hg : group? s g = some gr) (hm : n ∈ gr.tickets)
    (hn : ¬InState s .ready n ∧ ¬InState s .withdrawn n) :
    showSpoil g s = if gr.state = .assembling then sendGroupUp g s else s := by
  rw [showSpoil, hg]
  dsimp only
  split
  · have only : OnlyLines s (sendGroupUp g s) := by
      rw [sendGroupUp, hg]
      exact sendRecord_only _ _ _
    refine completionTest_waits (gr := gr) (by rw [group?, only.groups]; exact hg) hm ?_
    rw [inState_congr only.tickets, inState_congr only.tickets]
    exact hn
  · rfl

/-! ## A SPOIL that applies (R111, R115) -/

/-- The states that an applying SPOIL goes through: the ticket DEAD, out of its place, remade or not, and shown at the pass. -/
theorem applySpoil_eq (x n : Nat) (tk : Ticket) (s : State) :
    let r := updTicket n (fun tk => { tk with state := .dead, position := none }) s
    let u := leaveStation n tk (.doneTicket n) r
    applySpoil x n tk s = drainIf u.2 x (showSpoil tk.group (automaticRemake tk.group n .spoil u.1).1) := rfl

theorem takeSpoil_applies {x n : Nat} {tk : Ticket} {s : State} (hc : (station s x).config ≠ none)
    (hp : (station s x).line.presence = .present) (hk : ticket? s n = some tk) (hx : tk.station = x)
    (hst : tk.state = .queued ∨ tk.state = .onLine) : takeSpoil x n s = applySpoil x n tk s := by
  rw [takeSpoil, stationListens_of hc hp, if_pos rfl, atStation, hk]
  dsimp only
  rw [if_pos ⟨hx, hst⟩]

/-- The places once the spoiled ticket has left its own. -/
theorem spoil_leaves {n : Nat} {tk : Ticket} {s : State} (h : Told s) (hk : ticket? s n = some tk)
    (hst : tk.state = .queued ∨ tk.state = .onLine) :
    let r := updTicket n (fun tk => { tk with state := .dead, position := none }) s
    let u := (leaveStation n tk (.doneTicket n) r).1
    OnlyPlaces s u ∧ Told u ∧ Unplaced u n ∧ ticket? u n = some { tk with state := .dead, position := none }
      ∧ ∀ m, ticket? s m = none → ticket? u m = none := by
  intro r u
  have dead : ticket? r n = some { tk with state := .dead, position := none } := by
    rw [ticket_get_updTicket, if_pos rfl, hk, Option.map_some]
  have moves : Moves n s r := Moves.ofTicket n _ s
  obtain ⟨carried, unplaced⟩ := leaveStation_carries (.doneTicket n) (moves.toldBut (h.but n))
    (fun p hp => h.names hk (p := p) hp) hst
  have places := (OnlyPlaces.updTicket n (fun tk => { tk with state := .dead, position := none }) s).trans
    (leaveStation_places n tk (.doneTicket n) r)
  refine ⟨places, carried.told, unplaced, carried.same dead (by simp), fun m hm => ?_⟩
  simpa [hm] using places.live m

end Sys2Proof.Machine
end

section
/-!
PROOFS. O38: what a SPOIL leaves, field by field and as a whole (R11 to R13, R86, R97, R98, R110, R111, R115, R152 to R154).
-/

namespace Sys2Proof.Machine

/-! ## After the remake (R98, R153) -/

theorem OnlyPlaces.none_iff {s t : State} (h : OnlyPlaces s t) (l : Nat) : ticket? t l = none ↔ ticket? s l = none := by
  rw [← not_iff_not, ← ne_eq, ← ne_eq, ← Option.isSome_iff_ne_none, ← Option.isSome_iff_ne_none, h.live]

/-- Showing the group at the pass and draining for the station move waiting tickets only. -/
theorem spoil_shown {g n x : Nat} {gr : Group} {s : State} (dep : Bool) (h : Told s) (hg : group? s g = some gr) (hm : n ∈ gr.tickets)
    (hn : ¬InState s .ready n ∧ ¬InState s .withdrawn n) :
    OnlyPlaces s (drainIf dep x (showSpoil g s)) ∧ Carries s (drainIf dep x (showSpoil g s)) := by
  have shown : OnlyLines s (showSpoil g s) := by
    rw [showSpoil_waits hg hm hn, sendGroupUp, hg]
    split
    · exact sendRecord_only _ _ _
    · exact .refl s
  refine ⟨shown.places.trans (drainIf_places dep x _), ?_⟩
  cases dep
  · exact shown.carries h
  · exact (shown.carries h).trans (drain_carries x (shown.carries h).told)

theorem Escalates.tickets {source : RemakeSource} {n : Nat} {tk : Ticket} {s t : State} (h : Escalates source n tk s t) :
    t.tickets = s.tickets := by
  rw [h.1, noticedAll_rest]

theorem Escalates.standsAt {source : RemakeSource} {n : Nat} {tk : Ticket} {s t : State} (h : Escalates source n tk s t) (m : Nat)
    (p : Place) : StandsAt t m p ↔ StandsAt s m p := by
  have rest := h.1
  rw [noticedAll_rest] at rest
  refine standsAt_congr ?_ (fun x => ?_) (fun x => ?_) (fun x => ?_) m p <;> rw [rest] <;> rfl

theorem Escalates.told {source : RemakeSource} {n : Nat} {tk : Ticket} {s t : State} (h : Escalates source n tk s t) (k : Told s) :
    Told t := by
  intro m p hp
  rw [ticket?, h.tickets]
  exact k m p ((h.standsAt m p).mp hp)

/-- A ticket just offered still waits, with the fields of its copy, however a drain moves it on. -/
theorem OfferedAs.carried {m : Nat} {tk copy : Ticket} {offerEnd : Option Nat} {s t : State} (h : OfferedAs tk offerEnd copy)
    (hk : ticket? s m = some copy) (hc : Carries s t) : ∃ o, ticket? t m = some o
      ∧ (o.state = .queued ∨ o.state = .onLine ∨ o.state = .blocked)
      ∧ o = { tk with
          state := o.state, station := o.station, position := o.position, dueReady := o.dueReady
          lateness := o.lateness, firedAt := o.firedAt } := by
  rcases hc.tickets m with e | ⟨o, o', ho, ho', -, waits, rest⟩
  · exact ⟨copy, e.trans hk, h.waits, h.rest⟩
  · obtain rfl : copy = o := Option.some.inj (hk.symm.trans ho)
    refine ⟨o', ho', waits.imp id .inl, ?_⟩
    rw [rest, h.rest]

/-! ## The remake of a DEAD ticket that stands at no place (R152, R154) -/

/-- A list of group `g` holds a ticket that is neither READY nor WITHDRAWN, and the group's state is this one. -/
def HoldsUp (g : Nat) (st : GroupState) (s : State) (gr : Group) : Prop :=
  group? s g = some gr ∧ gr.state = st ∧ ∃ o ∈ gr.tickets, ¬InState s .ready o ∧ ¬InState s .withdrawn o

theorem not_inState {n : Nat} {tk : Ticket} {st : TicketState} {s : State} (hk : ticket? s n = some tk) (h : tk.state ≠ st) :
    ¬InState s st n := by
  rw [InState, hk]
  exact fun e => h (Option.some.inj e)

theorem OfferedAs.waiting {m : Nat} {tk copy : Ticket} {offerEnd : Option Nat} {s : State} (h : OfferedAs tk offerEnd copy)
    (hk : ticket? s m = some copy) : ¬InState s .ready m ∧ ¬InState s .withdrawn m := by
  constructor <;> refine not_inState hk ?_ <;> rcases h.waits with e | e | e <;> rw [e] <;> simp

theorem MadeCopy.holdsUp {n m : Nat} {tk : Ticket} {gr : Group} {offerEnd : Option Nat} {s t : State} (h : MadeCopy n m tk offerEnd s t)
    (hg : group? s tk.group = some gr) (hm : n ∈ gr.tickets) : ∃ gr', HoldsUp tk.group gr.state t gr' := by
  obtain ⟨copy, hcopy, offered⟩ := h.copy
  refine ⟨_, (h.groups tk.group).trans (congrArg _ hg), ?_, m, ?_, ?_⟩
  · simp
  · dsimp only
    rw [if_pos rfl]
    exact List.mem_map.mpr ⟨n, hm, if_pos rfl⟩
  · exact offered.waiting hcopy

theorem Escalates.holdsUp {source : RemakeSource} {n : Nat} {tk : Ticket} {gr : Group} {s t : State} (h : Escalates source n tk s t)
    (hk : ticket? s n = some tk) (hs : tk.state = .dead) (hg : group? s tk.group = some gr) (hm : n ∈ gr.tickets) :
    ∃ gr', HoldsUp tk.group gr.state t gr' := by
  refine ⟨_, (h.2 tk.group).trans (congrArg _ hg), ?_, n, ?_, ?_⟩
  · simp
  · simpa using hm
  · rw [inState_congr h.tickets, inState_congr h.tickets]
    constructor <;> refine not_inState hk ?_ <;> rw [hs] <;> simp

/-- What the remake of a DEAD ticket leaves, made or not. -/
structure Remade (source : RemakeSource) (n : Nat) (tk : Ticket) (gr : Group) (s t : State) : Prop where
  told : Told t
  unplaced : ∀ l, ticket? s l ≠ none → Unplaced s l → Unplaced t l
  holdsUp : ∃ gr', HoldsUp tk.group gr.state t gr'
  made : tk.generation < 2 → CanCopy tk s → ∃ m offerEnd, MadeCopy n m tk offerEnd s t
  failed : ¬(tk.generation < 2 ∧ CanCopy tk s) → Escalates source n tk s t
  groups : ∀ g ≠ tk.group, group? t g = group? s g
  kept : t.clock = s.clock ∧ t.waves = s.waves ∧ t.calendar = s.calendar

theorem automaticRemake_remade {n : Nat} {tk : Ticket} {gr : Group} {s : State} (source : RemakeSource) (told : Told s)
    (out : Unplaced s n) (hk : ticket? s n = some tk) (hs : tk.state = .dead) (hg : group? s tk.group = some gr) (hm : n ∈ gr.tickets) :
    Remade source n tk gr s (automaticRemake tk.group n source s).1 := by
  by_cases hc : tk.generation < 2 ∧ CanCopy tk s
  · obtain ⟨t, m, offerEnd, e, made⟩ := automaticRemake_made source hk hc.1 hc.2 (g := tk.group)
    rw [e]
    obtain ⟨told', unplaced⟩ := made.told told out
    refine ⟨told', fun l hl => unplaced l fun e => hl (e ▸ made.absent), made.holdsUp hg hm, fun _ _ => ⟨m, offerEnd, made⟩,
      fun no => absurd hc no, fun g h => ?_, ?_⟩
    · rw [made.groups]
      simp [h]
    · rw [made.rest]
      exact ⟨rfl, rfl, rfl⟩
  · obtain ⟨t, e, fails⟩ := automaticRemake_failed source hk hc
    rw [e]
    refine ⟨fails.told told, fun l _ hout p hp => hout p ((fails.standsAt l p).mp hp), fails.holdsUp hk hs hg hm,
      fun h1 h2 => absurd ⟨h1, h2⟩ hc, fun _ => fails, fun g h => ?_, ?_⟩
    · rw [fails.2]
      simp [h]
    · rw [fails.1, noticedAll_rest]
      exact ⟨rfl, rfl, rfl⟩

/-! ## The two outcomes, field by field (R115, R152, R154) -/

/-- What a remade SPOIL leaves of the ticket, its group, the stock and the notices. -/
theorem spoil_remade {n m : Nat} {tk : Ticket} {gr : Group} {offerEnd : Option Nat} {s u v z : State} (places : OnlyPlaces s u)
    (hk : ticket? s n = some tk) (made : MadeCopy n m { tk with state := .dead, position := none } offerEnd u v)
    (after : OnlyPlaces v z) (carried : Carries v z) (hg : group? s tk.group = some gr) :
    (∃ m copy, ticket? s m = none ∧ (∀ l < m, ticket? s l ≠ none) ∧ ticket? (settle z) m = some copy
      ∧ copy.generation = tk.generation + 1 ∧ copy.rush = true ∧ copy.component = tk.component
      ∧ copy.quantity = tk.quantity ∧ copy.wave = tk.wave ∧ copy.group = tk.group ∧ copy.goTime = tk.goTime
      ∧ copy.homeStation = tk.homeStation ∧ copy.seq = s.link.seq
      ∧ (copy.state = .queued ∨ copy.state = .onLine ∨ copy.state = .blocked)
      ∧ ticket? (settle z) n = none
      ∧ group? (settle z) tk.group = some { gr with tickets := gr.tickets.map fun o => if o = n then m else o }
      ∧ stockOf (settle z) tk.component = (stockOf s tk.component).map fun k => k - tk.quantity)
    ∧ (settle z).link = (settle (noticedAll
        ((s.components.get? tk.component).toList.flatMap fun r => r.stock.toList.flatMap fun k =>
          drawNotices tk.component tk.quantity k r.lowLevel)
        { s with link := { s.link with
            seq := if s.link.seq < 4294967295 then s.link.seq + 1 else s.link.seq } })).link := by
  obtain ⟨copy, hcopy, offered⟩ := made.copy
  obtain ⟨o, ho, waits, rest⟩ := offered.carried hcopy carried
  have gone := places.none_iff
  have hmn : n ≠ m := by
    rintro rfl
    exact absurd ((gone n).mp made.absent) (by simp [hk])
  have freed : ticket? (settle z) n = none := by
    rw [settle_ticket_get]
    exact carried.eq_none (by rw [made.others n hmn, if_pos rfl])
  have group : group? (settle z) tk.group = some { gr with tickets := gr.tickets.map fun o => if o = n then m else o } := by
    rw [settle_group_get, group?, after.groups]
    exact (made.groups tk.group).trans (by rw [group?, places.groups]; exact (congrArg _ hg).trans (by simp))
  have stock : stockOf (settle z) tk.component = (stockOf s tk.component).map fun k => k - tk.quantity := by
    rw [settle_stockOf, Machine.stockOf, after.components]
    refine (made.stockOf tk.component).trans ?_
    rw [Machine.stockOf, places.components]
    exact congrArg (fun f => Option.map f _) (funext fun k => if_pos rfl)
  refine ⟨⟨m, o, (gone m).mp made.absent, fun l hl hs => made.lowest l hl ((gone l).mpr hs), (settle_ticket_get _ _).trans ho, ?_⟩, ?_⟩
  · rw [rest]
    exact ⟨rfl, rfl, rfl, rfl, rfl, rfl, rfl, rfl, congrArg HostLink.seq places.link, waits, freed, group, stock⟩
  · refine settle_link_congr ?_
    rw [after.link, noticedAll_seq, made.rest, noticedAll_with _ places.link, places.components, places.link]

/-- What a SPOIL that is not remade leaves of the ticket, its group, the stock and the notices. -/
theorem spoil_escalated {n : Nat} {tk : Ticket} {gr : Group} {s u v z : State} (places : OnlyPlaces s u)
    (hk : ticket? u n = some { tk with state := .dead, position := none })
    (fails : Escalates .spoil n { tk with state := .dead, position := none } u v)
    (after : OnlyPlaces v z) (carried : Carries v z) (hg : group? s tk.group = some gr) :
    ticket? (settle z) n = some { tk with state := .dead, position := none }
      ∧ (settle z).components = s.components
      ∧ group? (settle z) tk.group = some { gr with escalated := true, escalationCause := some (remakeCause tk s) }
      ∧ (settle z).link = (settle (noticedAll
          ((if remakeCause tk s = .noStock then
              (stockOf s tk.component).toList.map fun k => .stockOut tk.component .short k tk.quantity
            else [])
            ++ [.groupEscalated tk.group tk.wave tk.table n tk.component (remakeCause tk s) .spoil]) s)).link := by
  have cause : remakeCause { tk with state := .dead, position := none } u = remakeCause tk s := by
    rw [remakeCause, remakeCause, places.ticketPool]
  refine ⟨?_, ?_, ?_, ?_⟩
  · rw [settle_ticket_get]
    exact carried.same ((congrArg (Store.get? · n) fails.tickets).trans hk) (by simp)
  · rw [settle_components, after.components, fails.1, noticedAll_rest]
    exact places.components
  · rw [settle_group_get, group?, after.groups]
    refine (fails.2 tk.group).trans ?_
    rw [cause, group?, places.groups]
    exact (congrArg _ hg).trans (by simp)
  · refine settle_link_congr ?_
    rw [after.link, fails.1, cause, noticedAll_with _ places.link, stockOf, places.components]
    rfl

/-! ## The whole of it (R111) -/

theorem Sound.home {n : Nat} {tk : Ticket} {s : State} (h : Sound s) (hk : ticket? s n = some tk) :
    tk.homeStation < s.stations.length := by
  rw [h.1.1]
  exact (h.2.1.1 _ (Store.mem_of_get? hk)).2

/-- The steps of a SPOIL in a sound state, each as the rules give it. -/
theorem spoil_whole {n : Nat} {tk : Ticket} {gr : Group} {s : State} (sound : Sound s) (hl : LinesSound s)
    (hk : ticket? s n = some tk) (hst : tk.state = .queued ∨ tk.state = .onLine) (hg : group? s tk.group = some gr) (hm : n ∈ gr.tickets) :
    ∃ (r u v w z : State) (made : Bool) (gr' : Group),
      r = { s with tickets := r.tickets }
      ∧ (∀ m, ticket? r m = if m = n then some { tk with state := .dead, position := none } else ticket? s m)
      ∧ LeavesPlace (.doneTicket n) n tk r u
      ∧ Remakes .spoil n made u v
      ∧ group? v tk.group = some gr'
      ∧ w = { v with
        passLine := if gr.state = .assembling then produced (groupShown v tk.group gr') v.passLine else v.passLine }
      ∧ (if Departs tk s then Drains tk.station w z else z = w)
      ∧ settle (applySpoil tk.station n tk s) = settle z := by
  have eq := applySpoil_eq tk.station n tk s
  obtain ⟨places, told, out, hku, -⟩ := spoil_leaves sound.working.told hk hst
  have lineOk : LineSound (station s tk.station).line := (linesSound_iff s).mp hl (.station tk.station)
  have linesR : LinesSound (updTicket n (fun tk => { tk with state := .dead, position := none }) s) := hl
  have tickets : ∀ m, ticket? (updTicket n (fun tk => { tk with state := .dead, position := none }) s) m
      = if m = n then some { tk with state := .dead, position := none } else ticket? s m := fun m => by
    rw [ticket_get_updTicket]
    split
    · rename_i e
      rw [e, hk, Option.map_some]
    · rfl
  have stations : ∀ x, station (updTicket n (fun tk => { tk with state := .dead, position := none }) s) x = station s x := fun _ => rfl
  have rest : updTicket n (fun tk => { tk with state := .dead, position := none }) s = { s with
    tickets := (updTicket n (fun tk => { tk with state := .dead, position := none }) s).tickets } := rfl
  generalize updTicket n (fun tk => { tk with state := .dead, position := none }) s = r at *
  dsimp only at eq told out hku places
  obtain ⟨leaves, departs⟩ := leaveStation_leaves (r := .doneTicket n) (n := n) (tk := tk) (s := r)
    (by rw [stations]; exact lineOk) hst
  obtain ⟨linesU, blockedU, -⟩ := leaveStation_keeps n tk (.doneTicket n) linesR
  generalize leaveStation n tk (.doneTicket n) r = left at *
  obtain ⟨u, dep⟩ := left
  dsimp only at *
  have home : tk.homeStation < u.stations.length := by
    rw [places.length]
    exact sound.home hk
  have blockedOk : BlockedSound u := told.blockedSound fun x => by
    rw [blockedU, stations]
    exact sound.working.blocked x
  have remakes : Remakes .spoil n (automaticRemake tk.group n .spoil u).2 u (automaticRemake tk.group n .spoil u).1 :=
    automaticRemake_remakes (tk := { tk with state := .dead, position := none }) .spoil linesU hku home blockedOk fun x => out (.station x .blocked)
  have remade : Remade .spoil n { tk with state := .dead, position := none } gr u (automaticRemake tk.group n .spoil u).1 :=
    automaticRemake_remade (tk := { tk with state := .dead, position := none }) .spoil told out hku rfl ((by rw [group?, places.groups]; exact hg)) hm
  generalize automaticRemake tk.group n .spoil u = a at *
  obtain ⟨v, made⟩ := a
  dsimp only at *
  have keeps := remakes.keeps linesU blockedOk fun x => out (.station x .blocked)
  obtain ⟨gr', hg', state, o, ho, waits⟩ := remade.holdsUp
  obtain ⟨-, carried⟩ : _ ∧ Carries v (showSpoil tk.group v) := spoil_shown false (x := tk.station) remade.told hg' ho waits
  have shown : showSpoil tk.group v = { v with
      passLine := if gr.state = .assembling then produced (groupShown v tk.group gr') v.passLine else v.passLine } := by
    rw [showSpoil_waits hg' ho waits, state]
    split
    · exact sendGroupUp_eq hg' (keeps.lines.line .pass)
    · rfl
  have linesW : LinesSound (showSpoil tk.group v) := by
    rw [showSpoil_waits hg' ho waits, sendGroupUp, hg']
    split
    · exact sendRecord_lines _ _ keeps.lines
    · exact keeps.lines
  have blockedW : BlockedSound (showSpoil tk.group v) :=
    carried.told.blockedSound fun x => (keeps.blocked x).1.sublist (carried.blocked x)
  refine ⟨r, u, v, showSpoil tk.group v, drainIf dep tk.station (showSpoil tk.group v), made, gr', rest, tickets, leaves, remakes, hg',
    shown, ?_, by rw [eq]⟩
  have departs : dep = true ↔ Departs tk s := by rw [departs, Departs, stations]
  split
  · rename_i d
    rw [departs.mpr d]
    exact drain_drains _ linesW blockedW
  · rename_i d
    rw [Bool.eq_false_iff.mpr fun e => d (departs.mp e)]
    rfl

/-! ## The obligation -/

/-- Settles O38: the leaving of R111, the remake or escalation of R152 to R154, and the whole of it from a sound state. -/
theorem spoilIsRemadeOrEscalated : Obligations.SpoilIsRemadeOrEscalated := by
  intro x n tk gr s coherent hx hc hp hk hat hst hg hm
  subst hat
  replace hst : tk.state = .queued ∨ tk.state = .onLine := hst.imp id And.left
  have run : exec (.spoil tk.station n) s = .next (settle (applySpoil tk.station n.toNat tk s)) := by
    rw [← takeSpoil_applies hc hp hk rfl hst]
    exact if_pos (Nat.lt_succ_of_le hx)
  have eq := applySpoil_eq tk.station n.toNat tk s
  obtain ⟨places, told, out, hku, -⟩ := spoil_leaves coherent.told hk hst
  refine ⟨_, run, ?_⟩
  have whole : Sound s → LinesSound s → _ := fun sound hl => spoil_whole sound hl hk hst hg hm
  simp only [settle_clock, settle_waves, settle_calendar]
  generalize updTicket n.toNat (fun tk => { tk with state := .dead, position := none }) s = r at *
  dsimp only at *
  generalize leaveStation n.toNat tk (.doneTicket n.toNat) r = left at *
  obtain ⟨u, dep⟩ := left
  dsimp only at *
  have hgu : group? u tk.group = some gr := by rw [group?, places.groups]; exact hg
  have remade : Remade .spoil n.toNat { tk with state := .dead, position := none } gr u (automaticRemake tk.group n.toNat .spoil u).1 :=
    automaticRemake_remade (tk := { tk with state := .dead, position := none }) .spoil told out hku rfl hgu hm
  generalize automaticRemake tk.group n.toNat .spoil u = a at *
  obtain ⟨v, made⟩ := a
  dsimp only at *
  obtain ⟨gr', hg', state, o, ho, waits⟩ := remade.holdsUp
  obtain ⟨after, carried⟩ := spoil_shown dep (x := tk.station) remade.told hg' ho waits
  rw [← eq] at after carried
  obtain ⟨clock, waves, calendar⟩ := remade.kept
  have short : Short u tk.component tk.quantity ↔ Short s tk.component tk.quantity := by
    rw [Short, Short, stockOf, stockOf, places.components]
  refine ⟨after.clock.trans (clock.trans places.clock), after.waves.trans (waves.trans places.waves),
    after.calendar.trans (calendar.trans places.calendar), fun hgen hf hs => ?_, fun no => ?_, fun h hh => ?_, whole⟩
  · obtain ⟨m, offerEnd, copied⟩ := remade.made hgen ⟨places.ticketPool ▸ hf, fun h => hs (short.mp h)⟩
    exact spoil_remade places hk copied after carried hg
  · refine spoil_escalated places hku (remade.failed ?_) after carried hg
    rintro ⟨hgen, hf, hs⟩
    rcases no with h | h | h
    · exact absurd h (Nat.not_le.mpr hgen)
    · exact absurd h (Nat.ne_of_gt (places.ticketPool ▸ hf))
    · exact hs (short.mpr h)
  · rw [settle_group_get, group?, after.groups]
    exact (remade.groups h hh).trans (by rw [group?, places.groups]; rfl)

end Sys2Proof.Machine
end

section
/-!
PROOFS. The slots of a die expiry, one after another: which are replaced, what each copy draws, and what is reported of each (R150 to R154).
-/

namespace Sys2Proof.Machine

/-! ## What the copies of some slots draw and report (R11 to R13, R152, R154) -/

/-- What the copies in the slots of `ns` draw of component `c`: `f` gives the number that stands in a slot afterwards. -/
def drawnBy (s : State) (f : Nat → Nat) (c : Nat) (ns : List Nat) : Nat :=
  ((ns.filter fun n => decide (n ≠ f n)).flatMap fun n =>
    (ticket? s n).toList.map fun tk => if tk.component = c then tk.quantity else 0).sum

theorem drawnBy_congr {s : State} {f f' : Nat → Nat} {c : Nat} {ns : List Nat} (h : ∀ n ∈ ns, f' n = f n) :
    drawnBy s f' c ns = drawnBy s f c ns := by
  rw [drawnBy, drawnBy, List.filter_congr fun n hn => by rw [h n hn]]

theorem drawnBy_snoc_same {s : State} {f : Nat → Nat} {c n : Nat} {ns : List Nat} (h : f n = n) :
    drawnBy s f c (ns ++ [n]) = drawnBy s f c ns := by
  simp [drawnBy, h]

theorem drawnBy_snoc_copy {s : State} {f : Nat → Nat} {c n : Nat} {tk : Ticket} {ns : List Nat} (h : f n ≠ n)
    (hk : ticket? s n = some tk) :
    drawnBy s f c (ns ++ [n]) = drawnBy s f c ns + if tk.component = c then tk.quantity else 0 := by
  simp [drawnBy, Ne.symm h, hk]

/-- The notices of the remake in the slot of `n`, the slots `pre` having been taken before it. -/
def slotNotices (g : Nat) (s : State) (f : Nat → Nat) (pre : List Nat) (n : Nat) : List Notice :=
  (ticket? s n).toList.flatMap fun tk =>
    if f n ≠ n then
      (s.components.get? tk.component).toList.flatMap fun r => r.stock.toList.flatMap fun m =>
        drawNotices tk.component tk.quantity (m - drawnBy s f tk.component pre) r.lowLevel
    else if 2 ≤ tk.generation then [.groupEscalated g tk.wave tk.table n tk.component .generation .die]
    else if s.ticketPool.free = 0 then [.groupEscalated g tk.wave tk.table n tk.component .noTickets .die]
    else ((stockOf s tk.component).toList.map fun m =>
        .stockOut tk.component .short (m - drawnBy s f tk.component pre) tk.quantity)
      ++ [.groupEscalated g tk.wave tk.table n tk.component .noStock .die]

/-- The notices of the remakes in the slots of `l` whose tickets have died. -/
def deathNotices (p : Nat → Bool) (g : Nat) (s : State) (f : Nat → Nat) (l : List Nat) : List Notice :=
  (List.range l.length).flatMap fun k => (l[k]?.filter p).toList.flatMap fun n => slotNotices g s f (l.take k) n

theorem slotNotices_congr {g : Nat} {s : State} {f f' : Nat → Nat} {pre : List Nat} {n : Nat} (hn : f' n = f n)
    (h : ∀ l ∈ pre, f' l = f l) : slotNotices g s f' pre n = slotNotices g s f pre n := by
  simp only [slotNotices, hn, drawnBy_congr h]

theorem deathNotices_congr {p : Nat → Bool} {g : Nat} {s : State} {f f' : Nat → Nat} {l : List Nat} (h : ∀ n ∈ l, f' n = f n) :
    deathNotices p g s f' l = deathNotices p g s f l := by
  refine List.flatMap_congr fun k _ => List.flatMap_congr fun n hn => ?_
  have hk : l[k]? = some n := (Option.filter_eq_some_iff.mp (Option.mem_toList.mp hn)).1
  exact slotNotices_congr (h n (List.mem_of_getElem? hk)) fun m hm => h m (List.mem_of_mem_take hm)

theorem deathNotices_snoc (p : Nat → Bool) (g : Nat) (s : State) (f : Nat → Nat) (l : List Nat) (n : Nat) :
    deathNotices p g s f (l ++ [n]) = deathNotices p g s f l ++ if p n then slotNotices g s f l n else [] := by
  rw [deathNotices, List.length_append, List.length_singleton, List.range_succ, List.flatMap_append, deathNotices]
  refine congrArg₂ (· ++ ·) ?_ ?_
  · refine List.flatMap_congr fun k hk => ?_
    have hk := List.mem_range.mp hk
    rw [List.getElem?_append_left hk, List.take_append_of_le_length hk.le]
  · rw [List.flatMap_singleton, List.getElem?_append_right (Nat.le_refl _), Nat.sub_self, List.take_left']
    · cases hp : p n <;> simp [Option.filter, hp]
    · rfl

/-! ## Notices behind notices (R175) -/

/-- The link of `t` is that of `s` with these notices and another sequence counter. -/
def NoticedOnly (ns : List Notice) (s t : State) : Prop :=
  t.link = { (noticedAll ns s).link with seq := t.link.seq }

theorem NoticedOnly.append {ns ms : List Notice} {s t : State} (h : NoticedOnly ns s t) :
    (noticedAll ms t).link = { (noticedAll (ns ++ ms) s).link with seq := t.link.seq } := by
  have link : t.link = ({ noticedAll ns s with link := { (noticedAll ns s).link with seq := t.link.seq } } : State).link := h
  rw [noticedAll_with ms link, noticedAll_seq, noticedAll_append]

/-! ## The slots taken so far (R151 to R154) -/

/-- The record of a ticket that is DEAD since its hold window ran out. -/
def Ticket.died (tk : Ticket) : Ticket :=
  { tk with state := .dead, readyAt := none }

/-- A copy of a ticket of this record can be made once the slots `pre` have been taken. -/
def Replaceable (s : State) (f : Nat → Nat) (pre : List Nat) (tk : Ticket) : Prop :=
  tk.generation < 2 ∧ 0 < s.ticketPool.free ∧ ∀ m ∈ stockOf s tk.component, drawnBy s f tk.component pre + tk.quantity ≤ m

/-- The slots `pre` of group `g` have been taken, those of the tickets that have died replaced or left DEAD: `f` gives the number that stands in each
slot now, and state `v` comes of state `s`. -/
structure Replaced (g : Nat) (gr : Group) (p : Nat → Bool) (s : State) (pre : List Nat) (f : Nat → Nat) (v : State) : Prop where
  rest : v = { s with
    link := v.link, components := v.components, tickets := v.tickets, groups := v.groups, stations := v.stations, passLine := v.passLine }
  config : ∀ x, (station v x).config = (station s x).config
  load : ∀ x, (station v x).load = (station s x).load
  counts : ∀ c, v.components.get? c
    = (s.components.get? c).map fun r => { r with stock := r.stock.map fun k => k - drawnBy s f c pre }
  covered : ∀ c, ∀ k ∈ stockOf s c, drawnBy s f c pre ≤ k
  same : ∀ n, n ∉ pre ∨ p n = false → f n = n
  fresh : ∀ n, f n ≠ n → ∀ l, ticket? s l ≠ none → l ∉ pre → f n ≠ l
  kept : ∀ n tk, f n = n → ticket? s n = some tk →
    ticket? v n = some (if n ∈ gr.tickets ∧ p n = true then tk.died else tk)
  copies : ∀ n tk, f n ≠ n → ticket? s n = some tk →
    ∃ q offerEnd copy, ticket? v (f n) = some copy ∧ OfferedAs { freshCopy s tk with seq := q } offerEnd copy
  outcome : ∀ (j n : Nat) (tk : Ticket), pre[j]? = some n → p n = true → ticket? s n = some tk →
    (f n ≠ n ↔ Replaceable s f (pre.take j) tk)
  group : ∃ gr', group? v g = some gr'
    ∧ gr' = { gr with tickets := gr.tickets.map f, escalated := gr'.escalated, escalationCause := gr'.escalationCause }
    ∧ (gr'.escalated = true ↔ gr.escalated = true ∨ ∃ n ∈ pre, p n = true ∧ f n = n)
  others : ∀ h ≠ g, group? v h = group? s h
  told : Told v
  unplaced : ∀ n, ticket? s n ≠ none → n ∉ pre → Unplaced s n → Unplaced v n
  notices : NoticedOnly (deathNotices p g s f pre) s v
  seq : s.link.seq ≤ 4294967295 →
    v.link.seq = min 4294967295 (s.link.seq + (pre.filter fun n => decide (n ≠ f n)).length)

theorem Replaced.stockOf {g : Nat} {gr : Group} {p : Nat → Bool} {s v : State} {pre : List Nat} {f : Nat → Nat}
    (h : Replaced g gr p s pre f v) (c : Nat) : stockOf v c = (stockOf s c).map fun k => k - drawnBy s f c pre := by
  rw [Machine.stockOf, Machine.stockOf, h.counts]
  cases s.components.get? c <;> rfl

/-- A copy made now differs from one made before in its sequence number alone. -/
theorem Replaced.freshCopy {g : Nat} {gr : Group} {p : Nat → Bool} {s v : State} {pre : List Nat} {f : Nat → Nat}
    (h : Replaced g gr p s pre f v) (tk : Ticket) : freshCopy v tk.died = { freshCopy s tk with seq := v.link.seq } := by
  have cook : cookTime v tk.component = cookTime s tk.component := by
    rw [cookTime, cookTime, h.counts]
    cases s.components.get? tk.component <;> rfl
  have carry : carry v tk.homeStation = carry s tk.homeStation := by rw [Machine.carry, Machine.carry, h.config]
  have times : fireTimeAt v tk.homeStation tk.component tk.goTime = fireTimeAt s tk.homeStation tk.component tk.goTime := by
    rw [fireTimeAt, fireTimeAt, carry, cook, stretch, stretch, stretchOf, stretchOf, h.config, h.load]
  rw [Machine.freshCopy, Machine.freshCopy, Ticket.died]
  simp only [times, carry]

/-- The copies that can be made now are those that the stock left covers. -/
theorem Replaced.replaceable {g : Nat} {gr : Group} {p : Nat → Bool} {s v : State} {pre : List Nat} {f : Nat → Nat}
    (h : Replaced g gr p s pre f v) (tk : Ticket) : Replaceable s f pre tk ↔ tk.died.generation < 2 ∧ CanCopy tk.died v := by
  have pool : v.ticketPool = s.ticketPool := by rw [h.rest]
  have stock : ¬Short v tk.component tk.quantity ↔ ∀ m ∈ Machine.stockOf s tk.component, drawnBy s f tk.component pre + tk.quantity ≤ m := by
    have covered := h.covered tk.component
    rw [Short, h.stockOf]
    cases hs : Machine.stockOf s tk.component with
    | none => simp
    | some k =>
      have := covered k (by rw [hs]; rfl)
      simp only [Option.map_some, Option.mem_def, Option.some.injEq, exists_eq_left', forall_eq']
      omega
  rw [Replaceable, CanCopy, pool, ← stock]
  rfl

/-! ## One slot more (R151) -/

section
variable {g : Nat} {gr : Group} {p : Nat → Bool} {s v : State} {pre : List Nat} {f : Nat → Nat} {n : Nat}

/-- The outcomes of the slots taken before stand, whatever the next slot's outcome. -/
theorem Replaced.outcome_snoc (h : Replaced g gr p s pre f v) {f' : Nat → Nat} (hf : ∀ l ∈ pre, f' l = f l)
    (hn : ∀ tk, p n = true → ticket? s n = some tk → (f' n ≠ n ↔ Replaceable s f pre tk)) (j l : Nat) (tk : Ticket)
    (hj : (pre ++ [n])[j]? = some l) (hp : p l = true) (hk : ticket? s l = some tk) :
    f' l ≠ l ↔ Replaceable s f' ((pre ++ [n]).take j) tk := by
  have same : ∀ k, Replaceable s f' (pre.take k) tk ↔ Replaceable s f (pre.take k) tk := fun k => by
    rw [Replaceable, Replaceable, drawnBy_congr fun l hl => hf l (List.mem_of_mem_take hl)]
  by_cases hlt : j < pre.length
  · rw [List.getElem?_append_left hlt] at hj
    rw [List.take_append_of_le_length hlt.le, same, hf l (List.mem_of_getElem? hj)]
    exact h.outcome j l tk hj hp hk
  · rw [List.getElem?_append_right (not_lt.mp hlt)] at hj
    obtain rfl : j = pre.length := by
      have := (List.getElem?_eq_some_iff.mp hj).1
      rw [List.length_singleton] at this
      omega
    rw [Nat.sub_self] at hj
    obtain rfl : n = l := Option.some.inj hj
    have whole := same pre.length
    rw [List.take_length] at whole
    rw [List.take_left' rfl, whole]
    exact hn tk hp hk

/-- The slot of a ticket that has not died is passed over. -/
theorem Replaced.passed (h : Replaced g gr p s pre f v) (hp : p n = false) : Replaced g gr p s (pre ++ [n]) f v := by
  have fn : f n = n := h.same n (.inr hp)
  refine { h with
    counts := fun c => ?_, covered := fun c => ?_, same := fun l hl => ?_, fresh := fun l hf o ho hm => ?_
    outcome := fun j l tk => ?_, group := ?_, unplaced := fun l hl hm => ?_, notices := ?_, seq := fun hs => ?_ }
  · rw [drawnBy_snoc_same fn]
    exact h.counts c
  · rw [drawnBy_snoc_same fn]
    exact h.covered c
  · exact h.same l (hl.imp_left fun hm => fun hm' => hm (List.mem_append_left _ hm'))
  · exact h.fresh l hf o ho fun hm' => hm (List.mem_append_left _ hm')
  · exact h.outcome_snoc (fun _ _ => rfl) (fun _ hp' => absurd (hp.symm.trans hp') (by simp)) j l tk
  · obtain ⟨gr', hg, rest, escalated⟩ := h.group
    exact ⟨gr', hg, rest, by simp [escalated, or_and_right, exists_or, hp]⟩
  · exact h.unplaced l hl fun hm' => hm (List.mem_append_left _ hm')
  · rw [deathNotices_snoc, if_neg (by simp [hp]), List.append_nil]
    exact h.notices
  · rw [h.seq hs]
    simp [fn]

/-- The slot of a ticket that is not replaced keeps it, DEAD, and its group is escalated. -/
theorem Replaced.escalated (h : Replaced g gr p s pre f v) {tk : Ticket} {t : State} (hp : p n = true) (hn : n ∉ pre)
    (hk : ticket? s n = some tk) (hg : tk.group = g) (he : Escalates .die n tk.died v t) (hno : ¬Replaceable s f pre tk) :
    Replaced g gr p s (pre ++ [n]) f t := by
  have fn : f n = n := h.same n (.inl hn)
  have stock := h.stockOf tk.component
  have pool : v.ticketPool = s.ticketPool := by rw [h.rest]
  have rest : t = { v with link := t.link, groups := t.groups } := by rw [he.1, noticedAll_rest]
  have link : t.link = (noticedAll ((if remakeCause tk.died v = .noStock then
      (Machine.stockOf v tk.component).toList.map fun k => .stockOut tk.component .short k tk.quantity
    else []) ++ [.groupEscalated g tk.wave tk.table n tk.component (remakeCause tk.died v) .die]) v).link := by
    rw [he.1, ← hg]
    rfl
  have seq : t.link.seq = v.link.seq := by rw [link, noticedAll_rest]
  have slot : slotNotices g s f pre n = (if remakeCause tk.died v = .noStock then
      (Machine.stockOf v tk.component).toList.map fun k => .stockOut tk.component .short k tk.quantity
    else []) ++ [.groupEscalated g tk.wave tk.table n tk.component (remakeCause tk.died v) .die] := by
    rw [slotNotices, hk, remakeCause, show tk.died.generation = tk.generation from rfl, pool, stock]
    simp only [Option.toList_some, List.flatMap_singleton, fn, ne_eq, not_true_eq_false, if_false]
    by_cases hgen : 2 ≤ tk.generation
    · simp [hgen]
    · by_cases h0 : s.ticketPool.free = 0
      · simp [hgen, h0]
      · cases hs : Machine.stockOf s tk.component <;> simp [hgen, h0]
  have groups := he.2
  rw [show tk.died.group = g from hg] at groups
  have station : ∀ x, Machine.station t x = Machine.station v x := fun x => by rw [rest]; rfl
  refine ⟨?_, fun x => ?_, fun x => ?_, fun c => ?_, fun c => ?_, fun l hl => ?_, fun l hf o ho hm => ?_, fun l o hf ho => ?_,
    fun l o hf ho => ?_, fun j l o => ?_, ?_, fun l hl => ?_, he.told h.told, fun l hl hm hout q hq => ?_, ?_, fun hs => ?_⟩
  · rw [rest, h.rest]
  · rw [station, h.config]
  · rw [station, h.load]
  · rw [drawnBy_snoc_same fn, rest]
    exact h.counts c
  · rw [drawnBy_snoc_same fn]
    exact h.covered c
  · exact h.same l (hl.imp_left fun hm hm' => hm (List.mem_append_left _ hm'))
  · exact h.fresh l hf o ho fun hm' => hm (List.mem_append_left _ hm')
  · rw [ticket?, he.tickets]
    exact h.kept l o hf ho
  · rw [ticket?, he.tickets]
    exact h.copies l o hf ho
  · refine h.outcome_snoc (fun _ _ => rfl) (fun tk' _ hk' => ?_) j l o
    obtain rfl : tk = tk' := Option.some.inj (hk.symm.trans hk')
    exact iff_of_false (not_not.mpr fn) hno
  · obtain ⟨gr', hgr, shape, escalated⟩ := h.group
    refine ⟨{ gr' with escalated := true, escalationCause := some (remakeCause tk.died v) }, ?_, ?_, ?_⟩
    · rw [groups, hgr, Option.map_some, if_pos rfl]
    · rw [shape]
    · exact iff_of_true rfl (.inr ⟨n, by simp, hp, fn⟩)
  · simp only [groups, h.others l hl, if_neg hl, Option.map_id']
  · exact h.unplaced l hl (fun hm' => hm (List.mem_append_left _ hm')) hout q ((he.standsAt l q).mp hq)
  · rw [NoticedOnly, deathNotices_snoc, if_pos hp, slot, seq, link]
    exact h.notices.append
  · rw [seq, h.seq hs]
    simp [fn]

/-- The slot of a ticket that is replaced holds its copy. -/
theorem Replaced.copied (h : Replaced g gr p s pre f v) {tk : Ticket} {t : State} {m : Nat} {offerEnd : Option Nat}
    (hp : p n = true) (hn : n ∉ pre) (hm : n ∈ gr.tickets) (out : Unplaced s n)
    (hk : ticket? s n = some tk) (hg : tk.group = g) (made : MadeCopy n m tk.died offerEnd v t) (hc : Replaceable s f pre tk) :
    Replaced g gr p s (pre ++ [n]) (Function.update f n m) t ∧ Function.update f n m n ≠ n := by
  have fn : f n = n := h.same n (.inl hn)
  have hkv : ticket? v n = some tk.died := by rw [h.kept n tk fn hk, if_pos ⟨hm, hp⟩]
  have hmn : m ≠ n := by
    rintro rfl
    exact absurd (made.absent.symm.trans hkv) (by simp)
  have new : Function.update f n m n = m := Function.update_self ..
  have old : ∀ l, l ≠ n → Function.update f n m l = f l := fun l hl => Function.update_of_ne hl ..
  have before : ∀ l ∈ pre, Function.update f n m l = f l := fun l hl => old l fun e => hn (e ▸ hl)
  have live : ∀ l, ticket? v l ≠ none → m ≠ l := fun l hl e => hl (e ▸ made.absent)
  have copiesLive : ∀ l, f l ≠ l → ticket? s l ≠ none → m ≠ f l ∧ f l ≠ n := fun l hf hl => by
    obtain ⟨tk', hk'⟩ := Option.ne_none_iff_exists'.mp hl
    obtain ⟨q, e, copy, hcopy, -⟩ := h.copies l tk' hf hk'
    exact ⟨live _ (by simp [hcopy]), h.fresh l hf n (by simp [hk]) hn⟩
  generalize Function.update f n m = f' at *
  have slot : slotNotices g s f' pre n = (v.components.get? tk.component).toList.flatMap fun r => r.stock.toList.flatMap fun k =>
      drawNotices tk.component tk.quantity k r.lowLevel := by
    rw [slotNotices, hk, h.counts, new]
    simp only [Option.toList_some, List.flatMap_singleton, ne_eq, hmn, not_false_eq_true, if_true, drawnBy_congr before]
    cases hc : s.components.get? tk.component with
    | none => rfl
    | some r => cases hs : r.stock <;> simp [hs]
  have counted : ∀ c, drawnBy s f' c (pre ++ [n]) = drawnBy s f c pre + if tk.component = c then tk.quantity else 0 := fun c => by
    rw [drawnBy_snoc_copy (new ▸ hmn) hk, drawnBy_congr before]
  have link := congrArg State.link made.rest
  dsimp only at link
  have groups := made.groups
  rw [show tk.died.group = g from hg] at groups
  obtain ⟨told, unplaced⟩ := made.told h.told (h.unplaced n (by simp [hk]) hn out)
  refine ⟨⟨?_, fun x => ?_, fun x => ?_, fun c => ?_, fun c k hk' => ?_, fun l hl => ?_, fun l hf o ho hm => ?_, fun l o hf ho => ?_,
    fun l o hf ho => ?_, fun j l o => ?_, ?_, fun l hl => ?_, ?_, fun l hl hm hout => ?_, ?_, fun hs => ?_⟩, new ▸ hmn⟩
  · rw [made.rest, h.rest]
  · rw [made.config, h.config]
  · rw [made.load, h.load]
  · rw [made.counts, h.counts, counted, Option.map_map]
    refine Option.map_congr fun r _ => ?_
    by_cases e : c = tk.component
    · subst e
      cases hr : r.stock <;> simp [Ticket.died, hr, Nat.sub_sub]
    · simp [Ticket.died, e, Ne.symm e]
  · rw [counted]
    have := h.covered c k hk'
    split
    · rename_i e
      subst e
      exact hc.2.2 k hk'
    · exact this
  · have hl' : l ≠ n := fun e => hl.elim (fun h => h (e ▸ by simp)) fun h => absurd (h.symm.trans (e ▸ hp)) (by simp)
    rw [old l hl']
    exact h.same l (hl.imp_left fun hm hm' => hm (List.mem_append_left _ hm'))
  · have hon : o ≠ n := fun e => hm (e ▸ by simp)
    have ho' : o ∉ pre := fun hm' => hm (List.mem_append_left _ hm')
    by_cases hl : l = n
    · obtain ⟨tk', hk'⟩ := Option.ne_none_iff_exists'.mp ho
      rw [hl, new]
      exact live o (by simp [h.kept o tk' (h.same o (.inl ho')) hk'])
    · rw [old l hl] at hf ⊢
      exact h.fresh l hf o ho ho'
  · have hl : l ≠ n := fun e => hmn (by rw [← new, ← e, hf])
    have kept := h.kept l o ((old l hl).symm.trans hf) ho
    rw [made.others l (Ne.symm (live l (by simp [kept]))), if_neg hl, kept]
  · by_cases hl : l = n
    · subst hl
      obtain rfl : tk = o := Option.some.inj (hk.symm.trans ho)
      obtain ⟨copy, hcopy, offered⟩ := made.copy
      rw [h.freshCopy] at offered
      exact ⟨_, _, copy, new ▸ hcopy, offered⟩
    · rw [old l hl] at hf ⊢
      obtain ⟨hm, hn'⟩ := copiesLive l hf (by simp [ho])
      rw [made.others _ (Ne.symm hm), if_neg hn']
      exact h.copies l o hf ho
  · refine h.outcome_snoc before (fun tk' _ hk' => ?_) j l o
    obtain rfl : tk = tk' := Option.some.inj (hk.symm.trans hk')
    exact iff_of_true (new ▸ hmn) hc
  · obtain ⟨gr', hgr, shape, escalated⟩ := h.group
    have mapped : gr'.tickets.map (fun o => if o = n then m else o) = gr.tickets.map f' := by
      rw [shape, List.map_map]
      refine List.map_congr_left fun o _ => ?_
      rw [Function.comp_apply]
      by_cases ho : o = n
      · rw [ho, fn, if_pos rfl, new]
      · rw [old o ho, if_neg]
        intro e
        by_cases hf : f o = o
        · exact ho (hf.symm.trans e)
        · exact h.fresh o hf n (by simp [hk]) hn e
    refine ⟨{ gr' with tickets := gr.tickets.map f' }, ?_, ?_, ?_⟩
    · rw [groups, hgr, Option.map_some, if_pos rfl, mapped]
    · rw [shape]
    · refine escalated.trans (or_congr_right ⟨fun ⟨l, hl, hd, hf⟩ => ⟨l, by simp [hl], hd, (before l hl).trans hf⟩,
        fun ⟨l, hl, hd, hf⟩ => ?_⟩)
      have hln : l ≠ n := fun e => hmn (by rw [← new, ← e, hf])
      exact ⟨l, (List.mem_append.mp hl).resolve_right (by simpa using hln), hd, (old l hln).symm.trans hf⟩
  · simp only [groups, h.others l hl, if_neg hl, Option.map_id']
  · exact told
  · have hm' : l ∉ pre := fun hm' => hm (List.mem_append_left _ hm')
    obtain ⟨tk', hk'⟩ := Option.ne_none_iff_exists'.mp hl
    exact unplaced l (Ne.symm (live l (by simp [h.kept l tk' (h.same l (.inl hm')) hk']))) (h.unplaced l hl hm' hout)
  · rw [NoticedOnly, deathNotices_snoc, if_pos hp, slot, link, deathNotices_congr before]
    have := h.notices.append (ms := (v.components.get? tk.component).toList.flatMap fun r => r.stock.toList.flatMap fun k =>
      drawNotices tk.component tk.quantity k r.lowLevel)
    exact congrArg (fun k : HostLink => { k with seq := if v.link.seq < 4294967295 then v.link.seq + 1 else v.link.seq }) this
  · rw [link]
    have := h.seq hs
    rw [List.filter_append, List.length_append, List.filter_congr fun l hl => by rw [before l hl]]
    simp only [List.filter_singleton, new, decide_eq_true hmn.symm, cond_true, List.length_singleton]
    split <;> omega

/-- The slot of a ticket that has died, taken: it is replaced or not. -/
theorem Replaced.taken (h : Replaced g gr p s pre f v) {tk : Ticket} (hp : p n = true) (hn : n ∉ pre) (hm : n ∈ gr.tickets)
    (out : Unplaced s n) (hk : ticket? s n = some tk) (hg : tk.group = g) :
    ∃ f', Replaced g gr p s (pre ++ [n]) f' (automaticRemake g n .die v).1 ∧ (∀ l ∈ pre, f' l = f l)
      ∧ ((automaticRemake g n .die v).2 = true ↔ n ≠ f' n) ∧ (automaticRemake g n .die v).1.passLine = v.passLine := by
  have fn : f n = n := h.same n (.inl hn)
  have hkv : ticket? v n = some tk.died := by rw [h.kept n tk fn hk, if_pos ⟨hm, hp⟩]
  by_cases hc : Replaceable s f pre tk
  · obtain ⟨hgen, can⟩ := (h.replaceable tk).mp hc
    obtain ⟨t, m, offerEnd, e, made⟩ := automaticRemake_made (g := g) .die hkv hgen can
    obtain ⟨copied, new⟩ := h.copied hp hn hm out hk hg made hc
    rw [e]
    exact ⟨_, copied, fun l hl => Function.update_of_ne (fun same : l = n => hn (same ▸ hl)) .., iff_of_true rfl new.symm, by rw [made.rest]⟩
  · obtain ⟨t, e, fails⟩ := automaticRemake_failed .die hkv fun can => hc ((h.replaceable tk).mpr can)
    rw [show tk.died.group = g from hg] at e
    rw [e]
    exact ⟨f, h.escalated hp hn hk hg fails hc, fun _ _ => rfl, iff_of_false (by simp) (by simp [fn]),
      by rw [fails.1, noticedAll_rest]⟩

end

/-- The slots of a group's list, those of the tickets that have died taken one after another (R151). -/
theorem automaticRemakes_replaced {g : Nat} {gr : Group} {p : Nat → Bool} {s : State} (nodup : gr.tickets.Nodup)
    (live : ∀ n ∈ gr.tickets, ∃ tk, ticket? s n = some tk ∧ tk.group = g) (out : ∀ n ∈ gr.tickets, p n = true → Unplaced s n)
    (post : List Nat) {pre : List Nat} {f : Nat → Nat} {v : State} (hl : gr.tickets = pre ++ post) (h : Replaced g gr p s pre f v) :
    ∃ f', Replaced g gr p s gr.tickets f' (automaticRemakes g .die (post.filter p) v).1 ∧ (∀ l ∈ pre, f' l = f l)
      ∧ (automaticRemakes g .die (post.filter p) v).2 = (post.filter fun n => decide (n ≠ f' n)).length
      ∧ (automaticRemakes g .die (post.filter p) v).1.passLine = v.passLine := by
  induction post generalizing pre f v with
  | nil =>
    rw [List.append_nil] at hl
    exact ⟨f, hl ▸ h, fun _ _ => rfl, rfl, rfl⟩
  | cons n post ih =>
    have hm : n ∈ gr.tickets := by simp [hl]
    have hn : n ∉ pre := fun hn => by
      rw [hl, List.nodup_append'] at nodup
      exact nodup.2.2 hn (List.mem_cons_self ..)
    have hl' : gr.tickets = (pre ++ [n]) ++ post := by rw [hl, List.append_assoc, List.singleton_append]
    obtain ⟨tk, hk, hg⟩ := live n hm
    by_cases hp : p n = true
    · obtain ⟨f', taken, before, made, line⟩ := h.taken hp hn hm (out n hm hp) hk hg
      obtain ⟨f'', all, before', count, line'⟩ := ih hl' taken
      rw [List.filter_cons, if_pos hp, automaticRemakes_cons]
      refine ⟨f'', all, fun l hl => (before' l (by simp [hl])).trans (before l hl), ?_, line'.trans line⟩
      have last : f'' n = f' n := before' n (by simp)
      rw [← last] at made
      dsimp only
      rw [count, List.filter_cons]
      by_cases hne : n ≠ f'' n
      · rw [if_pos (made.mpr hne), if_pos (decide_eq_true hne), List.length_cons, Nat.add_comm]
      · rw [if_neg fun e => hne (made.mp e), if_neg (by simpa using hne), Nat.zero_add]
    · obtain ⟨f', all, before, count, line⟩ := ih hl' (h.passed (Bool.eq_false_iff.mpr hp))
      rw [List.filter_cons, if_neg hp]
      refine ⟨f', all, fun l hl => before l (by simp [hl]), ?_, line⟩
      rw [count, List.filter_cons, if_neg]
      have last : f' n = f n := before n (by simp)
      simp [last, h.same n (.inr (Bool.eq_false_iff.mpr hp))]

end Sys2Proof.Machine
end

section
/-!
PROOFS. The die expiry of a group, whole: the dead marked, their slots taken, and the group shown (R150, R151).
-/

namespace Sys2Proof.Machine

/-! ## Changes of one group and of what the terminals are sent (R149, R150, R164) -/

/-- One group's record and the lines change, and nothing else. -/
structure OnlyGroup (g : Nat) (s t : State) : Prop where
  rest : t = { s with groups := t.groups, stations := t.stations, passLine := t.passLine }
  config : ∀ x, (station t x).config = (station s x).config
  load : ∀ x, (station t x).load = (station s x).load
  others : ∀ h ≠ g, group? t h = group? s h
  places : ∀ n p, StandsAt t n p ↔ StandsAt s n p

namespace OnlyGroup

theorem trans {g : Nat} {s t u : State} (h : OnlyGroup g s t) (k : OnlyGroup g t u) : OnlyGroup g s u where
  rest := by rw [k.rest, h.rest]
  config x := (k.config x).trans (h.config x)
  load x := (k.load x).trans (h.load x)
  others l hl := (k.others l hl).trans (h.others l hl)
  places n p := (k.places n p).trans (h.places n p)

theorem ofLines {s t : State} (h : OnlyLines s t) (g : Nat) : OnlyGroup g s t :=
  ⟨by rw [h.rest], h.config, h.load, fun _ _ => congrArg (Store.get? · _) h.groups, h.standsAt⟩

theorem refl (g : Nat) (s : State) : OnlyGroup g s s :=
  ofLines (.refl s) g

theorem updGroup (g : Nat) (f : Group → Group) (s : State) : OnlyGroup g s (updGroup g f s) :=
  ⟨rfl, fun _ => rfl, fun _ => rfl, fun h hh => by rw [group_get_updGroup, if_neg hh], fun _ _ => .rfl⟩

variable {g : Nat} {s t : State} (h : OnlyGroup g s t)
include h

theorem tickets : t.tickets = s.tickets := by rw [h.rest]
theorem components : t.components = s.components := by rw [h.rest]
theorem clock : t.clock = s.clock := by rw [h.rest]
theorem waves : t.waves = s.waves := by rw [h.rest]
theorem calendar : t.calendar = s.calendar := by rw [h.rest]
theorem link : t.link = s.link := by rw [h.rest]
theorem ticketPool : t.ticketPool = s.ticketPool := by rw [h.rest]
theorem groupPool : t.groupPool = s.groupPool := by rw [h.rest]

theorem ticket (n : Nat) : ticket? t n = ticket? s n := by
  rw [ticket?, h.tickets]
  rfl

theorem told (k : Told s) : Told t := by
  intro n p hp
  rw [h.ticket]
  exact k n p ((h.places n p).mp hp)

end OnlyGroup

theorem sendGroupUp_lines (g : Nat) (s : State) : OnlyLines s (sendGroupUp g s) := by
  unfold sendGroupUp
  split
  · exact sendRecord_only _ _ _
  · exact .refl s

/-- The group's record as the completion test may leave it. -/
def Group.completed (s : State) (gr : Group) : Group :=
  { gr with state := .complete, dieAt := none, pickupAt := some (s.clock + s.link.pickupLimit), unpickedReported := false }

/-- The completion test leaves the group as it is, or COMPLETE (R149). -/
theorem completionTest_only {g : Nat} {gr : Group} {s : State} (hg : group? s g = some gr) :
    OnlyGroup g s (completionTest g s)
      ∧ (completionTest g s = s ∨ group? (completionTest g s) g = some (gr.completed s)) := by
  unfold completionTest
  rw [hg]
  dsimp only
  split
  · refine ⟨(OnlyGroup.updGroup g _ s).trans (.ofLines (sendRecord_only _ _ _) g), .inr ?_⟩
    rw [group?, (sendRecord_only _ _ _).groups]
    exact (group_get_updGroup s g g _).trans (by rw [if_pos rfl, hg]; rfl)
  · exact ⟨.refl g s, .inl rfl⟩

/-! ## The dead, marked (R151) -/

/-- The tickets that die become DEAD; places stand as they were. -/
theorem makeDeadAll_marks (g : Nat) (ns : List Nat) (s : State) :
    let u := ns.foldl (fun s n => makeDead g n s) s
    u = { s with tickets := u.tickets, stations := u.stations, passLine := u.passLine }
      ∧ (∀ x, (station u x).config = (station s x).config ∧ (station u x).load = (station s x).load)
      ∧ (∀ n p, StandsAt u n p ↔ StandsAt s n p)
      ∧ ∀ n, ticket? u n = (ticket? s n).map fun tk => if n ∈ ns then tk.died else tk := by
  induction ns generalizing s with
  | nil => exact ⟨rfl, fun _ => ⟨rfl, rfl⟩, fun _ _ => .rfl, fun n => by simp⟩
  | cons m ns ih =>
    obtain ⟨rest, stations, places, tickets⟩ := ih (makeDead g m s)
    have lines : OnlyLines (updTicket m Ticket.died s) (makeDead g m s) := sendRecord_only _ _ _
    rw [List.foldl_cons]
    generalize ns.foldl (fun s n => makeDead g n s) (makeDead g m s) = u at *
    refine ⟨?_, fun x => ⟨(stations x).1.trans (lines.config x), (stations x).2.trans (lines.load x)⟩,
      fun n p => (places n p).trans (lines.standsAt n p), fun n => ?_⟩
    · rw [rest, lines.rest]
      rfl
    · rw [tickets, lines.ticket_get, ticket_get_updTicket]
      by_cases hm : n = m
      · rw [if_pos hm, Option.map_map, hm]
        refine Option.map_congr fun tk _ => ?_
        rw [Function.comp_apply, if_pos (List.mem_cons_self ..)]
        split <;> rfl
      · rw [if_neg hm]
        refine Option.map_congr fun tk _ => ?_
        simp only [List.mem_cons, hm, false_or]

/-- No slot of the group has been taken yet. -/
theorem Replaced.start {g : Nat} {gr : Group} {p : Nat → Bool} {s : State} (told : Told s) (hg : group? s g = some gr)
    (ready : ∀ n, p n = true → InState s .ready n) :
    Replaced g gr p s [] id ((gr.tickets.filter p).foldl (fun s n => makeDead g n s) s) := by
  obtain ⟨rest, stations, places, tickets⟩ := makeDeadAll_marks g (gr.tickets.filter p) s
  generalize (gr.tickets.filter p).foldl (fun s n => makeDead g n s) s = u at *
  have groups : ∀ h, group? u h = group? s h := fun h => by rw [rest]; rfl
  refine ⟨?_, fun x => (stations x).1, fun x => (stations x).2, fun c => ?_, fun c k _ => Nat.zero_le k, fun _ _ => rfl,
    fun n hn => absurd rfl hn, fun n tk _ hk => ?_, fun n _ hn => absurd rfl hn, fun j n tk hj => by simp at hj,
    ⟨gr, (groups g).trans hg, by simp, by simp⟩, fun h _ => groups h, fun n q hq => ?_, fun n _ _ out q hq => out q ((places n q).mp hq),
    ?_, fun hs => ?_⟩
  · rw [rest]
  · have none' : drawnBy s id c [] = 0 := rfl
    simp only [none', Nat.sub_zero, Option.map_id']
    rw [rest]
  · rw [tickets, hk, Option.map_some]
    simp only [List.mem_filter]
  · obtain ⟨tk, hk, names⟩ := told n q ((places n q).mp hq)
    have alive : n ∉ gr.tickets.filter p := fun hn => by
      have := ready n (List.mem_filter.mp hn).2
      rw [InState, hk] at this
      have st : tk.state = .ready := Option.some.inj this
      rcases q with _ | ⟨x, _ | _ | i⟩ <;> simp [Names, st] at names
    exact ⟨tk, by rw [tickets, hk, Option.map_some, if_neg alive], names⟩
  · rw [NoticedOnly, rest]
    rfl
  · rw [rest]
    simpa using hs

/-! ## The die expiry (R151) -/

theorem DiesAt.ready {s : State} {n d : Nat} (h : DiesAt s n d) : InState s .ready n := by
  obtain ⟨tk, r, c, hk, hs, -⟩ := h
  rw [InState, hk]
  exact congrArg some hs

theorem hasDied_ready {s : State} {n : Nat} (h : hasDied s n = true) : InState s .ready n := by
  obtain ⟨d, -, dies⟩ := (hasDied_iff s n).mp h
  exact dies.ready

/-- A READY ticket stands at no place. -/
theorem Told.ready_unplaced {s : State} (h : Told s) {n : Nat} (hr : InState s .ready n) : Unplaced s n := by
  intro q hq
  obtain ⟨tk, hk, names⟩ := h n q hq
  rw [InState, hk] at hr
  have st : tk.state = .ready := Option.some.inj hr
  rcases q with _ | ⟨x, _ | _ | i⟩ <;> simp [Names, st] at names

/-- The steps of a die expiry: the dead marked, their slots taken, and the group shown, counted and tested. -/
theorem dieExpiry_steps {g : Nat} {gr : Group} {s : State} (told : Told s) (hg : group? s g = some gr) (nodup : gr.tickets.Nodup)
    (live : ∀ n ∈ gr.tickets, ∃ tk, ticket? s n = some tk ∧ tk.group = g) :
    ∃ f v, Replaced g gr (hasDied s) s gr.tickets f v
      ∧ (LineSound s.passLine →
          v.passLine = (gr.tickets.filter (hasDied s)).foldl (fun ln n => produced (.dying g n) ln) s.passLine)
      ∧ dieExpiry g s = completionTest g (recomputeDie g (pushNotice
          (.groupDying g gr.wave gr.table (gr.tickets.filter (hasDied s)).length (gr.tickets.filter fun n => decide (n ≠ f n)).length)
          (sendGroupUp g v))) := by
  have start := Replaced.start (p := hasDied s) told hg fun n => hasDied_ready
  have line := fun hs => (makeDeadAll_eq g (gr.tickets.filter (hasDied s)) s hs).1
  unfold dieExpiry
  rw [hg]
  dsimp only
  generalize (gr.tickets.filter (hasDied s)).foldl (fun s n => makeDead g n s) s = u at *
  obtain ⟨f, all, -, count, same⟩ := automaticRemakes_replaced nodup live (fun n _ h => told.ready_unplaced (hasDied_ready h))
    gr.tickets (List.nil_append _).symm start
  generalize automaticRemakes g .die (gr.tickets.filter (hasDied s)) u = a at *
  obtain ⟨v, made⟩ := a
  dsimp only at *
  refine ⟨f, v, all, fun hs => ?_, by rw [count]⟩
  rw [same, line hs]

/-- GROUP_DYING of this group, with the number of its tickets that have died and of those replaced. -/
def dyingNotice (g : Nat) (gr : Group) (s : State) (f : Nat → Nat) : Notice :=
  .groupDying g gr.wave gr.table (gr.tickets.filter (hasDied s)).length (gr.tickets.filter fun n => decide (n ≠ f n)).length

/-- A die expiry's end: `v` is the state once the slots have been taken, and `gr'` the group at the end. -/
structure DieOutcome (g : Nat) (gr : Group) (s : State) (f : Nat → Nat) (v : State) (gr' : Group) (t : State) : Prop where
  slots : Replaced g gr (hasDied s) s gr.tickets f v
  rest : t = { v with link := (pushNotice (dyingNotice g gr s f) v).link, groups := t.groups, stations := t.stations, passLine := t.passLine }
  config : ∀ x, (station t x).config = (station s x).config
  load : ∀ x, (station t x).load = (station s x).load
  group : group? t g = some gr'
  tickets : gr'.tickets = gr.tickets.map f
  others : ∀ h ≠ g, group? t h = group? s h
  told : Told t
  open' : gr'.state ≠ .complete → gr'.state = gr.state ∧ gr'.dieAt = earliestDie t gr'.tickets
  held : ∀ n ∈ gr'.tickets, ¬InState t .ready n → ¬InState t .withdrawn n →
    gr' = { gr with
        tickets := gr'.tickets, escalated := gr'.escalated, escalationCause := gr'.escalationCause, dieAt := gr'.dieAt }
      ∧ gr'.dieAt = earliestDie t gr'.tickets
      ∧ (gr'.escalated = true ↔ gr.escalated = true ∨ ∃ n ∈ gr.tickets, hasDied s n = true ∧ f n = n)
      ∧ (LineSound s.passLine → t.passLine = produced (groupShown t g gr')
          ((gr.tickets.filter (hasDied s)).foldl (fun ln n => produced (.dying g n) ln) s.passLine))

theorem dieExpiry_outcome {g : Nat} {gr : Group} {s : State} (told : Told s) (hg : group? s g = some gr) (nodup : gr.tickets.Nodup)
    (live : ∀ n ∈ gr.tickets, ∃ tk, ticket? s n = some tk ∧ tk.group = g) :
    ∃ f v gr', DieOutcome g gr s f v gr' (dieExpiry g s) := by
  obtain ⟨f, v, slots, line, eq⟩ := dieExpiry_steps told hg nodup live
  obtain ⟨grv, hgv, shape, escalated⟩ := slots.group
  have lines := sendGroupUp_lines g v
  have shown : LineSound s.passLine → (sendGroupUp g v).passLine = produced (groupShown v g grv) v.passLine := fun hs => by
    rw [sendGroupUp_eq hgv]
    rw [line hs]
    exact (makeDeadAll_eq g _ s hs).2.1
  generalize sendGroupUp g v = w at *
  have notice : pushNotice (dyingNotice g gr s f) w = { w with link := (pushNotice (dyingNotice g gr s f) v).link } :=
    pushNotice_with _ lines.link
  rw [show pushNotice (.groupDying g gr.wave gr.table (gr.tickets.filter (hasDied s)).length
    (gr.tickets.filter fun n => decide (n ≠ f n)).length) w = _ from notice] at eq
  generalize hL : (pushNotice (dyingNotice g gr s f) v).link = L at *
  generalize hy : ({ w with link := L } : State) = y at *
  have yrest : y = { v with link := L, stations := w.stations, passLine := w.passLine } := by rw [← hy, lines.rest]
  have yplaces : ∀ n p, StandsAt y n p ↔ StandsAt v n p := fun n p => by
    rw [← hy]
    exact lines.standsAt n p
  have hgy : group? y g = some grv := by
    rw [yrest]
    exact hgv
  have ytickets : ∀ n, ticket? y n = ticket? v n := fun n => by rw [yrest]; rfl
  have hgx : group? (recomputeDie g y) g = some { grv with dieAt := earliestDie y grv.tickets } := by
    rw [recomputeDie_group hgy, if_pos rfl]
  obtain ⟨test, ended⟩ := completionTest_only hgx
  have waits : ∀ n ∈ grv.tickets, ¬InState y .ready n → ¬InState y .withdrawn n →
      completionTest g (recomputeDie g y) = recomputeDie g y :=
    fun n hn h1 h2 => completionTest_waits hgx hn ⟨h1, h2⟩
  have only : OnlyGroup g y (dieExpiry g s) := eq ▸ (OnlyGroup.updGroup g _ y).trans test
  rw [← eq] at waits ended
  generalize dieExpiry g s = t at *
  have die : earliestDie y grv.tickets = earliestDie t grv.tickets := (earliestDie_congr only.tickets only.components _).symm
  have ystations : ∀ x, (station y x).config = (station s x).config ∧ (station y x).load = (station s x).load := fun x => by
    rw [← hy]
    exact ⟨(lines.config x).trans (slots.config x), (lines.load x).trans (slots.load x)⟩
  obtain ⟨gr', hgr', tickets, open'⟩ : ∃ gr', group? t g = some gr' ∧ gr'.tickets = grv.tickets
      ∧ (gr'.state ≠ .complete → gr'.state = grv.state ∧ gr'.dieAt = earliestDie t grv.tickets) := by
    rcases ended with e | e
    · exact ⟨_, (congrArg (group? · g) e).trans hgx, rfl, fun _ => ⟨rfl, die⟩⟩
    · exact ⟨_, e, rfl, fun h => absurd rfl h⟩
  have mapped : gr'.tickets = gr.tickets.map f := tickets.trans (by rw [shape])
  refine ⟨f, v, gr', slots, ?_, fun x => (only.config x).trans (ystations x).1, fun x => (only.load x).trans (ystations x).2, hgr', mapped,
    fun h hh => ?_, only.told fun n p hp => ?_, fun h => ?_, fun n hn h1 h2 => ?_⟩
  · rw [only.rest, yrest, hL]
  · rw [only.others h hh, yrest]
    exact slots.others h hh
  · rw [ytickets]
    exact slots.told n p ((yplaces n p).mp hp)
  · rw [tickets]
    refine ⟨(open' h).1.trans (by rw [shape]), (open' h).2⟩
  · have same := waits n (tickets ▸ hn) (by rwa [inState_congr only.tickets] at h1) (by rwa [inState_congr only.tickets] at h2)
    obtain rfl : gr' = { grv with dieAt := earliestDie y grv.tickets } :=
      Option.some.inj (hgr'.symm.trans ((congrArg (group? · g) same).trans hgx))
    refine ⟨by rw [shape], die, escalated, fun hs => ?_⟩
    have line' : t.passLine = w.passLine := by
      rw [same, ← hy]
      rfl
    rw [line', shown hs, line hs]
    simp only [groupShown, only.ticket, ytickets]

end Sys2Proof.Machine
end

section
/-!
PROOFS. O50: the die expiry, slot by slot and as a whole (R11 to R13, R63, R86, R94, R150 to R154).
-/

namespace Sys2Proof.Machine

/-! ## Slots before and after -/

theorem zip_map_self {α : Type} (f : α → α) (l : List α) : l.zip (l.map f) = l.map fun n => (n, f n) := by
  induction l with
  | nil => rfl
  | cons a l ih => rw [List.map_cons, List.zip_cons_cons, ih, List.map_cons]

theorem drawn_eq (s : State) (f : Nat → Nat) (l : List Nat) (k c : Nat) :
    ((((l.zip (l.map f)).take k).filter fun e => decide (e.1 ≠ e.2)).flatMap fun e =>
      (ticket? s e.1).toList.map fun tk => if tk.component = c then tk.quantity else 0).sum = drawnBy s f c (l.take k) := by
  rw [zip_map_self, ← List.map_take, List.filter_map, List.flatMap_map, drawnBy]
  rfl

theorem replacedSlots_length (f : Nat → Nat) (l : List Nat) :
    ((l.zip (l.map f)).filter fun e => decide (e.1 ≠ e.2)).length = (l.filter fun n => decide (n ≠ f n)).length := by
  rw [zip_map_self, List.filter_map, List.length_map]
  rfl

theorem hasDied_eq (s : State) (n : Nat) :
    hasDied s n = (ticket? s n).any fun tk =>
      decide (tk.state = .ready) && tk.readyAt.any fun r => (s.components.get? tk.component).any fun c =>
        decide (0 < c.holdWindow ∧ r + c.holdWindow ≤ s.clock) := by
  rw [Bool.eq_iff_iff, hasDied_iff]
  simp only [DiesAt, Option.any_eq_true, Bool.and_eq_true, decide_eq_true_eq]
  constructor
  · rintro ⟨d, hd, tk, r, c, hk, hs, hr, hc, hw, rfl⟩
    exact ⟨tk, hk, hs, r, hr, c, hc, hw, hd⟩
  · rintro ⟨tk, hk, hs, r, hr, c, hc, hw, hd⟩
    exact ⟨_, hd, tk, r, c, hk, hs, hr, hc, hw, rfl⟩

/-! ## What the outcome says of the slots -/

namespace DieOutcome

variable {g : Nat} {gr gr' : Group} {s v t : State} {f : Nat → Nat} (h : DieOutcome g gr s f v gr' t)
include h

theorem ticket (n : Nat) : ticket? t n = ticket? v n := by
  rw [h.rest]
  rfl

theorem components : t.components = v.components := by rw [h.rest]

theorem clock : t.clock = s.clock := (show t.clock = v.clock by rw [h.rest]).trans (by rw [h.slots.rest])

theorem waves : t.waves = s.waves := (show t.waves = v.waves by rw [h.rest]).trans (by rw [h.slots.rest])

theorem calendar : t.calendar = s.calendar := (show t.calendar = v.calendar by rw [h.rest]).trans (by rw [h.slots.rest])

theorem ticketPool : t.ticketPool = s.ticketPool :=
  (show t.ticketPool = v.ticketPool by rw [h.rest]).trans (by rw [h.slots.rest])

theorem slot (k : Nat) : gr'.tickets[k]? = gr.tickets[k]?.map f := by
  rw [h.tickets, List.getElem?_map]

theorem window (c : Nat) : (t.components.get? c).map Component.holdWindow = (s.components.get? c).map Component.holdWindow := by
  rw [h.components, h.slots.counts, Option.map_map]
  rfl

/-- A slot's ticket that is still the same one: DEAD if it had died, and its record unchanged otherwise. -/
theorem kept {n : Nat} {tk : Ticket} (hm : n ∈ gr.tickets) (hf : f n = n) (hk : ticket? s n = some tk) :
    ticket? t n = some (if hasDied s n = true then tk.died else tk) := by
  rw [h.ticket, h.slots.kept n tk hf hk]
  simp only [hm, true_and]

/-- A copy waits. -/
theorem copy {n : Nat} {tk : Ticket} (hf : f n ≠ n) (hk : ticket? s n = some tk) :
    ∃ q offerEnd copy, ticket? t (f n) = some copy ∧ OfferedAs { freshCopy s tk with seq := q } offerEnd copy := by
  rw [h.ticket]
  exact h.slots.copies n tk hf hk

/-- No ticket of the list is past its hold window any more. -/
theorem ahead {n d : Nat} (live : ∀ n ∈ gr.tickets, ∃ tk, ticket? s n = some tk ∧ tk.group = g) (hn : n ∈ gr'.tickets)
    (hd : DiesAt t n d) : s.clock < d := by
  rw [h.tickets] at hn
  obtain ⟨o, ho, rfl⟩ := List.mem_map.mp hn
  obtain ⟨tk, hk, -⟩ := live o ho
  by_cases hf : f o = o
  · have kept := h.kept ho hf hk
    rw [hf] at hd
    obtain ⟨tk', r, c, hk', hs, hr, hc, hw, rfl⟩ := hd
    obtain rfl := Option.some.inj (hk'.symm.trans kept)
    by_cases hp : hasDied s o = true
    · rw [if_pos hp] at hs
      exact absurd hs (by simp [Ticket.died])
    · rw [if_neg hp] at hs hr hc
      have window := h.window tk.component
      rw [hc] at window
      obtain ⟨c', hc', e⟩ := Option.map_eq_some_iff.mp window.symm
      refine Nat.lt_of_not_le fun hle => hp ((hasDied_iff s o).mpr ⟨_, hle, tk, r, c', hk, hs, hr, hc', e ▸ hw, by rw [e]⟩)
  · obtain ⟨q, e, copy, hcopy, offered⟩ := h.copy hf hk
    exact absurd hd.ready (offered.waiting hcopy).1

/-- A slot whose ticket has died holds it DEAD, or its copy: neither is READY or WITHDRAWN. -/
theorem waits {n : Nat} {tk : Ticket} (hm : n ∈ gr.tickets) (hp : hasDied s n = true) (hk : ticket? s n = some tk) :
    ¬InState t .ready (f n) ∧ ¬InState t .withdrawn (f n) := by
  by_cases hf : f n = n
  · have kept := h.kept hm hf hk
    rw [if_pos hp] at kept
    rw [hf]
    constructor <;> exact not_inState kept (by simp [Ticket.died])
  · obtain ⟨q, e, copy, hcopy, offered⟩ := h.copy hf hk
    exact offered.waiting hcopy

theorem seq : t.link.seq = v.link.seq := by
  rw [h.rest]
  exact pushNotice_link_seq _ _

theorem notices : t.link = { (noticedAll (deathNotices (hasDied s) g s f gr.tickets ++ [dyingNotice g gr s f]) s).link with
    seq := t.link.seq } := by
  have link : t.link = (pushNotice (dyingNotice g gr s f) v).link := by rw [h.rest]
  rw [h.seq, link]
  exact h.slots.notices.append (ms := [dyingNotice g gr s f])

end DieOutcome

/-- Settles O50: the slots taken one after another, what each leaves and reports, and the whole of it from a sound state. -/
theorem dieExpiryReplacesTheDead : Obligations.DieExpiryReplacesTheDead := by
  intro g gr s coherent hgr hg hdue
  have listed := coherent.listed
  have nodup : gr.tickets.Nodup := listed.nodup g gr hg
  have live : ∀ n ∈ gr.tickets, ∃ tk, ticket? s n = some tk ∧ tk.group = g := fun n hn =>
    Option.map_eq_some_iff.mp (listed.members g gr hg n hn)
  have run : exec (.dieExpiry g) s = .next (settle (dieExpiry g s)) := by
    have due : dieDue s g = true := by
      obtain ⟨d, hd, hle⟩ := hdue
      rw [dieDue, hg, Option.bind_some, hd]
      exact decide_eq_true hle
    refine (if_pos (Nat.lt_succ_of_le hgr)).trans ?_
    rw [dieExpiryIfDue, if_pos due]
  obtain ⟨f, v, gr', out⟩ := dieExpiry_outcome coherent.told hg nodup live
  intro died
  have hdied : died = hasDied s := funext fun n => (hasDied_eq s n).symm
  clear_value died
  subst hdied
  refine ⟨_, gr', run, ?_⟩
  have whole : Sound s → LinesSound s → (∃ n ∈ gr.tickets, hasDied s n = true) → ∃ u, DieExpires g s u ∧ settle (dieExpiry g s) = settle u :=
    fun sound hl ⟨n, hn, hp⟩ => ⟨_, dieExpiry_expires hl sound.working.blockedSound hg nodup
      (fun n hn => by
        obtain ⟨tk, hk, ingroup⟩ := live n hn
        exact ⟨tk, hk, ingroup, sound.home hk⟩)
      (fun n hr x => coherent.told.ready_unplaced hr (.station x .blocked)) ⟨n, hn, (hasDied_iff s n).mp hp⟩, rfl⟩
  generalize dieExpiry g s = t at *
  refine ⟨(settle_group_get _ _).trans out.group, by rw [out.tickets, List.length_map], fun n hn d hd => ?_, fun k n hk hp => ?_, ?_,
    fun open' => ?_, ?_, ?_, ?_, whole⟩
  · refine out.ahead live hn (d := d) ?_
    simpa only [DiesAt, settle_ticket_get, settle_components] using hd
  · have hn := List.mem_of_getElem? hk
    have hf : f n = n := out.slots.same n (.inr hp)
    obtain ⟨tk, htk, -⟩ := live n hn
    refine ⟨by rw [out.slot, hk, Option.map_some, hf], ?_⟩
    rw [settle_ticket_get, out.kept hn hf htk, if_neg (by simp [hp]), htk]
  · intro drawn
    have hdrawn : drawn = fun k c => drawnBy s f c (gr.tickets.take k) := by
      funext k c
      rw [← drawn_eq, ← out.tickets]
    clear_value drawn
    subst hdrawn
    dsimp only
    refine ⟨fun k n tk hk hp htk => ?_, fun c => ?_, ?_, fun hdead => ?_⟩
    · have hn := List.mem_of_getElem? hk
      have slot : gr'.tickets[k]? = some (f n) := by rw [out.slot, hk, Option.map_some]
      have outcome : f n ≠ n ↔ Replaceable s f (gr.tickets.take k) tk := out.slots.outcome k n tk hk hp htk
      obtain ⟨tk', htk', ingroup⟩ := live n hn
      obtain rfl : tk = tk' := Option.some.inj (htk.symm.trans htk')
      refine ⟨fun no => ?_, fun yes => ?_⟩
      · have hf : f n = n := not_not.mp (mt outcome.mp no)
        refine ⟨by rw [slot, hf], ?_⟩
        rw [settle_ticket_get, out.kept hn hf htk, if_pos hp]
        rfl
      · have hf : f n ≠ n := outcome.mpr yes
        obtain ⟨q, e, copy, hcopy, offered⟩ := out.copy hf htk
        have rest := offered.rest
        refine ⟨f n, copy, slot, hf, (settle_ticket_get _ _).trans hcopy, ?_⟩
        rw [rest]
        exact ⟨rfl, rfl, rfl, rfl, rfl, ingroup, rfl, rfl, rfl, rfl, rfl, offered.waits⟩
    · rw [settle_stockOf, stockOf, out.components, List.take_length]
      exact out.slots.stockOf c
    · rw [settle_ticketPool, out.ticketPool]
    · obtain ⟨n, hn, hp⟩ := hdead
      obtain ⟨tk, htk, -⟩ := live n hn
      obtain ⟨h1, h2⟩ := out.waits hn hp htk
      obtain ⟨shape, die, escalated, line⟩ := out.held (f n) (by rw [out.tickets]; exact List.mem_map_of_mem hn) h1 h2
      refine ⟨by rw [shape], by rw [shape], ?_, ?_, fun hs => ?_, fun hs => ?_, ?_⟩
      · rw [die, ← earliestDie_congr (settle_tickets t) (settle_components t)]
        exact earliestDie_earliest _ _
      · refine escalated.trans (or_congr_right ⟨fun ⟨n, hn, hp, hf⟩ => ?_, fun ⟨k, n, hk, hp, hk'⟩ => ?_⟩)
        · obtain ⟨k, hk⟩ := List.mem_iff_getElem?.mp hn
          exact ⟨k, n, hk, hp, by rw [out.slot, hk, Option.map_some, hf]⟩
        · rw [out.slot, hk, Option.map_some] at hk'
          exact ⟨n, List.mem_of_getElem? hk, hp, Option.some.inj hk'⟩
      · rw [settle_link_seq, out.seq, out.slots.seq hs, out.tickets, replacedSlots_length]
      · rw [settle_passLine, line hs]
        simp only [groupShown, settle_ticket_get]
      · rw [settle_link_seq, noticedAll_seq]
        refine settle_link_congr (out.notices.trans ?_)
        rw [out.tickets, replacedSlots_length, ← out.tickets]
        refine congrArg (fun ns => ({ (noticedAll (ns ++ [dyingNotice g gr s f]) s).link with seq := t.link.seq } : HostLink)) ?_
        refine List.flatMap_congr fun k _ => List.flatMap_congr fun n hn => List.flatMap_congr fun tk _ => ?_
        have hk : gr.tickets[k]? = some n := (Option.filter_eq_some_iff.mp (Option.mem_toList.mp hn)).1
        have slot : gr'.tickets[k]? ≠ some n ↔ f n ≠ n := by
          rw [out.slot, hk, Option.map_some]
          exact not_congr Option.some_inj
        simp only [slot]
  · rw [earliestDie_congr (settle_tickets t) (settle_components t)]
    exact out.open' open'
  · rw [settle_clock, out.clock]
  · rw [settle_waves, out.waves]
  · rw [settle_calendar, out.calendar]

end Sys2Proof.Machine
end

section
/-!
PROOFS. O48: REFIRE from the host and from the pass: the copy, and the group's return to ASSEMBLING (R11 to R13, R86, R150, R151, R156 to R158).
-/

namespace Sys2Proof.Machine

/-! ## The group after its copy (R150, R157) -/

/-- The record of a COMPLETE group that returns to ASSEMBLING. -/
def Group.reopened (gr : Group) : Group :=
  { gr with state := .assembling, pickupAt := none, unpickedReported := false }

/-- What a REFIRE's change of the group leaves, `m` being a ticket of its list that waits. -/
structure GroupRefired (g m : Nat) (gr : Group) (s t : State) : Prop where
  ticket : ticket? t m = ticket? s m
  others : ∀ h ≠ g, group? t h = group? s h
  kept : t.clock = s.clock ∧ t.waves = s.waves ∧ t.calendar = s.calendar
  open' : gr.state ≠ .complete → t.tickets = s.tickets ∧ t.components = s.components
    ∧ (group? t g).map (fun gr => (gr.tickets, gr.state)) = some (gr.tickets, gr.state)
  reopened : gr.state = .complete → ∃ gr', group? t g = some gr' ∧ gr'.state = .assembling ∧ gr'.pickupAt = none
    ∧ gr'.unpickedReported = false ∧ m ∈ gr'.tickets

/-- die_at recomputed and the completion test of a group that waits for a ticket. -/
theorem completionTest_recomputeDie {g m : Nat} {gr : Group} {s : State} (hg : group? s g = some gr) (hm : m ∈ gr.tickets)
    (waits : ¬InState s .ready m ∧ ¬InState s .withdrawn m) : completionTest g (recomputeDie g s) = recomputeDie g s :=
  completionTest_waits (gr := { gr with dieAt := earliestDie s gr.tickets }) (by rw [recomputeDie_group hg, if_pos rfl]) hm waits

theorem refireGroup_pending {g : Nat} {gr : Group} {s : State} (hg : group? s g = some gr) (hs : gr.state = .pending) :
    refireGroup g s = s := by
  rw [refireGroup, hg]
  dsimp only
  rw [hs]

theorem refireGroup_assembling {g : Nat} {gr : Group} {s : State} (hg : group? s g = some gr) (hs : gr.state = .assembling) :
    refireGroup g s = completionTest g (recomputeDie g (sendGroupUp g s)) := by
  rw [refireGroup, hg]
  dsimp only
  rw [hs]

theorem refireGroup_complete {g : Nat} {gr : Group} {s : State} (hg : group? s g = some gr) (hs : gr.state = .complete) :
    let w := completionTest g (recomputeDie g (sendGroupUp g (sendRecord .pass (.waitGroup g) (updGroup g Group.reopened s))))
    refireGroup g s = if dieDue w g then dieExpiry g w else w := by
  rw [refireGroup, hg]
  dsimp only
  rw [hs]
  rfl

theorem refireGroup_refired {g m : Nat} {gr : Group} {s : State} (told : Told s) (hg : group? s g = some gr) (nodup : gr.tickets.Nodup)
    (live : ∀ n ∈ gr.tickets, ∃ tk, ticket? s n = some tk ∧ tk.group = g) (hm : m ∈ gr.tickets)
    (waits : ¬InState s .ready m ∧ ¬InState s .withdrawn m) : GroupRefired g m gr s (refireGroup g s) := by
  cases hs : gr.state with
  | pending =>
    rw [refireGroup_pending hg hs]
    exact ⟨rfl, fun _ _ => rfl, ⟨rfl, rfl, rfl⟩, fun _ => ⟨rfl, rfl, by rw [hg, Option.map_some]⟩, fun h => by simp [hs] at h⟩
  | assembling =>
    rw [refireGroup_assembling hg hs]
    have lines := sendGroupUp_lines g s
    generalize sendGroupUp g s = w at *
    have hgw : group? w g = some gr := by rw [group?, lines.groups]; exact hg
    rw [completionTest_recomputeDie hgw hm (by rwa [inState_congr lines.tickets, inState_congr lines.tickets])]
    have only : OnlyGroup g s (recomputeDie g w) := (OnlyGroup.ofLines lines g).trans (.updGroup g _ w)
    refine ⟨only.ticket m, only.others, ⟨only.clock, only.waves, only.calendar⟩, fun _ => ⟨only.tickets, only.components, ?_⟩,
      fun h => by simp [hs] at h⟩
    rw [recomputeDie_group hgw, if_pos rfl, Option.map_some]
  | complete =>
    rw [refireGroup_complete hg hs]
    have lines := ((sendRecord_only .pass (.waitGroup g) (updGroup g Group.reopened s)).trans (sendGroupUp_lines g _))
    have hgx : group? (updGroup g Group.reopened s) g = some gr.reopened := by
      rw [group_get_updGroup, if_pos rfl, hg, Option.map_some]
    have only := (OnlyGroup.updGroup g Group.reopened s).trans (.ofLines lines g)
    generalize sendGroupUp g (sendRecord .pass (.waitGroup g) (updGroup g Group.reopened s)) = x at *
    replace hgx : group? x g = some gr.reopened := by rw [group?, lines.groups]; exact hgx
    rw [completionTest_recomputeDie hgx hm (by rwa [inState_congr only.tickets, inState_congr only.tickets])]
    have hgw : group? (recomputeDie g x) g = some { gr.reopened with dieAt := earliestDie x gr.tickets } := by
      rw [recomputeDie_group hgx, if_pos rfl]
      rfl
    replace only : OnlyGroup g s (recomputeDie g x) := only.trans (.updGroup g _ x)
    generalize recomputeDie g x = w at *
    split
    · obtain ⟨f, v, gr', out⟩ := dieExpiry_outcome (only.told told) hgw nodup fun n hn => by
        rw [only.ticket]
        exact live n hn
      have wait' : ¬InState w .ready m ∧ ¬InState w .withdrawn m := by rwa [inState_congr only.tickets, inState_congr only.tickets]
      have alive : hasDied w m = false := Bool.eq_false_iff.mpr fun h => wait'.1 (hasDied_ready h)
      have fm : f m = m := out.slots.same m (.inr alive)
      obtain ⟨tk, hk, -⟩ := live m hm
      have kept : ticket? (dieExpiry g w) m = ticket? s m := by
        rw [out.kept hm fm ((only.ticket m).trans hk), if_neg (by simp [alive]), hk]
      have hm' : m ∈ gr'.tickets := by
        rw [out.tickets]
        exact List.mem_map.mpr ⟨m, hm, fm⟩
      obtain ⟨shape, -⟩ := out.held m hm' (by rw [InState, kept]; exact waits.1) (by rw [InState, kept]; exact waits.2)
      refine ⟨kept, fun h hh => (out.others h hh).trans (only.others h hh),
        ⟨out.clock.trans only.clock, out.waves.trans only.waves, out.calendar.trans only.calendar⟩, fun h => absurd hs h, fun _ => ?_⟩
      exact ⟨gr', out.group, by rw [shape]; rfl, by rw [shape]; rfl, by rw [shape]; rfl, hm'⟩
    · exact ⟨only.ticket m, only.others, ⟨only.clock, only.waves, only.calendar⟩, fun h => absurd hs h,
        fun _ => ⟨_, hgw, rfl, rfl, rfl, hm⟩⟩

/-! ## REFIRE's copy and the group (R156 to R158) -/

/-- What a REFIRE that applies leaves. -/
structure Refired (g n m : Nat) (tk : Ticket) (gr : Group) (offerEnd : Option Nat) (s t : State) : Prop where
  absent : ticket? s m = none
  lowest : ∀ l < m, ticket? s l ≠ none
  copy : ∃ copy, ticket? t m = some copy ∧ OfferedAs (freshCopy s tk) offerEnd copy
  goes : ∀ x, offerEnd = some x ↔ GoesTo s tk.homeStation x
  slot : gr.state ≠ .complete → ticket? t n = none
    ∧ (group? t g).map Group.tickets = some (gr.tickets.map fun o => if o = n then m else o)
    ∧ (group? t g).map Group.state = some gr.state
    ∧ stockOf t tk.component = (stockOf s tk.component).map fun k => k - tk.quantity
  reopened : gr.state = .complete →
    ∃ gr', group? t g = some gr' ∧ gr'.state = .assembling ∧ gr'.pickupAt = none ∧ gr'.unpickedReported = false ∧ m ∈ gr'.tickets
  others : ∀ h, h ≠ g → group? t h = group? s h
  kept : t.clock = s.clock ∧ t.waves = s.waves ∧ t.calendar = s.calendar

/-- The numbers in a list in which a copy has taken a slot stay different. -/
theorem nodup_slotTaken {n m : Nat} {ns : List Nat} (h : ns.Nodup) (hm : m ∉ ns) : (ns.map fun o => if o = n then m else o).Nodup := by
  refine List.Nodup.map_on (fun a ha b hb e => ?_) h
  by_cases ea : a = n <;> by_cases eb : b = n
  · rw [ea, eb]
  · rw [if_pos ea, if_neg eb] at e
    exact absurd (e ▸ hb) hm
  · rw [if_neg ea, if_pos eb] at e
    exact absurd (e ▸ ha) hm
  · rwa [if_neg ea, if_neg eb] at e

theorem refireTicket_service (g n : Nat) (tk : Ticket) (s : State) : OnlyService s (refireTicket g n tk s).1 := by
  have copied := requestCopy_service n tk s
  unfold refireTicket
  generalize requestCopy n tk s = r at *
  obtain ⟨t, _ | _ | _⟩ := r
  · exact copied.trans (refireGroup_service g t)
  · exact copied
  · exact copied

theorem refireTicket_refires {g n : Nat} {tk : Ticket} {gr : Group} {s : State} (told : Told s) (listed : Listed s)
    (hg : group? s g = some gr) (hn : n ∈ gr.tickets) (hk : ticket? s n = some tk) (hst : tk.state = .ready ∨ tk.state = .dead)
    (hc : CanCopy tk s) :
    ∃ t m offerEnd, refireTicket g n tk s = (t, .made m offerEnd) ∧ Refired g n m tk gr offerEnd s t
      ∧ (Sound s → LinesSound s → ∃ u, MakesCopy n m tk offerEnd s u ∧ ReopensGroup g u t) := by
  obtain ⟨u, m, offerEnd, e, made⟩ := requestCopy_made hk hc
  have eq : refireTicket g n tk s = (refireGroup g u, .made m offerEnd) := by
    rw [refireTicket, e]
  have members : ∀ o ∈ gr.tickets, ∃ tk, ticket? s o = some tk ∧ tk.group = g := fun o ho =>
    Option.map_eq_some_iff.mp (listed.members g gr hg o ho)
  have out : Unplaced s n := told.unplaced fun tk' hk' p hp => by
    obtain rfl : tk = tk' := Option.some.inj (hk.symm.trans hk')
    rcases p with _ | ⟨x, _ | _ | i⟩ <;> rcases hst with h | h <;> simp [Names, h] at hp
  have hgn : tk.group = g := by
    obtain ⟨tk', hk', h⟩ := members n hn
    rwa [Option.some.inj (hk.symm.trans hk')]
  have fresh : m ∉ gr.tickets := fun h => by
    obtain ⟨tk', hk', -⟩ := members m h
    exact absurd (made.absent.symm.trans hk') (by simp)
  obtain ⟨copy, hcopy, offered⟩ := made.copy
  obtain ⟨toldU, -⟩ := made.told told out
  have hgu : group? u g = some { gr with tickets := gr.tickets.map fun o => if o = n then m else o } := by
    rw [made.groups, hg, Option.map_some, if_pos hgn.symm]
  have hm : m ∈ gr.tickets.map fun o => if o = n then m else o := List.mem_map.mpr ⟨n, hn, if_pos rfl⟩
  have nodup := nodup_slotTaken (n := n) (listed.nodup g gr hg) fresh
  have live : ∀ o ∈ gr.tickets.map (fun o => if o = n then m else o), ∃ tk, ticket? u o = some tk ∧ tk.group = g := by
    intro o ho
    obtain ⟨a, ha, rfl⟩ := List.mem_map.mp ho
    by_cases e : a = n
    · rw [if_pos e]
      exact ⟨copy, hcopy, by rw [offered.rest]; exact hgn⟩
    · obtain ⟨tk', hk', ingroup⟩ := members a ha
      rw [if_neg e]
      exact ⟨tk', by rw [made.others a (fun e => fresh (e ▸ ha)), if_neg e, hk'], ingroup⟩
  have refired := refireGroup_refired toldU hgu nodup live hm (offered.waiting hcopy)
  refine ⟨_, m, offerEnd, eq, ⟨made.absent, made.lowest, ⟨copy, refired.ticket.trans hcopy, offered⟩, made.goes, fun open' => ?_,
    refired.reopened, fun h hh => ?_, ?_⟩, fun sound hl => ?_⟩
  · obtain ⟨tickets, components, group⟩ := refired.open' open'
    have gone : ticket? u n = none := by
      rw [made.others n fun e => fresh (e ▸ hn), if_pos rfl]
    refine ⟨by rw [ticket?, tickets]; exact gone, ?_, ?_, ?_⟩
    · simpa using congrArg (Option.map Prod.fst) group
    · simpa using congrArg (Option.map Prod.snd) group
    · rw [stockOf, components]
      refine (made.stockOf tk.component).trans (congrArg (fun f => Option.map f _) (funext fun k => if_pos rfl))
  · rw [refired.others h hh, made.groups]
    simp only [hgn, if_neg hh, Option.map_id']
  · obtain ⟨clock, waves, calendar⟩ := refired.kept
    have rest := made.rest
    exact ⟨clock.trans (by rw [rest]), waves.trans (by rw [rest]), calendar.trans (by rw [rest])⟩
  · have blocked := sound.working.blockedSound
    obtain ⟨u', m', offerEnd', e', makes⟩ := requestCopy_makes hl hk (sound.home hk) blocked (fun x => out (.station x .blocked)) hc
    obtain ⟨rfl, rfl, rfl⟩ : u = u' ∧ m = m' ∧ offerEnd = offerEnd' := by simpa using e.symm.trans e'
    have keeps := makes.keeps hl blocked fun x => out (.station x .blocked)
    refine ⟨u, makes, refireGroup_reopens keeps.lines keeps.blocked hgu nodup (fun o ho => ?_)
      (fun o ho x => toldU.ready_unplaced ho (.station x .blocked)) ⟨_, m, hgu, hm, offered.waiting hcopy⟩⟩
    obtain ⟨tk', hk', ingroup⟩ := live o ho
    refine ⟨tk', hk', ingroup, ?_⟩
    rw [keeps.length]
    by_cases hom : o = m
    · obtain rfl : copy = tk' := Option.some.inj (hcopy.symm.trans (hom ▸ hk'))
      have home : copy.homeStation = tk.homeStation := by
        rw [offered.rest]
        rfl
      rw [home]
      exact sound.home hk
    · rw [made.others o hom] at hk'
      split at hk'
      · exact absurd hk' (by simp)
      · exact sound.home hk'

/-! ## The obligation -/

theorem Refired.of_dequeued {g n m : Nat} {tk : Ticket} {gr : Group} {offerEnd : Option Nat} {rest : List Frame} {s t : State}
    (h : Refired g n m tk gr offerEnd (dequeued rest s) t) : Refired g n m tk gr offerEnd s t :=
  ⟨h.absent, h.lowest, h.copy, h.goes, h.slot, h.reopened, h.others, h.kept⟩

theorem Refired.settled {g n m : Nat} {tk : Ticket} {gr : Group} {offerEnd : Option Nat} {s t : State}
    (h : Refired g n m tk gr offerEnd s t) : Refired g n m tk gr offerEnd s (settle t) := by
  refine ⟨h.absent, h.lowest, ?_, h.goes, ?_, ?_, ?_, ?_⟩
  · simpa only [settle_ticket_get] using h.copy
  · simpa only [settle_ticket_get, settle_group_get, settle_stockOf] using h.slot
  · simpa only [settle_group_get] using h.reopened
  · simpa only [settle_group_get] using h.others
  · simpa only [settle_clock, settle_waves, settle_calendar] using h.kept

theorem Refired.replied {g n m : Nat} {tk : Ticket} {gr : Group} {offerEnd : Option Nat} {s t : State} (r : Reply)
    (h : Refired g n m tk gr offerEnd s t) : Refired g n m tk gr offerEnd s (pushReply r t) :=
  ⟨h.absent, h.lowest, h.copy, h.goes, h.slot, h.reopened, h.others, h.kept⟩

theorem readRefire_none {b : List Byte} (h : b.length ≠ 4) : readRefire b = none := by
  unfold readRefire
  split
  · exact absurd rfl h
  · rfl

/-- A REFIRE in SERVICE, with its body read and its numbers in range (R156). -/
structure ReadsRefire (b : List Byte) (g n : Nat) (s : State) : Prop where
  read : readRefire b = some (g, n)
  group : g ≤ 1023
  ticket : n ≤ 4095
  mode : s.link.mode = .service

namespace ReadsRefire

variable {b : List Byte} {g n : Nat} {s : State} (h : ReadsRefire b g n s)
include h

theorem range : ¬(Config.groups ≤ g ∨ Config.tickets ≤ n) :=
  not_or.mpr ⟨Nat.not_le.mpr (Nat.lt_succ_of_le h.group), Nat.not_le.mpr (Nat.lt_succ_of_le h.ticket)⟩

theorem request_noSuch (hk : groupTicket s g n = none) : refireRequest b s = refuse .noSuch s := by
  rw [refireRequest, h.read]
  dsimp only
  rw [if_neg h.range, if_neg (by simp [h.mode]), hk]

theorem request_state {tk : Ticket} (hk : groupTicket s g n = some tk) (hr : refirable tk = false) :
    refireRequest b s = refuse .state s := by
  rw [refireRequest, h.read]
  dsimp only
  rw [if_neg h.range, if_neg (by simp [h.mode]), hk]
  exact if_pos hr

variable {tk : Ticket} (hk : groupTicket s g n = some tk) (hr : refirable tk = true)
include hk hr

theorem request_noTickets {t : State} (e : refireTicket g n tk s = (t, .noTickets)) : refireRequest b s = refuse .noTickets t := by
  rw [refireRequest, h.read]
  dsimp only
  rw [if_neg h.range, if_neg (by simp [h.mode]), hk]
  dsimp only
  rw [if_neg (by simp [hr]), e]

theorem request_noStock {t : State} (e : refireTicket g n tk s = (t, .noStock)) : refireRequest b s = refuse .noStock t := by
  rw [refireRequest, h.read]
  dsimp only
  rw [if_neg h.range, if_neg (by simp [h.mode]), hk]
  dsimp only
  rw [if_neg (by simp [hr]), e]

theorem request_made {t : State} {m : Nat} {offerEnd : Option Nat} (e : refireTicket g n tk s = (t, .made m offerEnd)) :
    refireRequest b s = accept (.refired m (tk.generation + 1) offerEnd) t := by
  rw [refireRequest, h.read]
  dsimp only
  rw [if_neg h.range, if_neg (by simp [h.mode]), hk]
  dsimp only
  rw [if_neg (by simp [hr]), e]

end ReadsRefire

/-- Settles O48: the checks of R156 in order, and the copy and the group of R157 and R158 for host and pass. -/
theorem refireMakesARushCopy : Obligations.RefireMakesARushCopy := by
  refine ⟨fun f rest s ht hk => ⟨fun hb => ?_, fun g n hg hn hb => ⟨fun hr => ?_, fun hg' hn' hm => ?_, fun hg' hn' hm => ?_⟩⟩,
    fun g n tk gr s coherent hg' hn' hg hn htk hst hgen hfree hshort => ?_⟩
  · refine takeRequest_refused_of ht hk ?_
    rw [refireRequest, readRefire_none hb]
  · refine takeRequest_refused_of ht hk ?_
    rw [refireRequest, readRefire_eq.mpr ⟨hg, hn, hb⟩]
    exact if_pos (hr.imp Nat.succ_le_of_lt Nat.succ_le_of_lt)
  · refine takeRequest_refused_of ht hk ?_
    rw [refireRequest, readRefire_eq.mpr ⟨hg, hn, hb⟩]
    dsimp only
    rw [if_neg (not_or.mpr ⟨Nat.not_le.mpr (Nat.lt_succ_of_le hg'), Nat.not_le.mpr (Nat.lt_succ_of_le hn')⟩)]
    exact if_pos hm
  · have reads : ReadsRefire f.body g n (dequeued rest s) := ⟨readRefire_eq.mpr ⟨hg, hn, hb⟩, hg', hn', hm⟩
    refine ⟨fun no => takeRequest_refused_of ht hk (reads.request_noSuch ?_), fun gr tk hgr hmem htk => ?_⟩
    · refine Option.eq_none_iff_forall_ne_some.mpr fun tk e => ?_
      obtain ⟨gr, hgr, hmem, -⟩ := groupTicket_eq_some.mp e
      exact no gr hgr hmem
    · have named : groupTicket (dequeued rest s) g n = some tk := groupTicket_eq_some.mpr ⟨gr, hgr, hmem, htk⟩
      refine ⟨fun no => takeRequest_refused_of ht hk (reads.request_state named ?_), fun hst hgen => ⟨fun h0 => ?_, fun hf k hs hq => ?_⟩⟩
      · refine Bool.eq_false_iff.mpr fun h => ?_
        obtain ⟨hst, hgen⟩ := (refirable_iff tk).mp h
        rcases no with ⟨h1, h2⟩ | h
        · exact hst.elim h1 h2
        · omega
      · exact takeRequest_refused_of ht hk (reads.request_noTickets named ((refirable_iff tk).mpr ⟨hst, hgen⟩) (refireTicket_noTickets h0))
      · exact takeRequest_answered ht hk (reads.request_noStock named ((refirable_iff tk).mpr ⟨hst, hgen⟩)
          ((refireTicket_noStock (s := dequeued rest s) hf hs hq).trans (by rw [dequeued_pushNotice])))
  · intro remade
    have members := coherent.listed.members g.toNat gr hg n.toNat hn
    have hgn : tk.group = g.toNat := by
      rw [htk] at members
      exact Option.some.inj members
    have named : groupTicket s g.toNat n.toNat = some tk := groupTicket_eq_some.mpr ⟨gr, hg, hn, htk⟩
    have refirable : refirable tk = true := (refirable_iff tk).mpr ⟨hst, hgen⟩
    have all : ∀ t m offerEnd, Refired g.toNat n.toNat m tk gr offerEnd s t → remade t m offerEnd := fun t m offerEnd h => by
      obtain ⟨copy, hcopy, offered⟩ := h.copy
      refine ⟨h.absent, h.lowest, ⟨copy, hcopy, ?_⟩, h.goes, h.slot, h.reopened, h.others, h.kept⟩
      have rest := offered.rest
      have station := offered.station
      have blocked := offered.blocked
      have waits := offered.waits
      rw [rest]
      exact ⟨rfl, rfl, rfl, rfl, rfl, hgn, rfl, rfl, rfl, rfl, rfl, waits, blocked, station⟩
    refine ⟨fun f rest ht hk hb hm => ?_, fun hp => ?_⟩
    · have reads : ReadsRefire f.body g.toNat n.toNat (dequeued rest s) := ⟨readRefire_eq.mpr ⟨by omega, by omega, hb⟩, hg', hn', hm⟩
      obtain ⟨t, m, offerEnd, e, refired, whole⟩ := refireTicket_refires (s := dequeued rest s) coherent.told
        ⟨coherent.listed.nodup, coherent.listed.members, coherent.listed.listed⟩ hg hn htk hst ⟨hfree, hshort⟩
      have service : OnlyService (dequeued rest s) t := by
        have := refireTicket_service g.toNat n.toNat tk (dequeued rest s)
        rwa [e] at this
      exact ⟨_, m, offerEnd, takeRequest_accepted ht hk (reads.request_made named refirable e),
        all _ m offerEnd (refired.of_dequeued.replied _).settled, service.answers, fun sound hl =>
          (whole sound hl).imp fun u ⟨makes, reopens⟩ => ⟨t, makes, reopens, rfl⟩⟩
    · obtain ⟨t, m, offerEnd, e, refired, whole⟩ := refireTicket_refires coherent.told coherent.listed hg hn htk hst ⟨hfree, hshort⟩
      have run : exec (.passRefire g n) s = .next (settle t) := by
        change execPassRefire g n s = _
        rw [execPassRefire, takePassRefire, if_pos hp, named]
        dsimp only
        rw [if_pos refirable, e]
      exact ⟨_, m, offerEnd, run, all _ m offerEnd refired.settled, fun sound hl =>
        (whole sound hl).imp fun u ⟨makes, reopens⟩ => ⟨t, makes, reopens, rfl⟩⟩

end Sys2Proof.Machine
end

section
/-!
PROOFS. The withdrawals of SEND_SHORT, which keep the tickets in their slots, and the completion of a wave (R59, R100).
-/

namespace Sys2Proof.Machine

/-! ## Withdraw and keep (R100) -/

/-- The record of a ticket withdrawn and kept in its slot. -/
def Ticket.kept (tk : Ticket) : Ticket :=
  { tk with state := .withdrawn, position := none, readyAt := none }

theorem withdrawKeep_passes {n : Nat} {tk : Ticket} {s : State} (hk : ticket? s n = some tk) (h : tk.state = .ready ∨ tk.state = .withdrawn) :
    withdrawKeep n s = s := by
  rw [withdrawKeep, hk]
  dsimp only
  rcases h with h | h <;> rw [h]

theorem withdrawKeep_eq {n : Nat} {tk : Ticket} {s : State} (hk : ticket? s n = some tk) (hr : tk.state ≠ .ready)
    (hw : tk.state ≠ .withdrawn) :
    withdrawKeep n s = drainAfter (undoTicket n tk s).2 (updTicket n Ticket.kept (undoTicket n tk s).1) := by
  rw [withdrawKeep, hk]
  dsimp only
  split
  · exact absurd ‹_› hr
  · exact absurd ‹_› hw
  · rfl

/-- What some withdrawals that keep do to the tickets: those named become WITHDRAWN unless they are READY, and the others wait or stay as they are. -/
structure KeepsTickets (ns : List Nat) (s t : State) : Prop where
  carried : CarriesBut ns s t
  ready : ∀ n, InState t .ready n ↔ InState s .ready n
  withdrawn : ∀ n, InState s .withdrawn n → InState t .withdrawn n
  named : ∀ n ∈ ns, ticket? s n ≠ none → ¬InState s .ready n → InState t .withdrawn n
  group : ∀ n, (ticket? t n).map Ticket.group = (ticket? s n).map Ticket.group

/-- A ticket that is carried along is READY or WITHDRAWN if it was, and only then. -/
theorem CarriesBut.inState {ns : List Nat} {s t : State} (h : CarriesBut ns s t) {n : Nat} (hn : n ∉ ns) {st : TicketState}
    (hst : st = .ready ∨ st = .withdrawn) : InState t st n ↔ InState s st n := by
  rcases h.tickets n hn with e | ⟨o, o', ho, ho', before, after, -⟩
  · rw [InState, InState, e]
  · have h1 : ¬InState t st n := not_inState ho' (by rcases after with e | e <;> rcases hst with rfl | rfl <;> rw [e] <;> simp)
    have h2 : ¬InState s st n := not_inState ho (by rcases before with e | e <;> rcases hst with rfl | rfl <;> rw [e] <;> simp)
    exact iff_of_false h1 h2

theorem inState_of {s : State} {n : Nat} {tk : Ticket} {st : TicketState} (hk : ticket? s n = some tk) (h : tk.state = st) :
    InState s st n := by
  rw [InState, hk]
  exact congrArg some h

theorem withdrawKeep_keeps {n : Nat} {tk : Ticket} {s : State} (told : Told s) (hk : ticket? s n = some tk) :
    KeepsTickets [n] s (withdrawKeep n s) := by
  by_cases hpass : tk.state = .ready ∨ tk.state = .withdrawn
  · rw [withdrawKeep_passes hk hpass]
    refine ⟨(Carries.refl told).carriesBut [n], fun _ => .rfl, fun _ => id, fun m hm _ hr => ?_, fun _ => rfl⟩
    obtain rfl := List.mem_singleton.mp hm
    exact inState_of hk (hpass.resolve_left fun h => hr (inState_of hk h))
  · obtain ⟨hr, hw⟩ := not_or.mp hpass
    obtain ⟨undone, unplaced⟩ := undoTicket_carries told hk
    obtain ⟨tk', hk', hg⟩ := undoTicket_ticket told hk
    have marked : ticket? (updTicket n Ticket.kept (undoTicket n tk s).1) n = some tk'.kept := by
      rw [ticket_get_updTicket, if_pos rfl, hk', Option.map_some]
    have carries : CarriesBut [n] (undoTicket n tk s).1 (updTicket n Ticket.kept (undoTicket n tk s).1) :=
      (Moves.ofTicket n Ticket.kept _).carriesBut undone.told unplaced fun _ => .refl _
    have drained := drainAfter_carries (undoTicket n tk s).2 carries.told
    have final := drained.same marked (by simp [Ticket.kept])
    have all := ((undone.carriesBut [n]).trans carries).trans (drained.carriesBut [n])
    rw [withdrawKeep_eq hk hr hw]
    generalize drainAfter (undoTicket n tk s).2 (updTicket n Ticket.kept (undoTicket n tk s).1) = t at *
    have withdrawn : InState t .withdrawn n := inState_of final rfl
    have others : ∀ m, m ≠ n → m ∉ [n] := fun m hm h => hm (List.mem_singleton.mp h)
    refine ⟨all, fun m => ?_, fun m hm => ?_, fun m hm _ _ => List.mem_singleton.mp hm ▸ withdrawn, fun m => ?_⟩
    · by_cases e : m = n
      · subst e
        exact iff_of_false (not_inState final (by simp [Ticket.kept])) (not_inState hk hr)
      · exact all.inState (others m e) (.inl rfl)
    · by_cases e : m = n
      · exact e ▸ withdrawn
      · exact (all.inState (others m e) (.inr rfl)).mpr hm
    · by_cases e : m = n
      · rw [e, final, hk, Option.map_some, Option.map_some]
        exact congrArg some hg
      · exact all.map_eq Ticket.group (fun _ _ hs => by rw [hs.2.2]) (others m e)

theorem KeepsTickets.trans {ns ms : List Nat} {s t u : State} (h : KeepsTickets ns s t) (k : KeepsTickets ms t u) :
    KeepsTickets (ns ++ ms) s u where
  carried := (h.carried.mono (List.subset_append_left ns ms)).trans (k.carried.mono (List.subset_append_right ns ms))
  ready n := (k.ready n).trans (h.ready n)
  withdrawn n hn := k.withdrawn n (h.withdrawn n hn)
  named n hn hl hr := by
    rcases List.mem_append.mp hn with hn | hn
    · exact k.withdrawn n (h.named n hn hl hr)
    · refine k.named n hn (fun e => hl ?_) fun e => hr ((h.ready n).mp e)
      simpa [e] using (h.group n).symm
  group n := (k.group n).trans (h.group n)

theorem withdrawKeeps_keeps (ns : List Nat) {s : State} (told : Told s) (live : ∀ n ∈ ns, ticket? s n ≠ none) :
    KeepsTickets ns s (ns.foldl (fun s t => withdrawKeep t s) s) := by
  induction ns generalizing s with
  | nil => exact ⟨(Carries.refl told).carriesBut [], fun _ => .rfl, fun _ => id, fun n hn => absurd hn (by simp), fun _ => rfl⟩
  | cons n ns ih =>
    obtain ⟨tk, hk⟩ := Option.ne_none_iff_exists'.mp (live n (List.mem_cons_self ..))
    have one := withdrawKeep_keeps told hk
    exact one.trans (ih one.carried.told fun m hm e => live m (List.mem_cons_of_mem _ hm) (by simpa [e] using (one.group m).symm))

theorem withdrawKeeps_undoes (ns : List Nat) (s : State) : OnlyUndoes s (ns.foldl (fun s t => withdrawKeep t s) s) := by
  induction ns generalizing s with
  | nil => exact .refl s
  | cons n ns ih => exact (withdrawKeep_undoes n s).trans (ih _)

theorem withdrawKeeps_service (ns : List Nat) (s : State) : OnlyService s (ns.foldl (fun s t => withdrawKeep t s) s) := by
  induction ns generalizing s with
  | nil => exact .refl s
  | cons n ns ih => exact (withdrawKeep_service n s).trans (ih _)

/-! ## What a run of them keeps -/

theorem withdrawKeep_working {n : Nat} {tk : Ticket} {s : State} (h : Working s) (hk : ticket? s n = some tk) : Working (withdrawKeep n s) := by
  have keeps := withdrawKeep_keeps h.told hk
  have only := withdrawKeep_undoes n s
  have numbered := (withdrawKeep_runs n s).numbered h.counted.numbered
  have groups : ∀ g, group? (withdrawKeep n s) g = group? s g := fun g => by rw [group?, only.groups]; rfl
  refine ⟨keeps.carried.told, fun x => (keeps.carried.blocked x).nodup (h.blocked x), ⟨?_, ?_, fun m tk hm => ?_⟩, ⟨numbered, ?_, ?_⟩,
    fun u c hc => ?_⟩
  · simpa only [groups] using h.listed.nodup
  · simpa only [groups, keeps.group] using h.listed.members
  · have group := keeps.group m
    rw [hm, Option.map_some] at group
    obtain ⟨o, ho, e⟩ := Option.map_eq_some_iff.mp group.symm
    rw [groups, ← e]
    exact h.listed.listed m o ho
  · rw [only.ticketPool, h.counted.tickets]
    refine Store.length_congr h.counted.numbered.1 numbered.1 fun m => ?_
    simpa [ticket?] using (congrArg Option.isSome (keeps.group m)).symm
  · rw [only.groups, ← h.counted.groups, only.rest]
  · rw [only.rest] at hc
    simpa only [groups] using h.courses u c hc

theorem withdrawKeep_lines {n : Nat} {tk : Ticket} {s : State} (h : Working s) (hl : LinesSound s) (hk : ticket? s n = some tk) :
    LinesSound (withdrawKeep n s) := by
  by_cases hpass : tk.state = .ready ∨ tk.state = .withdrawn
  · rw [withdrawKeep_passes hk hpass]
    exact hl
  · obtain ⟨hr, hw⟩ := not_or.mp hpass
    obtain ⟨undone, unplaced⟩ := undoTicket_carries h.told hk
    have carries : CarriesBut [n] (undoTicket n tk s).1 (updTicket n Ticket.kept (undoTicket n tk s).1) :=
      (Moves.ofTicket n Ticket.kept _).carriesBut undone.told unplaced fun _ => .refl _
    have lines : LinesSound (undoTicket n tk s).1 := (undoTicket_undoes hl).2.2.1
    rw [withdrawKeep_eq hk hr hw]
    exact drainAfter_lines _ lines (carries.told.blockedSound fun x => (undone.blocked x).nodup (h.blocked x))

/-- The withdrawals of the live tickets `ns`, one after another. -/
theorem withdrawKeeps_working (ns : List Nat) {s : State} (h : Working s) (live : ∀ n ∈ ns, ticket? s n ≠ none) :
    Working (ns.foldl (fun s t => withdrawKeep t s) s)
      ∧ (LinesSound s → WithdrawsEach true ns s (ns.foldl (fun s t => withdrawKeep t s) s)
        ∧ LinesSound (ns.foldl (fun s t => withdrawKeep t s) s)) := by
  induction ns generalizing s with
  | nil => exact ⟨h, fun hl => ⟨rfl, hl⟩⟩
  | cons n ns ih =>
    obtain ⟨tk, hk⟩ := Option.ne_none_iff_exists'.mp (live n (List.mem_cons_self ..))
    have one := withdrawKeep_keeps h.told hk
    obtain ⟨working, each⟩ := ih (withdrawKeep_working h hk) fun m hm e =>
      live m (List.mem_cons_of_mem _ hm) (by simpa [e] using (one.group m).symm)
    rw [List.foldl_cons]
    refine ⟨working, fun hl => ?_⟩
    obtain ⟨each, lines⟩ := each (withdrawKeep_lines h hl hk)
    refine ⟨⟨_, ?_, each⟩, lines⟩
    have inState : ∀ st, InState s st n ↔ tk.state = st := fun st => by
      rw [InState, hk, Option.map_some, Option.some_inj]
    simp only [inState, true_and]
    split
    · rename_i hpass
      exact withdrawKeep_passes hk hpass
    · rename_i hpass
      obtain ⟨hr, hw⟩ := not_or.mp hpass
      exact (h.withdraws hl hk).2 hr hw

/-! ## The completion of a wave (R59) -/

theorem completeWave_completes (w : Nat) (s : State) : Completes w s (completeWave w s) := by
  unfold Completes completeWave
  cases hw : wave? s w with
  | none => rw [if_neg (by simp)]
  | some wv =>
    dsimp only
    have zero : liveGroupCount wv = 0 ↔ wv.release.groups ≤ wv.ending.served + wv.ending.short + wv.ending.cancelled := by
      rw [liveGroupCount]
      omega
    simp only [Option.mem_def, Option.some.injEq, exists_eq_left', zero]
    split
    · exact endWave_ends .served hw
    · rfl

/-- A wave's completion changes no ticket, group or table. -/
theorem completeWave_rest (w : Nat) (s : State) :
    completeWave w s = { s with
      link := (completeWave w s).link, waves := (completeWave w s).waves, frozen := (completeWave w s).frozen } := by
  unfold completeWave
  split
  · rfl
  · split
    · unfold endWave
      split
      · rfl
      · rw [pushNotice_with _ (s := s) (t := freeWave w s) rfl]
        rfl
    · rfl

end Sys2Proof.Machine
end

section
/-!
PROOFS. O49: SEND_SHORT, with a READY ticket and with none (R14, R59, R87, R100, R149, R159, R163).
-/

namespace Sys2Proof.Machine

/-! ## The group, short, and its withdrawals (R159) -/

/-- The short flag alone is set. -/
def Group.shortened (gr : Group) : Group :=
  { gr with short := true }

/-- The state once the group is marked short and its tickets neither READY nor WITHDRAWN have been withdrawn. -/
def shortened (g : Nat) (gr : Group) (s : State) : State :=
  gr.tickets.foldl (fun s t => withdrawKeep t s) (updGroup g Group.shortened s)

theorem sendShort_eq (g : Nat) (gr : Group) (s : State) :
    sendShort g gr s
      = if gr.tickets.any (ticketIs (shortened g gr s) .ready) = true then
          (completionTest g (sendGroupUp g (shortened g gr s)), .shortGo)
        else (completeWave gr.wave (freeGroup g .cancelled (shortened g gr s)), .cancelled) := rfl

theorem updShort_group {g : Nat} {gr : Group} {s : State} (hg : group? s g = some gr) (h : Nat) :
    group? (updGroup g Group.shortened s) h = if h = g then some gr.shortened else group? s h := by
  rw [group_get_updGroup]
  split
  · rename_i e
    rw [e, hg, Option.map_some]
  · rfl

/-- What the withdrawals leave of the group, its tickets and the rest. -/
structure Shortened (g : Nat) (gr : Group) (s u : State) : Prop where
  keeps : KeepsTickets gr.tickets s u
  undoes : OnlyUndoes (updGroup g Group.shortened s) u
  groups : ∀ h, group? u h = if h = g then some gr.shortened else group? s h

theorem shortened_shortened {g : Nat} {gr : Group} {s : State} (told : Told s) (listed : Listed s) (hg : group? s g = some gr) :
    Shortened g gr s (shortened g gr s) := by
  have keeps : KeepsTickets gr.tickets (updGroup g Group.shortened s) (shortened g gr s) :=
    withdrawKeeps_keeps gr.tickets told fun n hn e => by simpa [show ticket? s n = none from e] using listed.members g gr hg n hn
  have undoes : OnlyUndoes (updGroup g Group.shortened s) (shortened g gr s) := withdrawKeeps_undoes _ _
  refine ⟨⟨⟨keeps.carried.told, keeps.carried.tickets, keeps.carried.blocked⟩, keeps.ready, keeps.withdrawn, keeps.named, keeps.group⟩,
    undoes, fun h => ?_⟩
  rw [group?, undoes.groups]
  exact updShort_group hg h

theorem shortened_working {g : Nat} {gr : Group} {s : State} (h : Working s) (hg : group? s g = some gr) :
    Working (updGroup g Group.shortened s) := by
  have groups := updShort_group hg
  have numbered := (updGroup_runs g Group.shortened s).numbered h.counted.numbered
  have kept : ∀ k gr', group? (updGroup g Group.shortened s) k = some gr' → ∃ gr₀, group? s k = some gr₀
      ∧ gr₀.tickets = gr'.tickets := fun k gr' hk => by
    rw [groups] at hk
    split at hk
    · rename_i e
      have short : gr.shortened = gr' := Option.some.inj hk
      exact ⟨gr, e ▸ hg, by rw [← short]; rfl⟩
    · exact ⟨gr', hk, rfl⟩
  have back : ∀ k gr₀, group? s k = some gr₀ → ∃ gr', group? (updGroup g Group.shortened s) k = some gr' ∧ gr'.tickets = gr₀.tickets
      ∧ gr'.table = gr₀.table ∧ gr'.course = gr₀.course := fun k gr₀ hk => by
    rw [groups]
    split
    · rename_i e
      obtain rfl := Option.some.inj (hg.symm.trans (e ▸ hk))
      exact ⟨_, rfl, rfl, rfl, rfl⟩
    · exact ⟨gr₀, hk, rfl, rfl, rfl⟩
  refine ⟨h.told, h.blocked, ⟨fun k gr' hk => ?_, fun k gr' hk n hn => ?_, fun n tk hn => ?_⟩, ⟨numbered, h.counted.tickets, ?_⟩,
    fun u c hc => ?_⟩
  · obtain ⟨gr₀, h₀, e⟩ := kept k gr' hk
    exact e ▸ h.listed.nodup k gr₀ h₀
  · obtain ⟨gr₀, h₀, e⟩ := kept k gr' hk
    exact h.listed.members k gr₀ h₀ n (e ▸ hn)
  · obtain ⟨gr₀, h₀, hm⟩ := h.listed.listed n tk hn
    obtain ⟨gr', hk, e, -⟩ := back _ gr₀ h₀
    exact ⟨gr', hk, e ▸ hm⟩
  · refine h.counted.groups.trans (Store.length_congr h.counted.numbered.2 numbered.2 fun k => ?_)
    change (group? s k).isSome = (group? (updGroup g Group.shortened s) k).isSome
    rw [groups]
    split
    · rename_i e
      rw [e, hg]
      rfl
    · rfl
  · obtain ⟨k, gr₀, h₀, htable, hcourse⟩ := h.courses u c hc
    obtain ⟨gr', hk, -, e1, e2⟩ := back k gr₀ h₀
    exact ⟨k, gr', hk, e1.trans htable, e2.trans hcourse⟩

/-! ## A short GO (R149, R159) -/

/-- The group of a short GO. -/
def Group.sentShort (s : State) (gr : Group) : Group :=
  gr.shortened.completed s

theorem Shortened.ready_iff {g : Nat} {gr : Group} {s u : State} (h : Shortened g gr s u) :
    gr.tickets.any (ticketIs u .ready) = true ↔ 0 < (gr.tickets.filter fun n => decide (InState s .ready n)).length := by
  rw [List.any_eq_true, List.length_pos_iff_exists_mem]
  simp only [List.mem_filter, ticketIs, decide_eq_true_eq]
  exact exists_congr fun n => and_congr_right fun _ => h.keeps.ready n

theorem Shortened.completes {g : Nat} {gr : Group} {s u : State} (h : Shortened g gr s u) (listed : Listed s) (hg : group? s g = some gr)
    (hs : gr.state = .assembling) (hr : gr.tickets.any (ticketIs u .ready) = true) :
    completionTest g (sendGroupUp g u)
      = sendRecord .pass (.go g true) (updGroup g (Group.completed u) (sendGroupUp g u)) := by
  have lines := sendGroupUp_lines g u
  generalize sendGroupUp g u = w at *
  have hgw : group? w g = some gr.shortened := by
    rw [group?, lines.groups]
    exact (h.groups g).trans (if_pos rfl)
  have full : listComplete w gr.tickets = true := by
    rw [listComplete, Bool.and_eq_true, List.all_eq_true]
    refine ⟨fun n hn => ?_, ?_⟩
    · rw [Bool.or_eq_true, ticketIs, ticketIs, decide_eq_true_eq, decide_eq_true_eq]
      have live : ticket? s n ≠ none := fun e => by simpa [e] using listed.members g gr hg n hn
      by_cases ready : InState s .ready n
      · exact .inl ((inState_congr lines.tickets .ready n).mpr ((h.keeps.ready n).mpr ready))
      · exact .inr ((inState_congr lines.tickets .withdrawn n).mpr (h.keeps.named n hn live ready))
    · rw [← hr]
      exact congrArg (fun f => gr.tickets.any f) (funext fun n => by rw [ticketIs, ticketIs, lines.ticket_get])
  have clock : w.clock = u.clock := by rw [lines.rest]
  have link : w.link = u.link := by rw [lines.rest]
  rw [completionTest, hgw]
  dsimp only
  rw [if_pos ⟨hs, full⟩, clock, link]
  rfl

/-! ## A group freed (R87, R163) -/

theorem freeTicket_none {n : Nat} {s : State} : ticket? (freeTicket n s) n = none := by
  cases hk : ticket? s n with
  | none => rw [freeTicket, hk]; exact hk
  | some tk => rw [freeTicket_ticket hk, if_pos rfl]

theorem freeTicket_keeps_none {n m : Nat} {s : State} (h : ticket? s m = none) : ticket? (freeTicket n s) m = none := by
  cases hk : ticket? s n with
  | none => rw [freeTicket, hk]; exact h
  | some tk =>
    rw [freeTicket_ticket hk, h]
    exact ite_self _

theorem freeTickets_gone (ns : List Nat) (s : State) :
    ∀ n, n ∈ ns ∨ ticket? s n = none → ticket? (ns.foldl (fun s t => freeTicket t s) s) n = none := by
  induction ns generalizing s with
  | nil => exact fun n h => h.resolve_left (by simp)
  | cons m ns ih =>
    intro n h
    refine ih _ n ?_
    by_cases e : n = m
    · exact .inr (e ▸ freeTicket_none)
    · exact h.imp (fun h => (List.mem_cons.mp h).resolve_left e) freeTicket_keeps_none

/-- A group freed as cancelled is gone, its tickets with it, and its course has left the table. -/
theorem freeGroup_gone {g : Nat} {gr : Group} {s : State} (hg : group? s g = some gr) :
    group? (freeGroup g .cancelled s) g = none ∧ (∀ n ∈ gr.tickets, ticket? (freeGroup g .cancelled s) n = none)
      ∧ gr.course ∉ (tableRecord (freeGroup g .cancelled s) gr.table).liveCourses := by
  have cleared : group? (clearGroup g gr s) g = none ∧ (∀ n ∈ gr.tickets, ticket? (clearGroup g gr s) n = none)
      ∧ gr.course ∉ (tableRecord (clearGroup g gr s) gr.table).liveCourses := by
    refine ⟨Store.get?_erase_self _ _, fun n hn => freeTickets_gone gr.tickets s n (.inl hn), ?_⟩
    rw [show tableRecord (clearGroup g gr s) gr.table = _ from tableRecord_setTableRecord _ gr.table gr.table _, if_pos rfl]
    exact fun h => (mem_removeNumber.mp h).2 rfl
  have shown : OnlyLines (clearGroup g gr s)
      (if ¬gr.state = .pending then sendRecord .pass (.withdrawGroup g) (clearGroup g gr s) else clearGroup g gr s) := by
    split
    · exact sendRecord_only _ _ _
    · exact .refl _
  rw [freeGroup_eq hg]
  generalize (if ¬gr.state = .pending then sendRecord .pass (.withdrawGroup g) (clearGroup g gr s) else clearGroup g gr s) = t at *
  obtain ⟨group, tickets, courses⟩ := cleared
  refine ⟨?_, fun n hn => ?_, ?_⟩
  · exact (congrArg (Store.get? · g) shown.groups).trans group
  · exact (shown.ticket_get n).trans (tickets n hn)
  · rw [show tableRecord (reportEnding gr.wave .cancelled t) gr.table = tableRecord t gr.table from rfl, tableRecord, shown.floor]
    exact courses

/-! ## The obligation -/

theorem Shortened.ended {g : Nat} {gr : Group} {s u : State} (h : Shortened g gr s u) (listed : Listed s) (hg : group? s g = some gr)
    (hs : gr.state = .assembling) (hr : gr.tickets.any (ticketIs u .ready) = true) :
    OnlyGroup g u (completionTest g (sendGroupUp g u))
      ∧ group? (completionTest g (sendGroupUp g u)) g = some (gr.sentShort s)
      ∧ (LineSound u.passLine → (completionTest g (sendGroupUp g u)).passLine
          = produced (.go g true) (produced (groupShown u g gr.shortened) u.passLine)
        ∧ (completionTest g (sendGroupUp g u)).stations = u.stations) := by
  have hgu : group? u g = some gr.shortened := (h.groups g).trans (if_pos rfl)
  have lines := sendGroupUp_lines g u
  rw [h.completes listed hg hs hr]
  refine ⟨((OnlyGroup.ofLines lines g).trans (.updGroup g _ _)).trans (.ofLines (sendRecord_only _ _ _) g), ?_, fun hl => ?_⟩
  · rw [group?, (sendRecord_only _ _ _).groups]
    refine (group_get_updGroup _ g g _).trans ?_
    rw [if_pos rfl, group?, lines.groups, show u.groups.get? g = _ from hgu, Option.map_some, h.undoes.rest]
    rfl
  · rw [sendGroupUp_eq hgu hl, sendRecord_pass]
    · exact ⟨rfl, rfl⟩
    · exact produced_sound hl

/-- A SEND_SHORT of this group, in SERVICE (R159). -/
structure ReadsShort (b : List Byte) (g : Nat) (s : State) : Prop where
  read : readTwo b = some g
  group : g ≤ 1023
  mode : s.link.mode = .service

/-- The counts of a SEND_SHORT's reply: the tickets it withdraws, and those READY (log 14). -/
def shortCounts (s : State) (gr : Group) : Nat × Nat :=
  ((gr.tickets.filter fun n => decide (¬InState s .ready n ∧ ¬InState s .withdrawn n)).length,
    (gr.tickets.filter fun n => decide (InState s .ready n)).length)

namespace ReadsShort

variable {b : List Byte} {g : Nat} {s : State} (h : ReadsShort b g s)
include h

theorem request_noSuch (hg : group? s g = none) : sendShortRequest b s = refuse .noSuch s := by
  rw [sendShortRequest, h.read]
  dsimp only
  rw [if_neg (Nat.not_le.mpr (Nat.lt_succ_of_le h.group)), if_neg (by simp [h.mode]), hg]

variable {gr : Group} (hg : group? s g = some gr)
include hg

theorem request_state (hs : gr.state = .complete) : sendShortRequest b s = refuse .state s := by
  rw [sendShortRequest, h.read]
  dsimp only
  rw [if_neg (Nat.not_le.mpr (Nat.lt_succ_of_le h.group)), if_neg (by simp [h.mode]), hg]
  exact if_pos hs

theorem request_sent (hs : gr.state ≠ .complete) {t : State} {outcome : ShortOutcome} (e : sendShort g gr s = (t, outcome)) :
    sendShortRequest b s = accept (.sentShort outcome (shortCounts s gr).1 (shortCounts s gr).2) t := by
  have counts : (gr.tickets.filter fun t => !ticketIs s .ready t && !ticketIs s .withdrawn t)
      = gr.tickets.filter fun n => decide (¬InState s .ready n ∧ ¬InState s .withdrawn n) :=
    List.filter_congr fun n _ => by
      change (!decide (InState s .ready n) && !decide (InState s .withdrawn n)) = _
      rw [← decide_not, ← decide_not, ← Bool.decide_and]
  rw [sendShortRequest, h.read]
  dsimp only
  rw [if_neg (Nat.not_le.mpr (Nat.lt_succ_of_le h.group)), if_neg (by simp [h.mode]), hg]
  dsimp only
  rw [if_neg hs, e, counts]
  rfl

end ReadsShort

theorem sendShort_service (g : Nat) (gr : Group) (s : State) : OnlyService s (sendShort g gr s).1 := by
  have short : OnlyService s (shortened g gr s) := (updGroup_service g Group.shortened s).trans (withdrawKeeps_service _ _)
  rw [sendShort_eq]
  split
  · exact (short.trans (sendGroupUp_lines g _).service).trans (completionTest_service g _)
  · exact (short.trans (freeGroup_service g .cancelled _)).trans (completeWave_service gr.wave _)

/-- Settles O49: the checks of R159 in order, both endings, and the whole of them from a sound state. -/
theorem sendShortCompletesOrFreesTheGroup : Obligations.SendShortCompletesOrFreesTheGroup := by
  intro g f rest s ht hk hb hg
  have read : readTwo f.body = some g := readTwo_eq.mpr ⟨hg, hb⟩
  refine ⟨fun hr => ?_, fun hr hm => ?_, fun hr hm hno => ?_, fun gr hr hm hgr => ?_⟩
  · refine takeRequest_refused_of ht hk ?_
    rw [sendShortRequest, read]
    exact if_pos hr
  · refine takeRequest_refused_of ht hk ?_
    rw [sendShortRequest, read]
    dsimp only
    rw [if_neg (Nat.not_le.mpr (Nat.lt_succ_of_le hr))]
    exact if_pos hm
  · exact takeRequest_refused_of ht hk (ReadsShort.request_noSuch ⟨read, hr, hm⟩ hno)
  · intro ready withdrawn
    have reads : ReadsShort f.body g (dequeued rest s) := ⟨read, hr, hm⟩
    have hgd : group? (dequeued rest s) g = some gr := hgr
    have service := sendShort_service g gr (dequeued rest s)
    have short : Coherent s → Shortened g gr (dequeued rest s) (shortened g gr (dequeued rest s)) := fun coherent =>
      shortened_shortened coherent.told ⟨coherent.listed.nodup, coherent.listed.members, coherent.listed.listed⟩ hgd
    have eq := sendShort_eq g gr (dequeued rest s)
    have sent : ∀ {t : State} {outcome : ShortOutcome}, gr.state ≠ .complete → sendShort g gr (dequeued rest s) = (t, outcome) →
        exec .sendShort s = .next (settle (pushReply ⟨f.tag, f.kind, .accepted {} (.sentShort outcome withdrawn ready)⟩ t)) :=
      fun hs e => takeRequest_accepted ht hk (reads.request_sent hgd hs e)
    have whole : Sound s → LinesSound s → Working (shortened g gr (dequeued rest s))
        ∧ WithdrawsEach true gr.tickets (updGroup g Group.shortened (dequeued rest s)) (shortened g gr (dequeued rest s))
        ∧ LinesSound (shortened g gr (dequeued rest s)) := fun sound hl => by
      obtain ⟨working, each⟩ := withdrawKeeps_working gr.tickets
        (shortened_working (s := dequeued rest s) (Sound.working sound) hgd) fun n hn e => by
          have live := sound.1.listed.members g gr hgr n hn
          rw [show ticket? s n = none from e] at live
          simp at live
      exact ⟨working, each hl⟩
    generalize shortened g gr (dequeued rest s) = u at *
    refine ⟨fun hs => takeRequest_refused_of ht hk (reads.request_state hgd hs), fun coherent hs hready => ?_,
      fun coherent hs hnone => ?_, fun sound hl hs => ?_⟩
    · have short := short coherent
      have any := short.ready_iff.mpr hready
      rw [if_pos any] at eq
      obtain ⟨only, group, -⟩ := short.ended ⟨coherent.listed.nodup, coherent.listed.members, coherent.listed.listed⟩ hgd hs any
      rw [eq] at service
      refine ⟨_, sent (by simp [hs]) eq, service.answers, (settle_group_get _ _).trans group, fun n hn => ?_, ?_, ?_, ?_⟩
      · have tickets : ∀ st, InState (settle (pushReply ⟨f.tag, f.kind, .accepted {} (.sentShort .shortGo withdrawn ready)⟩
            (completionTest g (sendGroupUp g u)))) st n ↔ InState u st n := fun st =>
          inState_congr ((settle_tickets (pushReply _ _)).trans only.tickets) st n
        rw [tickets]
        split
        · rename_i now
          exact (short.keeps.ready n).mpr now
        · rename_i not
          refine short.keeps.named n hn (fun e => ?_) not
          have live := coherent.listed.members g gr hgr n hn
          rw [show ticket? s n = none from e] at live
          simp at live
      · exact (settle_clock _).trans service.clock
      · rw [settle_ticketPool]
        exact only.ticketPool.trans short.undoes.ticketPool
      · rw [settle_groupPool]
        exact only.groupPool.trans (by rw [short.undoes.rest]; rfl)
    · have short := short coherent
      have none' : ¬gr.tickets.any (ticketIs u .ready) = true := fun any => absurd (short.ready_iff.mp any) (Nat.not_lt.mpr hnone.le)
      have hgu : group? u g = some gr.shortened := (short.groups g).trans (if_pos rfl)
      rw [if_neg none'] at eq
      rw [eq] at service
      obtain ⟨group, tickets, courses⟩ := freeGroup_gone hgu
      have rest' := completeWave_rest gr.wave (freeGroup g .cancelled u)
      generalize freeGroup g .cancelled u = a at *
      generalize completeWave gr.wave a = t at *
      have done := sent hs eq
      rw [hnone] at done
      refine ⟨_, done, service.answers, (settle_group_get _ _).trans ?_, fun n hn => (settle_ticket_get _ _).trans ?_, ?_,
        (settle_clock _).trans service.clock⟩
      · rw [pushReply_group_get, rest']
        exact group
      · rw [pushReply_ticket_get, rest']
        exact tickets n hn
      · rw [settle_tableRecord, pushReply_tableRecord, rest']
        exact courses
    · have short := short sound.1
      obtain ⟨working, each, lines⟩ := whole sound hl
      have open' : gr.state ≠ .complete := by rcases hs with h | ⟨h, -⟩ <;> rw [h] <;> simp
      refine ⟨updGroup g Group.shortened (dequeued rest s), u, (sendShort g gr (dequeued rest s)).1, rfl, updShort_group hgd, each,
        fun hready => ?_, fun hnone => ?_⟩
      · have any := short.ready_iff.mpr hready
        have assembling : gr.state = .assembling := hs.resolve_right fun h => absurd h.2 hready.ne'
        obtain ⟨only, -, shown⟩ :=
          short.ended ⟨sound.1.listed.nodup, sound.1.listed.members, sound.1.listed.listed⟩ hgd assembling any
        obtain ⟨line, stations⟩ := shown lines.2
        rw [if_pos any] at eq
        rw [eq]
        have rest' := only.rest
        rw [line, stations] at rest'
        exact ⟨rest', only.others, sent open' eq⟩
      · have none' : ¬gr.tickets.any (ticketIs u .ready) = true := fun any => absurd (short.ready_iff.mp any) (Nat.not_lt.mpr hnone.le)
        have hgu : group? u g = some gr.shortened := (short.groups g).trans (if_pos rfl)
        rw [if_neg none'] at eq
        rw [eq]
        refine ⟨⟨_, freeGroup_frees hgu lines.2 working.listed working.counted, completeWave_completes gr.wave _⟩, ?_⟩
        have done := sent open' eq
        rw [hnone] at done
        exact done

end Sys2Proof.Machine
end

section
/-!
PROOFS. O23, O24 and O25: DEFINE_FLOOR, SET_TABLE and MARK_TABLES (R18 to R21, R24, R25, R28).
-/

namespace Sys2Proof.Machine

/-! ## DEFINE_FLOOR (R18) -/

/-- A DEFINE_FLOOR whose body has been read (R18). -/
theorem defineFloorRequest_of_read {b : List Byte} {rows columns : Nat} (s : State) (h : readFloor b = some (rows, columns)) :
    defineFloorRequest b s
      = if rows < 1 ∨ 40 < rows ∨ columns < 1 ∨ 40 < columns ∨ Config.tables < rows * columns then refuse .range s
        else if s.link.mode = .service then refuse .mode s
        else accept .noFigures { s with floor := { rows := rows, columns := columns, tables := [] } } := by
  rw [defineFloorRequest, h]

/-- Settles O23: the checks of R18 in order; no table is listed on the new floor, so each has its reset record. -/
theorem defineFloorResetsEveryTable : Obligations.DefineFloorResetsEveryTable := by
  intro rows columns f rest s ht hk hb h1 h2
  have handled := defineFloorRequest_of_read (dequeued rest s) (readFloor_eq.mpr ⟨h1, h2, hb⟩)
  constructor
  · intro hr
    refine takeRequest_refused_of ht hk (handled.trans (if_pos ?_))
    rcases hr with h | h | h | h | h
    · exact .inl (by omega)
    · exact .inr (.inl h)
    · exact .inr (.inr (.inl (by omega)))
    · exact .inr (.inr (.inr (.inl h)))
    · exact .inr (.inr (.inr (.inr h)))
  · intro a1 a2 a3 a4 a5
    have inRange : ¬(rows < 1 ∨ 40 < rows ∨ columns < 1 ∨ 40 < columns ∨ Config.tables < rows * columns) := by
      rintro (h | h | h | h | h)
      case inr.inr.inr.inr => exact Nat.not_lt.mpr a5 h
      all_goals omega
    rw [if_neg inRange] at handled
    refine ⟨fun hm => ?_, fun hm => ⟨{ rows := rows, columns := columns, tables := [] }, ?_, rfl, rfl, fun u => rfl⟩⟩
    · exact takeRequest_refused_of ht hk (handled.trans (by simp [hm]))
    · exact takeRequest_answered ht hk (handled.trans (by simp [hm, accept]; rfl))

/-! ## SET_TABLE (R19 to R21) -/

/-- The constraints of R19 with the ranges of R20. -/
theorem tableFormInRange_iff (g : TableForm) :
    tableFormInRange g = true
      ↔ (g.table ≤ 399 ∧ g.covers ≤ 16 ∧ g.mark ≤ 15 ∧ g.entries.length ≤ 4)
        ∧ (∀ e ∈ g.entries, e.source ≤ 511 ∧ e.target ≤ 511 ∧ e.target ≠ e.source ∧ 1 ≤ e.count ∧ e.count ≤ 16
          ∧ ((g.entries.filter fun d => decide (d.source = e.source)).map Substitution.count).sum ≤ g.covers)
        ∧ (g.entries.map fun e => (e.source, e.target)).Nodup := by
  simp only [tableFormInRange, substitutionsValid, Config.tables, Config.components, Bool.and_eq_true, decide_eq_true_eq,
    List.all_eq_true, countSum_eq, Nat.lt_succ_iff (n := 511), Nat.lt_succ_iff (n := 399)]
  constructor
  · rintro ⟨⟨sizes, numbers⟩, ⟨counts, pairs⟩, sums⟩
    exact ⟨sizes, fun e he => ⟨(numbers e he).1, (numbers e he).2, (counts e he).1, (counts e he).2.1, (counts e he).2.2, sums e he⟩,
      pairs⟩
  · rintro ⟨sizes, entries, pairs⟩
    refine ⟨⟨sizes, fun e he => ?_⟩, ⟨fun e he => ?_, pairs⟩, fun e he => ?_⟩ <;>
      obtain ⟨source, target, differ, low, high, sum⟩ := entries e he
    · exact ⟨source, target⟩
    · exact ⟨differ, low, high⟩
    · exact sum

/-- A SET_TABLE whose body has been read (R20, R21). -/
theorem setTableRequest_of_read {b : List Byte} {g : TableForm} (s : State) (h : readTable b = some g) :
    setTableRequest b s
      = if tableFormInRange g = false then refuse .range s
        else if floorSize s.floor ≤ g.table then refuse .noSuch s
        else if g.entries.all (fun e => componentDefined s e.source && componentDefined s e.target) = false then refuse .noSuch s
        else if (tableRecord s g.table).liveCourses ≠ [] then refuse .state s
        else if s.engine.status = .running then refuse .busy s
        else
          accept .noFigures (setTableRecord g.table
            { tableRecord s g.table with covers := g.covers, mark := g.mark, substitutions := g.entries } s) := by
  rw [setTableRequest, h]

theorem entriesDefined_iff (s : State) (es : List Substitution) :
    es.all (fun e => componentDefined s e.source && componentDefined s e.target) = true
      ↔ ∀ e ∈ es, s.components.get? e.source ≠ none ∧ s.components.get? e.target ≠ none := by
  simp [componentDefined, Option.isSome_iff_ne_none]

/-- Settles O24: the checks of R20 in order, and the record written. -/
theorem setTableWritesTheRecord : Obligations.SetTableWritesTheRecord := by
  intro g f rest s ht hk hb h1 h2 h3 h4 h5
  have handled := setTableRequest_of_read (dequeued rest s) (readTable_eq.mpr ⟨⟨h1, h2, h3, h4, h5⟩, hb⟩)
  constructor
  · intro hr
    refine takeRequest_refused_of ht hk (handled.trans (if_pos ?_))
    rw [Bool.eq_false_iff, ne_eq, tableFormInRange_iff]
    rintro ⟨⟨table, covers, mark, entries⟩, each, pairs⟩
    rcases hr with h | h | h | h | ⟨e, he, h⟩ | h
    case inr.inr.inr.inr.inl =>
      obtain ⟨source, target, differ, low, high, sum⟩ := each e he
      omega
    case inr.inr.inr.inr.inr => exact h pairs
    all_goals omega
  · intro a1 a2 a3 a4 a5 a6
    rw [(tableFormInRange_iff g).mpr ⟨⟨a1, a2, a3, a4⟩, a5, a6⟩] at handled
    constructor
    · rintro (h | h)
      · exact takeRequest_refused_of ht hk (handled.trans (by simp [floorSize, h]))
      · have undefined : g.entries.all (fun e => componentDefined (dequeued rest s) e.source
            && componentDefined (dequeued rest s) e.target) = false := by
          obtain ⟨e, he, hn⟩ := h
          refine List.all_eq_false.mpr ⟨e, he, ?_⟩
          rcases hn with hn | hn <;> simp [componentDefined, hn]
        exact takeRequest_refused_of ht hk (handled.trans (by simp only [undefined]; simp))
    · intro onFloor hd
      have defined : g.entries.all (fun e => componentDefined (dequeued rest s) e.source
          && componentDefined (dequeued rest s) e.target) = true := (entriesDefined_iff _ _).mpr hd
      have size : ¬floorSize (dequeued rest s).floor ≤ g.table := Nat.not_le.mpr onFloor
      simp only [defined, size, if_false, Bool.true_eq_false, dequeued_tableRecord, dequeued_engine] at handled
      refine ⟨fun hl => ?_, fun hl he => ?_, fun hl he => ⟨(setTableRecord g.table
        { tableRecord s g.table with covers := g.covers, mark := g.mark, substitutions := g.entries } s).floor.tables, ?_, ?_,
        fun u hu => ?_⟩⟩
      · exact takeRequest_refused_of ht hk (handled.trans (if_pos hl))
      · exact takeRequest_refused_of ht hk (handled.trans (by simp [hl, he]))
      · exact takeRequest_answered ht hk (handled.trans (by simp [hl, he, accept]; rfl))
      · exact (tableRecord_setTableRecord _ _ _ _).trans (by simp [hl])
      · exact (tableRecord_setTableRecord _ _ _ _).trans (if_neg hu)

/-! ## MARK_TABLES (R24, R25, R28) -/

/-- A MARK_TABLES whose body has been read (R28). -/
theorem markTablesRequest_of_read {b : List Byte} {r : Region} {op : MarkOp} (s : State) (h : readMarks b = some (r, op)) :
    markTablesRequest b s
      = if markOpInRange op = false then refuse .range s
        else if regionValid s.floor r = false then refuse .range s
        else if s.engine.status = .running then refuse .busy s
        else
          ((walkOrder s.floor r).foldl (markTable op) s,
            .accepted { clipped := (clippedSize s.floor r).isSome }
              (.tablesMarked
                ((walkOrder s.floor r).filter fun t =>
                  decide (newMark op (tableRecord s t).mark ≠ (tableRecord s t).mark)).length
                (clippedSize s.floor r))) := by
  rw [markTablesRequest, h]

theorem markOpInRange_iff (op : MarkOp) :
    markOpInRange op = true ↔ match op with
      | .setMark m => m ≤ 15
      | .replace a b => a ≤ 15 ∧ b ≤ 15
      | .clear => True := by
  cases op <;> simp [markOpInRange]

/-- The body of an operation as the host writes it spells it. -/
theorem markOpBytes_spells (op : MarkOp) : spellsMarkOp op (markOpBytes op) := by
  cases op with
  | setMark m => exact ⟨_, rfl⟩
  | replace a b => rfl
  | clear => exact ⟨_, _, rfl⟩

theorem markTable_tableRecord (op : MarkOp) (s : State) (t u : Nat) :
    tableRecord (markTable op s t) u
      = if u = t then { tableRecord s u with mark := newMark op (tableRecord s u).mark } else tableRecord s u := by
  rw [markTable, tableRecord_setTableRecord]
  split
  · rename_i h
    rw [h]
  · rfl

/-- Marking tables, each once, gives each of them its new mark and leaves the others alone (R28). -/
theorem markTables_tableRecord (op : MarkOp) {ts : List Nat} (hd : ts.Nodup) (s : State) (u : Nat) :
    tableRecord (ts.foldl (markTable op) s) u
      = if u ∈ ts then { tableRecord s u with mark := newMark op (tableRecord s u).mark } else tableRecord s u := by
  induction ts generalizing s with
  | nil => rfl
  | cons t ts ih =>
    obtain ⟨hn, hd⟩ := List.nodup_cons.mp hd
    rw [List.foldl_cons, ih hd, markTable_tableRecord]
    by_cases h : u = t
    · simp [h, hn]
    · simp [h]

/-- Marking tables changes the listed table records alone. -/
theorem markTables_rest (op : MarkOp) (ts : List Nat) (s : State) :
    ts.foldl (markTable op) s = { s with floor := { s.floor with tables := (ts.foldl (markTable op) s).floor.tables } } := by
  induction ts generalizing s with
  | nil => rfl
  | cons t ts ih =>
    rw [List.foldl_cons, ih]
    rfl

theorem markTables_dequeued (op : MarkOp) (ts : List Nat) (rest : List Frame) (s : State) :
    ts.foldl (markTable op) (dequeued rest s) = dequeued rest (ts.foldl (markTable op) s) := by
  induction ts generalizing s with
  | nil => rfl
  | cons t ts ih =>
    rw [List.foldl_cons, List.foldl_cons, ← ih]
    rfl

/-- Settles O25: the checks of R28 in order, and the marks of the walk's tables, each of which is walked once. -/
theorem markTablesChangesMarks : Obligations.MarkTablesChangesMarks := by
  intro r op f rest s ht hk hb h1 h2 marksFit
  have handled := markTablesRequest_of_read (dequeued rest s) (readMarks_eq.mpr ⟨_, h1, h2, markOpBytes_spells op, hb⟩)
  have fits : markOpInRange op = true ↔ marksFit := markOpInRange_iff op
  have valid : regionValid (dequeued rest s).floor r = true ↔ RegionFits s.floor r := regionValid_iff _ _
  constructor
  · intro hr
    refine takeRequest_refused_of ht hk (handled.trans ?_)
    rcases hr with h | h
    · rw [if_pos (Bool.eq_false_iff.mpr (fits.not.mpr h))]
    · rw [if_pos (Bool.eq_false_iff.mpr (valid.not.mpr h)), ite_self]
  · intro hm hr
    rw [fits.mpr hm, valid.mpr hr] at handled
    refine ⟨fun he => ?_, fun he => ?_⟩
    · exact takeRequest_refused_of ht hk (handled.trans (by simp [he]))
    · let t := (walkOrder s.floor r).foldl (markTable op) s
      have records : ∀ u, tableRecord t u = if u ∈ walkOrder s.floor r then
          { tableRecord s u with mark := newMark op (tableRecord s u).mark } else tableRecord s u :=
        markTables_tableRecord op (walkOrder_nodup hr) s
      have rest_t : t = { s with floor := { s.floor with tables := t.floor.tables } } := markTables_rest op _ s
      have changed : ((walkOrder s.floor r).filter fun u => decide ((tableRecord t u).mark ≠ (tableRecord s u).mark))
          = (walkOrder s.floor r).filter fun u => decide (newMark op (tableRecord s u).mark ≠ (tableRecord s u).mark) :=
        List.filter_congr fun u hu => by rw [records u, if_pos hu]
      refine ⟨t.floor.tables, ?_, ?_⟩
      · rw [← rest_t]
        refine takeRequest_answered ht hk (handled.trans ?_)
        simp only [Bool.true_eq_false, if_false, dequeued_floor, dequeued_engine, he, markTables_dequeued, clippedSize_eq,
          dequeued_tableRecord]
        rw [changed]
        rfl
      · intro u
        rw [← rest_t, records u]
        cases op <;> rfl

end Sys2Proof.Machine
end

section
/-!
PROOFS. O52: PICKED for a COMPLETE group (R23, R58, R59, R87, R91, R160, R163).
-/

namespace Sys2Proof.Machine

/-! ## The freeing of a group, in any state (R87, R163) -/

/-- Freeing tickets changes ticket records, their pool and the groups' lists alone. -/
theorem freeTickets_rest (ns : List Nat) (s : State) :
    let t := ns.foldl (fun s t => freeTicket t s) s
    t = { s with tickets := t.tickets, ticketPool := t.ticketPool, groups := t.groups } := by
  induction ns generalizing s with
  | nil => rfl
  | cons n ns ih =>
    have one : freeTicket n s = { s with
        tickets := (freeTicket n s).tickets, ticketPool := (freeTicket n s).ticketPool, groups := (freeTicket n s).groups } := by
      unfold freeTicket
      split <;> rfl
    rw [List.foldl_cons]
    refine (ih (freeTicket n s)).trans ?_
    rw [one]

theorem freeTickets_others (ns : List Nat) (s : State) {m : Nat} (hm : m ∉ ns) :
    ticket? (ns.foldl (fun s t => freeTicket t s) s) m = ticket? s m := by
  induction ns generalizing s with
  | nil => rfl
  | cons n ns ih =>
    obtain ⟨ne, hm⟩ := not_or.mp (List.mem_cons.not.mp hm)
    rw [List.foldl_cons, ih _ hm]
    cases hk : ticket? s n with
    | none => rw [freeTicket, hk]
    | some tk => rw [freeTicket_ticket hk, if_neg ne]

/-- Freeing tickets of group `g` changes no other group. -/
theorem freeTickets_groups {g : Nat} (ns : List Nat) {s : State} (hn : ∀ n ∈ ns, (ticket? s n).map Ticket.group = some g)
    (hd : ns.Nodup) {h : Nat} (hh : h ≠ g) : group? (ns.foldl (fun s t => freeTicket t s) s) h = group? s h := by
  induction ns generalizing s with
  | nil => rfl
  | cons n ns ih =>
    obtain ⟨tk, hk, hg⟩ := Option.map_eq_some_iff.mp (hn n (List.mem_cons_self ..))
    obtain ⟨fresh, hd⟩ := List.nodup_cons.mp hd
    rw [List.foldl_cons, ih (fun m hm => ?_) hd, freeTicket_group hk, hg]
    · simp [hh]
    · rw [freeTicket_ticket hk, if_neg (fun e : m = n => fresh (e ▸ hm))]
      exact hn m (List.mem_cons_of_mem _ hm)

/-- A cleared group leaves everything but tickets, groups, their pools and its table as it was. -/
theorem clearGroup_rest (g : Nat) (gr : Group) (s : State) :
    clearGroup g gr s = { s with
      tickets := (clearGroup g gr s).tickets, ticketPool := (clearGroup g gr s).ticketPool
      floor := { s.floor with tables := (clearGroup g gr s).floor.tables }
      groups := (clearGroup g gr s).groups, groupPool := s.groupPool.release } := by
  rw [clearGroup, freeTickets_rest gr.tickets s]
  rfl

theorem clearGroup_tableRecord (g : Nat) (gr : Group) (s : State) (u : Nat) :
    tableRecord (clearGroup g gr s) u
      = if u = gr.table then
          { tableRecord s u with liveCourses := removeNumber gr.course (tableRecord s u).liveCourses }
        else tableRecord s u := by
  refine (tableRecord_setTableRecord _ gr.table u _).trans ?_
  rw [freeTickets_rest gr.tickets s]
  split
  · rename_i e
    rw [e]
    rfl
  · rfl

/-- The parts of the freeing of a group that is served or short: it is sent nothing. -/
theorem freeGroup_ended {g : Nat} {gr : Group} {how : Ending} {s : State} (hg : group? s g = some gr) (hh : how ≠ .cancelled) :
    freeGroup g how s = reportEnding gr.wave how (clearGroup g gr s) := by
  rw [freeGroup, hg]
  dsimp only
  rw [if_neg (fun h => hh h.2)]
  rfl

/-! ## A PICKED that applies (R160) -/

/-- The ending of a picked group: short or served by its flag (R160). -/
def pickedEnding (gr : Group) : Ending :=
  if gr.short then .short else .served

theorem pickedEnding_ne (gr : Group) : pickedEnding gr ≠ .cancelled := by
  unfold pickedEnding
  split <;> simp

theorem countEnding_picked (gr : Group) (e : EndingCounts) :
    countEnding (pickedEnding gr) e
      = if gr.short = true then { e with short := e.short + 1 } else { e with served := e.served + 1 } := by
  unfold pickedEnding
  split <;> rfl

theorem takePicked_applies {g : Nat} {gr : Group} {s : State} (hp : s.passLine.presence = .present) (hg : group? s g = some gr)
    (hc : gr.state = .complete) :
    takePicked g s = completeWave gr.wave (reportEnding gr.wave (pickedEnding gr) (clearGroup g gr s)) := by
  rw [takePicked, if_pos hp, hg]
  dsimp only
  rw [if_pos hc, ← freeGroup_ended hg (pickedEnding_ne gr)]
  rfl

/-- The wave of a picked group counts it, and ends, with its notice, where no group is left to end; what is left is as the clearing of the
group left it (R58, R59). -/
theorem completeWave_reported {w : Nat} {wv : Wave} {how : Ending} {s : State} (hw : wave? s w = some wv) :
    let ending := countEnding how wv.ending
    let completes := (wv.state = .active ∨ wv.state = .held) ∧ wv.release.groups ≤ ending.served + ending.short + ending.cancelled
    let t := completeWave w (reportEnding w how s)
    t = { s with link := t.link, waves := t.waves, frozen := t.frozen }
      ∧ t.link = (if completes then
          pushNotice (.waveDone w .served wv.release.groups ending.served ending.short ending.cancelled) s else s).link
      ∧ (∀ v, wave? t v = if v = w then if completes then none else some { wv with ending := ending } else wave? s v)
      ∧ ∀ v, v ∈ t.frozen ↔ ¬(completes ∧ v = w) ∧ v ∈ s.frozen := by
  intro ending completes t
  have reported : ∀ v, wave? (reportEnding w how s) v = if v = w then some { wv with ending := ending } else wave? s v := by
    intro v
    rw [reportEnding, wave_get_updWave]
    split
    · rename_i e
      rw [e, hw]
      rfl
    · rfl
  have self : wave? (reportEnding w how s) w = some { wv with ending := ending } := (reported w).trans (if_pos rfl)
  have done : Completes w (reportEnding w how s) t := completeWave_completes w _
  simp only [Completes, self, Option.mem_def, Option.some.injEq, exists_eq_left'] at done
  refine ⟨?_, ?_⟩
  · exact (completeWave_rest w _).trans rfl
  by_cases hc : completes
  · rw [if_pos hc] at done
    obtain ⟨wv', hw', ht, waves, frozen⟩ := done
    obtain rfl := Option.some.inj (self.symm.trans hw')
    refine ⟨?_, fun v => ?_, fun v => ?_⟩
    · rw [if_pos hc, ht]
      change (pushNotice _ (reportEnding w how s)).link = _
      rw [pushNotice_with _ (s := s) (t := reportEnding w how s) rfl]
    · rw [waves, reported]
      by_cases e : v = w <;> simp [e, hc]
    · rw [frozen]
      exact and_congr_left' ⟨fun e h => e h.2, fun h e => h ⟨hc, e⟩⟩
  · rw [if_neg hc] at done
    rw [done, if_neg hc]
    refine ⟨rfl, fun v => (reported v).trans (by rw [if_neg hc]), fun v => ?_⟩
    exact ⟨fun h => ⟨fun e => hc e.1, h⟩, And.right⟩

/-- Settles O52: the group cleared, in any state and in a coherent one, and its wave's count. -/
theorem pickedFreesTheGroup : Obligations.PickedFreesTheGroup := by
  intro g gr wv s hp hg hc hw ending completes
  have applies := takePicked_applies hp hg hc
  have kept := clearGroup_rest g.toNat gr s
  have tables := clearGroup_tableRecord g.toNat gr s
  have gone : group? (clearGroup g.toNat gr s) g.toNat = none := Store.get?_erase_self _ _
  have freed : ∀ n ∈ gr.tickets, ticket? (clearGroup g.toNat gr s) n = none := fun n hn => freeTickets_gone gr.tickets s n (.inl hn)
  have others : ∀ n, n ∉ gr.tickets → ticket? (clearGroup g.toNat gr s) n = ticket? s n := fun n hn =>
    freeTickets_others gr.tickets s hn
  have coherent : Coherent s → (∀ h, h ≠ g.toNat → group? (clearGroup g.toNat gr s) h = group? s h)
      ∧ (gr.tickets.length ≤ s.ticketPool.live → (clearGroup g.toNat gr s).ticketPool
        = ⟨s.ticketPool.free + gr.tickets.length, s.ticketPool.reserved, s.ticketPool.live - gr.tickets.length⟩) := by
    intro hs
    have nodup := hs.listed.nodup _ gr hg
    have members := hs.listed.members _ gr hg
    refine ⟨fun h hne => ?_, fun hl => congrArg State.ticketPool (freeTicket_foldl gr.tickets nodup members hl).1⟩
    exact (Store.get?_erase_of_ne _ hne).trans (freeTickets_groups gr.tickets members nodup hne)
  generalize clearGroup g.toNat gr s = u at *
  have hw' : wave? u gr.wave = some wv := by rw [kept]; exact hw
  obtain ⟨rest, link, waves, frozen⟩ := completeWave_reported (how := pickedEnding gr) hw'
  have counted : countEnding (pickedEnding gr) wv.ending = ending := countEnding_picked gr _
  rw [← applies] at rest
  rw [counted, ← applies] at link
  simp only [counted, ← applies] at waves frozen
  have run : exec (.picked g) s = .next (settle (takePicked g.toNat s)) := rfl
  generalize takePicked g.toNat s = t at *
  have sameTickets (n : Nat) : ticket? (settle t) n = ticket? u n := (settle_ticket_get _ n).trans (by rw [rest]; rfl)
  have sameGroups (h : Nat) : group? (settle t) h = group? u h := (settle_group_get _ h).trans (by rw [rest]; rfl)
  have sameTables (v : Nat) : tableRecord (settle t) v = tableRecord u v := (settle_tableRecord _ v).trans (by rw [rest]; rfl)
  refine ⟨settle t, run, (sameGroups _).trans gone, fun n hn => (sameTickets n).trans (freed n hn), ?_, fun v hv => ?_,
    fun n hn => (sameTickets n).trans (others n hn), fun hs h hh => (sameGroups h).trans ((coherent hs).1 h hh), ?_, fun v hv => ?_,
    fun v => ?_, ?_, fun hs hl => ?_, fun hl => ?_, ?_, ?_, ?_, ?_, ?_, ?_⟩
  · rw [sameTables, tables, if_pos rfl]
    exact fun h => (mem_removeNumber.mp h).2 rfl
  · rw [sameTables, tables, if_neg hv]
  · exact (settle_wave_get _ _).trans ((waves _).trans (if_pos rfl))
  · refine (settle_wave_get _ _).trans ((waves _).trans ((if_neg hv).trans ?_))
    rw [kept]
    rfl
  · rw [settle_frozen]
    refine (frozen v).trans ?_
    rw [kept]
  · refine settle_link_congr (link.trans ?_)
    have same : u.link = s.link := by rw [kept]
    by_cases hd : completes
    · rw [if_pos hd, if_pos hd, pushNotice_with _ same]
    · rw [if_neg hd, if_neg hd, same]
  · rw [settle_ticketPool, rest]
    exact (coherent hs).2 hl
  · rw [settle_groupPool, rest, kept]
    simp only [Pool.release, Nat.min_eq_left (show 1 ≤ s.groupPool.live from hl)]
  all_goals
    rw [rest, kept]
    simp only [settle_clock, settle_components, settle_stations, settle_passLine, settle_calendar, settle_engine]

end Sys2Proof.Machine
end

section
/-!
PROOFS. The tickets of a release visit in any state: what each creation leaves, and the visit's list of them (R45, R71, R84, R85, R89, R94).
-/

namespace Sys2Proof.Machine

/-! ## What the times of a ticket depend on (R69 to R72) -/

/-- The clock, the components and the stations' configurations and load records, on which a ticket's times and home depend, are as they were. -/
structure SameTimes (s t : State) : Prop where
  clock : t.clock = s.clock
  components : t.components = s.components
  config : ∀ x, (station t x).config = (station s x).config
  load : ∀ x, (station t x).load = (station s x).load

theorem SameTimes.refl (s : State) : SameTimes s s :=
  ⟨rfl, rfl, fun _ => rfl, fun _ => rfl⟩

theorem SameTimes.trans {s t u : State} (h : SameTimes s t) (k : SameTimes t u) : SameTimes s u :=
  ⟨k.clock.trans h.clock, k.components.trans h.components, fun x => (k.config x).trans (h.config x),
    fun x => (k.load x).trans (h.load x)⟩

theorem OnlyPlaces.sameTimes {s t : State} (h : OnlyPlaces s t) : SameTimes s t :=
  ⟨h.clock, h.components, h.config, h.load⟩

theorem SameTimes.carry {s t : State} (h : SameTimes s t) (x : Nat) : carry t x = carry s x := by
  rw [Machine.carry, h.config, Machine.carry]

theorem SameTimes.componentStation {s t : State} (h : SameTimes s t) (c : Nat) : componentStation t c = componentStation s c := by
  rw [Machine.componentStation, h.components, Machine.componentStation]

theorem SameTimes.fireTimeAt {s t : State} (h : SameTimes s t) (x c g : Nat) : fireTimeAt t x c g = fireTimeAt s x c g := by
  have cook : cookTime t c = cookTime s c := by rw [cookTime, h.components, cookTime]
  have stretch : stretch t x = stretch s x := by rw [Machine.stretch, stretchOf, h.config, h.load]; rfl
  rw [Machine.fireTimeAt, h.carry, cook, stretch, Machine.fireTimeAt]

/-! ## Offers, by where they end (R94) -/

/-- An offer enters the home station or the alternate its record names, or blocks. -/
theorem offer_cases {n : Nat} {tk : Ticket} {s : State} (h : ticket? s n = some tk) :
    (∃ x, (x = tk.homeStation ∨ (station s tk.homeStation).config.bind StationConfig.alternate = some x)
        ∧ canTake s x = true ∧ offer n s = (enterStation n x s, some x))
      ∨ offer n s = (joinBlocked n s, none) := by
  rw [offer, h]
  dsimp only
  split
  · exact .inl ⟨_, .inl rfl, ‹_›, rfl⟩
  · split
    · split
      · exact .inl ⟨_, .inr ‹_›, ‹_›, rfl⟩
      · exact .inr rfl
    · exact .inr rfl

/-- The record with which an entry ends: ON_LINE at a position, or QUEUED at none of its own. -/
theorem enterStation_record {n : Nat} {tk : Ticket} {s : State} (x : Nat) (h : ticket? s n = some tk) :
    ∃ st p, (st = TicketState.queued ∧ p = tk.position ∨ st = .onLine ∧ p ≠ none)
      ∧ ticket? (enterStation n x s) n = some { entryTimes s x tk with state := st, position := p } := by
  unfold enterStation
  rw [h]
  dsimp only
  split
  · rename_i i _
    refine ⟨.onLine, some i, .inr ⟨rfl, by simp⟩, ?_⟩
    rw [(sendRecords_only _ _ _).ticket_get]
    exact ticket_get_setTicket_self s n _
  · refine ⟨.queued, tk.position, .inl ⟨rfl, rfl⟩, ?_⟩
    rw [(sendRecord_only _ _ _).ticket_get]
    exact ticket_get_setTicket_self s n _

theorem joinBlocked_record {n : Nat} {tk : Ticket} {s : State} (h : ticket? s n = some tk) :
    ticket? (joinBlocked n s) n = some { tk with state := .blocked, station := tk.homeStation } := by
  rw [joinBlocked, h]
  exact (updStation_ticket_get _ _ _ n).trans (ticket_get_setTicket_self s n _)

/-! ## Two changes of one record -/

theorem Store.set_set {α : Type} (m : Store α) (n : Nat) (a b : α) : (m.set n a).set n b = m.set n b := by
  induction m with
  | nil => simp [Store.set]
  | cons e m ih =>
    obtain ⟨k, c⟩ := e
    simp only [Store.set]
    split
    · simp [Store.set]
    · split
      · simp [Store.set]
      · simp [Store.set, *]

theorem Store.update_update {α : Type} (m : Store α) (n : Nat) (f g : α → α) :
    (m.update n f).update n g = m.update n fun a => g (f a) := by
  cases h : m.get? n with
  | none => simp [Store.update, h]
  | some a => simp [Store.update, h, Store.set_set]

theorem updWave_updWave (w : Nat) (f h : Wave → Wave) (s : State) :
    updWave w f (updWave w h s) = updWave w (fun wv => f (h wv)) s :=
  congrArg (fun ws => { s with waves := ws }) (Store.update_update s.waves w h f)

/-! ## One ticket of a visit -/

/-- The record that a visit's ticket, created as `tk`, has once it is placed: CALENDARED as it was created; or BLOCKED so; or QUEUED or ON_LINE at
its home station or that station's alternate, fired now, with the times of that station (R45, R72, R94). -/
def PlacedAs (s : State) (tk tk' : Ticket) : Prop :=
  if (s.clock : Int) < tk.fireTime then tk' = { tk with state := .calendared }
  else tk' = { tk with state := .blocked, station := tk.homeStation }
    ∨ ∃ x st p, (x = tk.homeStation ∨ (station s tk.homeStation).config.bind StationConfig.alternate = some x)
      ∧ (st = TicketState.queued ∧ p = tk.position ∨ st = .onLine ∧ p ≠ none)
      ∧ tk' = { entryTimes s x tk with state := st, position := p }

theorem SameTimes.placedAs {s t : State} {tk tk' : Ticket} (h : SameTimes s t) (hp : PlacedAs t tk tk') : PlacedAs s tk tk' := by
  have times : ∀ x, entryTimes t x tk = entryTimes s x tk := fun x => by
    rw [entryTimes, dueReadyAt, h.fireTimeAt, h.carry, h.clock]
    rfl
  unfold PlacedAs at *
  rw [h.clock] at hp
  split
  · rwa [if_pos ‹_›] at hp
  · rw [if_neg ‹_›] at hp
    refine hp.imp id fun ⟨x, st, p, hx, hst, e⟩ => ⟨x, st, p, ?_, hst, ?_⟩
    · rwa [h.config] at hx
    · rw [e, times]

/-- The wave's record once it has counted a ticket with this fire time (R45). -/
def Wave.counted (clock : Nat) (fireTime : Int) (wv : Wave) : Wave :=
  { wv with
    reservedTickets := wv.reservedTickets - 1
    release := { wv.release with
      tickets := wv.release.tickets + 1
      fired := if fireTime ≤ (clock : Int) then wv.release.fired + 1 else wv.release.fired
      maxLateness := max wv.release.maxLateness (behind clock fireTime) } }

/-- One ticket of a visit, `n`, has been created and placed (R45, R71, R84, R85). -/
structure MadeTicket (w g table go : Nat) (e : Nat × Nat) (n : Nat) (s t : State) : Prop where
  rest : t = { s with
    link := { s.link with seq := nextSeq s.link.seq }, tickets := t.tickets, ticketPool := s.ticketPool.liveFromReserved
    calendar := t.calendar, stations := t.stations, groups := t.groups, waves := t.waves }
  times : SameTimes s t
  absent : ticket? s n = none
  lowest : ∀ l < n, ticket? s l ≠ none
  ticket : ∃ tk, ticket? t n = some tk ∧ PlacedAs s (visitTicket s w g table go e) tk
    ∧ (tk.state = .calendared → n ∈ t.calendar)
  others : ∀ l ≠ n, ticket? t l = ticket? s l
  calendar : ∀ l ∈ s.calendar, l ∈ t.calendar
  groups : ∀ h, group? t h = (group? s h).map fun gr => if h = g then { gr with tickets := gr.tickets ++ [n] } else gr
  waves : ∀ v, wave? t v
    = (wave? s v).map fun wv => if v = w then wv.counted s.clock (visitTicket s w g table go e).fireTime else wv

/-- The state in which a visit's ticket has been created, and stands nowhere: its record is written, the pool, the sequence counter, its group's
list and its wave's counts have moved on (R45, R85). -/
def created (w g table go : Nat) (e : Nat × Nat) (s : State) : State :=
  let n := s.tickets.firstAbsent
  let tk := visitTicket s w g table go e
  updWave w (Wave.counted s.clock tk.fireTime)
    (updGroup g (fun gr => { gr with tickets := gr.tickets ++ [n] })
      { createTicket n tk s with ticketPool := s.ticketPool.liveFromReserved })

/-- A visit's ticket is created, and then joins the calendar or is offered. -/
theorem createReleased_eq (w g table go : Nat) (e : Nat × Nat) (s : State) :
    createReleased w g table go e s
      = if (s.clock : Int) < (visitTicket s w g table go e).fireTime then
          joinCalendar s.tickets.firstAbsent (created w g table go e s)
        else (offer s.tickets.firstAbsent (created w g table go e s)).1 := by
  have clock : ∀ (f : Wave → Wave) (h : Group → Group) (p : Pool) (n : Nat) (tk : Ticket),
      (updWave w f (updGroup g h { createTicket n tk s with ticketPool := p })).clock = s.clock := fun _ _ _ _ _ => rfl
  have fresh : releasedTicket s w g table go e = visitTicket s w g table go e := rfl
  unfold createReleased created
  simp only [fresh, clock, updWave_updWave]
  rw [show (createTicket s.tickets.firstAbsent (visitTicket s w g table go e) s).ticketPool = s.ticketPool from rfl]
  split
  · rename_i later
    have same : (fun wv : Wave => { wv with
        reservedTickets := wv.reservedTickets - 1, release := { wv.release with tickets := wv.release.tickets + 1 } })
          = Wave.counted s.clock (visitTicket s w g table go e).fireTime := by
      funext wv
      rw [Wave.counted, if_neg (by omega), behind, Int.toNat_of_nonpos (by omega)]
      simp
    rw [same]
  · rename_i due
    have same : (fun wv : Wave => { wv with
        reservedTickets := wv.reservedTickets - 1
        release := { wv.release with
          tickets := wv.release.tickets + 1, fired := wv.release.fired + 1
          maxLateness := max wv.release.maxLateness (behind s.clock (visitTicket s w g table go e).fireTime) } })
          = Wave.counted s.clock (visitTicket s w g table go e).fireTime := by
      funext wv
      rw [Wave.counted, if_pos (by omega)]
    rw [← same]

/-- What the creation leaves, before the ticket is placed. -/
theorem created_record (w g table go : Nat) (e : Nat × Nat) (s : State) (l : Nat) :
    ticket? (created w g table go e s) l
      = if l = s.tickets.firstAbsent then some (visitTicket s w g table go e) else ticket? s l := by
  change (s.tickets.set _ _).get? l = _
  split
  · rename_i h
    rw [h, Store.get?_set_self]
  · exact Store.get?_set_of_ne _ _ ‹_›

theorem created_group (w g table go : Nat) (e : Nat × Nat) (s : State) (h : Nat) :
    group? (created w g table go e s) h
      = (group? s h).map fun gr => if h = g then { gr with tickets := gr.tickets ++ [s.tickets.firstAbsent] } else gr := by
  refine (group_get_updGroup _ g h _).trans ?_
  by_cases hh : h = g
  · simp only [if_pos hh]
    rfl
  · simp only [if_neg hh, Option.map_id']
    rfl

theorem created_wave (w g table go : Nat) (e : Nat × Nat) (s : State) (v : Nat) :
    wave? (created w g table go e s) v
      = (wave? s v).map fun wv => if v = w then wv.counted s.clock (visitTicket s w g table go e).fireTime else wv := by
  refine (wave_get_updWave _ w v _).trans ?_
  by_cases hv : v = w
  · simp only [if_pos hv]
    rfl
  · simp only [if_neg hv, Option.map_id']
    rfl

theorem created_times (w g table go : Nat) (e : Nat × Nat) (s : State) : SameTimes s (created w g table go e s) :=
  ⟨rfl, rfl, fun _ => rfl, fun _ => rfl⟩

/-- An offer that touches neither calendar nor groups nor waves, of the ticket created. -/
theorem createReleased_made (w g table go : Nat) (e : Nat × Nat) (s : State) :
    MadeTicket w g table go e s.tickets.firstAbsent s (createReleased w g table go e s) := by
  obtain ⟨absent, lowest⟩ := s.tickets.firstAbsent_spec
  have records := created_record w g table go e s
  have groups := created_group w g table go e s
  have waves := created_wave w g table go e s
  have times := created_times w g table go e s
  have kept : created w g table go e s = { s with
      link := { s.link with seq := nextSeq s.link.seq }, tickets := (created w g table go e s).tickets
      ticketPool := s.ticketPool.liveFromReserved, groups := (created w g table go e s).groups
      waves := (created w g table go e s).waves } := rfl
  rw [createReleased_eq]
  generalize s.tickets.firstAbsent = n at *
  generalize created w g table go e s = u at *
  have self : ticket? u n = some (visitTicket s w g table go e) := (records n).trans (if_pos rfl)
  have others : ∀ l ≠ n, ticket? u l = ticket? s l := fun l hl => (records l).trans (if_neg hl)
  split
  · rename_i later
    have joined : ∀ l, ticket? (joinCalendar n u) l
        = if l = n then some { visitTicket s w g table go e with state := .calendared } else ticket? s l := by
      intro l
      refine (ticket_get_updTicket u n l _).trans ?_
      split
      · rename_i hl
        rw [hl, self]
        rfl
      · exact others l ‹_›
    have cal : (joinCalendar n u).calendar = insertBefore
        (calendarBefore (updTicket n (fun tk => { tk with state := .calendared }) u)) n s.calendar := by rw [kept]; rfl
    refine ⟨?_, times.trans ⟨rfl, rfl, fun _ => rfl, fun _ => rfl⟩, absent, lowest, ⟨_, (joined n).trans (if_pos rfl), ?_, fun _ => ?_⟩,
      fun l hl => (joined l).trans (if_neg hl), fun l hl => ?_, groups, waves⟩
    · rw [joinCalendar]
      dsimp only
      rw [kept]
      rfl
    · rw [PlacedAs, if_pos later]
    · rw [cal]
      exact mem_insertBefore.mpr (.inl rfl)
    · rw [cal]
      exact mem_insertBefore.mpr (.inr hl)
  · rename_i due
    have places := offer_places n u
    have line := offer_passLine n u
    obtain ⟨tk', hk', hp⟩ : ∃ tk', ticket? (offer n u).1 n = some tk' ∧ PlacedAs u (visitTicket s w g table go e) tk' := by
      simp only [PlacedAs, times.clock, if_neg due]
      rcases offer_cases self with ⟨x, hx, -, eq⟩ | eq
      · obtain ⟨st, p, hst, rec'⟩ := enterStation_record x self
        exact ⟨_, by rw [eq]; exact rec', .inr ⟨x, st, p, hx, hst, rfl⟩⟩
      · exact ⟨_, by rw [eq]; exact joinBlocked_record self, .inl rfl⟩
    have waits : tk'.state ≠ .calendared := by
      rw [PlacedAs, times.clock, if_neg due] at hp
      rcases hp with rfl | ⟨x, st, p, -, ⟨rfl, -⟩ | ⟨rfl, -⟩, rfl⟩ <;> simp
    refine ⟨?_, times.trans places.sameTimes, absent, lowest, ⟨tk', hk', times.placedAs hp, fun h => absurd h waits⟩,
      fun l hl => (offer_others u hl).trans (others l hl), fun l hl => ?_, fun h => ?_, fun v => ?_⟩
    · have pass : u.passLine = s.passLine := by rw [kept]
      rw [places.rest, line, pass]
      rw [kept]
    · rw [places.calendar, kept]
      exact hl
    · rw [group?, places.groups]
      exact groups h
    · rw [wave?, places.waves]
      exact waves v

/-! ## The tickets of a visit, one after another -/

/-- The wave's record once it has counted a ticket with each of these fire times. -/
def Wave.countedAll (clock : Nat) (fireTimes : List Int) (wv : Wave) : Wave :=
  fireTimes.foldl (fun wv at' => wv.counted clock at') wv

/-- The record of the visit's ticket with this seq, before it is placed; of the state it reads only what `SameTimes` keeps. -/
def visitTicketOf (s : State) (w g table go q : Nat) (e : Nat × Nat) : Ticket :=
  { visitTicket s w g table go e with seq := q }

theorem SameTimes.visitTicketOf {s t : State} (h : SameTimes s t) (w g table go q : Nat) (e : Nat × Nat) :
    visitTicketOf t w g table go q e = visitTicketOf s w g table go q e := by
  unfold Machine.visitTicketOf visitTicket
  simp only [h.componentStation, h.fireTimeAt, h.carry]

/-- The tickets `ns` of a visit have been created and placed, in the order of the ticket list (R45, R71, R84, R85). -/
structure MadeTickets (w g table go : Nat) (es : List (Nat × Nat)) (ns : List Nat) (s t : State) : Prop where
  rest : t = { s with
    link := { s.link with seq := t.link.seq }, tickets := t.tickets, ticketPool := t.ticketPool, calendar := t.calendar
    stations := t.stations, groups := t.groups, waves := t.waves }
  times : SameTimes s t
  length : ns.length = es.length
  absent : ∀ n ∈ ns, ticket? s n = none
  ticket : ∀ k n, ns[k]? = some n → ∃ e q tk, es[k]? = some e ∧ (∀ l < n, ticket? s l ≠ none ∨ l ∈ ns.take k)
    ∧ ticket? t n = some tk ∧ PlacedAs s (visitTicketOf s w g table go q e) tk ∧ (tk.state = .calendared → n ∈ t.calendar)
    ∧ (s.link.seq + k ≤ Config.seqMax → q = s.link.seq + k)
  others : ∀ l ∉ ns, ticket? t l = ticket? s l
  calendar : ∀ l ∈ s.calendar, l ∈ t.calendar
  groups : ∀ h, group? t h = (group? s h).map fun gr => if h = g then { gr with tickets := gr.tickets ++ ns } else gr
  waves : ∀ v, wave? t v = (wave? s v).map fun wv => if v = w then
    wv.countedAll s.clock (es.map fun e => fireTimeAt s (componentStation s e.1) e.1 go) else wv
  pool : es.length ≤ s.ticketPool.reserved →
    t.ticketPool = ⟨s.ticketPool.free, s.ticketPool.reserved - es.length, s.ticketPool.live + es.length⟩
  seq : s.link.seq ≤ Config.seqMax → t.link.seq = min Config.seqMax (s.link.seq + es.length)

theorem MadeTickets.nil (w g table go : Nat) (s : State) : MadeTickets w g table go [] [] s s where
  rest := rfl
  times := .refl s
  length := rfl
  absent := by simp
  ticket := by simp
  others _ _ := rfl
  calendar _ h := h
  groups h := by simp
  waves v := by simp [Wave.countedAll]
  pool _ := rfl
  seq h := (Nat.min_eq_right h).symm

theorem MadeTickets.cons {w g table go n : Nat} {e : Nat × Nat} {es : List (Nat × Nat)} {ns : List Nat} {s t u : State}
    (h : MadeTicket w g table go e n s t) (k : MadeTickets w g table go es ns t u) :
    MadeTickets w g table go (e :: es) (n :: ns) s u := by
  obtain ⟨tk, hk, placed, cal⟩ := h.ticket
  have fresh : n ∉ ns := fun hn => by
    rw [k.absent n hn] at hk
    cases hk
  have clock := h.times.clock
  have seq : t.link.seq = nextSeq s.link.seq := by rw [h.rest]
  have pool : t.ticketPool = s.ticketPool.liveFromReserved := by rw [h.rest]
  refine ⟨?_, h.times.trans k.times, congrArg (· + 1) k.length, fun m hm => ?_, fun i m him => ?_, fun l hl => ?_,
    fun l hl => k.calendar l (h.calendar l hl), fun l => ?_, fun v => ?_, fun hp => ?_, fun hq => ?_⟩
  · rw [k.rest]
    rw [h.rest]
  · rcases List.mem_cons.mp hm with rfl | hm
    · exact h.absent
    · have none' := k.absent m hm
      rwa [h.others m (fun e => fresh (e ▸ hm))] at none'
  · cases i with
    | zero =>
      obtain rfl : n = m := Option.some.inj him
      refine ⟨e, s.link.seq, tk, rfl, fun l hl => .inl (h.lowest l hl), (k.others n fresh).trans hk, placed,
        fun c => k.calendar n (cal c), fun _ => rfl⟩
    | succ i =>
      obtain ⟨e', q, tk', he', lowest, hk', placed', cal', hq⟩ := k.ticket i m him
      refine ⟨e', q, tk', he', fun l hl => ?_, hk', ?_, cal', fun hs => ?_⟩
      · by_cases hln : l = n
        · exact .inr (hln ▸ List.mem_cons_self ..)
        · exact (lowest l hl).imp (fun hne => by rwa [h.others l hln] at hne) (List.mem_cons_of_mem _)
      · rw [h.times.visitTicketOf] at placed'
        exact h.times.placedAs placed'
      · have below : s.link.seq < Config.seqMax := by omega
        rw [seq, nextSeq, if_pos below] at hq
        rw [hq (by omega)]
        omega
  · obtain ⟨ne, hl⟩ := not_or.mp (List.mem_cons.not.mp hl)
    exact (k.others l hl).trans (h.others l ne)
  · rw [k.groups, h.groups, Option.map_map]
    congr 1
    funext gr
    by_cases hl : l = g <;> simp [hl]
  · rw [k.waves, h.waves, Option.map_map]
    congr 1
    funext wv
    by_cases hv : v = w
    · simp only [Function.comp, if_pos hv, clock, h.times.componentStation, h.times.fireTimeAt, Wave.countedAll, List.map_cons,
        List.foldl_cons]
      rfl
    · simp only [Function.comp, if_neg hv]
  · rw [List.length_cons] at hp
    have one : s.ticketPool.liveFromReserved = ⟨s.ticketPool.free, s.ticketPool.reserved - 1, s.ticketPool.live + 1⟩ := by
      rw [Pool.liveFromReserved, Nat.min_eq_left (by omega)]
    rw [one] at pool
    rw [k.pool (by rw [pool]; dsimp only; omega), pool, List.length_cons]
    simp only [Pool.mk.injEq, true_and]
    omega
  · have one : nextSeq s.link.seq = min Config.seqMax (s.link.seq + 1) := by
      rw [nextSeq]
      split <;> omega
    rw [k.seq (by rw [seq, one]; omega), seq, one, List.length_cons]
    omega

/-- The tickets of a visit are created one after another, in whatever state (R45). -/
theorem createAll_made (w g table go : Nat) (es : List (Nat × Nat)) (s : State) :
    ∃ ns, MadeTickets w g table go es ns s (es.foldl (fun s e => createReleased w g table go e s) s) := by
  induction es generalizing s with
  | nil => exact ⟨[], .nil w g table go s⟩
  | cons e es ih =>
    obtain ⟨ns, k⟩ := ih (createReleased w g table go e s)
    exact ⟨_, .cons (createReleased_made w g table go e s) k⟩

end Sys2Proof.Machine
end

section
/-!
PROOFS. O35: RELEASE_VISIT, in any state and from a sound one (R23, R45, R47, R147).
-/

namespace Sys2Proof.Machine

/-! ## The group of a visit (R45, R147) -/

/-- The PENDING group that a visit to table `v` with order index `i` creates, before its tickets (R147). -/
def openedGroup (s : State) (w i : Nat) (wv : Wave) (v : ServedTable) : Group :=
  { wave := w, table := v.table, course := wv.course, orderIndex := i, goTime := wv.goTime + i * wv.stagger
    covers := (tableRecord s v.table).covers }

/-- The wave's record once it has counted a group (R45). -/
def Wave.opened (wv : Wave) : Wave :=
  { wv with reservedGroups := wv.reservedGroups - 1, release := { wv.release with groups := wv.release.groups + 1 } }

/-- The state in which a visit has created its group, with its live course, and no ticket yet. -/
def openGroup (w i : Nat) (wv : Wave) (v : ServedTable) (s : State) : State :=
  addLiveCourse v.table wv.course
    (updWave w Wave.opened
      { s with groups := s.groups.set s.groups.firstAbsent (openedGroup s w i wv v), groupPool := s.groupPool.liveFromReserved })

theorem visitTable_eq (w i : Nat) (wv : Wave) (v : ServedTable) (s : State) :
    visitTable w i wv v s
      = v.tickets.foldl (fun s' e => createReleased w s.groups.firstAbsent v.table (wv.goTime + i * wv.stagger) e s')
          (openGroup w i wv v s) := rfl

theorem openGroup_group (w i : Nat) (wv : Wave) (v : ServedTable) (s : State) (h : Nat) :
    group? (openGroup w i wv v s) h = if h = s.groups.firstAbsent then some (openedGroup s w i wv v) else group? s h := by
  change (s.groups.set _ _).get? h = _
  split
  · rename_i e
    rw [e, Store.get?_set_self]
  · exact Store.get?_set_of_ne _ _ ‹_›

theorem openGroup_wave (w i : Nat) (wv : Wave) (v : ServedTable) (s : State) (y : Nat) :
    wave? (openGroup w i wv v s) y = if y = w then (wave? s y).map Wave.opened else wave? s y :=
  wave_get_updWave _ w y Wave.opened

theorem openGroup_table (w i : Nat) (wv : Wave) (v : ServedTable) (s : State) (u : Nat) :
    tableRecord (openGroup w i wv v s) u
      = if u = v.table then
          { tableRecord s u with liveCourses := insertNumber wv.course (tableRecord s u).liveCourses }
        else tableRecord s u := by
  refine (tableRecord_setTableRecord _ v.table u _).trans ?_
  split
  · rename_i e
    rw [e]
    rfl
  · rfl

theorem openGroup_rest (w i : Nat) (wv : Wave) (v : ServedTable) (s : State) :
    openGroup w i wv v s = { s with
      groups := (openGroup w i wv v s).groups, groupPool := s.groupPool.liveFromReserved
      waves := (openGroup w i wv v s).waves, floor := { s.floor with tables := (openGroup w i wv v s).floor.tables } } := rfl

theorem openGroup_times (w i : Nat) (wv : Wave) (v : ServedTable) (s : State) : SameTimes s (openGroup w i wv v s) :=
  ⟨rfl, rfl, fun _ => rfl, fun _ => rfl⟩

/-! ## The end of a release, in any state (R47) -/

theorem Pool.unreserve_of_le {n : Nat} {p : Pool} (h : n ≤ p.reserved) :
    p.unreserve n = ⟨p.free + n, p.reserved - n, p.live⟩ := by
  rw [Pool.unreserve, Nat.min_eq_left h]

theorem pushNotice_link_congr (n : Notice) {s t : State} (h : t.link = s.link) : (pushNotice n t).link = (pushNotice n s).link := by
  rw [pushNotice_with n h]

/-- The wave's record at the end of its release (R47). -/
def Wave.activated (wv : Wave) : Wave :=
  { wv with state := .active, reservedTickets := 0, reservedGroups := 0 }

/-- A wave's release has ended; it stays, unless none of its groups has yet to end (R47, R59). -/
structure EndedRelease (w : Nat) (wv : Wave) (s t : State) : Prop where
  rest : t = { s with
    link := t.link, waves := t.waves, frozen := t.frozen
    engine := { status := .done, wave := some w, plan := [], next := 0 }
    ticketPool := s.ticketPool.unreserve wv.reservedTickets, groupPool := s.groupPool.unreserve wv.reservedGroups }
  others : ∀ v ≠ w, wave? t v = wave? s v
  stays : wv.ending.served + wv.ending.short + wv.ending.cancelled < wv.release.groups →
    wave? t w = some wv.activated ∧ t.frozen = s.frozen
      ∧ t.link = (pushNotice (.waveReleased w wv.release.groups wv.release.tickets wv.release.fired wv.release.maxLateness) s).link

theorem endRelease_ended {w : Nat} {wv : Wave} {s : State} (h : wave? s w = some wv) : EndedRelease w wv s (endRelease w s) := by
  have both : returnReservations w s = { updWave w (fun wv => { wv with reservedTickets := 0, reservedGroups := 0 }) s with
      ticketPool := s.ticketPool.unreserve wv.reservedTickets
      groupPool := s.groupPool.unreserve wv.reservedGroups } := by
    rw [returnReservations, h]
    rfl
  obtain ⟨r, hr⟩ : ∃ r, r = { s with
      waves := s.waves.update w Wave.activated
      engine := { status := .done, wave := some w, plan := [], next := 0 }
      ticketPool := s.ticketPool.unreserve wv.reservedTickets
      groupPool := s.groupPool.unreserve wv.reservedGroups } := ⟨_, rfl⟩
  have waves : ∀ v, wave? r v = if v = w then some wv.activated else wave? s v := by
    intro v
    rw [hr]
    change (s.waves.update w _).get? v = _
    rw [Store.get?_update, ← wave?]
    split
    · rename_i e
      rw [e, h]
      rfl
    · rfl
  have self : wave? r w = some wv.activated := (waves w).trans (if_pos rfl)
  have run : endRelease w s = completeWave w
      (pushNotice (.waveReleased w wv.release.groups wv.release.tickets wv.release.fired wv.release.maxLateness) r) := by
    have : ({ updWave w (fun wv => { wv with state := .active }) (returnReservations w s) with
        engine := { status := .done, wave := some w, plan := [], next := 0 } } : State) = r := by
      rw [both, hr]
      refine congrArg (fun ws => ({ s with waves := ws, engine := _, ticketPool := _, groupPool := _ } : State)) ?_
      exact Store.update_update s.waves w _ _
    unfold endRelease
    dsimp only
    rw [this, self]
    rfl
  rw [run]
  generalize hn : Notice.waveReleased w wv.release.groups wv.release.tickets wv.release.fired wv.release.maxLateness = n
  have pushed : pushNotice n r = { r with link := (pushNotice n s).link } := pushNotice_with n (by rw [hr])
  have done := completeWave_completes w (pushNotice n r)
  refine ⟨?_, fun v hv => ?_, fun stays => ?_⟩
  · rw [completeWave_rest, pushed]
    rw [hr]
  · have same : wave? (pushNotice n r) v = wave? s v := (pushNotice_wave_get _ _ _).trans ((waves v).trans (if_neg hv))
    unfold Completes at done
    split at done
    · obtain ⟨-, -, -, gone, -⟩ := done
      rw [gone, if_neg hv, same]
    · rw [done, same]
  · have lives : ¬∃ o ∈ wave? (pushNotice n r) w, (o.state = .active ∨ o.state = .held)
        ∧ o.release.groups ≤ o.ending.served + o.ending.short + o.ending.cancelled := by
      rintro ⟨o, ho, -, hle⟩
      rw [pushNotice_wave_get, self, Option.mem_def, Option.some.injEq] at ho
      subst ho
      exact Nat.not_le.mpr stays hle
    rw [Completes, if_neg lives] at done
    rw [done]
    refine ⟨(pushNotice_wave_get _ _ _).trans self, ?_, ?_⟩
    · rw [pushNotice_frozen, hr]
    · rw [pushed, hn]

/-! ## The counts of a visit's tickets (R45) -/

theorem Wave.countedAll_eq (clock : Nat) (fireTimes : List Int) (wv : Wave) :
    wv.countedAll clock fireTimes = { wv with
      reservedTickets := wv.reservedTickets - fireTimes.length
      release := { wv.release with
        tickets := wv.release.tickets + fireTimes.length
        fired := wv.release.fired + (fireTimes.filter fun (at' : Int) => decide (at' ≤ (clock : Int))).length
        maxLateness := (fireTimes.map fun (at' : Int) => min 65535 ((clock : Int) - at').toNat).foldl max wv.release.maxLateness } } := by
  induction fireTimes generalizing wv with
  | nil => rfl
  | cons f fs ih =>
    refine (ih (wv.counted clock f)).trans ?_
    simp only [Wave.counted, List.length_cons, List.filter_cons, List.map_cons, List.foldl_cons, decide_eq_true_eq, behind,
      Nat.sub_sub, Nat.add_assoc, Nat.add_comm 1]
    split <;> simp [Nat.add_assoc, Nat.add_comm 1]

/-! ## A whole visit -/

/-- A visit of a RUNNING engine to a table of its plan. -/
theorem releaseVisit_eq {w i : Nat} {v : ServedTable} {wv : Wave} {s : State} (hs : s.engine.status = .running)
    (hw : s.engine.wave = some w) (hi : s.engine.next = i) (hv : s.engine.plan[i]? = some v) (hr : wave? s w = some wv) :
    releaseVisit s = if s.engine.plan.length ≤ i + 1 then
        endRelease w { visitTable w i wv v s with engine := { s.engine with next := i + 1 } }
      else { visitTable w i wv v s with engine := { s.engine with next := i + 1 } } := by
  have engine : (visitTable w i wv v s).engine = s.engine := by
    obtain ⟨ns, made⟩ := createAll_made w s.groups.firstAbsent v.table (wv.goTime + i * wv.stagger) v.tickets (openGroup w i wv v s)
    rw [visitTable_eq, made.rest]
    rfl
  rw [releaseVisit, hs, hw]
  dsimp only
  rw [hr, hi]
  dsimp only
  rw [hv]
  dsimp only
  rw [engine]

/-- The record with which a visit's ticket stands after the visit has the values of R85, and those of its place. -/
theorem PlacedAs.values {s : State} {w g table go q : Nat} {e : Nat × Nat} {tk : Ticket}
    (h : PlacedAs s (visitTicketOf s w g table go q e) tk) :
    (tk.wave = w ∧ tk.group = g ∧ tk.table = table ∧ tk.component = e.1 ∧ tk.quantity = e.2
      ∧ tk.goTime = go ∧ tk.homeStation = componentStation s e.1
      ∧ tk.fireTime = fireTimeAt s (componentStation s e.1) e.1 go
      ∧ tk.generation = 0 ∧ tk.rush = false ∧ tk.seq = q
      ∧ tk.readyAt = none ∧ tk.dueReady = (go : Int) - carry s tk.station)
    ∧ ((s.clock : Int) < tk.fireTime → tk.state = .calendared ∧ tk.station = tk.homeStation
        ∧ tk.lateness = 0 ∧ tk.firedAt = none ∧ tk.position = none)
    ∧ (tk.fireTime ≤ (s.clock : Int) →
        (tk.state = .blocked ∧ tk.station = tk.homeStation ∧ tk.lateness = 0 ∧ tk.firedAt = none ∧ tk.position = none)
        ∨ ((tk.state = .queued ∧ tk.position = none ∨ tk.state = .onLine ∧ tk.position ≠ none)
          ∧ (tk.station = tk.homeStation
            ∨ (station s tk.homeStation).config.bind StationConfig.alternate = some tk.station)
          ∧ tk.firedAt = some s.clock
          ∧ tk.lateness = min 65535 ((s.clock : Int) - fireTimeAt s tk.station e.1 go).toNat)) := by
  have fire : (visitTicketOf s w g table go q e).fireTime = fireTimeAt s (componentStation s e.1) e.1 go := rfl
  unfold PlacedAs at h
  rw [fire] at h
  split at h
  · rename_i later
    subst h
    exact ⟨⟨rfl, rfl, rfl, rfl, rfl, rfl, rfl, rfl, rfl, rfl, rfl, rfl, rfl⟩, fun _ => ⟨rfl, rfl, rfl, rfl, rfl⟩,
      fun due => absurd later (Int.not_lt.mpr due)⟩
  · rename_i due
    rcases h with rfl | ⟨x, st, p, hx, hst, rfl⟩
    · exact ⟨⟨rfl, rfl, rfl, rfl, rfl, rfl, rfl, rfl, rfl, rfl, rfl, rfl, rfl⟩, fun later => absurd later due,
        fun _ => .inl ⟨rfl, rfl, rfl, rfl, rfl⟩⟩
    · refine ⟨⟨rfl, rfl, rfl, rfl, rfl, rfl, rfl, rfl, rfl, rfl, rfl, rfl, rfl⟩, fun later => absurd later due,
        fun _ => .inr ⟨?_, hx, rfl, rfl⟩⟩
      rcases hst with ⟨rfl, rfl⟩ | ⟨rfl, hp⟩
      · exact .inl ⟨rfl, rfl⟩
      · exact .inr ⟨rfl, hp⟩

/-- What a visit leaves before the release goes on or ends: its group with its tickets, its live course, and the wave's counts (R45, R147). -/
structure Visited (w i : Nat) (v : ServedTable) (wv : Wave) (g : Nat) (ns : List Nat) (s t : State) : Prop where
  made : MadeTickets w g v.table (wv.goTime + i * wv.stagger) v.tickets ns (openGroup w i wv v s) t
  rest : t = { s with
    link := { s.link with seq := t.link.seq }, floor := { s.floor with tables := t.floor.tables }, waves := t.waves
    tickets := t.tickets, ticketPool := t.ticketPool, calendar := t.calendar, stations := t.stations, groups := t.groups
    groupPool := s.groupPool.liveFromReserved }
  times : SameTimes s t
  absent : group? s g = none
  lowest : ∀ h < g, group? s h ≠ none
  groups : ∀ h, group? t h = if h = g then some { openedGroup s w i wv v with tickets := ns } else group? s h
  tables : ∀ u, tableRecord t u = if u = v.table then
    { tableRecord s u with liveCourses := insertNumber wv.course (tableRecord s u).liveCourses } else tableRecord s u
  wave : wave? t w = some (wv.opened.countedAll s.clock
    (v.tickets.map fun e => fireTimeAt s (componentStation s e.1) e.1 (wv.goTime + i * wv.stagger)))
  waves : ∀ y ≠ w, wave? t y = wave? s y

theorem visitTable_visited {w i : Nat} {v : ServedTable} {wv : Wave} {s : State} (hr : wave? s w = some wv) :
    ∃ ns, Visited w i v wv s.groups.firstAbsent ns s (visitTable w i wv v s) := by
  obtain ⟨absent, lowest⟩ := s.groups.firstAbsent_spec
  have groups := openGroup_group w i wv v s
  have waves := openGroup_wave w i wv v s
  have tables := openGroup_table w i wv v s
  have rest := openGroup_rest w i wv v s
  have times := openGroup_times w i wv v s
  rw [visitTable_eq]
  generalize s.groups.firstAbsent = g at *
  obtain ⟨ns, made⟩ := createAll_made w g v.table (wv.goTime + i * wv.stagger) v.tickets (openGroup w i wv v s)
  refine ⟨ns, made, ?_, times.trans made.times, absent, lowest, fun h => ?_, fun u => ?_, ?_, fun y hy => ?_⟩
  · rw [made.rest]
    rw [rest]
  · rw [made.groups, groups]
    by_cases hh : h = g
    · simp [hh, openedGroup]
    · simp [hh]
  · refine Eq.trans ?_ (tables u)
    rw [made.rest]
    rfl
  · rw [made.waves, waves, if_pos rfl, hr]
    simp only [Option.map_some, if_true, times.clock, times.componentStation, times.fireTimeAt]
  · rw [made.waves, waves, if_neg hy]
    simp [hy]

/-- The state after a visit differs from the one after its tickets only in what the going on or the end of the release changes. -/
theorem releaseVisit_tail {w : Nat} {wv' : Wave} {x : State} (i : Nat) (s : State) (hw : wave? x w = some wv') :
    let t := if s.engine.plan.length ≤ i + 1 then endRelease w { x with engine := { s.engine with next := i + 1 } }
      else { x with engine := { s.engine with next := i + 1 } }
    (t = { x with
      link := t.link, waves := t.waves, frozen := t.frozen, engine := t.engine, ticketPool := t.ticketPool, groupPool := t.groupPool })
    ∧ (∀ y ≠ w, wave? t y = wave? x y)
    ∧ (¬s.engine.plan.length ≤ i + 1 → t = { x with engine := { s.engine with next := i + 1 } })
    ∧ (s.engine.plan.length ≤ i + 1 → EndedRelease w wv' { x with engine := { s.engine with next := i + 1 } } t) := by
  intro t
  by_cases last : s.engine.plan.length ≤ i + 1
  · have ended : EndedRelease w wv' { x with engine := { s.engine with next := i + 1 } } t := by
      rw [show t = endRelease w { x with engine := { s.engine with next := i + 1 } } from if_pos last]
      exact endRelease_ended hw
    refine ⟨?_, ended.others, fun h => absurd last h, fun _ => ended⟩
    have rest := ended.rest
    generalize t = t at rest
    rw [rest]
  · have goes : t = { x with engine := { s.engine with next := i + 1 } } := if_neg last
    exact ⟨by rw [goes], fun y _ => by rw [goes]; rfl, fun _ => goes, fun h => absurd h last⟩

/-! ## A visit from a sound state -/

/-- What a RUNNING engine's wave still holds covers the visit to come (R45). -/
theorem Sound.visit_provided {w i : Nat} {v : ServedTable} {wv : Wave} {s : State} (h : Sound s) (hs : s.engine.status = .running)
    (he : s.engine.wave = some w) (hi : s.engine.next = i) (hv : s.engine.plan[i]? = some v) (hr : wave? s w = some wv) :
    v.tickets.length ≤ wv.reservedTickets ∧ 1 ≤ wv.reservedGroups
      ∧ wv.reservedTickets ≤ s.ticketPool.reserved ∧ wv.reservedGroups ≤ s.groupPool.reserved
      ∧ wv.release.groups ≥ wv.ending.served + wv.ending.short + wv.ending.cancelled := by
  obtain ⟨-, -, -, -, -, -, -, tickets, groups, provided, -, released, -⟩ := h
  obtain ⟨forGroups, forTickets, -⟩ := provided hs w he wv hr
  have listed : (w, wv) ∈ s.waves := Store.mem_of_get? hr
  have left : s.engine.plan.drop s.engine.next = v :: s.engine.plan.drop (i + 1) := by
    rw [hi]
    exact List.drop_eq_getElem?_toList_append.trans (by rw [hv]; rfl)
  rw [left] at forGroups forTickets
  simp only [List.length_cons, List.map_cons, List.sum_cons] at forGroups forTickets
  refine ⟨by omega, by omega, ?_, ?_, ?_⟩
  · rw [tickets]
    exact List.single_le_sum (fun _ _ => Nat.zero_le _) _ (List.mem_map.mpr ⟨_, listed, rfl⟩)
  · rw [groups]
    exact List.single_le_sum (fun _ _ => Nat.zero_le _) _ (List.mem_map.mpr ⟨_, listed, rfl⟩)
  · have sums := (released (w, wv) listed).2
    dsimp only at sums
    omega

/-- The home of every component is a station of the part (R1). -/
theorem Sound.homes {s : State} (h : Sound s) (c : Nat) : componentStation s c < s.stations.length := by
  rw [h.1.1, componentStation]
  split
  · rename_i r hr
    exact h.2.1.2.2 _ (Store.mem_of_get? hr)
  · decide

theorem visit_ready {w i : Nat} {wv : Wave} {v : ServedTable} {s : State} (h : Sound s) (hl : LinesSound s)
    (hp : v.tickets.length ≤ s.ticketPool.reserved) : VisitReady v.tickets.length (openGroup w i wv v s) where
  lines := hl
  blocked := h.1.blockedSound h.2.1
  calendar m hm := by
    obtain ⟨-, -, -, ⟨-, cal⟩, -⟩ := h.1
    obtain ⟨tk, hk, -⟩ := Option.map_eq_some_iff.mp (cal m hm)
    exact Option.isSome_iff_exists.mpr ⟨tk, hk⟩
  homes := h.homes
  reserved := hp

theorem EndsRelease.withoutEngine {w : Nat} {s t : State} {e : Engine} (h : EndsRelease w { s with engine := e } t) :
    EndsRelease w s t := by
  obtain ⟨wv, hw, ht, waves⟩ := h
  refine ⟨wv, hw, ht.trans ?_, waves⟩
  rw [pushNotice_with _ (s := s) (t := { s with engine := e }) rfl, pushNotice_with _ (s := s) (t := s) rfl]

theorem releaseVisit_visits {w i : Nat} {v : ServedTable} {wv : Wave} {s : State} (h : Sound s) (hl : LinesSound s)
    (hs : s.engine.status = .running) (he : s.engine.wave = some w) (hi : s.engine.next = i) (hv : s.engine.plan[i]? = some v)
    (hr : wave? s w = some wv) : Visits w i v s (releaseVisit s) := by
  obtain ⟨forTickets, forGroups, ofTickets, ofGroups, ended⟩ := h.visit_provided hs he hi hv hr
  obtain ⟨ns, visited⟩ := visitTable_visited (i := i) (v := v) hr
  obtain ⟨absent, lowest⟩ := s.groups.firstAbsent_spec
  have creates := createAll_creates (w := w) (g := s.groups.firstAbsent) (table := v.table) (go := wv.goTime + i * wv.stagger)
    v.tickets (visit_ready (w := w) (i := i) (wv := wv) h hl (forTickets.trans ofTickets))
  rw [← visitTable_eq] at creates
  have tables := openGroup_table w i wv v s
  refine ⟨wv, s.groups.firstAbsent, openGroup w i wv v s, visitTable w i wv v s, hr, absent, lowest, ?_, openGroup_group w i wv v s,
    fun y => ?_, fun k => ?_, fun c => ?_, creates, ?_⟩
  · have pool : s.groupPool.liveFromReserved = ⟨s.groupPool.free, s.groupPool.reserved - 1, s.groupPool.live + 1⟩ := by
      rw [Pool.liveFromReserved, Nat.min_eq_left (by omega)]
    rw [← pool]
    rfl
  · rw [openGroup_wave]
    split
    · rename_i e
      rw [e, hr]
      rfl
    · rfl
  · rw [tables]
    split <;> rfl
  · rw [tables, if_pos rfl]
    exact mem_insertNumber
  · rw [releaseVisit_eq hs he hi hv hr]
    split
    · have wave := visited.wave
      rw [Wave.countedAll_eq] at wave
      have pool := visited.made.pool (forTickets.trans ofTickets)
      refine (endRelease_ends (s := { visitTable w i wv v s with engine := { s.engine with next := i + 1 } }) wave ?_ ?_ ?_).withoutEngine
      · rw [pool]
        simp only [List.length_map, Wave.opened]
        change _ ≤ s.ticketPool.reserved - _
        omega
      · rw [visited.rest, Pool.liveFromReserved, Nat.min_eq_left (by omega)]
        simp only [Wave.opened]
        omega
      · simp only [Wave.opened]
        omega
    · rfl

/-- Settles O35: the group and the tickets of the visit, the counts of its wave, and the going on or the end of the release; from a sound state
each creation finds what it asks for. -/
theorem releaseVisitCreatesTheGroup : Obligations.ReleaseVisitCreatesTheGroup := by
  intro w i v wv s hs he hi hv hr made go last fireTimes release
  obtain ⟨ns, visited⟩ := visitTable_visited (i := i) (v := v) hr
  have run := releaseVisit_eq hs he hi hv hr
  obtain ⟨tail, others, goes, ended⟩ := releaseVisit_tail i s visited.wave
  rw [← run] at tail others goes ended
  have counted : wv.opened.countedAll s.clock fireTimes
      = { wv with release := release, reservedTickets := wv.reservedTickets - made, reservedGroups := wv.reservedGroups - 1 } := by
    have length : fireTimes.length = made := List.length_map ..
    rw [Wave.countedAll_eq, length]
    rfl
  have wave := visited.wave
  change wave? _ w = some (wv.opened.countedAll s.clock fireTimes) at wave
  change _ → EndedRelease w (wv.opened.countedAll s.clock fireTimes) _ _ at ended
  rw [counted] at wave ended
  have command : exec .releaseVisit s = .next (settle (releaseVisit s)) := rfl
  have whole : Sound s → LinesSound s → Visits w i v s (releaseVisit s) := fun sound lines =>
    releaseVisit_visits sound lines hs he hi hv hr
  generalize releaseVisit s = t at *
  generalize visitTable w i wv v s = x at *
  generalize s.groups.firstAbsent = g at *
  have tickets (n : Nat) : ticket? (settle t) n = ticket? x n := (settle_ticket_get _ n).trans (by rw [tail]; rfl)
  have groups (h : Nat) : group? (settle t) h = group? x h := (settle_group_get _ h).trans (by rw [tail]; rfl)
  have tables (u : Nat) : tableRecord (settle t) u = tableRecord x u := (settle_tableRecord _ u).trans (by rw [tail]; rfl)
  have calendar : (settle t).calendar = x.calendar := (settle_calendar _).trans (by rw [tail])
  have mk := visited.made
  have ot := openGroup_times w i wv v s
  have visitedLink (hq : s.link.seq ≤ 4294967295) : x.link = { s.link with seq := min 4294967295 (s.link.seq + made) } := by
    rw [visited.rest, mk.seq hq]
    rfl
  refine ⟨settle t, g, { openedGroup s w i wv v with tickets := ns }, command, visited.absent, visited.lowest,
    (groups g).trans ((visited.groups g).trans (if_pos rfl)), rfl, fun c => ?_, mk.length, fun k n hk => ?_,
    fun n hn => (tickets n).trans (mk.others n hn), fun h hh => (groups h).trans ((visited.groups h).trans (if_neg hh)),
    fun u hu => (tables u).trans ((visited.tables u).trans (if_neg hu)),
    fun y hy => (settle_wave_get _ y).trans ((others y hy).trans (visited.waves y hy)), fun hl => ?_, fun hl hd => ?_, fun hl => ?_,
    fun hl => ?_, fun h1 h2 => ?_, fun h1 h2 => ?_, fun hq hset => ⟨fun hl => ?_, fun hl hd => ?_⟩, fun hd => ?_, ?_, ?_, ?_, ?_,
    fun sound lines => ?_⟩
  · rw [tables, visited.tables, if_pos rfl]
    exact mem_insertNumber
  · obtain ⟨e, q, tk, hes, lowest, hk', placed, cal, seq⟩ := mk.ticket k n hk
    rw [ot.visitTicketOf] at placed
    obtain ⟨⟨v1, v2, v3, v4, v5, v6, v7, v8, v9, v10, v11, v12, v13⟩, later, due⟩ := (ot.placedAs placed).values
    refine ⟨e, tk, hes, mk.absent n (List.mem_of_getElem? hk), lowest, (tickets n).trans hk', v1, v2, v3, v4, v5, v6, v7, v8, v9, v10,
      fun hq => v11.trans (seq hq), v12, v13, fun h => ?_, due⟩
    obtain ⟨l1, l2, l3, l4, l5⟩ := later h
    exact ⟨l1, calendar ▸ cal l1, l2, l3, l4, l5⟩
  · rw [settle_wave_get, goes hl]
    exact wave
  · exact (settle_wave_get _ _).trans ((ended hl).stays (Nat.lt_succ_of_le hd)).1
  · rw [settle_engine, goes hl]
  · rw [settle_engine, (ended hl).rest]
  · have pool : x.ticketPool = ⟨s.ticketPool.free, s.ticketPool.reserved - made, s.ticketPool.live + made⟩ :=
      mk.pool (h1.trans h2)
    rw [settle_ticketPool]
    split
    · rename_i hl
      rw [(ended hl).rest]
      change x.ticketPool.unreserve _ = _
      rw [pool, Pool.unreserve_of_le (by dsimp only; omega)]
      simp only [Pool.mk.injEq, true_and, and_true]
      omega
    · rename_i hl
      rw [goes hl, pool]
  · have pool : x.groupPool = ⟨s.groupPool.free, s.groupPool.reserved - 1, s.groupPool.live + 1⟩ := by
      rw [visited.rest, Pool.liveFromReserved, Nat.min_eq_left (by omega)]
    rw [settle_groupPool]
    split
    · rename_i hl
      rw [(ended hl).rest]
      change x.groupPool.unreserve _ = _
      rw [pool, Pool.unreserve_of_le (by dsimp only; omega)]
      simp only [Pool.mk.injEq, true_and, and_true]
      omega
    · rename_i hl
      rw [goes hl, pool]
  · have link : t.link = { s.link with seq := min 4294967295 (s.link.seq + made) } := by
      rw [goes hl]
      exact visitedLink hq
    have settled : HostSettled t := by
      rw [HostSettled, link]
      exact hset
    rw [settle_of_settled settled, link]
  · refine settle_link_congr (((ended hl).stays (Nat.lt_succ_of_le hd)).2.2.trans ?_)
    exact pushNotice_link_congr _ (visitedLink hq)
  · rw [settle_frozen]
    have kept : x.frozen = s.frozen := by rw [visited.rest]
    by_cases hl : last
    · exact ((ended hl).stays (Nat.lt_succ_of_le (hd.resolve_left (not_not.mpr hl)))).2.1.trans kept
    · rw [goes hl]
      exact kept
  · rw [settle_clock, tail, visited.rest]
  · rw [settle_components, tail, visited.rest]
  · rw [settle_courses, tail, visited.rest]
  · rw [settle_passLine, tail, visited.rest]
  · exact ⟨t, whole sound lines, rfl⟩

end Sys2Proof.Machine
end


section
/-!
PROOFS. The invariant of a whole service, cut into what its steps work on: the places and their orders on the one hand, the records of groups,
waves and pools on the other (R23, R35, R80 to R88, R96, R107, R108, R145 to R152).
-/

namespace Sys2Proof.Machine

/-! ## Sums over a store -/

/-- The sum of a figure over the records of a store. -/
def Store.total {α : Type} (f : α → Nat) (m : Store α) : Nat :=
  (m.map fun e => f e.2).sum

theorem Store.keys_nodup {α : Type} {m : Store α} (h : m.rising = true) : m.keys.Nodup := by
  rw [Store.rising_iff] at h
  exact (List.pairwise_map.mpr h).imp fun h => Nat.ne_of_lt h

/-- A sum over a store, as one over any set of numbers that holds those of its records. -/
theorem Store.total_eq_sum {α : Type} {f : α → Nat} {m : Store α} (h : m.rising = true) {S : Finset Nat}
    (hS : m.keys.toFinset ⊆ S) : m.total f = ∑ n ∈ S, ((m.get? n).map f).getD 0 := by
  have listed : m.total f = (m.keys.map fun n => ((m.get? n).map f).getD 0).sum := by
    rw [Store.total, Store.keys, List.map_map]
    refine congrArg List.sum (List.map_congr_left fun e he => ?_)
    simp [Store.get?_of_mem h he]
  rw [listed, ← List.sum_toFinset _ (Store.keys_nodup h)]
  refine Finset.sum_subset hS fun n _ hn => ?_
  have : m.get? n = none := by
    rw [List.mem_toFinset, ← Store.get?_isSome_iff] at hn
    simpa using hn
  simp [this]

/-- Two stores whose figures agree but at one number. -/
theorem Store.total_change {α β : Type} {f : α → Nat} {f' : β → Nat} {m : Store α} {m' : Store β} (h : m.rising = true)
    (h' : m'.rising = true) (n : Nat) (hn : ∀ l ≠ n, ((m'.get? l).map f').getD 0 = ((m.get? l).map f).getD 0) :
    m'.total f' + ((m.get? n).map f).getD 0 = m.total f + ((m'.get? n).map f').getD 0 := by
  let S := insert n (m.keys.toFinset ∪ m'.keys.toFinset)
  have hm : m.keys.toFinset ⊆ S := fun _ hl => Finset.mem_insert_of_mem (Finset.mem_union_left _ hl)
  have hm' : m'.keys.toFinset ⊆ S := fun _ hl => Finset.mem_insert_of_mem (Finset.mem_union_right _ hl)
  have mem : n ∈ S := Finset.mem_insert_self ..
  have rest : ∑ l ∈ S.erase n, ((m'.get? l).map f').getD 0 = ∑ l ∈ S.erase n, ((m.get? l).map f).getD 0 :=
    Finset.sum_congr rfl fun l hl => hn l (Finset.mem_erase.mp hl).1
  rw [Store.total_eq_sum h hm, Store.total_eq_sum h' hm', ← Finset.add_sum_erase S _ mem, ← Finset.add_sum_erase S _ mem, rest]
  omega

theorem Store.total_congr {α β : Type} {f : α → Nat} {f' : β → Nat} {m : Store α} {m' : Store β} (h : m.rising = true)
    (h' : m'.rising = true) (hn : ∀ l, ((m'.get? l).map f').getD 0 = ((m.get? l).map f).getD 0) : m'.total f' = m.total f := by
  have := Store.total_change h h' 0 fun l _ => hn l
  rw [hn 0] at this
  omega

theorem Store.total_one {α : Type} (m : Store α) : m.total (fun _ => 1) = m.length := by
  simp [Store.total]

theorem Store.total_filter {α : Type} (p : α → Bool) (m : Store α) :
    m.total (fun a => if p a then 1 else 0) = (m.filter fun e => p e.2).length := by
  induction m with
  | nil => rfl
  | cons e m ih =>
    rw [Store.total] at ih
    rw [Store.total, List.map_cons, List.sum_cons, ih, List.filter_cons]
    split <;> simp [Nat.add_comm]

/-! ## The scope of the invariant, and its parts -/

/-- How much of the invariant is asked for: the agreement of places and records alone, the whole of a sound service, or that with its bounds and
times; and by how much a CALENDARED ticket's fire time is ahead of the clock, 1 once the fire expiry of the reading has been taken. -/
structure Scope where
  whole : Prop
  timed : Prop
  lead : Nat
  timed_whole : timed → whole
  lead_le : lead ≤ 1

/-- The ticket stands in a place, or is to be placed: it is neither READY nor DEAD nor WITHDRAWN (R81). -/
def Ticket.Waits (tk : Ticket) : Prop :=
  tk.state = .calendared ∨ tk.state = .blocked ∨ tk.state = .queued ∨ tk.state = .onLine

/-- The rush class or the ordinary class of a controller's queue (R107). -/
def Station.class (rush : Bool) (st : Station) : List Nat :=
  if rush then st.rushQueue else st.ordinaryQueue

/-- Places and records agree both ways, but for the tickets of `F`, which have left their places and are still to take one (R81, R96, R107,
R108). -/
structure Standing (K : Scope) (F : List Nat) (s : State) : Prop where
  length : s.stations.length = 24
  told : Told s
  floating : ∀ n ∈ F, Unplaced s n
  calendar : s.calendar.Nodup
  homes : K.whole → ∀ n tk, ticket? s n = some tk → tk.homeStation < 24
  waits : K.whole → ∀ n tk, ticket? s n = some tk → tk.Waits → n ∉ F → ∃ p, StandsAt s n p
  queues : K.whole → ∀ x, (wholeQueue (station s x)).Nodup
  classes : K.whole → ∀ x b, ∀ n ∈ (station s x).class b, ∀ tk, ticket? s n = some tk → tk.rush = b

/-- The calendar and the blocked lists stand in their orders (R88, R96). -/
structure InOrder (s : State) : Prop where
  calendar : s.calendar.Pairwise (FiresAhead s)
  blocked : ∀ x, (station s x).blocked.Pairwise (BlockedAhead s)

/-- The controller has its k positions, its queue keeps its limit, and holds a ticket only while all positions are taken (R107, R108). -/
structure Station.Fits (st : Station) : Prop where
  positions : st.positions.length = (st.config.map StationConfig.positions).getD 0
  queue : (wholeQueue st).length ≤ (st.config.map StationConfig.queueLimit).getD 0
  full : wholeQueue st ≠ [] → none ∉ st.positions

/-- Every CALENDARED ticket is frozen, or fires ahead of the clock by `lead` (R88, R91). -/
def Ahead (lead : Nat) (s : State) : Prop :=
  ∀ n ∈ s.calendar, Frozen s n ∨ ∃ tk ∈ ticket? s n, (s.clock : Int) + lead ≤ tk.fireTime

/-- What the invariant says of the places, but for the controllers' bounds. -/
structure Seated (K : Scope) (F : List Nat) (s : State) : Prop where
  standing : Standing K F s
  order : K.whole → InOrder s
  menu : K.whole → ∀ c r, s.components.get? c = some r → r.station < 24
  ahead : K.timed → Ahead K.lead s

/-- What the invariant says of the places. -/
structure Arranged (K : Scope) (F : List Nat) (s : State) : Prop where
  seated : Seated K F s
  fits : K.timed → ∀ x, (station s x).Fits

/-- The numbers and generations of the live records keep their bounds (R80, R145). -/
structure Numbered (s : State) : Prop where
  tickets : ∀ n tk, ticket? s n = some tk → n < 4096 ∧ tk.generation ≤ 3
  groups : ∀ g gr, group? s g = some gr → g < 1024

/-- A COMPLETE group holds READY and WITHDRAWN tickets alone, with no die time (R149). -/
def Complete (s : State) (gr : Group) : Prop :=
  gr.state = .complete → gr.dieAt = none ∧ ∀ n ∈ gr.tickets, InState s .ready n ∨ InState s .withdrawn n

/-- A COMPLETE group has a READY ticket, and die_at is the earliest die time while ASSEMBLING and absent otherwise (R149, R150). -/
def DiesTrue (s : State) (gr : Group) : Prop :=
  (gr.state = .complete → ∃ n ∈ gr.tickets, InState s .ready n)
    ∧ (gr.state = .assembling → EarliestDie s gr.tickets gr.dieAt) ∧ (gr.state ≠ .assembling → gr.dieAt = none)

/-- Tickets and groups name each other, and the groups but `X` hold what their states ask for (R80, R145, R149, R150). -/
structure Grouped (K : Scope) (X : Option Nat) (s : State) : Prop where
  tickets : s.tickets.rising = true
  groups : s.groups.rising = true
  listed : Listed s
  complete : ∀ g gr, group? s g = some gr → X ≠ some g → Complete s gr
  dies : K.timed → ∀ g gr, group? s g = some gr → X ≠ some g → DiesTrue s gr
  same : K.timed → ∀ n tk, ticket? s n = some tk → ∀ gr, group? s tk.group = some gr →
    tk.wave = gr.wave ∧ tk.table = gr.table ∧ tk.goTime = gr.goTime

/-- The groups of wave `w`, as a figure of a group. -/
def Group.ofWave (w : Nat) (gr : Group) : Nat :=
  if decide (gr.wave = w) then 1 else 0

/-- What the wave table says of wave `w`, but for the engine's share (R34, R44, R48, R91). -/
structure Wave.Fair (s : State) (w : Nat) (wv : Wave) : Prop where
  number : w < 64
  taken : wv.state ≠ .free
  hold : wv.holdSince.isSome = true ↔ wv.state = .held
  reserved : 0 < wv.reservedTickets ∨ 0 < wv.reservedGroups → wv.state = .releasing
  frozen : wv.state = .held ↔ w ∈ s.frozen
  staged : wv.state = .staged → wv.release.groups = 0
  released : wv.release.groups = wv.ending.served + wv.ending.short + wv.ending.cancelled + s.groups.total (Group.ofWave w)

/-- The wave table, the pools and the live course sets count the live records; of wave `C` the engine's share is left open (R23, R34, R35, R44,
R83, R146). -/
structure Counts (C : Option Nat) (s : State) : Prop where
  waves : s.waves.rising = true
  fair : ∀ w wv, wave? s w = some wv → wv.Fair s w
  engine : ∀ w wv, wave? s w = some wv → C ≠ some w →
    (wv.state = .releasing ↔ s.engine.status = .running ∧ s.engine.wave = some w)
  frozen : ∀ w ∈ s.frozen, waveState s w = .held
  running : s.engine.status = .running → ∀ w ∈ s.engine.wave, waveState s w = .releasing
  pools : PoolsWhole s
  tickets : s.ticketPool.live = s.tickets.length
  groups : s.groupPool.live = s.groups.length
  reservedTickets : s.ticketPool.reserved = s.waves.total Wave.reservedTickets
  reservedGroups : s.groupPool.reserved = s.waves.total Wave.reservedGroups
  provided : C = none → VisitsProvided s
  waved : ∀ g gr, group? s g = some gr → (wave? s gr.wave).isSome = true
  courses : ∀ u c, c ∈ (tableRecord s u).liveCourses ↔ ∃ g gr, group? s g = some gr ∧ gr.table = u ∧ gr.course = c
  unique : ∀ g h gr hr, group? s g = some gr → group? s h = some hr → gr.table = hr.table → gr.course = hr.course → g = h
  setup : s.link.mode = .setup → s.waves = []

/-- What the invariant says of the records of groups, waves and pools. -/
structure Books (K : Scope) (X C : Option Nat) (s : State) : Prop where
  numbered : K.timed → Numbered s
  grouped : Grouped K X s
  counts : K.whole → Counts C s

/-- The invariant: but for the tickets of `F`, which are to be placed, group `X`, which is being changed, and wave `C`, which is being released to
or cancelled. -/
structure Kept (K : Scope) (F : List Nat) (X C : Option Nat) (s : State) : Prop where
  arranged : Arranged K F s
  books : Books K X C s

/-! ## The scopes of the obligation -/

/-- The agreement of places and records alone. -/
def Scope.coherent : Scope := ⟨False, False, 0, id, Nat.zero_le 1⟩

/-- The whole of a sound service. -/
def Scope.sound : Scope := ⟨True, False, 0, False.elim, Nat.zero_le 1⟩

/-- A sound service with its bounds and times. -/
def Scope.full : Scope := ⟨True, True, 0, id, Nat.zero_le 1⟩

/-- The scope once the fire expiry of the reading has been taken. -/
def Scope.fired (K : Scope) : Scope := { K with lead := 1, lead_le := le_refl 1 }

end Sys2Proof.Machine
end


section
/-!
PROOFS. The invariant's parts together are what the obligation names (R23, R35, R80 to R88, R96, R107, R108, R145 to R152).
-/

namespace Sys2Proof.Machine

/-! ## Places -/

theorem mem_wholeQueue {st : Station} {n : Nat} : n ∈ wholeQueue st ↔ ∃ b, n ∈ st.class b := by
  simp [wholeQueue, Station.class, or_comm]

theorem Coherent.unplaced_far {s : State} (h : Coherent s) {x : Nat} (hx : ¬x < 24) : station s x = {} :=
  station_of_length_le (h.1 ▸ Nat.le_of_not_lt hx)

/-- Where a live ticket stands, by the state that its record names (R81). -/
theorem standsInPlace_iff {s : State} {n : Nat} {tk : Ticket} (ht : Told s) (hk : ticket? s n = some tk)
    (hc : ∀ x b, ∀ n ∈ (station s x).class b, ∀ tk, ticket? s n = some tk → tk.rush = b) :
    standsInPlace s (n, tk) = true ↔ (tk.Waits → ∃ p, StandsAt s n p) := by
  have names : ∀ p, StandsAt s n p → Names tk p := fun p => ht.names hk
  unfold standsInPlace Ticket.Waits
  cases hs : tk.state
  case calendared =>
    simp only [List.contains_iff_mem, true_or, forall_const]
    refine ⟨fun h => ⟨.calendar, h⟩, fun ⟨p, hp⟩ => ?_⟩
    rcases p with _ | ⟨x, _ | _ | i⟩ <;> have := names _ hp <;> simp_all [Names]
    exact hp
  case blocked =>
    simp only [List.contains_iff_mem, reduceCtorEq, true_or, or_true, forall_const]
    refine ⟨fun h => ⟨.station _ .blocked, h⟩, fun ⟨p, hp⟩ => ?_⟩
    rcases p with _ | ⟨x, _ | _ | i⟩ <;> have := names _ hp <;> simp_all [Names]
    exact hp
  case queued =>
    simp only [reduceCtorEq, true_or, or_true, forall_const]
    have class_iff : (if tk.rush = true then (station s tk.station).rushQueue.contains n
        else (station s tk.station).ordinaryQueue.contains n) = true ↔ n ∈ (station s tk.station).class tk.rush := by
      cases tk.rush <;> simp [Station.class]
    rw [class_iff]
    refine ⟨fun h => ⟨.station _ .queue, mem_wholeQueue.mpr ⟨_, h⟩⟩, fun ⟨p, hp⟩ => ?_⟩
    rcases p with _ | ⟨x, _ | _ | i⟩ <;> have named := names _ hp <;> simp [Names, hs] at named
    obtain ⟨b, hb⟩ := mem_wholeQueue.mp hp
    rw [hc x b n hb tk hk, named]
    exact hb
  case onLine =>
    simp only [Option.any_eq_true, decide_eq_true_eq, reduceCtorEq, or_true, forall_const]
    refine ⟨fun ⟨i, _, h⟩ => ⟨.station _ (.position i), h⟩, fun ⟨p, hp⟩ => ?_⟩
    rcases p with _ | ⟨x, _ | _ | i⟩ <;> have named := names _ hp <;> simp [Names, hs] at named
    obtain ⟨rfl, hi⟩ := named
    exact ⟨i, hi, hp⟩
  all_goals simp

/-- The places of a coherent state, as coherence says them (R81). -/
theorem Told.coherent_places {s : State} (h : Told s) :
    (∀ t ∈ s.calendar, InState s .calendared t)
      ∧ ∀ x ∈ List.range Config.stations,
        (∀ t ∈ (station s x).blocked, (ticket? s t).map (fun tk => (tk.state, tk.homeStation)) = some (.blocked, x))
          ∧ (∀ t ∈ wholeQueue (station s x), (ticket? s t).map (fun tk => (tk.state, tk.station)) = some (.queued, x))
          ∧ positionsTold s x = true := by
  refine ⟨fun n hn => ?_, fun x _ => ⟨fun n hn => ?_, fun n hn => ?_, List.all_eq_true.mpr fun e he => ?_⟩⟩
  · obtain ⟨tk, hk, names⟩ := h n .calendar hn
    rw [InState, hk]
    exact congrArg some names
  · obtain ⟨tk, hk, hst, hx⟩ := h n (.station x .blocked) hn
    rw [hk, Option.map_some, hst, hx]
  · obtain ⟨tk, hk, hst, hx⟩ := h n (.station x .queue) hn
    rw [hk, Option.map_some, hst, hx]
  · obtain ⟨o, i⟩ := e
    cases o with
    | none => rfl
    | some n =>
      obtain ⟨tk, hk, hst, hx, hi⟩ := h n (.station x (.position i)) (List.mk_mem_zipIdx_iff_getElem?.mp he)
      simp [hk, hst, hx, hi]

/-! ## Into the parts -/

theorem Sound.standing {s : State} {K : Scope} (h : Coherent s) (hw : K.whole → Sound s) : Standing K [] s where
  length := h.1
  told := h.told
  floating := fun _ hn => absurd hn (by simp)
  calendar := h.2.2.2.1.1
  homes hK n tk hk := ((hw hK).2.1.1 _ (Store.mem_of_get? hk)).2
  queues hK x := by
    by_cases hx : x < 24
    · exact ((hw hK).2.1.2.1 x (List.mem_range.mpr hx)).2
    · rw [h.unplaced_far hx]
      exact List.nodup_nil
  waits hK n tk hk hst _ := by
    have stands := ((hw hK).2.1.1 _ (Store.mem_of_get? hk)).1
    unfold standsInPlace at stands
    rcases hst with hst | hst | hst | hst <;> simp only [hst] at stands
    · exact ⟨.calendar, List.contains_iff_mem.mp stands⟩
    · exact ⟨.station _ .blocked, List.contains_iff_mem.mp stands⟩
    · refine ⟨.station tk.station .queue, mem_wholeQueue.mpr ⟨tk.rush, ?_⟩⟩
      cases hr : tk.rush <;> simpa [hr, Station.class] using stands
    · obtain ⟨i, -, hi⟩ := (Option.any_eq_true _ _).mp stands
      have hi : (station s tk.station).positions[i]? = some (some n) := of_decide_eq_true hi
      exact ⟨.station _ (.position i), hi⟩
  classes hK x b n hn tk hk := by
    have names := h.told.names hk (p := .station x .queue) (mem_wholeQueue.mpr ⟨b, hn⟩)
    have stands := ((hw hK).2.1.1 _ (Store.mem_of_get? hk)).1
    have nodup : (wholeQueue (station s x)).Nodup := by
      by_cases hx : x < 24
      · exact ((hw hK).2.1.2.1 x (List.mem_range.mpr hx)).2
      · rw [h.unplaced_far hx]
        exact List.nodup_nil
    have apart := List.disjoint_of_nodup_append nodup
    simp only [standsInPlace, names.1, names.2] at stands
    cases hr : tk.rush <;> cases b <;> simp_all [Station.class]
    · exact absurd stands (apart hn)
    · exact absurd hn (apart stands)

theorem Sound.seated {s : State} {K : Scope} (h : Coherent s) (hw : K.whole → Sound s)
    (ht : K.timed → WithinBounds s ∧ TimesTrue s ∧ K.lead = 0) : Seated K [] s where
  standing := Sound.standing h hw
  order hK := by
    obtain ⟨-, -, ⟨calendar, blocked⟩, -⟩ := hw hK
    refine ⟨calendar, fun x => ?_⟩
    by_cases hx : x < 24
    · exact blocked x (List.mem_range.mpr hx)
    · rw [h.unplaced_far hx]
      exact List.Pairwise.nil
  menu hK c r hc := (hw hK).2.1.2.2 _ (Store.mem_of_get? hc)
  ahead hK n hn := by
    obtain ⟨-, ⟨ahead, -⟩, lead⟩ := ht hK
    rw [lead]
    simpa using ahead n hn

theorem WithinBounds.fits {s : State} (h : WithinBounds s) (x : Nat) : (station s x).Fits := by
  by_cases hx : x < s.stations.length
  · obtain ⟨positions, queue, full⟩ := h.2.2 _ (station_mem hx)
    exact ⟨positions, queue, full⟩
  · rw [station_of_length_le (Nat.le_of_not_lt hx)]
    exact ⟨rfl, Nat.le_refl 0, fun h => absurd rfl h⟩

theorem Sound.grouped {s : State} {K : Scope} (h : Coherent s) (ht : K.timed → WithinBounds s ∧ TimesTrue s) : Grouped K none s where
  tickets := h.2.1
  groups := h.2.2.1
  listed := h.listed
  complete g gr hg _ := (h.2.2.2.2.2.2 _ (Store.mem_of_get? hg)).2.2
  dies hK g gr hg _ := by
    obtain ⟨bounds, -, dies, -⟩ := ht hK
    exact ⟨(bounds.2.1 _ (Store.mem_of_get? hg)).2, dies _ (Store.mem_of_get? hg)⟩
  same hK n tk hk gr hg := (ht hK).2.2.2 _ (Store.mem_of_get? hk) gr hg

theorem Sound.counts {s : State} (h : Sound s) : Counts none s := by
  obtain ⟨coherent, -, -, ⟨rising, waves, frozen, running⟩, pools, tickets, groups, reservedTickets, reservedGroups, provided, waved,
    ended, named, lives, unique, setup⟩ := h
  refine ⟨rising, fun w wv hw => ?_, fun w wv hw _ => (waves _ (Store.mem_of_get? hw)).2.2.2.2.2, frozen, running, pools, tickets,
    groups, reservedTickets, reservedGroups, fun _ => provided, fun g gr hg => waved _ (Store.mem_of_get? hg), fun u c => ?_,
    fun g g' gr gr' hg hg' ht hp => ?_, setup⟩
  · obtain ⟨number, taken, hold, reserved, held, -⟩ := waves _ (Store.mem_of_get? hw)
    obtain ⟨staged, released⟩ := ended _ (Store.mem_of_get? hw)
    refine ⟨number, taken, hold, reserved, held, staged, released.trans (congrArg _ ?_)⟩
    exact (Store.total_filter (fun gr : Group => decide (gr.wave = w)) s.groups).symm
  · constructor
    · intro hcu
      cases hr : s.floor.tables.get? u with
      | none => simp [tableRecord, hr] at hcu
      | some r =>
        obtain ⟨d, hd, htable, hcourse⟩ := named _ (Store.mem_of_get? hr) c (by simpa [tableRecord, hr] using hcu)
        exact ⟨d.1, d.2, Store.get?_of_mem coherent.2.2.1 hd, htable, hcourse⟩
    · rintro ⟨g, gr, hg, rfl, rfl⟩
      exact lives _ (Store.mem_of_get? hg)
  · by_contra hne
    have := List.inj_on_of_nodup_map unique (Store.mem_of_get? hg) (Store.mem_of_get? hg') (Prod.ext ht hp)
    exact hne (congrArg Prod.fst this)

/-- A state that the obligation speaks of meets the invariant of its scope. -/
theorem Kept.intro {s : State} {K : Scope} (h : Coherent s) (hw : K.whole → Sound s)
    (ht : K.timed → WithinBounds s ∧ TimesTrue s ∧ K.lead = 0) : Kept K [] none none s where
  arranged := ⟨Sound.seated h hw ht, fun hK => (ht hK).1.fits⟩
  books :=
    { numbered := fun hK => by
        obtain ⟨⟨tickets, groups, -⟩, -⟩ := ht hK
        exact ⟨fun n tk hk => tickets _ (Store.mem_of_get? hk), fun g gr hg => (groups _ (Store.mem_of_get? hg)).1⟩
      grouped := Sound.grouped h fun hK => ⟨(ht hK).1, (ht hK).2.1⟩
      counts := fun hK => Sound.counts (hw hK) }

/-! ## Out of the parts -/

theorem Kept.coherent {s : State} {K : Scope} {C : Option Nat} (h : Kept K [] none C s) : Coherent s := by
  obtain ⟨⟨⟨standing, -⟩, -⟩, -, grouped, -⟩ := h
  obtain ⟨calendar, stations⟩ := standing.told.coherent_places
  refine ⟨standing.length, grouped.tickets, grouped.groups, ⟨standing.calendar, calendar⟩, stations, fun e he => ?_, fun e he => ?_⟩
  · obtain ⟨gr, hg, hm⟩ := grouped.listed.listed e.1 e.2 (Store.get?_of_mem grouped.tickets he)
    simp [hg, hm]
  · have hg := Store.get?_of_mem grouped.groups he
    exact ⟨grouped.listed.nodup e.1 e.2 hg, grouped.listed.members e.1 e.2 hg, grouped.complete e.1 e.2 hg (by simp)⟩

theorem Counts.accounted {s : State} (h : Counts none s) (hc : StoresCanonical s) (hg : s.groups.rising = true) :
    WavesConsistent s ∧ Accounted s := by
  refine ⟨⟨h.waves, fun e he => ?_, h.frozen, h.running⟩, h.pools, h.tickets, h.groups, h.reservedTickets, h.reservedGroups,
    h.provided rfl, fun e he => h.waved e.1 e.2 (Store.get?_of_mem hg he), fun e he => ?_, fun e he c hcu => ?_, fun d hd => ?_, ?_,
    h.setup⟩
  · have hw := Store.get?_of_mem h.waves he
    obtain ⟨number, taken, hold, reserved, held, -, -⟩ := h.fair e.1 e.2 hw
    exact ⟨number, taken, hold, reserved, held, h.engine e.1 e.2 hw (by simp)⟩
  · obtain ⟨-, -, -, -, -, staged, released⟩ := h.fair e.1 e.2 (Store.get?_of_mem h.waves he)
    refine ⟨staged, released.trans (congrArg _ ?_)⟩
    exact Store.total_filter (fun gr : Group => decide (gr.wave = e.1)) s.groups
  · have hr : s.floor.tables.get? e.1 = some e.2 := Store.get?_of_mem hc.2.2.1 he
    obtain ⟨g, gr, hgr, htable, hcourse⟩ := (h.courses e.1 c).mp (by simpa [tableRecord, hr] using hcu)
    exact ⟨(g, gr), Store.mem_of_get? hgr, htable, hcourse⟩
  · exact (h.courses _ _).mpr ⟨d.1, d.2, Store.get?_of_mem hg hd, rfl, rfl⟩
  · refine List.Nodup.map_on (fun d hd d' hd' e => ?_) ?_
    · have hd := Store.get?_of_mem hg hd
      have hd' := Store.get?_of_mem hg hd'
      have key := h.unique d.1 d'.1 d.2 d'.2 hd hd' (congrArg Prod.fst e) (congrArg Prod.snd e)
      rw [key] at hd
      exact Prod.ext key (Option.some.inj (hd.symm.trans hd'))
    · exact List.Nodup.of_map _ (Store.keys_nodup hg)

theorem Kept.sound {s : State} {K : Scope} (h : Kept K [] none none s) (hK : K.whole) (hc : StoresCanonical s) : Sound s := by
  have coherent := h.coherent
  obtain ⟨⟨⟨standing, order, menu, -⟩, -⟩, -, grouped, counts⟩ := h
  obtain ⟨waves, accounted⟩ := (counts hK).accounted hc grouped.groups
  obtain ⟨calendar, blocked⟩ := order hK
  refine ⟨coherent, ⟨fun e he => ?_, fun x _ => ⟨?_, standing.queues hK x⟩, fun e he => menu hK e.1 e.2 (Store.get?_of_mem hc.1 he)⟩,
    ⟨calendar, fun x _ => blocked x⟩, waves, accounted⟩
  · have hk := Store.get?_of_mem grouped.tickets he
    exact ⟨(standsInPlace_iff standing.told hk (standing.classes hK)).mpr fun hst => standing.waits hK e.1 e.2 hk hst (by simp),
      standing.homes hK e.1 e.2 hk⟩
  · refine (blocked x).imp fun {m n} hmn => ?_
    rintro rfl
    obtain ⟨a, ha, b, hb, hab⟩ := hmn
    obtain rfl := Option.some.inj (Option.mem_def.mp ha ▸ Option.mem_def.mp hb)
    rcases hab with ⟨h, h'⟩ | ⟨-, a', ha', b', hb', hab⟩
    · simp [h] at h'
    · obtain rfl := Option.some.inj (Option.mem_def.mp ha' ▸ Option.mem_def.mp hb')
      omega

theorem Kept.bounds {s : State} {K : Scope} (h : Kept K [] none none s) (hK : K.timed) : WithinBounds s ∧ TimesTrue s := by
  obtain ⟨⟨⟨-, -, -, ahead⟩, fits⟩, numbered, grouped, -⟩ := h
  have numbered := numbered hK
  refine ⟨⟨fun e he => numbered.tickets e.1 e.2 (Store.get?_of_mem grouped.tickets he), fun e he => ?_, fun st hst => ?_⟩,
    fun n hn => ?_, fun e he => ?_, fun e he gr hg => grouped.same hK e.1 e.2 (Store.get?_of_mem grouped.tickets he) gr hg⟩
  · have hg := Store.get?_of_mem grouped.groups he
    exact ⟨numbered.groups e.1 e.2 hg, (grouped.dies hK e.1 e.2 hg (by simp)).1⟩
  · obtain ⟨x, -, rfl⟩ := getD_of_mem_stations hst
    obtain ⟨positions, queue, full⟩ := fits hK x
    exact ⟨positions, queue, full⟩
  · refine (ahead hK n hn).imp id ?_
    rintro ⟨tk, hk, h⟩
    exact ⟨tk, hk, by omega⟩
  · exact (grouped.dies hK e.1 e.2 (Store.get?_of_mem grouped.groups he) (by simp)).2

end Sys2Proof.Machine
end


section
/-!
PROOFS. What keeps the invariant without touching it: changes of links, lines and stock, and, for the records of groups, waves and pools, every
change of the places alone (R81, R94 to R100).
-/

namespace Sys2Proof.Machine

/-! ## Changes that leave the places as they are -/

/-- The places, the tickets' records, the clock and the frozen set are as they were, and components keep their stations. -/
structure Still (s t : State) : Prop where
  clock : t.clock = s.clock
  tickets : t.tickets = s.tickets
  calendar : t.calendar = s.calendar
  frozen : t.frozen = s.frozen
  length : t.stations.length = s.stations.length
  config : ∀ x, (station t x).config = (station s x).config
  rushQueue : ∀ x, (station t x).rushQueue = (station s x).rushQueue
  ordinaryQueue : ∀ x, (station t x).ordinaryQueue = (station s x).ordinaryQueue
  positions : ∀ x, (station t x).positions = (station s x).positions
  blocked : ∀ x, (station t x).blocked = (station s x).blocked
  menu : ∀ c, (t.components.get? c).map Component.station = (s.components.get? c).map Component.station

theorem Still.refl (s : State) : Still s s := by
  constructor <;> intros <;> rfl

theorem Still.ticket_get {s t : State} (h : Still s t) (n : Nat) : ticket? t n = ticket? s n := by
  rw [ticket?, h.tickets, ← ticket?]

theorem Still.wholeQueue {s t : State} (h : Still s t) (x : Nat) : wholeQueue (station t x) = wholeQueue (station s x) := by
  rw [Machine.wholeQueue, Machine.wholeQueue, h.rushQueue, h.ordinaryQueue]

theorem Still.standsAt {s t : State} (h : Still s t) (n : Nat) (p : Place) : StandsAt t n p ↔ StandsAt s n p :=
  standsAt_congr h.calendar h.blocked h.wholeQueue h.positions n p

theorem Still.class {s t : State} (h : Still s t) (x : Nat) (b : Bool) : (station t x).class b = (station s x).class b := by
  cases b
  · exact h.ordinaryQueue x
  · exact h.rushQueue x

theorem Still.standing {K : Scope} {F : List Nat} {s t : State} (h : Still s t) (k : Standing K F s) : Standing K F t where
  length := h.length.trans k.length
  told m p hp := by
    rw [h.ticket_get]
    exact k.told m p ((h.standsAt m p).mp hp)
  floating n hn p hp := k.floating n hn p ((h.standsAt n p).mp hp)
  calendar := h.calendar ▸ k.calendar
  homes hK n tk hk := k.homes hK n tk (h.ticket_get n ▸ hk)
  waits hK n tk hk hst hF := (k.waits hK n tk (h.ticket_get n ▸ hk) hst hF).imp fun p => (h.standsAt n p).mpr
  queues hK x := h.wholeQueue x ▸ k.queues hK x
  classes hK x b n hn tk hk := k.classes hK x b n (h.class x b ▸ hn) tk (h.ticket_get n ▸ hk)

theorem firesAhead_congr {s t : State} {m n : Nat} (hm : ticket? t m = ticket? s m) (hn : ticket? t n = ticket? s n) :
    FiresAhead t m n ↔ FiresAhead s m n := by
  rw [FiresAhead, FiresAhead, hm, hn]

theorem blockedAhead_congr {s t : State} {m n : Nat} (hm : ticket? t m = ticket? s m) (hn : ticket? t n = ticket? s n) :
    BlockedAhead t m n ↔ BlockedAhead s m n := by
  rw [BlockedAhead, BlockedAhead, hm, hn, firesAhead_congr hm hn]

theorem Still.fits {s t : State} (h : Still s t) {x : Nat} (k : (station s x).Fits) : (station t x).Fits where
  positions := by rw [h.positions, h.config, k.positions]
  queue := by rw [h.wholeQueue, h.config]; exact k.queue
  full hq := by rw [h.positions]; exact k.full (h.wholeQueue x ▸ hq)

theorem Still.seated {K : Scope} {F : List Nat} {s t : State} (h : Still s t) (k : Seated K F s) : Seated K F t where
  standing := h.standing k.standing
  order hK := by
    obtain ⟨calendar, blocked⟩ := k.order hK
    refine ⟨?_, fun x => ?_⟩
    · rw [h.calendar]
      exact calendar.imp fun h' => (firesAhead_congr (h.ticket_get _) (h.ticket_get _)).mpr h'
    · rw [h.blocked]
      exact (blocked x).imp fun h' => (blockedAhead_congr (h.ticket_get _) (h.ticket_get _)).mpr h'
  menu hK c r hc := by
    have same := h.menu c
    rw [hc, Option.map_some] at same
    obtain ⟨r', hr', e⟩ := Option.map_eq_some_iff.mp same.symm
    exact e ▸ k.menu hK c r' hr'
  ahead hK n hn := by
    rw [Frozen, h.ticket_get, h.frozen, h.clock]
    exact k.ahead hK n (h.calendar ▸ hn)

theorem Still.arranged {K : Scope} {F : List Nat} {s t : State} (h : Still s t) (k : Arranged K F s) : Arranged K F t :=
  ⟨h.seated k.seated, fun hK x => h.fits (k.fits hK x)⟩

theorem OnlyLines.still {s t : State} (h : OnlyLines s t) : Still s t :=
  ⟨h.clock, h.tickets, h.calendar, h.frozen, h.length, h.config, h.rushQueue, h.ordinaryQueue, h.positions, h.blocked,
    fun c => by rw [h.components]⟩

theorem OnlyStock.still {s t : State} (h : OnlyStock s t) : Still s t := by
  have menu := h.record
  rw [h.rest] at menu ⊢
  refine ⟨rfl, rfl, rfl, rfl, rfl, fun _ => rfl, fun _ => rfl, fun _ => rfl, fun _ => rfl, fun _ => rfl, fun c => ?_⟩
  simpa [Option.map_map, Function.comp_def] using congrArg (Option.map Component.station) (menu c)

/-! ## Changes of the places alone -/

/-- A waiting ticket's record once it has been moved or re-timed: it still waits. -/
def Reseats (o o' : Ticket) : Prop :=
  o.Waits ∧ o'.Waits
    ∧ o' = { o with
        state := o'.state, station := o'.station, position := o'.position, dueReady := o'.dueReady
        lateness := o'.lateness, firedAt := o'.firedAt, fireTime := o'.fireTime }

theorem Reseats.trans {o o' o'' : Ticket} (h : Reseats o o') (k : Reseats o' o'') : Reseats o o'' := by
  obtain ⟨h1, -, h3⟩ := h
  obtain ⟨-, k2, k3⟩ := k
  refine ⟨h1, k2, ?_⟩
  rw [k3, h3]

theorem Shifts.reseats {o o' : Ticket} (h : Shifts o o') : Reseats o o' := by
  obtain ⟨h1, h2, h3⟩ := h
  refine ⟨h1.elim (fun e => .inr (.inl e)) fun e => .inr (.inr (.inl e)), h2.elim (fun e => .inr (.inr (.inl e)))
    fun e => .inr (.inr (.inr e)), ?_⟩
  rw [h3]

/-- The groups, waves, pools, live courses and hold windows are as they were, and waiting tickets may have been moved. -/
structure Shuffles (s t : State) : Prop where
  groups : t.groups = s.groups
  groupPool : t.groupPool = s.groupPool
  ticketPool : t.ticketPool = s.ticketPool
  waves : t.waves = s.waves
  engine : t.engine = s.engine
  frozen : t.frozen = s.frozen
  mode : t.link.mode = s.link.mode
  courses : ∀ u, (tableRecord t u).liveCourses = (tableRecord s u).liveCourses
  holds : ∀ c, holdWindow t c = holdWindow s c
  rising : s.tickets.rising = true → t.tickets.rising = true
  tickets : ∀ n, ticket? t n = ticket? s n ∨ ∃ o o', ticket? s n = some o ∧ ticket? t n = some o' ∧ Reseats o o'

theorem Shuffles.refl (s : State) : Shuffles s s :=
  ⟨rfl, rfl, rfl, rfl, rfl, rfl, rfl, fun _ => rfl, fun _ => rfl, id, fun _ => .inl rfl⟩

theorem Shuffles.trans {s t u : State} (h : Shuffles s t) (k : Shuffles t u) : Shuffles s u where
  groups := k.groups.trans h.groups
  groupPool := k.groupPool.trans h.groupPool
  ticketPool := k.ticketPool.trans h.ticketPool
  waves := k.waves.trans h.waves
  engine := k.engine.trans h.engine
  frozen := k.frozen.trans h.frozen
  mode := k.mode.trans h.mode
  courses u := (k.courses u).trans (h.courses u)
  holds c := (k.holds c).trans (h.holds c)
  rising hr := k.rising (h.rising hr)
  tickets n := by
    rcases k.tickets n with e | ⟨o, o', ho, ho', hs⟩
    · rw [e]
      exact h.tickets n
    · rcases h.tickets n with e | ⟨p, p', hp, hp', hs'⟩
      · exact .inr ⟨o, o', e ▸ ho, ho', hs⟩
      · obtain rfl : p' = o := Option.some.inj (hp'.symm.trans ho)
        exact .inr ⟨p, o', hp, ho', hs'.trans hs⟩

/-- A field of the record that a move leaves alone. -/
theorem Shuffles.map_eq {α : Type} {s t : State} (h : Shuffles s t) (f : Ticket → α) (hf : ∀ o o', Reseats o o' → f o' = f o)
    (n : Nat) : (ticket? t n).map f = (ticket? s n).map f := by
  rcases h.tickets n with e | ⟨o, o', ho, ho', hs⟩
  · rw [e]
  · rw [ho, ho', Option.map_some, Option.map_some, hf o o' hs]

theorem Shuffles.back {α : Type} {s t : State} (h : Shuffles s t) (f : Ticket → α) (hf : ∀ o o', Reseats o o' → f o' = f o)
    {n : Nat} {o' : Ticket} (hk : ticket? t n = some o') : ∃ o, ticket? s n = some o ∧ f o = f o' := by
  have same := h.map_eq f hf n
  rw [hk, Option.map_some] at same
  exact Option.map_eq_some_iff.mp same.symm

/-- A ticket that does not wait keeps its record. -/
theorem Shuffles.resting {s t : State} (h : Shuffles s t) {n : Nat} {tk : Ticket} (hk : ticket? s n = some tk) (hw : ¬tk.Waits) :
    ticket? t n = some tk := by
  rcases h.tickets n with e | ⟨o, o', ho, -, hs⟩
  · rw [e, hk]
  · obtain rfl := Option.some.inj (hk.symm.trans ho)
    exact absurd hs.1 hw

theorem Shuffles.inState {s t : State} (h : Shuffles s t) {n : Nat} {st : TicketState} (hn : InState s st n)
    (hst : st = .ready ∨ st = .withdrawn) : InState t st n := by
  obtain ⟨tk, hk, rfl⟩ := Option.map_eq_some_iff.mp hn
  rw [InState, h.resting hk fun hw => by rcases hst with e | e <;> rcases hw with w | w | w | w <;> simp [e] at w]
  rfl

theorem dieTime_of_waits {s : State} {n : Nat} {tk : Ticket} (hk : ticket? s n = some tk) (hw : tk.Waits) : dieTime s n = none := by
  rcases hw with h | h | h | h <;> simp [dieTime, hk, h]

theorem Shuffles.dieTime {s t : State} (h : Shuffles s t) (n : Nat) : dieTime t n = dieTime s n := by
  rcases h.tickets n with e | ⟨o, o', ho, ho', hs⟩
  · simp only [Machine.dieTime, e, h.holds]
  · rw [dieTime_of_waits ho hs.1, dieTime_of_waits ho' hs.2.1]

/-- Die times decide which time is the earliest. -/
theorem earliestDie_of_dieTime {s t : State} {ns : List Nat} {o : Option Nat} (h : ∀ n ∈ ns, dieTime t n = dieTime s n)
    (k : EarliestDie s ns o) : EarliestDie t ns o := by
  have same : ∀ n ∈ ns, ∀ d, DiesAt t n d ↔ DiesAt s n d := fun n hn d => by rw [← dieTime_iff, ← dieTime_iff, h n hn]
  refine ⟨fun d hd => ?_, fun n hn d hd => k.2 n hn d ((same n hn d).mp hd)⟩
  obtain ⟨n, hn, hd⟩ := k.1 d hd
  exact ⟨n, hn, (same n hn d).mpr hd⟩

theorem Shuffles.group_get {s t : State} (h : Shuffles s t) (g : Nat) : group? t g = group? s g := by
  rw [group?, h.groups, ← group?]

theorem Shuffles.wave_get {s t : State} (h : Shuffles s t) (w : Nat) : wave? t w = wave? s w := by
  rw [wave?, h.waves, ← wave?]

theorem Shuffles.waveState {s t : State} (h : Shuffles s t) (w : Nat) : waveState t w = waveState s w := by
  rw [Machine.waveState, Machine.waveState, h.wave_get]

theorem Shuffles.listed {s t : State} (h : Shuffles s t) (k : Listed s) : Listed t := by
  have group_eq := h.map_eq Ticket.group fun o o' hs => by rw [hs.2.2]
  refine ⟨fun g gr hg => k.nodup g gr (h.group_get g ▸ hg), fun g gr hg n hn => ?_, fun n tk hk => ?_⟩
  · rw [group_eq]
    exact k.members g gr (h.group_get g ▸ hg) n hn
  · obtain ⟨o, ho, e⟩ := h.back Ticket.group (fun o o' hs => by rw [hs.2.2]) hk
    rw [← e, h.group_get]
    exact k.listed n o ho

theorem Shuffles.grouped {K : Scope} {X : Option Nat} {s t : State} (h : Shuffles s t) (k : Grouped K X s) : Grouped K X t where
  tickets := h.rising k.tickets
  groups := h.groups ▸ k.groups
  listed := h.listed k.listed
  complete g gr hg hX hst := by
    obtain ⟨dies, states⟩ := k.complete g gr (h.group_get g ▸ hg) hX hst
    exact ⟨dies, fun n hn => (states n hn).imp (h.inState · (.inl rfl)) (h.inState · (.inr rfl))⟩
  dies hK g gr hg hX := by
    obtain ⟨served, assembling, others⟩ := k.dies hK g gr (h.group_get g ▸ hg) hX
    refine ⟨fun hst => ?_, fun hst => earliestDie_of_dieTime (fun n _ => h.dieTime n) (assembling hst), others⟩
    obtain ⟨n, hn, ready⟩ := served hst
    exact ⟨n, hn, h.inState ready (.inl rfl)⟩
  same hK n tk hk gr hg := by
    obtain ⟨o, ho, e⟩ := h.back (fun tk => (tk.group, tk.wave, tk.table, tk.goTime)) (fun o o' hs => by rw [hs.2.2]) hk
    obtain ⟨eg, ew, et, ego⟩ : o.group = tk.group ∧ o.wave = tk.wave ∧ o.table = tk.table ∧ o.goTime = tk.goTime := by
      simpa using e
    rw [← ew, ← et, ← ego]
    exact k.same hK n o ho gr (by rw [eg, ← h.group_get]; exact hg)

theorem Shuffles.numbered {s t : State} (h : Shuffles s t) (k : Numbered s) : Numbered t where
  tickets n tk hk := by
    obtain ⟨o, ho, e⟩ := h.back Ticket.generation (fun o o' hs => by rw [hs.2.2]) hk
    exact e ▸ k.tickets n o ho
  groups g gr hg := k.groups g gr (h.group_get g ▸ hg)

theorem Wave.Fair.congr {s t : State} {w : Nat} {wv : Wave} (h : wv.Fair s w) (hf : w ∈ t.frozen ↔ w ∈ s.frozen)
    (hg : t.groups.total (Group.ofWave w) = s.groups.total (Group.ofWave w)) : wv.Fair t w :=
  ⟨h.number, h.taken, h.hold, h.reserved, h.frozen.trans hf.symm, h.staged, hg ▸ h.released⟩

theorem Shuffles.length_eq {s t : State} (h : Shuffles s t) (k : s.tickets.rising = true) : t.tickets.length = s.tickets.length :=
  Store.length_congr (h.rising k) k fun n => by
    simpa [ticket?] using congrArg Option.isSome (h.map_eq (fun _ => ()) (fun _ _ _ => rfl) n)

theorem Shuffles.counts {C : Option Nat} {s t : State} (h : Shuffles s t) (hr : s.tickets.rising = true) (k : Counts C s) :
    Counts C t where
  waves := h.waves ▸ k.waves
  fair w wv hw := (k.fair w wv (h.wave_get w ▸ hw)).congr (by rw [h.frozen]) (by rw [h.groups])
  engine w wv hw hC := by rw [h.engine]; exact k.engine w wv (h.wave_get w ▸ hw) hC
  frozen w hw := by rw [h.waveState]; exact k.frozen w (h.frozen ▸ hw)
  running hrun w hw := by rw [h.waveState]; exact k.running (h.engine ▸ hrun) w (h.engine ▸ hw)
  pools := by rw [PoolsWhole, h.ticketPool, h.groupPool]; exact k.pools
  tickets := by rw [h.ticketPool, h.length_eq hr, k.tickets]
  groups := by rw [h.groupPool, h.groups, k.groups]
  reservedTickets := by rw [h.ticketPool, h.waves, k.reservedTickets]
  reservedGroups := by rw [h.groupPool, h.waves, k.reservedGroups]
  provided hC hrun w hw wv hwv := by
    have := k.provided hC (h.engine ▸ hrun) w (h.engine ▸ hw) wv (h.wave_get w ▸ hwv)
    simpa only [h.engine, h.courses] using this
  waved g gr hg := by rw [h.wave_get]; exact k.waved g gr (h.group_get g ▸ hg)
  courses u c := by simpa only [h.courses, h.group_get] using k.courses u c
  unique g g' gr gr' hg hg' := k.unique g g' gr gr' (h.group_get g ▸ hg) (h.group_get g' ▸ hg')
  setup hm := by rw [h.waves]; exact k.setup (h.mode ▸ hm)

theorem Shuffles.books {K : Scope} {X C : Option Nat} {s t : State} (h : Shuffles s t) (k : Books K X C s) : Books K X C t where
  numbered hK := h.numbered (k.numbered hK)
  grouped := h.grouped k.grouped
  counts hK := h.counts k.grouped.tickets (k.counts hK)

/-! ## Changes that the invariant does not speak of -/

theorem OnlyLines.shuffles {s t : State} (h : OnlyLines s t) : Shuffles s t :=
  ⟨h.groups, h.groupPool, h.ticketPool, h.waves, h.engine, h.frozen, by rw [h.link], fun u => by rw [tableRecord, h.floor, ← tableRecord],
    fun c => by rw [holdWindow, h.components, ← holdWindow], fun hr => h.tickets ▸ hr, fun n => .inl (h.ticket_get n)⟩

theorem OnlyStock.holdWindow_eq {s t : State} (h : OnlyStock s t) (c : Nat) : holdWindow t c = holdWindow s c := by
  have same : (t.components.get? c).map Component.holdWindow = (s.components.get? c).map Component.holdWindow := by
    simpa [Option.map_map, Function.comp_def] using congrArg (Option.map Component.holdWindow) (h.record c)
  unfold holdWindow
  cases ht : t.components.get? c <;> cases hs : s.components.get? c <;> simp_all

theorem OnlyStock.shuffles {s t : State} (h : OnlyStock s t) : Shuffles s t := by
  refine ⟨?_, ?_, ?_, ?_, ?_, ?_, by rw [h.link], fun u => ?_, h.holdWindow_eq, fun hr => ?_, fun n => .inl ?_⟩
  case refine_8 => exact (congrArg State.tickets h.rest).symm ▸ hr
  all_goals rw [h.rest]
  all_goals rfl

theorem OnlyPlaces.shuffles {s t : State} (h : OnlyPlaces s t) (hr : s.tickets.rising = true → t.tickets.rising = true)
    (ht : ∀ n, ticket? t n = ticket? s n ∨ ∃ o o', ticket? s n = some o ∧ ticket? t n = some o' ∧ Reseats o o') : Shuffles s t :=
  ⟨h.groups, h.groupPool, h.ticketPool, h.waves, h.engine, h.frozen, by rw [h.link], fun u => by rw [tableRecord, h.floor, ← tableRecord],
    fun c => by rw [holdWindow, h.components, ← holdWindow], hr, ht⟩

variable {K : Scope} {F : List Nat} {X C : Option Nat} {s t : State}

theorem Kept.lines (h : Kept K F X C s) (k : OnlyLines s t) : Kept K F X C t :=
  ⟨k.still.arranged h.arranged, k.shuffles.books h.books⟩

theorem Kept.stock (h : Kept K F X C s) (k : OnlyStock s t) : Kept K F X C t :=
  ⟨k.still.arranged h.arranged, k.shuffles.books h.books⟩

theorem Kept.notice (h : Kept K F X C s) (n : Notice) : Kept K F X C (pushNotice n s) :=
  h.stock (pushNotice_stock n s)

/-- A change of the host link, in the same mode, of the commands that wait, of the course plans, the pass line and the straps. -/
theorem Kept.aside (h : Kept K F X C s)
    (k : t = { s with pending := t.pending, link := t.link, courses := t.courses, passLine := t.passLine, straps := t.straps })
    (hm : t.link.mode = s.link.mode) :
    Kept K F X C t := by
  rw [k]
  refine ⟨Still.arranged (s := s) ?_ h.arranged, Shuffles.books (s := s) ?_ h.books⟩
  · exact ⟨rfl, rfl, rfl, rfl, rfl, fun _ => rfl, fun _ => rfl, fun _ => rfl, fun _ => rfl, fun _ => rfl, fun _ => rfl⟩
  · exact ⟨rfl, rfl, rfl, rfl, rfl, rfl, hm, fun _ => rfl, fun _ => rfl, id, fun _ => .inl rfl⟩

theorem Kept.settle (h : Kept K F X C s) : Kept K F X C (settle s) := by
  refine h.aside ?_ (settle_link_mode s)
  unfold Machine.settle chooseHostFrame
  split
  · split <;> rfl
  · rfl
  · rfl

end Sys2Proof.Machine
end


section
/-!
PROOFS. What one ticket's leaving a place and taking another make of the invariant of the places (R81, R89, R94, R96, R107 to R110).
-/

namespace Sys2Proof.Machine

/-! ## Changes at one ticket -/

/-- Of the tickets other than `n`, records and places are as they were. -/
structure MovesOnly (n : Nat) (s t : State) : Prop where
  length : t.stations.length = s.stations.length
  others : ∀ m ≠ n, ticket? t m = ticket? s m
  places : ∀ m ≠ n, ∀ p, StandsAt t m p ↔ StandsAt s m p
  classes : ∀ x b, ∀ m ≠ n, m ∈ (station t x).class b → m ∈ (station s x).class b

theorem MovesOnly.trans {n : Nat} {s t u : State} (h : MovesOnly n s t) (k : MovesOnly n t u) : MovesOnly n s u where
  length := k.length.trans h.length
  others m hm := (k.others m hm).trans (h.others m hm)
  places m hm p := (k.places m hm p).trans (h.places m hm p)
  classes x b m hm hb := h.classes x b m hm (k.classes x b m hm hb)

theorem MovesOnly.ofStation {n x : Nat} {f : Station → Station} {s : State}
    (h : ∀ m ≠ n, ∀ q : Spot, q.Holds (f (station s x)) m ↔ q.Holds (station s x) m)
    (hc : ∀ b, ∀ m ≠ n, m ∈ (f (station s x)).class b → m ∈ (station s x).class b) : MovesOnly n s (updStation x f s) where
  length := updStation_stations_length ..
  others _ _ := rfl
  places m hm p := by
    cases p with
    | calendar => exact Iff.rfl
    | station y q =>
      rw [StandsAt, StandsAt, station_updStation]
      split
      · rename_i hy
        rw [hy.1]
        exact h m hm q
      · exact Iff.rfl
  classes y b m hm hb := by
    rw [station_updStation] at hb
    split at hb
    · rename_i hy
      rw [hy.1] at hb ⊢
      exact hc b m hm hb
    · exact hb

/-- Nothing but the record of ticket `n`, and what the places do not speak of, has changed. -/
structure RecordOnly (n : Nat) (s t : State) : Prop where
  clock : t.clock = s.clock
  components : t.components = s.components
  calendar : t.calendar = s.calendar
  frozen : t.frozen = s.frozen
  stations : t.stations = s.stations
  others : ∀ m ≠ n, ticket? t m = ticket? s m

theorem RecordOnly.station {n : Nat} {s t : State} (h : RecordOnly n s t) (x : Nat) : station t x = station s x := by
  rw [Machine.station, h.stations, ← Machine.station]

theorem RecordOnly.standsAt {n : Nat} {s t : State} (h : RecordOnly n s t) (m : Nat) (p : Place) : StandsAt t m p ↔ StandsAt s m p :=
  standsAt_congr h.calendar (fun x => by rw [h.station]) (fun x => by rw [h.station]) (fun x => by rw [h.station]) m p

theorem RecordOnly.moves {n : Nat} {s t : State} (h : RecordOnly n s t) : MovesOnly n s t where
  length := by rw [h.stations]
  others := h.others
  places m _ p := h.standsAt m p
  classes x b m _ hb := h.station x ▸ hb

theorem RecordOnly.setTicket (n : Nat) (tk : Ticket) (s : State) : RecordOnly n s (setTicket n tk s) :=
  ⟨rfl, rfl, rfl, rfl, rfl, fun _ hm => ticket_get_setTicket_of_ne s tk hm⟩

theorem RecordOnly.updTicket (n : Nat) (f : Ticket → Ticket) (s : State) : RecordOnly n s (updTicket n f s) :=
  ⟨rfl, rfl, rfl, rfl, rfl, fun m hm => by rw [ticket_get_updTicket, if_neg hm]⟩

/-- What places and record of ticket `n` say of each other. -/
structure Own (K : Scope) (F : List Nat) (n : Nat) (s : State) : Prop where
  told : ∀ p, StandsAt s n p → ∃ tk, ticket? s n = some tk ∧ Names tk p
  floating : n ∈ F → Unplaced s n
  home : K.whole → ∀ tk, ticket? s n = some tk → tk.homeStation < 24
  waits : K.whole → ∀ tk, ticket? s n = some tk → tk.Waits → n ∉ F → ∃ p, StandsAt s n p
  rush : K.whole → ∀ x b, n ∈ (station s x).class b → ∀ tk, ticket? s n = some tk → tk.rush = b

theorem Own.of_unplaced {K : Scope} {F : List Nat} {n : Nat} {s : State} (hu : Unplaced s n)
    (home : K.whole → ∀ tk, ticket? s n = some tk → tk.homeStation < 24)
    (waits : K.whole → ∀ tk, ticket? s n = some tk → tk.Waits → n ∈ F) : Own K F n s where
  told p hp := absurd hp (hu p)
  floating _ := hu
  home := home
  waits hK tk hk hst hF := absurd (waits hK tk hk hst) hF
  rush _ x _ hn := absurd (mem_wholeQueue.mpr ⟨_, hn⟩) (hu (.station x .queue))

theorem Standing.moved {K : Scope} {F F' : List Nat} {n : Nat} {s t : State} (h : Standing K F s) (k : MovesOnly n s t)
    (calendar : t.calendar.Nodup) (queues : K.whole → ∀ x, (wholeQueue (station t x)).Nodup) (hF : ∀ m ≠ n, m ∈ F' ↔ m ∈ F)
    (own : Own K F' n t) : Standing K F' t where
  length := k.length.trans h.length
  told m p hp := by
    by_cases hm : m = n
    · exact hm ▸ own.told p (hm ▸ hp)
    · rw [k.others m hm]
      exact h.told m p ((k.places m hm p).mp hp)
  floating m hm p hp := by
    by_cases hmn : m = n
    · exact own.floating (hmn ▸ hm) p (hmn ▸ hp)
    · exact h.floating m ((hF m hmn).mp hm) p ((k.places m hmn p).mp hp)
  calendar := calendar
  homes hK m tk hk := by
    by_cases hm : m = n
    · exact own.home hK tk (hm ▸ hk)
    · exact h.homes hK m tk (k.others m hm ▸ hk)
  waits hK m tk hk hst hm := by
    by_cases hmn : m = n
    · rw [hmn] at hm hk ⊢
      exact own.waits hK tk hk hst hm
    · exact (h.waits hK m tk (k.others m hmn ▸ hk) hst (mt (hF m hmn).mpr hm)).imp fun p => (k.places m hmn p).mpr
  queues := queues
  classes hK x b m hm tk hk := by
    by_cases hmn : m = n
    · exact own.rush hK x b (hmn ▸ hm) tk (hmn ▸ hk)
    · exact h.classes hK x b m (k.classes x b m hmn hm) tk (k.others m hmn ▸ hk)

/-! ## Lists that only lose tickets -/

/-- The calendar and the blocked lists only lose tickets, and those in them keep their records. -/
structure Thins (s t : State) : Prop where
  clock : t.clock = s.clock
  components : t.components = s.components
  frozen : t.frozen = s.frozen
  calendar : t.calendar.Sublist s.calendar
  blocked : ∀ x, (station t x).blocked.Sublist (station s x).blocked
  inCalendar : ∀ n ∈ t.calendar, ticket? t n = ticket? s n
  inBlocked : ∀ x, ∀ n ∈ (station t x).blocked, ticket? t n = ticket? s n

theorem Thins.order {s t : State} (h : Thins s t) (k : InOrder s) : InOrder t where
  calendar := (k.calendar.sublist h.calendar).imp_of_mem fun hm hn hmn =>
    (firesAhead_congr (h.inCalendar _ hm) (h.inCalendar _ hn)).mpr hmn
  blocked x := ((k.blocked x).sublist (h.blocked x)).imp_of_mem fun hm hn hmn =>
    (blockedAhead_congr (h.inBlocked x _ hm) (h.inBlocked x _ hn)).mpr hmn

theorem Thins.ahead {s t : State} {lead : Nat} (h : Thins s t) (k : Ahead lead s) : Ahead lead t := by
  intro n hn
  rw [Frozen, h.inCalendar n hn, h.frozen, h.clock]
  exact k n (h.calendar.subset hn)

theorem Thins.seated {K : Scope} {F F' : List Nat} {s t : State} (h : Thins s t) (k : Seated K F s) (hs : Standing K F' t) :
    Seated K F' t :=
  ⟨hs, fun hK => h.order (k.order hK), fun hK => h.components ▸ k.menu hK, fun hK => h.ahead (k.ahead hK)⟩

variable {K : Scope} {F F' : List Nat} {n x : Nat} {s t : State}

theorem RecordOnly.thins (h : RecordOnly n s t) (hu : Unplaced s n) : Thins s t where
  clock := h.clock
  components := h.components
  frozen := h.frozen
  calendar := by rw [h.calendar]
  blocked x := by rw [h.station]
  inCalendar m hm := h.others m fun e => hu .calendar (show n ∈ s.calendar from h.calendar ▸ e ▸ hm)
  inBlocked x m hm := h.others m fun e => hu (.station x .blocked) (show n ∈ _ from h.station x ▸ e ▸ hm)

/-- The record of a ticket that stands nowhere is written, changed or cleared. -/
theorem Seated.record (h : Seated K F s) (k : RecordOnly n s t) (hu : Unplaced s n) (hF : ∀ m ≠ n, m ∈ F' ↔ m ∈ F)
    (home : K.whole → ∀ tk, ticket? t n = some tk → tk.homeStation < 24)
    (waits : K.whole → ∀ tk, ticket? t n = some tk → tk.Waits → n ∈ F') : Seated K F' t := by
  refine (k.thins hu).seated h ?_
  refine h.standing.moved k.moves (k.calendar ▸ h.standing.calendar) (fun hK x => k.station x ▸ h.standing.queues hK x) hF ?_
  exact Own.of_unplaced (fun p hp => hu p ((k.standsAt n p).mp hp)) home waits

/-! ## Leaving (R89, R94, R110) -/

theorem Spot.freed_class_sublist (n : Nat) (p : Spot) (st : Station) (b : Bool) : ((p.freed n st).class b).Sublist (st.class b) := by
  cases p with
  | blocked => exact .refl _
  | queue => cases b <;> exact List.filter_sublist
  | position i => exact .refl _

theorem Spot.freed_wholeQueue (n : Nat) (p : Spot) (st : Station) : (wholeQueue (p.freed n st)).Sublist (wholeQueue st) :=
  (freed_class_sublist n p st true).append (freed_class_sublist n p st false)

/-- Leaving a spot moves no other ticket. -/
theorem freed_only {p : Spot} (hp : StandsAt s n (.station x p)) : MovesOnly n s (updStation x (p.freed n) s) := by
  refine .ofStation (fun m hm q => ⟨fun hq => (Spot.holds_freed hq).1, fun hq => ?_⟩)
    fun b m _ hb => (Spot.freed_class_sublist n p _ b).subset hb
  cases p with
  | blocked =>
    cases q with
    | blocked => exact mem_removeNumber.mpr ⟨hq, hm⟩
    | queue => exact hq
    | position j => exact hq
  | queue =>
    cases q with
    | blocked => exact hq
    | queue =>
      simp only [Spot.Holds, Spot.freed, wholeQueue, List.mem_append, mem_removeNumber] at hq ⊢
      exact hq.imp (⟨·, hm⟩) (⟨·, hm⟩)
    | position j => exact hq
  | position i =>
    cases q with
    | blocked => exact hq
    | queue => exact hq
    | position j =>
      have hij : i ≠ j := by
        rintro rfl
        exact hm (Option.some.inj (Option.some.inj (hq.symm.trans hp)))
      simp only [Spot.Holds, Spot.freed, List.getElem?_set_ne hij]
      exact hq

theorem freed_thins (n : Nat) (p : Spot) (x : Nat) (s : State) : Thins s (updStation x (p.freed n) s) :=
  ⟨rfl, rfl, rfl, .refl _, freed_blocked n x p s, fun _ _ => rfl, fun _ _ _ => rfl⟩

theorem mem_cons_iff_of_ne {m n : Nat} {F : List Nat} (h : m ≠ n) : m ∈ n :: F ↔ m ∈ F := by
  simp [h]

theorem station_updStation_wholeQueue {f : Station → Station} (hf : (wholeQueue (f (station s x))).Nodup) {y : Nat}
    (h : (wholeQueue (station s y)).Nodup) : (wholeQueue (station (updStation x f s) y)).Nodup := by
  rw [station_updStation]
  split
  · rename_i hy
    rwa [hy.1]
  · exact h

/-- A ticket leaves the spot where it stands. -/
theorem Seated.leaves {p : Spot} (h : Seated K F s) (hp : StandsAt s n (.station x p)) :
    Seated K (n :: F) (updStation x (p.freed n) s) := by
  obtain ⟨tk, hk, names⟩ := h.standing.told n _ hp
  have unplaced : Unplaced (updStation x (p.freed n) s) n :=
    freed_unplaced fun q hq => (h.standing.told.names hk hq).unique names
  refine (freed_thins n p x s).seated h (h.standing.moved (freed_only hp) h.standing.calendar (fun hK y => ?_)
    (fun m hm => mem_cons_iff_of_ne hm) (.of_unplaced unplaced (fun hK => h.standing.homes hK n) fun _ _ _ _ => List.mem_cons_self ..))
  exact station_updStation_wholeQueue ((h.standing.queues hK x).sublist (Spot.freed_wholeQueue n p _)) (h.standing.queues hK y)

/-- A ticket leaves the calendar. -/
theorem Seated.leavesCalendar (h : Seated K F s) (hn : n ∈ s.calendar) : Seated K (n :: F) (leaveCalendar n s) := by
  obtain ⟨tk, hk, names⟩ := h.standing.told n .calendar hn
  have unplaced : Unplaced (leaveCalendar n s) n := by
    intro p hp
    have moved := (leaveCalendar_moves n s).places
    cases p with
    | calendar => exact (mem_removeNumber.mp hp).2 rfl
    | station x p => exact absurd ((h.standing.told.names hk (p := .station x p) hp).unique names) (by simp)
  have only : MovesOnly n s (leaveCalendar n s) := by
    refine ⟨rfl, fun _ _ => rfl, fun m hm p => ?_, fun _ _ _ _ hb => hb⟩
    cases p with
    | calendar => exact mem_removeNumber.trans (and_iff_left hm)
    | station x p => exact Iff.rfl
  have thins : Thins s (leaveCalendar n s) :=
    ⟨rfl, rfl, rfl, List.filter_sublist, fun _ => .refl _, fun _ _ => rfl, fun _ _ _ => rfl⟩
  exact thins.seated h (h.standing.moved only (h.standing.calendar.filter _) h.standing.queues (fun m hm => mem_cons_iff_of_ne hm)
    (.of_unplaced unplaced (fun hK => h.standing.homes hK n) fun _ _ _ _ => List.mem_cons_self ..))

/-! ## Taking a spot (R94, R96, R107) -/

/-- A ticket that stood nowhere takes a spot, and its record says so. -/
theorem Standing.settles {spot : Spot} {f : Station → Station} {tk : Ticket} (h : Standing K (n :: F) s) (hn : n ∉ F) (hx : x < 24)
    (holds : ∀ m (q : Spot), q.Holds (f (station s x)) m ↔ q.Holds (station s x) m ∨ m = n ∧ q = spot)
    (classes : ∀ b m, m ∈ (f (station s x)).class b → m ∈ (station s x).class b ∨ m = n ∧ tk.rush = b)
    (queue : K.whole → (wholeQueue (f (station s x))).Nodup) (names : Names tk (.station x spot))
    (home : K.whole → tk.homeStation < 24) : Standing K F (updStation x f (setTicket n tk s)) := by
  have unplaced := h.floating n (List.mem_cons_self ..)
  have only : MovesOnly n s (updStation x f (setTicket n tk s)) := by
    refine (RecordOnly.setTicket n tk s).moves.trans (.ofStation (fun m hm q => ?_) fun b m hm hb => ?_)
    · exact (holds m q).trans (or_iff_left fun e => hm e.1)
    · exact (classes b m hb).resolve_right fun e => hm e.1
  have record : ticket? (updStation x f (setTicket n tk s)) n = some tk := ticket_get_setTicket_self s n tk
  have there : ∀ y (q : Spot), q.Holds (station (updStation x f (setTicket n tk s)) y) n ↔ y = x ∧ q = spot := by
    intro y q
    rw [station_updStation]
    split
    · rename_i hy
      rw [hy.1]
      exact (holds n q).trans ⟨fun hq => hq.elim (fun hq => absurd hq (unplaced (.station x q))) fun e => ⟨rfl, e.2⟩,
        fun e => .inr ⟨rfl, e.2⟩⟩
    · rename_i hy
      refine ⟨fun hq => absurd hq (unplaced (.station y q)), fun e => absurd ⟨e.1, ?_⟩ hy⟩
      exact h.length ▸ hx
  refine h.moved only h.calendar (fun hK y => station_updStation_wholeQueue (s := setTicket n tk s) (queue hK) (h.queues hK y))
    (fun m hm => (mem_cons_iff_of_ne hm).symm) ⟨fun p hp => ⟨tk, record, ?_⟩, fun hF => absurd hF hn, fun hK tk' hk => ?_,
      fun hK tk' hk _ _ => ⟨.station x spot, (there x spot).mpr ⟨rfl, rfl⟩⟩, fun hK y b hb tk' hk => ?_⟩
  · cases p with
    | calendar => exact absurd hp (unplaced .calendar)
    | station y q =>
      obtain ⟨rfl, rfl⟩ := (there y q).mp hp
      exact names
  · obtain rfl := Option.some.inj (record.symm.trans hk)
    exact home hK
  · obtain rfl := Option.some.inj (record.symm.trans hk)
    have absent : ∀ z, n ∉ (station s z).class b := fun z hz =>
      unplaced (.station z .queue) (mem_wholeQueue.mpr ⟨b, hz⟩)
    rw [station_updStation] at hb
    split at hb
    · rename_i hy
      rw [hy.1] at hb
      exact ((classes b n hb).resolve_left (absent x)).2
    · exact absurd hb (absent y)

end Sys2Proof.Machine
end


section
/-!
PROOFS. Entries, blocked lists, offers and drains keep the invariant (R89, R93 to R99, R107 to R109).
-/

namespace Sys2Proof.Machine

variable {K : Scope} {F : List Nat} {X C : Option Nat} {n x : Nat} {s t : State} {tk : Ticket}

/-! ## Orders -/

theorem BlockedAhead.trans {l m n : Nat} (h : BlockedAhead s l m) (k : BlockedAhead s m n) : BlockedAhead s l n := by
  obtain ⟨a, ha, b, hb, hab⟩ := h
  obtain ⟨b', hb', c, hc, hbc⟩ := k
  obtain rfl := Option.some.inj (Option.mem_def.mp hb ▸ Option.mem_def.mp hb')
  refine ⟨a, ha, c, hc, ?_⟩
  rcases hab with ⟨h1, h2⟩ | ⟨h1, h2⟩ <;> rcases hbc with ⟨k1, k2⟩ | ⟨k1, k2⟩
  · exact .inl ⟨h1, k2⟩
  · exact .inl ⟨h1, k1 ▸ h2⟩
  · exact .inl ⟨h1.trans k1, k2⟩
  · exact .inr ⟨h1.trans k1, h2.trans k2⟩

theorem BlockedAhead.total {m n : Nat} {a b : Ticket} (hm : ticket? s m = some a) (hn : ticket? s n = some b) (h : m ≠ n) :
    BlockedAhead s m n ∨ BlockedAhead s n m := by
  rcases ha : a.rush <;> rcases hb : b.rush
  · exact (FiresAhead.total hm hn h).imp (fun h => ⟨a, hm, b, hn, .inr ⟨ha.trans hb.symm, h⟩⟩)
      fun h => ⟨b, hn, a, hm, .inr ⟨hb.trans ha.symm, h⟩⟩
  · exact .inr ⟨b, hn, a, hm, .inl ⟨hb, ha⟩⟩
  · exact .inl ⟨a, hm, b, hn, .inl ⟨ha, hb⟩⟩
  · exact (FiresAhead.total hm hn h).imp (fun h => ⟨a, hm, b, hn, .inr ⟨ha.trans hb.symm, h⟩⟩)
      fun h => ⟨b, hn, a, hm, .inr ⟨hb.trans ha.symm, h⟩⟩

theorem insertBefore_calendar {l : List Nat} (hn : ticket? s n = some tk) (hl : ∀ m ∈ l, m ≠ n ∧ ∃ o, ticket? s m = some o)
    (h : l.Pairwise (FiresAhead s)) : (insertBefore (calendarBefore s) n l).Pairwise (FiresAhead s) := by
  refine insertBefore_sorted (fun _ _ _ => FiresAhead.trans) (fun m hm => ?_) (fun m hm => ?_) h
  · obtain ⟨-, o, ho⟩ := hl m hm
    exact calendarBefore_iff hn ho
  · obtain ⟨hne, o, ho⟩ := hl m hm
    exact FiresAhead.total hn ho hne.symm

theorem insertBefore_blocked {l : List Nat} (hn : ticket? s n = some tk) (hl : ∀ m ∈ l, m ≠ n ∧ ∃ o, ticket? s m = some o)
    (h : l.Pairwise (BlockedAhead s)) : (insertBefore (blockedBefore s) n l).Pairwise (BlockedAhead s) := by
  refine insertBefore_sorted (fun _ _ _ => BlockedAhead.trans) (fun m hm => ?_) (fun m hm => ?_) h
  · obtain ⟨-, o, ho⟩ := hl m hm
    exact blockedBefore_iff hn ho
  · obtain ⟨hne, o, ho⟩ := hl m hm
    exact BlockedAhead.total hn ho hne.symm

/-! ## Entries (R94, R107 to R109) -/

theorem getElem?_of_lowestFree {ps : List (Option Nat)} {i : Nat} (h : lowestFree 0 ps = some i) : ps[i]? = some none := by
  rw [lowestFree_eq] at h
  split at h
  · rename_i hlt
    obtain rfl : ps.idxOf none = i := by simpa using h
    rw [List.getElem?_eq_getElem hlt, List.getElem_idxOf hlt]
  · cases h

theorem full_of_lowestFree {ps : List (Option Nat)} (h : lowestFree 0 ps = none) : none ∉ ps := by
  rw [lowestFree_eq] at h
  split at h
  · cases h
  · rename_i hlt
    exact mt List.idxOf_lt_length_of_mem hlt

theorem canTake_lt (h : canTake s x = true) : x < s.stations.length := by
  by_contra hx
  rw [canTake, station_of_length_le (Nat.le_of_not_lt hx)] at h
  cases h

theorem canTake_queue (h : canTake s x = true) :
    (wholeQueue (station s x)).length < ((station s x).config.map StationConfig.queueLimit).getD 0 := by
  obtain ⟨c, hc, -, -, hq⟩ := (canTake_iff s x).mp h
  rw [Option.mem_def.mp hc, wholeQueue, List.length_append]
  exact hq

theorem holds_seat {st : Station} {i m : Nat} (hi : st.positions[i]? = some none) (q : Spot) :
    q.Holds { st with positions := st.positions.set i (some n) } m ↔ q.Holds st m ∨ m = n ∧ q = .position i := by
  cases q with
  | blocked => simp [Spot.Holds]
  | queue => simp [Spot.Holds, wholeQueue]
  | position j =>
    have hlt : i < st.positions.length := (List.getElem?_eq_some_iff.mp hi).1
    by_cases hij : i = j
    · subst hij
      rw [Spot.Holds, Spot.Holds, List.getElem?_set_self hlt, hi]
      simp [eq_comm]
    · simp [Spot.Holds, List.getElem?_set_ne hij, Ne.symm hij]

theorem joinQueue_class (n : Nat) (r : Bool) (st : Station) (b : Bool) :
    (joinQueue n r st).class b = if r = b then st.class b ++ [n] else st.class b := by
  cases r <;> cases b <;> rfl

theorem mem_joinQueue_class {r b : Bool} {st : Station} {m : Nat} :
    m ∈ (joinQueue n r st).class b ↔ m ∈ st.class b ∨ m = n ∧ r = b := by
  rw [joinQueue_class]
  split <;> simp_all

theorem joinQueue_perm (n : Nat) (r : Bool) (st : Station) : (wholeQueue (joinQueue n r st)).Perm (n :: wholeQueue st) := by
  cases r
  · change (st.rushQueue ++ (st.ordinaryQueue ++ [n])).Perm (n :: (st.rushQueue ++ st.ordinaryQueue))
    rw [← List.append_assoc]
    exact List.perm_append_singleton n _
  · change ((st.rushQueue ++ [n]) ++ st.ordinaryQueue).Perm (n :: (st.rushQueue ++ st.ordinaryQueue))
    rw [List.append_assoc]
    exact List.perm_middle

theorem holds_joinQueue {st : Station} {m : Nat} (r : Bool) (q : Spot) :
    q.Holds (joinQueue n r st) m ↔ q.Holds st m ∨ m = n ∧ q = .queue := by
  cases q with
  | blocked => cases r <;> simp [Spot.Holds, joinQueue]
  | queue =>
    rw [Spot.Holds, (joinQueue_perm n r st).mem_iff, List.mem_cons, Spot.Holds]
    simp [or_comm]
  | position j => cases r <;> simp [Spot.Holds, joinQueue]

theorem fits_updStation {f : Station → Station} (h : ∀ y, (station s y).Fits) (hf : x < s.stations.length → (f (station s x)).Fits)
    (y : Nat) : (station (updStation x f s) y).Fits := by
  rw [station_updStation]
  split
  · rename_i hy
    rw [hy.1]
    exact hf hy.2
  · exact h y

/-- A ticket that has left its place enters a station that can take it. -/
theorem Arranged.enters (h : Arranged K (n :: F) s) (hn : n ∉ F) (hk : ticket? s n = some tk) (hx : canTake s x = true) :
    Arranged K F (enterStation n x s) := by
  have standing := h.seated.standing
  have unplaced := standing.floating n (List.mem_cons_self ..)
  have hlt := standing.length ▸ canTake_lt hx
  have home : K.whole → tk.homeStation < 24 := fun hK => standing.homes hK n tk hk
  have thins : ∀ (f : Station → Station) (tk' : Ticket), (f (station s x)).blocked = (station s x).blocked →
      Thins s (updStation x f (setTicket n tk' s)) := fun f tk' hf => by
    have record := (RecordOnly.setTicket n tk' s).thins unplaced
    have blocked : ∀ y, (station (updStation x f (setTicket n tk' s)) y).blocked = (station s y).blocked := fun y => by
      rw [station_updStation]
      split
      · rename_i hy
        rw [hy.1]
        exact hf
      · rfl
    exact ⟨rfl, rfl, rfl, record.calendar, fun y => by rw [blocked], record.inCalendar, fun y m hm => record.inBlocked y m (blocked y ▸ hm)⟩
  unfold enterStation
  rw [hk]
  dsimp only
  split
  · rename_i i hfree
    have hi := getElem?_of_lowestFree hfree
    have settled := standing.settles (spot := .position i) (f := fun st => { st with positions := st.positions.set i (some n) })
      (tk := { entryTimes s x tk with state := .onLine, position := some i }) hn hlt
      (fun m q => holds_seat hi q) (fun b m hm => .inl hm) (fun hK => standing.queues hK x) ⟨rfl, rfl, rfl⟩ home
    refine (sendRecords_only _ _ _).still.arranged ⟨(thins _ _ rfl).seated h.seated settled, fun hK => ?_⟩
    refine fits_updStation (s := setTicket n _ s) (h.fits hK) fun _ => ?_
    obtain ⟨positions, queue, full⟩ := h.fits hK x
    refine ⟨(List.length_set ..).trans positions, queue, fun hq => absurd (List.mem_of_getElem? hi) (full hq)⟩
  · rename_i hfree
    have fresh : n ∉ wholeQueue (station s x) := unplaced (.station x .queue)
    have settled := standing.settles (spot := .queue) (f := joinQueue n tk.rush)
      (tk := { entryTimes s x tk with state := .queued }) hn hlt
      (fun m q => holds_joinQueue tk.rush q) (fun b m hm => mem_joinQueue_class.mp hm)
      (fun hK => (joinQueue_perm n _ _).nodup_iff.mpr (List.nodup_cons.mpr ⟨fresh, standing.queues hK x⟩)) ⟨rfl, rfl⟩ home
    have blocked : (joinQueue n tk.rush (station s x)).blocked = (station s x).blocked := by
      unfold joinQueue
      split <;> rfl
    have positions' : (joinQueue n tk.rush (station s x)).positions = (station s x).positions := by
      unfold joinQueue
      split <;> rfl
    refine (sendRecord_only _ _ _).still.arranged ⟨(thins _ _ blocked).seated h.seated settled, fun hK => ?_⟩
    refine fits_updStation (s := setTicket n _ s) (h.fits hK) fun _ => ?_
    obtain ⟨positions, -, -⟩ := h.fits hK x
    have limit := canTake_queue hx
    refine ⟨?_, ?_, fun _ => ?_⟩
    · exact (congrArg List.length positions').trans (positions.trans (by rw [joinQueue_config]; rfl))
    · have length := (joinQueue_perm n tk.rush (station s x)).length_eq
      rw [List.length_cons] at length
      change (wholeQueue (joinQueue n tk.rush (station s x))).length
        ≤ ((joinQueue n tk.rush (station s x)).config.map StationConfig.queueLimit).getD 0
      rw [joinQueue_config]
      omega
    · change none ∉ (joinQueue n tk.rush (station s x)).positions
      rw [positions']
      exact full_of_lowestFree hfree

/-! ## Blocked lists and the calendar (R89, R94, R96) -/

theorem Told.live_of_mem_blocked (h : Told s) {m : Nat} (hm : m ∈ (station s x).blocked) : ∃ o, ticket? s m = some o :=
  (h m (.station x .blocked) hm).imp fun _ h => h.1

/-- A ticket that has left its place joins its home station's blocked list. -/
theorem Arranged.blocks (h : Arranged K (n :: F) s) (hn : n ∉ F) (hk : ticket? s n = some tk) : Arranged K F (joinBlocked n s) := by
  have standing := h.seated.standing
  have unplaced := standing.floating n (List.mem_cons_self ..)
  have home : K.whole → tk.homeStation < 24 := fun hK => standing.homes hK n tk hk
  let tk' : Ticket := { tk with state := .blocked, station := tk.homeStation }
  let u := setTicket n tk' s
  let join : Station → Station := fun st => { st with blocked := insertBefore (blockedBefore u) n st.blocked }
  have join_eq : joinBlocked n s = updStation tk.homeStation join u := by
    rw [joinBlocked, hk]
  have record : ticket? u n = some tk' := ticket_get_setTicket_self s n tk'
  have others : ∀ m ≠ n, ticket? u m = ticket? s m := fun m hm => ticket_get_setTicket_of_ne s tk' hm
  rw [join_eq]
  refine ⟨⟨?_, fun hK => ?_, h.seated.menu, fun hK m hm => ?_⟩, fun hK => fits_updStation (s := u) (h.fits hK) fun _ => ?_⟩
  · by_cases hx : tk.homeStation < 24
    · refine standing.settles (spot := .blocked) hn hx (fun m q => ?_) (fun b m hm => .inl hm) (fun hK => standing.queues hK _)
        ⟨rfl, rfl⟩ home
      cases q with
      | blocked => exact mem_insertBefore.trans (by simp [Spot.Holds, or_comm])
      | queue => exact (or_iff_left fun e => by cases e.2).symm
      | position j => exact (or_iff_left fun e => by cases e.2).symm
    · have idle : updStation tk.homeStation join u = u := by
        have : u.stations.modify tk.homeStation join = u.stations :=
          List.modify_eq_self (by rw [show u.stations = s.stations from rfl, standing.length]; omega)
        rw [updStation, this]
      rw [idle]
      exact (h.seated.record (F' := F) (RecordOnly.setTicket n tk' s) unplaced (fun m hm => (mem_cons_iff_of_ne hm).symm)
        (fun hK => absurd (home hK) hx) (fun hK => absurd (home hK) hx)).standing
  · obtain ⟨calendar, blocked⟩ := h.seated.order hK
    have thins := (RecordOnly.setTicket n tk' s).thins unplaced
    have order := thins.order (h.seated.order hK)
    refine ⟨order.calendar, fun y => ?_⟩
    rw [station_updStation]
    split
    · rename_i hy
      rw [hy.1]
      refine insertBefore_blocked (s := u) record (fun m hm => ?_) (order.blocked tk.homeStation)
      have hmn : m ≠ n := fun e => unplaced (.station tk.homeStation .blocked) (e ▸ hm)
      obtain ⟨o, ho⟩ := standing.told.live_of_mem_blocked hm
      exact ⟨hmn, o, (others m hmn).trans ho⟩
    · exact order.blocked y
  · have hmn : m ≠ n := fun e => unplaced .calendar (e ▸ hm)
    have kept : ticket? (updStation tk.homeStation join u) m = ticket? s m := others m hmn
    rw [Frozen, kept]
    exact h.seated.ahead hK m hm
  · obtain ⟨positions, queue, full⟩ := h.fits hK tk.homeStation
    exact ⟨positions, queue, full⟩

/-- A ticket that has left its place joins the calendar. -/
theorem Arranged.calendars (h : Arranged K (n :: F) s) (hn : n ∉ F) (hk : ticket? s n = some tk)
    (ahead : K.timed → tk.wave ∈ s.frozen ∨ (s.clock : Int) + K.lead ≤ tk.fireTime) : Arranged K F (joinCalendar n s) := by
  have standing := h.seated.standing
  have unplaced := standing.floating n (List.mem_cons_self ..)
  let u := updTicket n (fun tk => { tk with state := .calendared }) s
  have record : ticket? u n = some { tk with state := .calendared } := by
    rw [ticket_get_updTicket, if_pos rfl, hk, Option.map_some]
  have others : ∀ m ≠ n, ticket? u m = ticket? s m := fun m hm => (ticket_get_updTicket s n m _).trans (if_neg hm)
  let v : State := { u with calendar := insertBefore (calendarBefore u) n s.calendar }
  have join_eq : joinCalendar n s = v := rfl
  have fresh : n ∉ s.calendar := unplaced .calendar
  have only : MovesOnly n s v := by
    refine ⟨rfl, others, fun m hm p => ?_, fun _ _ _ _ hb => hb⟩
    cases p with
    | calendar => exact mem_insertBefore.trans (or_iff_right hm)
    | station x p => exact Iff.rfl
  have thins : Thins s u := (RecordOnly.updTicket n _ s).thins unplaced
  rw [join_eq]
  refine ⟨⟨standing.moved only ?_ standing.queues (fun m hm => (mem_cons_iff_of_ne hm).symm) ?_, fun hK => ?_, h.seated.menu,
    fun hK m hm => ?_⟩, h.fits⟩
  · exact (insertBefore_perm _ _ _).nodup_iff.mpr (List.nodup_cons.mpr ⟨fresh, standing.calendar⟩)
  · refine ⟨fun p hp => ⟨_, record, ?_⟩, fun hF => absurd hF hn, fun hK tk' hk' => ?_, fun _ _ _ _ _ =>
      ⟨.calendar, mem_insertBefore.mpr (.inl rfl)⟩, fun _ y b hb => absurd (mem_wholeQueue.mpr ⟨b, hb⟩) (unplaced (.station y .queue))⟩
    · cases p with
      | calendar => exact rfl
      | station x p => exact absurd hp (unplaced (.station x p))
    · obtain rfl := Option.some.inj (record.symm.trans hk')
      exact standing.homes hK n tk hk
  · have order := thins.order (h.seated.order hK)
    refine ⟨insertBefore_calendar (s := u) record (fun m hm => ?_) order.calendar, order.blocked⟩
    have hmn : m ≠ n := fun e => fresh (e ▸ hm)
    obtain ⟨o, ho, -⟩ := standing.told m .calendar hm
    exact ⟨hmn, o, (others m hmn).trans ho⟩
  · rcases mem_insertBefore.mp hm with rfl | hm
    · exact (ahead hK).imp (fun hw => ⟨_, record, hw⟩) fun hf => ⟨_, record, hf⟩
    · have hmn : m ≠ n := fun e => fresh (e ▸ hm)
      have kept : ticket? v m = ticket? s m := others m hmn
      rw [Frozen, kept]
      exact h.seated.ahead hK m hm

end Sys2Proof.Machine
end


section
/-!
PROOFS. Offers, drains and tickets that leave a station keep the invariant (R94 to R99, R110, R111).
-/

namespace Sys2Proof.Machine

variable {K : Scope} {F : List Nat} {X C : Option Nat} {n x : Nat} {s t : State} {tk : Ticket}

theorem Changes.ticketsRising (h : Changes s t) (hs : s.tickets.rising = true) : t.tickets.rising = true := by
  cases h with
  | lines h => exact h.tickets ▸ hs
  | records h => exact h.tickets hs
  | reset levels level => rfl
  | _ => exact hs

theorem Runs.ticketsRising (h : Runs s t) (hs : s.tickets.rising = true) : t.tickets.rising = true :=
  h.keeps (P := fun s => s.tickets.rising = true) (fun _ _ => Changes.ticketsRising) hs

/-! ## Offers (R94, R95) -/

theorem offer_shuffles (hk : ticket? s n = some tk) (hw : tk.Waits) : Shuffles s (offer n s).1 := by
  refine (offer_places n s).shuffles (offer_runs n s).ticketsRising fun m => ?_
  by_cases hm : m = n
  · subst hm
    obtain ⟨tk', hk', hst, e⟩ := offer_ticket s hk
    refine .inr ⟨tk, tk', hk, hk', hw, ?_, ?_⟩
    · rcases hst with h | h | h
      · exact .inr (.inr (.inl h))
      · exact .inr (.inr (.inr h))
      · exact .inr (.inl h)
    · rw [e]
  · exact .inl (offer_others s hm)

/-- A waiting ticket that has left its place is offered. -/
theorem Kept.offers (h : Kept K (n :: F) X C s) (hn : n ∉ F) (hk : ticket? s n = some tk) (hw : tk.Waits) :
    Kept K F X C (offer n s).1 := by
  refine ⟨?_, (offer_shuffles hk hw).books h.books⟩
  rcases offer_cases hk with ⟨x, -, hx, e⟩ | e <;> rw [e]
  · exact h.arranged.enters hn hk hx
  · exact h.arranged.blocks hn hk

/-- Waiting tickets that have left their places are offered one after another. -/
theorem Kept.offersAll (ns : List Nat) (h : Kept K (ns ++ F) X C s) (hd : ns.Nodup) (hF : ∀ n ∈ ns, n ∉ F)
    (hk : ∀ n ∈ ns, ∃ tk, ticket? s n = some tk ∧ tk.Waits) : Kept K F X C (offerAll ns s) := by
  induction ns generalizing s with
  | nil => exact h
  | cons n ns ih =>
    obtain ⟨fresh, hd⟩ := List.nodup_cons.mp hd
    obtain ⟨tk, hn, hw⟩ := hk n (List.mem_cons_self ..)
    have out : n ∉ ns ++ F := fun hm => (List.mem_append.mp hm).elim fresh (hF n (List.mem_cons_self ..))
    refine ih (h.offers out hn hw) hd (fun m hm => hF m (List.mem_cons_of_mem _ hm)) fun m hm => ?_
    have hmn : m ≠ n := fun e => fresh (e ▸ hm)
    rw [offer_others s hmn]
    exact hk m (List.mem_cons_of_mem _ hm)

/-! ## Drains (R97, R98) -/

theorem leaveBlocked_shuffles (x n : Nat) (s : State) : Shuffles s (leaveBlocked x n s) :=
  (leaveBlocked_places x n s).shuffles id fun _ => .inl rfl

/-- A ticket leaves a blocked list. -/
theorem Kept.leavesBlocked (h : Kept K F X C s) (hn : n ∈ (station s x).blocked) : Kept K (n :: F) X C (leaveBlocked x n s) := by
  refine ⟨⟨h.arranged.seated.leaves (p := .blocked) hn, fun hK => fits_updStation (h.arranged.fits hK) fun _ => ?_⟩,
    (leaveBlocked_shuffles x n s).books h.books⟩
  obtain ⟨positions, queue, full⟩ := h.arranged.fits hK x
  exact ⟨positions, queue, full⟩

theorem Kept.not_floating {p : Place} (h : Kept K F X C s) (hp : StandsAt s n p) : n ∉ F :=
  fun hF => h.arranged.seated.standing.floating n hF p hp

theorem Kept.drainsList {y : Nat} (fuel : Nat) (h : Kept K F X C s) : Kept K F X C (drainList fuel y s) := by
  induction fuel generalizing s with
  | zero => exact h
  | succ fuel ih =>
    unfold drainList
    split
    · exact h
    · rename_i n hf
      have hn := List.mem_of_find?_eq_some hf
      obtain ⟨tk, hk, names⟩ := h.arranged.seated.standing.told n (.station y .blocked) hn
      have offered := (h.leavesBlocked hn).offers (h.not_floating (p := .station y .blocked) hn) hk (.inr (.inl names.1))
      split
      · rename_i t x he
        rw [he] at offered
        exact ih offered
      · exact h

theorem Kept.drains (x : Nat) (h : Kept K F X C s) : Kept K F X C (drain x s) := by
  unfold drain
  generalize x :: stationsNaming s x = ys
  induction ys generalizing s with
  | nil => exact h
  | cons y ys ih => exact ih (h.drainsList _)

theorem Kept.drainsIf (departed : Bool) (x : Nat) (h : Kept K F X C s) : Kept K F X C (drainIf departed x s) := by
  unfold drainIf
  split
  · exact h.drains x
  · exact h

theorem Kept.drainsAfter (at? : Option Nat) (h : Kept K F X C s) : Kept K F X C (drainAfter at? s) := by
  cases at? with
  | none => exact h
  | some x => exact h.drains x

/-! ## The queue head moves up (R110) -/

/-- The controller fits its bounds but for a freed position, `i`. -/
structure Station.FitsBut (i : Nat) (st : Station) : Prop where
  positions : st.positions.length = (st.config.map StationConfig.positions).getD 0
  queue : (wholeQueue st).length ≤ (st.config.map StationConfig.queueLimit).getD 0
  full : wholeQueue st ≠ [] → ∀ j ≠ i, st.positions[j]? ≠ some none

/-- Where no more is asked for than the agreement of places and records. -/
theorem Standing.of_coherent (hK : ¬K.whole) (length : s.stations.length = 24) (told : Told s)
    (floating : ∀ n ∈ F, Unplaced s n) (calendar : s.calendar.Nodup) : Standing K F s :=
  ⟨length, told, floating, calendar, fun h => absurd h hK, fun h => absurd h hK, fun h => absurd h hK, fun h => absurd h hK⟩

theorem Seated.of_coherent (hK : ¬K.whole) (h : Standing K F s) : Seated K F s :=
  ⟨h, fun h => absurd h hK, fun h => absurd h hK, fun h => absurd (K.timed_whole h) hK⟩

theorem Arranged.of_coherent (hK : ¬K.whole) (h : Standing K F s) : Arranged K F s :=
  ⟨.of_coherent hK h, fun h => absurd (K.timed_whole h) hK⟩

theorem movedUp_class_sublist (n i : Nat) (st : Station) (b : Bool) : ((movedUp n i st).class b).Sublist (st.class b) := by
  cases b <;> exact List.filter_sublist

theorem movedUp_wholeQueue (n i : Nat) (st : Station) : (wholeQueue (movedUp n i st)).Sublist (wholeQueue st) :=
  (movedUp_class_sublist n i st true).append (movedUp_class_sublist n i st false)

theorem holds_movedUp_of_ne {st : Station} {i m : Nat} (hi : st.positions[i]? = some none) (hm : m ≠ n) (q : Spot) :
    q.Holds (movedUp n i st) m ↔ q.Holds st m := by
  refine ⟨fun hq => (holds_movedUp hq).elim (fun e => absurd e.1 hm) And.left, fun hq => ?_⟩
  cases q with
  | blocked => exact hq
  | queue =>
    simp only [Spot.Holds, movedUp, wholeQueue, List.mem_append, mem_removeNumber] at hq ⊢
    exact hq.imp (⟨·, hm⟩) (⟨·, hm⟩)
  | position j =>
    have hij : i ≠ j := by
      rintro rfl
      exact absurd (hi.symm.trans hq) (by simp)
    rw [Spot.Holds, movedUp, List.getElem?_set_ne hij]
    exact hq

theorem movedUp_fits {st : Station} {i : Nat} (h : st.FitsBut i) (hi : st.positions[i]? = some none) : (movedUp n i st).Fits := by
  have sub := movedUp_wholeQueue n i st
  refine ⟨(List.length_set ..).trans h.positions, sub.length_le.trans h.queue, fun hq hmem => ?_⟩
  obtain ⟨j, hj⟩ := List.mem_iff_getElem?.mp hmem
  have hlt : i < st.positions.length := (List.getElem?_eq_some_iff.mp hi).1
  by_cases hij : i = j
  · subst hij
    rw [movedUp, List.getElem?_set_self hlt] at hj
    cases hj
  · rw [movedUp, List.getElem?_set_ne hij] at hj
    exact h.full (fun e => hq (List.sublist_nil.mp (e ▸ sub))) j (Ne.symm hij) hj

/-- The head of the queue moves up into a position that has been freed. -/
theorem Seated.movesHead {i : Nat} (h : Seated K F s) (hx : K.whole → x < 24)
    (hi : K.whole → (station s x).positions[i]? = some none)
    (hf : K.timed → (∀ y ≠ x, (station s y).Fits) ∧ (station s x).FitsBut i) : Arranged K F (moveHead x i s).1 := by
  have standing := h.standing
  have carried := moveHead_carries x i standing.told
  by_cases hK : K.whole
  swap
  · refine .of_coherent hK (.of_coherent hK ?_ carried.told (fun n hn => carried.unplaced n (standing.floating n hn)) ?_)
    · exact (moveHead_places x i s).length.trans standing.length
    · exact (moveHead_places x i s).calendar ▸ standing.calendar
  replace hx := hx hK
  replace hi := hi hK
  have lt : x < s.stations.length := standing.length ▸ hx
  unfold moveHead at carried ⊢
  split
  · rename_i hq
    refine ⟨h, fun hK y => ?_⟩
    obtain ⟨others, positions, queue, full⟩ := hf hK
    by_cases hy : y = x
    · rw [hy]
      exact ⟨positions, queue, fun hne => absurd hq hne⟩
    · exact others y hy
  · rename_i n ns hq
    have queued : StandsAt s n (.station x .queue) := by simp [StandsAt, Spot.Holds, hq]
    obtain ⟨tk, hk, names⟩ := standing.told n _ queued
    have only : ∀ p, StandsAt s n p → p = .station x .queue := fun p hp => (standing.told.names hk hp).unique names
    let u := updStation x (movedUp n i) s
    let v := updTicket n (fun tk => { tk with state := .onLine, position := some i }) u
    have record : ticket? v n = some { tk with state := .onLine, position := some i } := by
      rw [ticket_get_updTicket, if_pos rfl, updStation_ticket_get, hk, Option.map_some]
    have moves : MovesOnly n s u := .ofStation (fun m hm q => holds_movedUp_of_ne hi hm q)
      fun b m _ hb => (movedUp_class_sublist n i _ b).subset hb
    have recordOnly : RecordOnly n u v := RecordOnly.updTicket n _ u
    have there : StandsAt v n (.station x (.position i)) := by
      refine (recordOnly.standsAt n _).mpr ?_
      rw [StandsAt, station_updStation, if_pos ⟨rfl, lt⟩]
      exact List.getElem?_set_self (List.getElem?_eq_some_iff.mp hi).1
    have seat : ∀ p, StandsAt v n p → p = .station x (.position i) := by
      intro p hp
      have hp : StandsAt u n p := (recordOnly.standsAt n p).mp hp
      rcases standsAt_updStation hp with ⟨hp, hne⟩ | ⟨q, rfl, hq⟩
      · exact absurd (only p hp) (hne _)
      · rcases holds_movedUp hq with ⟨-, rfl⟩ | ⟨hq, hne⟩
        · rfl
        · exact absurd (Place.station.inj (only (.station x q) hq)).2 (hne rfl)
    have blocked : ∀ y, (station v y).blocked = (station s y).blocked := by
      intro y
      change (station u y).blocked = _
      rw [station_updStation]
      split <;> rfl
    have thins : Thins s v := by
      refine ⟨rfl, rfl, rfl, .refl _, fun y => by rw [blocked], fun m hm => ?_, fun y m hm => ?_⟩
      · refine (recordOnly.others m fun e => ?_).trans rfl
        exact absurd (only .calendar (e ▸ hm)) (by simp)
      · refine (recordOnly.others m fun e => ?_).trans rfl
        rw [blocked] at hm
        exact absurd (only (.station y .blocked) (e ▸ hm)) (by simp)
    have seated : Seated K F v := by
      refine thins.seated h (standing.moved (moves.trans recordOnly.moves) standing.calendar (fun hK y => ?_) (fun _ _ => Iff.rfl)
        ⟨fun p hp => ⟨_, record, seat p hp ▸ ⟨rfl, names.2, rfl⟩⟩, fun hF => absurd queued (standing.floating n hF _),
          fun hK tk' hk' => ?_, fun _ _ _ _ _ => ⟨_, there⟩, fun hK y b hb tk' hk' => ?_⟩)
      · exact station_updStation_wholeQueue ((standing.queues hK x).sublist (movedUp_wholeQueue n i _)) (standing.queues hK y)
      · obtain rfl := Option.some.inj (record.symm.trans hk')
        exact standing.homes hK n tk hk
      · exact absurd (seat (.station y .queue) (mem_wholeQueue.mpr ⟨b, hb⟩)) (by simp)
    refine (sendRecord_only _ _ _).still.arranged ⟨seated, fun hK y => ?_⟩
    obtain ⟨others, fitsBut⟩ := hf hK
    change (station u y).Fits
    rw [station_updStation]
    by_cases hy : y = x
    · rw [if_pos ⟨hy, lt⟩, hy]
      exact movedUp_fits fitsBut hi
    · rw [if_neg fun e => hy e.1]
      exact others y hy

/-! ## Leaving a station (R110, R111) -/

/-- A ticket leaves the spot that its record names, where it stands. -/
theorem Seated.frees {p : Spot} (h : Seated K F s) (hn : n ∉ F) (hk : ticket? s n = some tk) (names : Names tk (.station x p)) :
    Seated K (n :: F) (updStation x (p.freed n) s) := by
  by_cases hp : StandsAt s n (.station x p)
  · exact h.leaves hp
  have only : ∀ q, StandsAt s n q → q = .station x p := fun q hq => (h.standing.told.names hk hq).unique names
  have waits : tk.Waits := by
    cases p with
    | blocked => exact .inr (.inl names.1)
    | queue => exact .inr (.inr (.inl names.1))
    | position i => exact .inr (.inr (.inr names.1))
  have hK : ¬K.whole := fun hK => by
    obtain ⟨q, hq⟩ := h.standing.waits hK n tk hk waits hn
    exact hp (only q hq ▸ hq)
  have unplaced := freed_unplaced only
  have moves := freed_moves n x p s
  refine .of_coherent hK (.of_coherent hK ((updStation_stations_length ..).trans h.standing.length)
    ((moves.toldBut (h.standing.told.but n)).told_of_unplaced unplaced) (fun m hm => ?_) h.standing.calendar)
  rcases List.mem_cons.mp hm with rfl | hm
  · exact unplaced
  · by_cases hmn : m = n
    · exact hmn ▸ unplaced
    · exact fun q hq => h.standing.floating m hm q (moves.places m hmn q hq)

theorem Station.Fits.freed_queue {st : Station} (h : st.Fits) (n : Nat) : (Spot.queue.freed n st).Fits := by
  have sub := Spot.freed_wholeQueue n .queue st
  exact ⟨h.positions, sub.length_le.trans h.queue, fun hq => h.full fun e => hq (List.sublist_nil.mp (e ▸ sub))⟩

theorem Station.Fits.freed_position {st : Station} (h : st.Fits) (n i : Nat) : ((Spot.position i).freed n st).FitsBut i := by
  refine ⟨(List.length_set ..).trans h.positions, h.queue, fun hq j hj hmem => h.full hq (List.mem_of_getElem? (i := j) ?_)⟩
  rwa [Spot.freed, List.getElem?_set_ne (Ne.symm hj)] at hmem

theorem Still.fitsBut {i : Nat} (h : Still s t) (k : (station s x).FitsBut i) : (station t x).FitsBut i where
  positions := by rw [h.positions, h.config, k.positions]
  queue := by rw [h.wholeQueue, h.config]; exact k.queue
  full hq := by rw [h.positions]; exact k.full (h.wholeQueue x ▸ hq)

/-- A ticket at a station leaves it; its record at `u` may be another by now. -/
theorem Arranged.leavesStation {u : State} (r : LineRecord) (hst : tk.state = .queued ∨ tk.state = .onLine)
    (hs : ∀ p : Spot, Names tk (.station tk.station p) → Seated K F (updStation tk.station (p.freed n) u))
    (hno : tk.state = .onLine → tk.position = none → Arranged K F u) (hf : K.timed → ∀ y, (station u y).Fits)
    (hx : K.whole → tk.station < u.stations.length ∧ u.stations.length = 24)
    (hpos : K.whole → ∀ i, tk.state = .onLine → tk.position = some i → i < (station u tk.station).positions.length) :
    Arranged K F (leaveStation n tk r u).1 := by
  unfold leaveStation
  split
  · rename_i hq
    refine (sendRecord_only _ _ _).still.arranged ⟨hs .queue ⟨hq, rfl⟩, fun hK => ?_⟩
    exact fits_updStation (hf hK) fun _ => (hf hK _).freed_queue n
  · rename_i i ho hp
    have still := (sendRecord_only (.station tk.station) r (updStation tk.station (Spot.freed n (.position i)) u)).still
    have here : tk.station < u.stations.length → station (updStation tk.station (Spot.freed n (.position i)) u) tk.station
        = Spot.freed n (.position i) (station u tk.station) := fun hlt => by rw [station_updStation, if_pos ⟨rfl, hlt⟩]
    refine (still.seated (hs (.position i) ⟨ho, rfl, hp⟩)).movesHead (fun hK => (hx hK).2 ▸ (hx hK).1) (fun hK => ?_)
      fun hK => ⟨fun y hy => still.fits ?_, still.fitsBut ?_⟩
    · rw [still.positions, here (hx hK).1]
      exact List.getElem?_set_self (hpos hK i ho hp)
    · rw [station_updStation, if_neg fun e => hy e.1]
      exact hf hK y
    · rw [here (hx (K.timed_whole hK)).1]
      exact (hf hK _).freed_position n i
  · rename_i hq hp
    rcases hst with e | e
    · exact absurd e hq
    · cases hpos' : tk.position with
      | none => exact hno e hpos'
      | some i => exact absurd hpos' (hp i e)

/-- What leaving a station does to the records, places told. -/
theorem leaveStation_shuffles (r : LineRecord) (h : ToldBut n s) (hn : ∀ p, StandsAt s n p → Names tk p)
    (hst : tk.state = .queued ∨ tk.state = .onLine) : Shuffles s (leaveStation n tk r s).1 := by
  obtain ⟨carried, -⟩ := leaveStation_carries r h hn hst
  refine (leaveStation_places n tk r s).shuffles (leaveStation_runs n tk r s).ticketsRising fun m => ?_
  rcases carried.tickets m with e | ⟨o, o', ho, ho', hs⟩
  · exact .inl e
  · exact .inr ⟨o, o', ho, ho', hs.reseats⟩

/-- A ticket at a station leaves it, its record as it was. -/
theorem Kept.leavesStation (h : Kept K F X C s) (hn : n ∉ F) (hk : ticket? s n = some tk)
    (hst : tk.state = .queued ∨ tk.state = .onLine) (r : LineRecord) : Kept K (n :: F) X C (leaveStation n tk r s).1 := by
  have standing := h.arranged.seated.standing
  have waits : tk.Waits := hst.elim (fun e => .inr (.inr (.inl e))) fun e => .inr (.inr (.inr e))
  have stands : K.whole → ∃ p : Spot, StandsAt s n (.station tk.station p) ∧ Names tk (.station tk.station p) := by
    intro hK
    obtain ⟨p, hp⟩ := standing.waits hK n tk hk waits hn
    have names := standing.told.names hk hp
    rcases p with _ | ⟨x, _ | _ | i⟩
    · rcases hst with e | e <;> exact absurd (e.symm.trans names) (by simp)
    · rcases hst with e | e <;> exact absurd (e.symm.trans names.1) (by simp)
    · exact ⟨.queue, names.2 ▸ hp, names.1, rfl⟩
    · exact ⟨.position i, names.2.1 ▸ hp, names.1, rfl, names.2.2⟩
  refine ⟨Arranged.leavesStation r hst (fun p => h.arranged.seated.frees hn hk) (fun ho hp => ?_) h.arranged.fits (fun hK => ?_)
    fun hK i ho hp => ?_, (leaveStation_shuffles r (standing.told.but n) (fun p => standing.told.names hk) hst).books h.books⟩
  · have unplaced : Unplaced s n := fun p hp' => by
      have names := standing.told.names hk hp'
      rcases p with _ | ⟨x, _ | _ | i⟩
      · exact absurd (ho.symm.trans names) (by simp)
      · exact absurd (ho.symm.trans names.1) (by simp)
      · exact absurd (ho.symm.trans names.1) (by simp)
      · exact absurd (hp.symm.trans names.2.2) (by simp)
    have hK : ¬K.whole := fun hK => by
      obtain ⟨p, hp, -⟩ := stands hK
      exact unplaced _ hp
    refine .of_coherent hK (.of_coherent hK standing.length standing.told (fun m hm => ?_) standing.calendar)
    rcases List.mem_cons.mp hm with rfl | hm
    · exact unplaced
    · exact standing.floating m hm
  · obtain ⟨p, hp, -⟩ := stands hK
    exact ⟨hp.lt_length, standing.length⟩
  · obtain ⟨p, hp', names⟩ := stands hK
    have hp' : StandsAt s n (.station tk.station (.position i)) := by
      have named : Names tk (.station tk.station (.position i)) := ⟨ho, rfl, hp⟩
      rwa [← names.unique named]
    exact (List.getElem?_eq_some_iff.mp hp').1

end Sys2Proof.Machine
end


section
/-!
PROOFS. Re-timing, the fire expiry, changes of load state and of presence keep the invariant (R74, R75, R90, R124, R125, R131 to R136, R143).
-/

namespace Sys2Proof.Machine

variable {K K' : Scope} {F : List Nat} {X C : Option Nat} {n x : Nat} {s t u : State} {tk : Ticket}

/-! ## Scopes -/

theorem Standing.scope (h : Standing K F s) (hw : K'.whole → K.whole) : Standing K' F s :=
  ⟨h.length, h.told, h.floating, h.calendar, fun k => h.homes (hw k), fun k => h.waits (hw k), fun k => h.queues (hw k),
    fun k => h.classes (hw k)⟩

/-- The invariant of one scope is that of another that asks for no more. -/
theorem Kept.scope (h : Kept K F X C s) (hw : K'.whole → K.whole) (ht : K'.timed → K.timed)
    (ahead : K'.timed → Ahead K.lead s → Ahead K'.lead s) : Kept K' F X C s where
  arranged := ⟨⟨h.arranged.seated.standing.scope hw, fun k => h.arranged.seated.order (hw k), fun k => h.arranged.seated.menu (hw k),
    fun k => ahead k (h.arranged.seated.ahead (ht k))⟩, fun k => h.arranged.fits (ht k)⟩
  books := ⟨fun k => h.books.numbered (ht k), ⟨h.books.grouped.tickets, h.books.grouped.groups, h.books.grouped.listed,
    h.books.grouped.complete, fun k => h.books.grouped.dies (ht k), fun k => h.books.grouped.same (ht k)⟩, fun k => h.books.counts (hw k)⟩

theorem Ahead.mono {i j : Nat} (h : Ahead j s) (hij : i ≤ j) : Ahead i s := fun n hn =>
  (h n hn).imp id fun ⟨tk, hk, hf⟩ => ⟨tk, hk, by omega⟩

/-- What holds once the fire expiry has been taken holds as well where it is still to come. -/
theorem Kept.unfired (h : Kept K.fired F X C s) : Kept K F X C s :=
  h.scope id id fun _ ahead => ahead.mono K.lead_le

/-! ## Re-timing (R74, R75) -/

/-- CALENDARED tickets take other fire times, the calendar its new order, and those of `due` leave it. -/
theorem Kept.recalendars {due : List Nat} (h : Kept K F X C s) (rest : u = { s with tickets := u.tickets, calendar := u.calendar })
    (rising : s.tickets.rising = true → u.tickets.rising = true)
    (tickets : ∀ n, ticket? u n = ticket? s n
      ∨ n ∈ s.calendar ∧ ∃ o f, ticket? s n = some o ∧ ticket? u n = some { o with fireTime := f })
    (hd : ∀ n ∈ due, n ∈ s.calendar) (mem : ∀ n, n ∈ u.calendar ↔ n ∈ s.calendar ∧ n ∉ due) (nodup : u.calendar.Nodup)
    (sorted : K.whole → u.calendar.Pairwise (FiresAhead u)) (ahead : K.timed → Ahead K.lead u) : Kept K (due ++ F) X C u := by
  have standing := h.arranged.seated.standing
  have stations : ∀ y, station u y = station s y := fun y => by rw [rest]; rfl
  have places : ∀ m p, StandsAt u m p → StandsAt s m p := fun m p hp => by
    cases p with
    | calendar => exact ((mem m).mp hp).1
    | station y q =>
      rw [StandsAt, stations] at hp
      exact hp
  have record : ∀ m tk, ticket? u m = some tk → ∃ o, ticket? s m = some o ∧ tk = { o with fireTime := tk.fireTime } := by
    intro m tk hk
    rcases tickets m with e | ⟨-, o, f, ho, hu⟩
    · exact ⟨tk, e ▸ hk, rfl⟩
    · obtain rfl := Option.some.inj (hu.symm.trans hk)
      exact ⟨o, ho, rfl⟩
  have live : ∀ m o, ticket? s m = some o → ∃ f, ticket? u m = some { o with fireTime := f } := by
    intro m o ho
    rcases tickets m with e | ⟨-, o', f, ho', hu⟩
    · exact ⟨o.fireTime, e.trans ho⟩
    · obtain rfl := Option.some.inj (ho.symm.trans ho')
      exact ⟨f, hu⟩
  have waits : ∀ m tk, ticket? u m = some tk → tk.Waits → ∃ o, ticket? s m = some o ∧ o.Waits := by
    intro m tk hk hw
    obtain ⟨o, ho, e⟩ := record m tk hk
    rw [e] at hw
    exact ⟨o, ho, hw⟩
  have seats : ∀ m, m ∉ due → ∀ p, StandsAt s m p → StandsAt u m p := fun m hm p hp => by
    cases p with
    | calendar => exact (mem m).mpr ⟨hp, hm⟩
    | station y q => rw [StandsAt, stations]; exact hp
  have told : Told u := fun m p hp => by
    obtain ⟨o, ho, names⟩ := standing.told m p (places m p hp)
    obtain ⟨f, hf⟩ := live m o ho
    exact ⟨_, hf, by rcases p with _ | ⟨y, _ | _ | i⟩ <;> exact names⟩
  have seated : Standing K (due ++ F) u := by
    refine ⟨by rw [rest]; exact standing.length, told, fun m hm p hp => ?_, nodup, fun hK m tk hk => ?_, fun hK m tk hk hw hm => ?_,
      fun hK y => by rw [stations]; exact standing.queues hK y, fun hK y b m hm tk hk => ?_⟩
    · rcases List.mem_append.mp hm with hm | hm
      · obtain ⟨o, ho, names⟩ := standing.told m .calendar (hd m hm)
        obtain rfl := (standing.told.names ho (places m p hp)).unique names
        exact ((mem m).mp hp).2 hm
      · exact standing.floating m hm p (places m p hp)
    · obtain ⟨o, ho, e⟩ := record m tk hk
      rw [e]
      exact standing.homes hK m o ho
    · obtain ⟨o, ho, hw⟩ := waits m tk hk hw
      rw [List.mem_append, not_or] at hm
      exact (standing.waits hK m o ho hw hm.2).imp (seats m hm.1)
    · obtain ⟨o, ho, e⟩ := record m tk hk
      rw [e]
      exact standing.classes hK y b m (stations y ▸ hm) o ho
  have blockedSame : ∀ y, ∀ m ∈ (station s y).blocked, ticket? u m = ticket? s m := fun y m hm => by
    refine (tickets m).resolve_right fun ⟨hc, o, f, ho, _⟩ => ?_
    exact absurd ((standing.told.names ho (p := .calendar) hc).unique (standing.told.names ho (p := .station y .blocked) hm)) (by simp)
  refine ⟨⟨⟨seated, fun hK => ⟨sorted hK, fun y => ?_⟩, fun hK => ?_, ahead⟩, fun hK y => ?_⟩, Shuffles.books ?_ h.books⟩
  · rw [stations]
    exact ((h.arranged.seated.order hK).blocked y).imp_of_mem fun hm hn hmn =>
      (blockedAhead_congr (blockedSame y _ hm) (blockedSame y _ hn)).mpr hmn
  · rw [rest]
    exact h.arranged.seated.menu hK
  · rw [stations]
    exact h.arranged.fits hK y
  · refine ⟨?_, ?_, ?_, ?_, ?_, ?_, ?_, fun y => ?_, fun c => ?_, rising, fun m => (tickets m).imp id fun ⟨hc, o, f, ho, hu⟩ => ?_⟩
    case refine_10 =>
      have calendared : o.state = .calendared := standing.told.names ho (p := .calendar) hc
      exact ⟨o, _, ho, hu, .inl calendared, .inl calendared, rfl⟩
    all_goals rw [rest]
    all_goals rfl

theorem mem_calendaredAt : n ∈ calendaredAt s x ↔ n ∈ s.calendar ∧ (ticket? s n).map Ticket.station = some x := by
  rw [calendaredAt, List.mem_filter, decide_eq_true_eq]

theorem refreshAll_rising (x : Nat) (ts : List Nat) (s : State) (h : s.tickets.rising = true) :
    (ts.foldl (fun s t => refreshFireTime x t s) s).tickets.rising = true :=
  (Runs.foldl _ (fun s t => refreshFireTime_runs x t s) ts s).ticketsRising h

/-- The re-timing of a station. -/
theorem Kept.retimes (x : Nat) (h : Kept K F X C s) : Kept K F X C (retime x s).1 := by
  have standing := h.arranged.seated.standing
  unfold retime
  dsimp only
  obtain ⟨rest, mapped⟩ := refreshAll_spec x (calendaredAt s x) s
  have rising := refreshAll_rising x (calendaredAt s x) s
  rw [rest] at rising ⊢
  generalize ((calendaredAt s x).foldl (fun s t => refreshFireTime x t s) s).tickets = ts at rest rising ⊢
  rw [rest] at mapped
  set v : State := { s with tickets := ts } with hv
  set w : State := { v with calendar := sortBefore (calendarBefore v) v.calendar } with hw
  set due := (calendaredAt w x).filter fun t => isDue w t && !isFrozen w t with hdue
  have inCalendar : ∀ n, n ∈ w.calendar ↔ n ∈ s.calendar := fun n => mem_sortBefore
  have dueIn : ∀ n ∈ due, n ∈ s.calendar := fun n hn =>
    (inCalendar n).mp (mem_calendaredAt.mp (List.mem_of_mem_filter hn)).1
  have dueNodup : due.Nodup := by
    refine List.Nodup.filter _ (List.Nodup.filter _ ?_)
    exact (sortBefore_perm _ _).nodup_iff.mpr standing.calendar
  have liveAt : ∀ n ∈ s.calendar, ∃ o, ticket? s n = some o ∧ o.state = .calendared := fun n hn => standing.told n .calendar hn
  rw [leaveAll_spec]
  set u : State := { w with calendar := w.calendar.filter fun n => decide (n ∉ due) } with hu
  have tickets : ∀ n, ticket? u n = ticket? s n
      ∨ n ∈ s.calendar ∧ ∃ o f, ticket? s n = some o ∧ ticket? u n = some { o with fireTime := f } := fun n => by
    have e : ticket? u n = _ := mapped n
    by_cases hn : n ∈ calendaredAt s x
    · obtain ⟨hc, -⟩ := mem_calendaredAt.mp hn
      obtain ⟨o, ho, -⟩ := liveAt n hc
      rw [ho, Option.map_some, if_pos hn] at e
      exact .inr ⟨hc, o, _, ho, e⟩
    · left
      rw [e]
      simp [hn]
  have sorted : u.calendar.Pairwise (FiresAhead u) := by
    refine (sortBefore_calendar (s := v) standing.calendar fun n hn => ?_).sublist List.filter_sublist
    obtain ⟨o, ho, -⟩ := liveAt n hn
    rw [mapped, ho]
    rfl
  have ahead : K.timed → Ahead K.lead u := fun hK n hn => by
    obtain ⟨hc, hnd⟩ := List.mem_filter.mp hn
    have hc := (inCalendar n).mp hc
    by_cases hx : n ∈ calendaredAt s x
    · have wx : n ∈ calendaredAt w x := by
        obtain ⟨o, ho, -⟩ := liveAt n hc
        refine mem_calendaredAt.mpr ⟨(inCalendar n).mpr hc, ?_⟩
        have hst := (mem_calendaredAt.mp hx).2
        change (ticket? v n).map Ticket.station = some x
        rw [mapped, ho, Option.map_some, if_pos hx]
        simpa [ho] using hst
      have notDue : ¬(isDue w n && !isFrozen w n) = true := fun e => (of_decide_eq_true hnd) (List.mem_filter.mpr ⟨wx, e⟩)
      obtain ⟨o, ho, -⟩ := liveAt n hc
      have now : ticket? w n = some { o with fireTime := fireTimeAt s x o.component o.goTime } := by
        change ticket? v n = _
        rw [mapped, ho, Option.map_some, if_pos hx]
      by_cases hf : isFrozen w n = true
      · left
        exact (isFrozen_iff w n).mp hf
      · right
        refine ⟨_, now, ?_⟩
        simp only [isDue, now, hf, Bool.not_false, Bool.and_true, decide_eq_true_eq, Int.not_le] at notDue
        have := K.lead_le
        change (w.clock : Int) + K.lead ≤ fireTimeAt s x o.component o.goTime
        omega
    · have same : ticket? u n = ticket? s n := by
        have e : ticket? u n = _ := mapped n
        rw [e]
        simp [hx]
      rw [Frozen, same]
      exact h.arranged.seated.ahead hK n hc
  have kept : Kept K (due ++ F) X C u := h.recalendars rfl rising tickets dueIn
    (fun n => by rw [hu]; simp only [List.mem_filter, decide_eq_true_eq, inCalendar])
    (((sortBefore_perm _ _).nodup_iff.mpr standing.calendar).filter _) (fun _ => sorted) ahead
  refine kept.offersAll due dueNodup (fun n hn hF => standing.floating n hF .calendar (dueIn n hn)) fun n hn => ?_
  obtain ⟨o, ho, hst⟩ := liveAt n (dueIn n hn)
  rcases tickets n with e | ⟨-, o', f, ho', hu⟩
  · exact ⟨o, e.trans ho, .inl hst⟩
  · obtain rfl := Option.some.inj (ho.symm.trans ho')
    exact ⟨_, hu, .inl hst⟩

/-! ## Changes of controllers and lines that no place knows of -/

theorem Kept.controller (f : Station → Station) (h : Kept K F X C s)
    (hf : ∀ st, f st = { st with load := (f st).load, line := (f st).line }) : Kept K F X C (updStation x f s) := by
  have same : ∀ y, station (updStation x f s) y = { station s y with
      load := (station (updStation x f s) y).load, line := (station (updStation x f s) y).line } := by
    intro y
    rw [station_updStation]
    split
    · exact hf _
    · rfl
  refine ⟨Still.arranged (s := s) ?_ h.arranged, Shuffles.books (s := s) ?_ h.books⟩
  · refine ⟨rfl, rfl, rfl, rfl, updStation_stations_length .., ?_, ?_, ?_, ?_, ?_, fun _ => rfl⟩ <;> intro y <;> rw [same]
  · exact ⟨rfl, rfl, rfl, rfl, rfl, rfl, rfl, fun _ => rfl, fun _ => rfl, id, fun _ => .inl rfl⟩

theorem Kept.line (l : LineId) (f : Line → Line) (h : Kept K F X C s) : Kept K F X C (updLine l f s) := by
  cases l with
  | station x => exact h.controller _ fun _ => rfl
  | pass => exact h.aside rfl rfl

/-! ## The load monitor (R131 to R136, R143) -/

/-- A change of load state, carried through. -/
theorem Kept.changesLoad (x : Nat) (after : LoadState) (h : Kept K F X C s) : Kept K F X C (changeLoad x after s).1 := by
  have changed : Kept K F X C (updStation x (fun st => { st with load := { st.load with state := after } }) s) :=
    h.controller _ fun _ => rfl
  have retimed : ∀ {u : State} (b : Bool), Kept K F X C u → Kept K F X C (if b then retime x u else (u, 0, 0)).1 := fun b hu => by
    cases b
    · exact hu
    · exact hu.retimes x
  have drained : ∀ {u : State} (b : LoadState), Kept K F X C u → Kept K F X C (if b = .tripped then drain x u else u) := fun b hu => by
    split
    · exact hu.drains x
    · exact hu
  unfold changeLoad
  dsimp only
  have first := retimed (stretchChanges (station s x).load.state after) changed
  exact ((drained (station s x).load.state first).lines (sendRecord_only _ _ _)).notice _

theorem Kept.samples (x : Nat) (h : Kept K F X C s) : Kept K F X C (loadSample x s) := by
  unfold loadSample
  split
  · exact h
  · split
    · have sampled : ∀ l : LoadRecord, Kept K F X C (updStation x (fun st =>
          { st with load := { st.load with accumulator := l.accumulator, nextSample := l.nextSample } }) s) := fun l =>
        h.controller _ fun _ => rfl
      dsimp only
      split
      · exact sampled { accumulator := _, nextSample := _ }
      · exact (sampled { accumulator := _, nextSample := _ }).changesLoad x _
    · exact h

theorem Kept.endsLoad (x : Nat) (h : Kept K F X C s) : Kept K F X C (endLoad x s) := by
  have ended : Kept K F X C (updStation x (fun st =>
      { st with load := { st.load with accumulator := 0, nextSample := none } }) s) := h.controller _ fun _ => rfl
  unfold endLoad
  dsimp only
  split
  · exact ended
  · exact ended.changesLoad x _

/-! ## Presence (R124, R125) -/

theorem Kept.falls (x : Nat) (h : Kept K F X C s) : Kept K F X C (presenceFalls x s) := by
  unfold presenceFalls
  split
  · have fallen : Kept K F X C (lineFalls (.station x) s) := h.line (.station x) _
    dsimp only
    split
    · exact fallen.notice _
    · exact fallen
  · exact h

theorem Kept.rises (x : Nat) (h : Kept K F X C s) : Kept K F X C (presenceRises x s) := by
  unfold presenceRises
  split
  · have risen : Kept K F X C (lineRises (.station x) s) := h.line (.station x) _
    dsimp only
    split
    · exact ((risen.lines (askRefresh_only _ _)).drains x).notice _
    · exact risen
  · exact h

/-! ## The fire expiry (R90) -/

/-- Tickets of the calendar leave it and are offered, one after another. -/
theorem Kept.fires (ns : List Nat) (h : Kept K F X C s) (hd : ns.Nodup) (hn : ∀ n ∈ ns, n ∈ s.calendar) :
    let t := ns.foldl (fun s t => (offer t (leaveCalendar t s)).1) s
    Kept K F X C t ∧ t.clock = s.clock ∧ t.frozen = s.frozen
      ∧ ∀ m ∈ t.calendar, m ∈ s.calendar ∧ m ∉ ns ∧ ticket? t m = ticket? s m := by
  induction ns generalizing s with
  | nil => exact ⟨h, rfl, rfl, fun m hm => ⟨hm, by simp, rfl⟩⟩
  | cons n ns ih =>
    obtain ⟨fresh, hd⟩ := List.nodup_cons.mp hd
    have hc := hn n (List.mem_cons_self ..)
    obtain ⟨tk, hk, names⟩ := h.arranged.seated.standing.told n .calendar hc
    have left : Kept K (n :: F) X C (leaveCalendar n s) :=
      ⟨⟨h.arranged.seated.leavesCalendar hc, h.arranged.fits⟩, Shuffles.books (s := s)
        ⟨rfl, rfl, rfl, rfl, rfl, rfl, rfl, fun _ => rfl, fun _ => rfl, id, fun _ => .inl rfl⟩ h.books⟩
    have offered := left.offers (h.not_floating (p := .calendar) hc) (tk := tk) hk (.inl names)
    have places := offer_places n (leaveCalendar n s)
    obtain ⟨kept, clock, frozen, rest⟩ := ih offered hd fun m hm => by
      rw [places.calendar]
      exact mem_removeNumber.mpr ⟨hn m (List.mem_cons_of_mem _ hm), fun e => fresh (e ▸ hm)⟩
    refine ⟨kept, clock.trans places.clock, frozen.trans places.frozen, fun m hm => ?_⟩
    obtain ⟨inCalendar, out, same⟩ := rest m hm
    rw [places.calendar] at inCalendar
    obtain ⟨inCalendar, hne⟩ := mem_removeNumber.mp inCalendar
    exact ⟨inCalendar, fun hm => (List.mem_cons.mp hm).elim hne out, same.trans (offer_others _ hne)⟩

theorem Kept.fireExpires (h : Kept K F X C s) : Kept K.fired F X C (fireExpiry s) := by
  obtain ⟨kept, clock, frozen, rest⟩ := h.fires (expiring s) (h.arranged.seated.standing.calendar.filter _)
    fun n hn => List.mem_of_mem_filter hn
  unfold fireExpiry
  refine kept.scope id id fun hK _ n hn => ?_
  obtain ⟨inCalendar, out, same⟩ := rest n hn
  rw [Frozen, same, frozen, clock]
  by_cases hf : isFrozen s n = true
  · exact .inl ((isFrozen_iff s n).mp hf)
  · refine .inr ?_
    obtain ⟨tk, hk, late⟩ := (h.arranged.seated.ahead hK n inCalendar).resolve_left fun e => hf ((isFrozen_iff s n).mpr e)
    have notNow : tk.fireTime ≠ (s.clock : Int) := fun e => out (List.mem_filter.mpr ⟨inCalendar, by
      simp [Option.mem_def.mp hk, e, hf]⟩)
    refine ⟨tk, hk, ?_⟩
    change (s.clock : Int) + (1 : Nat) ≤ tk.fireTime
    omega

end Sys2Proof.Machine
end


section
/-!
PROOFS. Changes of one group and of its tickets' records keep the invariant of the records (R87, R145 to R154).
-/

namespace Sys2Proof.Machine

variable {K : Scope} {F : List Nat} {X C : Option Nat} {g n m : Nat} {s t : State} {tk : Ticket}

/-! ## Changes at one group -/

theorem dieTime_congr (ht : ticket? t n = ticket? s n) (hh : ∀ c, holdWindow t c = holdWindow s c) : dieTime t n = dieTime s n := by
  simp only [dieTime, ht, hh]

/-- Nothing but group `g` and its tickets has changed among the groups and tickets. -/
structure GroupOnly (g : Nat) (s t : State) : Prop where
  groups : ∀ h ≠ g, group? t h = group? s h
  kept : ∀ n tk, ticket? s n = some tk → tk.group ≠ g → ticket? t n = some tk
  back : ∀ n tk, ticket? t n = some tk → tk.group ≠ g → ticket? s n = some tk
  holds : ∀ c, holdWindow t c = holdWindow s c

theorem Grouped.regrouped (h : Grouped K X s) (k : GroupOnly g s t) (tickets : t.tickets.rising = true)
    (groups : t.groups.rising = true) (listed : Listed t)
    (complete : X ≠ some g → ∀ gr, group? t g = some gr → Complete t gr)
    (dies : K.timed → X ≠ some g → ∀ gr, group? t g = some gr → DiesTrue t gr)
    (same : K.timed → ∀ n tk, ticket? t n = some tk → tk.group = g → ∀ gr, group? t g = some gr →
      tk.wave = gr.wave ∧ tk.table = gr.table ∧ tk.goTime = gr.goTime) : Grouped K X t := by
  have member : ∀ h ≠ g, ∀ gr, group? s h = some gr → ∀ n ∈ gr.tickets, ticket? t n = ticket? s n := by
    intro l hl gr hg n hn
    obtain ⟨tk, hk, hgo⟩ := Option.map_eq_some_iff.mp (h.listed.members l gr hg n hn)
    rw [hk]
    exact k.kept n tk hk (hgo ▸ hl)
  refine ⟨tickets, groups, listed, fun l gr hl hX => ?_, fun hK l gr hl hX => ?_, fun hK n tk hk gr hg => ?_⟩
  · by_cases hlg : l = g
    · subst hlg
      exact complete hX gr hl
    · have hs := (k.groups l hlg).symm.trans hl
      intro hst
      obtain ⟨none', states⟩ := h.complete l gr hs hX hst
      refine ⟨none', fun n hn => ?_⟩
      rw [InState, InState, member l hlg gr hs n hn]
      exact states n hn
  · by_cases hlg : l = g
    · subst hlg
      exact dies hK hX gr hl
    · have hs := (k.groups l hlg).symm.trans hl
      obtain ⟨served, assembling, others⟩ := h.dies hK l gr hs hX
      refine ⟨fun hst => ?_, fun hst => earliestDie_of_dieTime (fun n hn => ?_) (assembling hst), others⟩
      · obtain ⟨n, hn, ready⟩ := served hst
        exact ⟨n, hn, by rw [InState, member l hlg gr hs n hn]; exact ready⟩
      · exact dieTime_congr (member l hlg gr hs n hn) k.holds
  · by_cases hlg : tk.group = g
    · exact same hK n tk hk hlg gr (hlg ▸ hg)
    · exact h.same hK n tk (k.back n tk hk hlg) gr ((k.groups _ hlg).symm.trans hg)

theorem Listed.congr (h : Listed s) (tickets : ∀ n, (ticket? t n).map Ticket.group = (ticket? s n).map Ticket.group)
    (groups : ∀ g, (group? t g).map Group.tickets = (group? s g).map Group.tickets) : Listed t := by
  have back : ∀ g gr, group? t g = some gr → ∃ o, group? s g = some o ∧ o.tickets = gr.tickets := fun g gr hg =>
    Option.map_eq_some_iff.mp ((groups g).symm.trans (by rw [hg]; rfl))
  refine ⟨fun g gr hg => ?_, fun g gr hg n hn => ?_, fun n tk hk => ?_⟩
  · obtain ⟨o, ho, e⟩ := back g gr hg
    exact e ▸ h.nodup g o ho
  · obtain ⟨o, ho, e⟩ := back g gr hg
    rw [tickets]
    exact h.members g o ho n (e ▸ hn)
  · obtain ⟨o, ho, e⟩ := Option.map_eq_some_iff.mp ((tickets n).symm.trans (by rw [hk]; rfl))
    obtain ⟨gr, hg, hn⟩ := h.listed n o ho
    obtain ⟨gr', hg', e'⟩ := Option.map_eq_some_iff.mp ((groups o.group).trans (by rw [hg]; rfl))
    exact ⟨gr', e ▸ hg', e' ▸ hn⟩

/-- What the counts read of a group. -/
def Group.key (gr : Group) : Nat × Nat × Nat :=
  (gr.wave, gr.table, gr.course)

/-- The counts read nothing that has changed but the number of live tickets. -/
structure Recounts (s t : State) : Prop where
  waves : t.waves = s.waves
  engine : t.engine = s.engine
  frozen : t.frozen = s.frozen
  mode : t.link.mode = s.link.mode
  courses : ∀ u, (tableRecord t u).liveCourses = (tableRecord s u).liveCourses
  groupPool : t.groupPool = s.groupPool
  reserved : t.ticketPool.reserved = s.ticketPool.reserved
  total : t.ticketPool.free + t.ticketPool.reserved + t.ticketPool.live
    = s.ticketPool.free + s.ticketPool.reserved + s.ticketPool.live
  keys : ∀ g, (group? t g).map Group.key = (group? s g).map Group.key

theorem Counts.recounted (h : Counts C s) (k : Recounts s t) (hs : s.groups.rising = true) (ht : t.groups.rising = true)
    (live : t.ticketPool.live = t.tickets.length) : Counts C t := by
  have back : ∀ g gr, group? t g = some gr → ∃ o, group? s g = some o ∧ o.key = gr.key := fun g gr hg =>
    Option.map_eq_some_iff.mp ((k.keys g).symm.trans (by rw [hg]; rfl))
  have forth : ∀ g gr, group? s g = some gr → ∃ o, group? t g = some o ∧ o.key = gr.key := fun g gr hg =>
    Option.map_eq_some_iff.mp ((k.keys g).trans (by rw [hg]; rfl))
  have wave_get : ∀ w, wave? t w = wave? s w := fun w => by rw [wave?, k.waves, ← wave?]
  have state : ∀ w, waveState t w = waveState s w := fun w => by rw [waveState, waveState, wave_get]
  have ofWave : ∀ w, t.groups.total (Group.ofWave w) = s.groups.total (Group.ofWave w) := fun w =>
    Store.total_congr hs ht fun g => by
      have := congrArg (Option.map fun k : Nat × Nat × Nat => if decide (k.1 = w) then 1 else 0) (k.keys g)
      simp only [Option.map_map] at this
      exact congrArg (Option.getD · 0) this
  have length : t.groups.length = s.groups.length := Store.length_congr ht hs fun g => by
    simpa [group?] using congrArg Option.isSome (k.keys g)
  refine ⟨k.waves ▸ h.waves, fun w wv hw => ?_, fun w wv hw hC => ?_, fun w hw => ?_, fun hr w hw => ?_, ⟨k.total.trans h.pools.1, ?_⟩,
    live, ?_, ?_, ?_, fun hC hr w hw wv hwv => ?_, fun g gr hg => ?_, fun u c => ?_, fun g g' gr gr' hg hg' e e' => ?_, fun hm => ?_⟩
  · exact (h.fair w wv (wave_get w ▸ hw)).congr (by rw [k.frozen]) (ofWave w)
  · rw [k.engine]
    exact h.engine w wv (wave_get w ▸ hw) hC
  · rw [state]
    exact h.frozen w (k.frozen ▸ hw)
  · rw [state]
    exact h.running (k.engine ▸ hr) w (k.engine ▸ hw)
  · rw [k.groupPool]
    exact h.pools.2
  · rw [k.groupPool, length, h.groups]
  · rw [k.reserved, k.waves, h.reservedTickets]
  · rw [k.groupPool, k.waves, h.reservedGroups]
  · have := h.provided hC (k.engine ▸ hr) w (k.engine ▸ hw) wv (wave_get w ▸ hwv)
    simpa only [k.engine, k.courses] using this
  · obtain ⟨o, ho, e⟩ := back g gr hg
    have e : o.wave = gr.wave := congrArg Prod.fst e
    rw [wave_get, ← e]
    exact h.waved g o ho
  · rw [k.courses, h.courses]
    constructor
    · rintro ⟨g, o, ho, rfl, rfl⟩
      obtain ⟨gr, hg, e⟩ := forth g o ho
      exact ⟨g, gr, hg, congrArg (·.2.1) e, congrArg (·.2.2) e⟩
    · rintro ⟨g, gr, hg, rfl, rfl⟩
      obtain ⟨o, ho, e⟩ := back g gr hg
      exact ⟨g, o, ho, congrArg (·.2.1) e, congrArg (·.2.2) e⟩
  · obtain ⟨o, ho, k⟩ := back g gr hg
    obtain ⟨o', ho', k'⟩ := back g' gr' hg'
    refine h.unique g g' o o' ho ho' ?_ ?_
    · exact ((congrArg (·.2.1) k).trans e).trans (congrArg (·.2.1) k').symm
    · exact ((congrArg (·.2.2) k).trans e').trans (congrArg (·.2.2) k').symm
  · rw [k.waves]
    exact h.setup (k.mode ▸ hm)

/-! ## A group being changed -/

/-- What holds of every group holds of all but one. -/
theorem Kept.exempts (h : Kept K F none C s) (X : Option Nat) : Kept K F X C s :=
  ⟨h.arranged, h.books.numbered, ⟨h.books.grouped.tickets, h.books.grouped.groups, h.books.grouped.listed,
    fun g gr hg _ => h.books.grouped.complete g gr hg (by simp), fun hK g gr hg _ => h.books.grouped.dies hK g gr hg (by simp),
    h.books.grouped.same⟩, h.books.counts⟩

/-- The group that was being changed holds again what its state asks for. -/
theorem Kept.closes (h : Kept K F (some g) C s) (k : ∀ gr, group? s g = some gr → Complete s gr ∧ (K.timed → DiesTrue s gr)) :
    Kept K F none C s := by
  refine ⟨h.arranged, h.books.numbered, ⟨h.books.grouped.tickets, h.books.grouped.groups, h.books.grouped.listed,
    fun l gr hl _ => ?_, fun hK l gr hl _ => ?_, h.books.grouped.same⟩, h.books.counts⟩
  · by_cases hlg : l = g
    · exact (k gr (hlg ▸ hl)).1
    · exact h.books.grouped.complete l gr hl fun e => hlg (Option.some.inj e).symm
  · by_cases hlg : l = g
    · exact (k gr (hlg ▸ hl)).2 hK
    · exact h.books.grouped.dies hK l gr hl fun e => hlg (Option.some.inj e).symm

/-! ## A group's own fields (R148 to R154) -/

/-- The change leaves a group's wave, table, course, go time and list as they are. -/
def Group.Restates (f : Group → Group) : Prop :=
  ∀ gr, f gr = { gr with
    state := (f gr).state, short := (f gr).short, escalated := (f gr).escalated, escalationCause := (f gr).escalationCause
    dieAt := (f gr).dieAt, pickupAt := (f gr).pickupAt, unpickedReported := (f gr).unpickedReported }

theorem updGroup_groupOnly (g : Nat) (f : Group → Group) (h : Grouped K X s) :
    GroupOnly g s (updGroup g f s) ∧ (updGroup g f s).groups.rising = true :=
  ⟨⟨fun l hl => by rw [group_get_updGroup, if_neg hl], fun _ _ hk _ => hk, fun _ _ hk _ => hk, fun _ => rfl⟩,
    Store.rising_update _ _ h.groups⟩

theorem updGroup_map {α : Type} {f : Group → Group} (p : Group → α) (hp : ∀ gr, p (f gr) = p gr) (l : Nat) :
    (group? (updGroup g f s) l).map p = (group? s l).map p := by
  rw [group_get_updGroup]
  split
  · rw [Option.map_map]
    exact Option.map_congr fun gr _ => hp gr
  · rfl

theorem Kept.restatesGroup (f : Group → Group) (hf : Group.Restates f) (h : Kept K F X C s)
    (hX : X = some g ∨ ∀ gr, (f gr).state = gr.state ∧ (f gr).dieAt = gr.dieAt) : Kept K F X C (updGroup g f s) := by
  obtain ⟨only, groups⟩ := updGroup_groupOnly g f h.books.grouped
  have now : ∀ gr, group? (updGroup g f s) g = some gr → ∃ o, group? s g = some o ∧ f o = gr := fun gr hg => by
    rw [group_get_updGroup, if_pos rfl] at hg
    exact Option.map_eq_some_iff.mp hg
  have still : Still s (updGroup g f s) :=
    ⟨rfl, rfl, rfl, rfl, rfl, fun _ => rfl, fun _ => rfl, fun _ => rfl, fun _ => rfl, fun _ => rfl, fun _ => rfl⟩
  have unlike : X ≠ some g → ∀ gr, group? (updGroup g f s) g = some gr →
      ∃ o, group? s g = some o ∧ gr.state = o.state ∧ gr.dieAt = o.dieAt ∧ gr.tickets = o.tickets := fun hne gr hg => by
    obtain ⟨o, ho, rfl⟩ := now gr hg
    obtain ⟨hst, hd⟩ := hX.resolve_left hne o
    exact ⟨o, ho, hst, hd, by rw [hf o]⟩
  refine ⟨still.arranged h.arranged, fun hK => ⟨(h.books.numbered hK).tickets, fun l gr hl => ?_⟩, ?_, fun hK => ?_⟩
  · by_cases hlg : l = g
    · subst hlg
      obtain ⟨o, ho, -⟩ := now gr hl
      exact (h.books.numbered hK).groups l o ho
    · exact (h.books.numbered hK).groups l gr ((only.groups l hlg).symm.trans hl)
  · refine h.books.grouped.regrouped only h.books.grouped.tickets groups (h.books.grouped.listed.congr (fun _ => rfl)
      (updGroup_map Group.tickets fun gr => by rw [hf])) (fun hne gr hg => ?_) (fun hK hne gr hg => ?_) fun hK l tk hk hl gr hg => ?_
    · obtain ⟨o, ho, hst, hd, hts⟩ := unlike hne gr hg
      rw [Complete, hst, hd, hts]
      exact h.books.grouped.complete g o ho hne
    · obtain ⟨o, ho, hst, hd, hts⟩ := unlike hne gr hg
      rw [DiesTrue, hst, hd, hts]
      exact h.books.grouped.dies hK g o ho hne
    · obtain ⟨o, ho, rfl⟩ := now gr hg
      rw [hf]
      exact h.books.grouped.same hK l tk hk o (hl ▸ ho)
  · refine (h.books.counts hK).recounted ⟨rfl, rfl, rfl, rfl, fun _ => rfl, rfl, rfl, rfl, ?_⟩ h.books.grouped.groups groups
      (h.books.counts hK).tickets
    exact updGroup_map Group.key fun gr => by rw [hf]; rfl

/-! ## A ticket's state (R114, R115, R100, R151) -/

/-- The change leaves all of a ticket's record but its state, position and ready time as it is. -/
def Ticket.Restates (f : Ticket → Ticket) : Prop :=
  ∀ tk, f tk = { tk with state := (f tk).state, position := (f tk).position, readyAt := (f tk).readyAt }

theorem updTicket_map {α : Type} {f : Ticket → Ticket} (p : Ticket → α) (hp : ∀ tk, p (f tk) = p tk) (l : Nat) :
    (ticket? (updTicket n f s) l).map p = (ticket? s l).map p := by
  rw [ticket_get_updTicket]
  split
  · rw [Option.map_map]
    exact Option.map_congr fun tk _ => hp tk
  · rfl

theorem dieTime_of_not_ready (hk : ticket? s n = some tk) (h : tk.state ≠ .ready) : dieTime s n = none := by
  unfold dieTime
  rw [hk]
  dsimp only
  split
  · rename_i e _
    exact absurd e h
  · rfl

/-- A ticket's state is changed: its group is being changed, or the ticket is neither READY nor WITHDRAWN and does not become READY. -/
theorem Books.restatesTicket (f : Ticket → Ticket) (hf : Ticket.Restates f) (h : Books K X C s) (hk : ticket? s n = some tk)
    (hX : X = some tk.group ∨ tk.state ≠ .ready ∧ tk.state ≠ .withdrawn ∧ (f tk).state ≠ .ready) :
    Books K X C (updTicket n f s) := by
  have others : ∀ l ≠ n, ticket? (updTicket n f s) l = ticket? s l := fun l hl => by rw [ticket_get_updTicket, if_neg hl]
  have now : ticket? (updTicket n f s) n = some (f tk) := by rw [ticket_get_updTicket, if_pos rfl, hk, Option.map_some]
  have sameGroup : (f tk).group = tk.group := by rw [hf]
  have back : ∀ l o, ticket? (updTicket n f s) l = some o → ∃ o', ticket? s l = some o' ∧ o.group = o'.group ∧ o.wave = o'.wave
      ∧ o.table = o'.table ∧ o.goTime = o'.goTime ∧ o.generation = o'.generation := by
    intro l o ho
    by_cases hl : l = n
    · subst hl
      obtain rfl := Option.some.inj (now.symm.trans ho)
      exact ⟨tk, hk, by rw [hf], by rw [hf], by rw [hf], by rw [hf], by rw [hf]⟩
    · exact ⟨o, (others l hl).symm.trans ho, rfl, rfl, rfl, rfl, rfl⟩
  have only : GroupOnly tk.group s (updTicket n f s) := by
    refine ⟨fun _ _ => rfl, fun l o ho hne => ?_, fun l o ho hne => ?_, fun _ => rfl⟩
    · rw [others l fun e => hne (by rw [e, hk] at ho; exact (Option.some.inj ho) ▸ rfl)]
      exact ho
    · rw [← others l fun e => hne (by rw [e, now] at ho; exact (Option.some.inj ho) ▸ sameGroup)]
      exact ho
  refine ⟨fun hK => ⟨fun l o ho => ?_, (h.numbered hK).groups⟩, ?_, fun hK => ?_⟩
  · obtain ⟨o', ho', -, -, -, -, e⟩ := back l o ho
    exact e ▸ (h.numbered hK).tickets l o' ho'
  · refine h.grouped.regrouped only (Store.rising_update _ _ h.grouped.tickets) h.grouped.groups
      (h.grouped.listed.congr (updTicket_map Ticket.group fun o => by rw [hf]) fun _ => rfl) (fun hne gr hg hst => ?_)
      (fun hK hne gr hg => ?_) fun hK l o ho hl gr hg => ?_
    · obtain ⟨hr, hw, -⟩ := hX.resolve_left hne
      obtain ⟨gr', hg', hm⟩ := h.grouped.listed.listed n tk hk
      obtain rfl := Option.some.inj (hg.symm.trans hg')
      have := (h.grouped.complete _ gr hg hne hst).2 n hm
      simp [InState, hk, hr, hw] at this
    · obtain ⟨hr, -, hr'⟩ := hX.resolve_left hne
      obtain ⟨served, assembling, rest⟩ := h.grouped.dies hK _ gr hg hne
      refine ⟨fun hst => ?_, fun hst => earliestDie_of_dieTime (fun l _ => ?_) (assembling hst), rest⟩
      · obtain ⟨l, hl, ready⟩ := served hst
        refine ⟨l, hl, ?_⟩
        have hne : l ≠ n := by
          rintro rfl
          rw [InState, hk] at ready
          exact hr (Option.some.inj ready)
        rw [InState, others l hne]
        exact ready
      · by_cases hl : l = n
        · subst hl
          rw [dieTime_of_not_ready hk hr, dieTime_of_not_ready now hr']
        · exact dieTime_congr (others l hl) fun _ => rfl
    · obtain ⟨o', ho', eg, ew, et, ego, -⟩ := back l o ho
      rw [ew, et, ego]
      exact h.grouped.same hK l o' ho' gr (by rw [← eg, hl]; exact hg)
  · refine (h.counts hK).recounted ⟨rfl, rfl, rfl, rfl, fun _ => rfl, rfl, rfl, rfl, fun _ => rfl⟩ h.grouped.groups h.grouped.groups ?_
    refine (h.counts hK).tickets.trans (Store.length_congr h.grouped.tickets (Store.rising_update _ _ h.grouped.tickets) fun l => ?_)
    exact (Store.isSome_get?_update s.tickets n l f).symm

/-- A ticket that stands nowhere changes its state, and waits no more. -/
theorem Kept.rests (f : Ticket → Ticket) (hf : Ticket.Restates f) {F' : List Nat} (h : Kept K F X C s) (hk : ticket? s n = some tk)
    (hu : Unplaced s n) (hF : ∀ m ≠ n, m ∈ F' ↔ m ∈ F) (hw : ¬(f tk).Waits)
    (hX : X = some tk.group ∨ tk.state ≠ .ready ∧ tk.state ≠ .withdrawn ∧ (f tk).state ≠ .ready) :
    Kept K F' X C (updTicket n f s) := by
  have now : ticket? (updTicket n f s) n = some (f tk) := by rw [ticket_get_updTicket, if_pos rfl, hk, Option.map_some]
  refine ⟨⟨h.arranged.seated.record (.updTicket n f s) hu hF (fun hK o ho => ?_) (fun hK o ho hw' => ?_), h.arranged.fits⟩,
    h.books.restatesTicket f hf hk hX⟩
  · obtain rfl := Option.some.inj (now.symm.trans ho)
    rw [hf]
    exact h.arranged.seated.standing.homes hK n tk hk
  · obtain rfl := Option.some.inj (now.symm.trans ho)
    exact absurd hw' hw

end Sys2Proof.Machine
end


section
/-!
PROOFS. Completion, arrivals, remake copies, die expiries and refires keep the invariant (R86, R114, R115, R148 to R157).
-/

namespace Sys2Proof.Machine

variable {K : Scope} {F : List Nat} {X C : Option Nat} {g n m x : Nat} {s t d : State} {tk : Ticket} {gr : Group}

/-! ## Completion (R149, R150) -/

theorem ticketIs_eq_true {st : TicketState} : ticketIs s st n = true ↔ InState s st n := by
  rw [ticketIs, decide_eq_true_eq]

theorem listComplete_states {ts : List Nat} (h : listComplete s ts = true) :
    (∀ n ∈ ts, InState s .ready n ∨ InState s .withdrawn n) ∧ ∃ n ∈ ts, InState s .ready n := by
  simpa [listComplete, List.all_eq_true, List.any_eq_true, ticketIs_eq_true] using h

/-- The completion test of an ASSEMBLING group with its die time recomputed. -/
theorem Kept.completes (h : Kept K F (some g) C s) (hg : group? s g = some gr) (hst : gr.state = .assembling)
    (hd : K.timed → EarliestDie s gr.tickets gr.dieAt) : Kept K F none C (completionTest g s) := by
  unfold completionTest
  rw [hg]
  dsimp only
  split
  · rename_i hc
    obtain ⟨states, ready⟩ := listComplete_states hc.2
    refine Kept.lines (Kept.closes (h.restatesGroup _ (fun _ => rfl) (.inl rfl)) fun gr' hg' => ?_) (sendRecord_only _ _ _)
    rw [group_get_updGroup, if_pos rfl, hg, Option.map_some] at hg'
    obtain rfl := Option.some.inj hg'
    exact ⟨fun _ => ⟨rfl, states⟩, fun _ => ⟨fun _ => ready, fun e => absurd e (by simp), fun _ => rfl⟩⟩
  · refine h.closes fun gr' hg' => ?_
    obtain rfl := Option.some.inj (hg.symm.trans hg')
    exact ⟨fun e => absurd (hst.symm.trans e) (by simp),
      fun hK => ⟨fun e => absurd (hst.symm.trans e) (by simp), fun _ => hd hK, fun e => absurd hst e⟩⟩

/-- The die time recomputed and the completion test, for a group not COMPLETE. -/
theorem Kept.concludes (h : Kept K F (some g) C s)
    (hne : ∀ gr, group? s g = some gr → gr.state ≠ .complete ∧ (K.timed → gr.state = .assembling)) :
    Kept K F none C (completionTest g (recomputeDie g s)) := by
  have recomputed : Kept K F (some g) C (recomputeDie g s) := h.restatesGroup _ (fun _ => rfl) (.inl rfl)
  cases hg : group? s g with
  | none =>
    have hg' : group? (recomputeDie g s) g = none := by rw [recomputeDie, group_get_updGroup, if_pos rfl, hg, Option.map_none]
    rw [completionTest, hg']
    exact recomputed.closes fun gr e => absurd (hg'.symm.trans e) (by simp)
  | some gr =>
    obtain ⟨hc, ha⟩ := hne gr hg
    have now : group? (recomputeDie g s) g = some { gr with dieAt := earliestDie s gr.tickets } := by
      rw [recomputeDie_group hg, if_pos rfl]
    by_cases hst : gr.state = .assembling
    · refine recomputed.completes now hst fun _ => ?_
      exact earliestDie_earliest s gr.tickets
    · have idle : completionTest g (recomputeDie g s) = recomputeDie g s := by
        rw [completionTest, now]
        exact if_neg fun e => hst e.1
      rw [idle]
      refine recomputed.closes fun gr' hg' => ?_
      obtain rfl := Option.some.inj (now.symm.trans hg')
      exact ⟨fun e => absurd e hc, fun hK => absurd (ha hK) hst⟩

/-- A READY report is taken for a group not COMPLETE. -/
theorem Kept.arrives (n : Nat) (h : Kept K F (some g) C s) (hne : ∀ gr, group? s g = some gr → gr.state ≠ .complete) :
    Kept K F none C (groupArrival g n s) := by
  unfold groupArrival
  split
  · rename_i hg
    exact h.closes fun gr e => absurd (hg.symm.trans e) (by simp)
  · rename_i gr hg
    dsimp only
    split
    · have shown : Kept K F (some g) C (sendGroupUp g (updGroup g (fun gr => { gr with state := .assembling }) s)) :=
        (h.restatesGroup _ (fun _ => rfl) (.inl rfl)).lines (sendGroupUp_lines g _)
      refine (shown.lines (sendRecord_only _ _ _)).concludes fun gr' hg' => ?_
      rw [group?, (sendRecord_only _ _ _).groups, (sendGroupUp_lines g _).groups, ← group?, group_get_updGroup, if_pos rfl, hg,
        Option.map_some] at hg'
      obtain rfl := Option.some.inj hg'
      exact ⟨by simp, fun _ => rfl⟩
    · rename_i hp
      refine (h.lines (sendRecord_only _ _ _)).concludes fun gr' hg' => ?_
      rw [group?, (sendRecord_only _ _ _).groups, ← group?, hg] at hg'
      obtain rfl := Option.some.inj hg'
      have hc := hne gr hg
      cases hst : gr.state
      · exact absurd hst hp
      · exact ⟨by simp, fun _ => rfl⟩
      · exact absurd hst hc

/-! ## Remake copies (R86) -/

/-- Copy `m` has been made of ticket `n` and stands in its slot, and `n` has been freed; the copy is still to be offered. -/
def copied (n m : Nat) (tk : Ticket) (d : State) : State :=
  freeTicket n (updGroup tk.group (fun gr => { gr with tickets := replaceSlot n m gr.tickets })
    { createTicket m (copyOf d tk) d with ticketPool := d.ticketPool.liveFromFree })

section
variable (hk : ticket? d n = some tk) (hm : ticket? d m = none)
include hk hm

theorem ne_of_absent : n ≠ m := by
  rintro rfl
  exact absurd (hm.symm.trans hk) (by simp)

theorem copied_eq : copied n m tk d = { d with
    link := { d.link with seq := nextSeq d.link.seq }
    tickets := (d.tickets.set m (copyOf d tk)).erase n
    ticketPool := d.ticketPool.liveFromFree.release
    groups := (d.groups.update tk.group fun gr => { gr with tickets := replaceSlot n m gr.tickets }).update tk.group fun gr =>
      { gr with tickets := removeNumber n gr.tickets } } := by
  have live : ticket? (updGroup tk.group (fun gr => { gr with tickets := replaceSlot n m gr.tickets })
      { createTicket m (copyOf d tk) d with ticketPool := d.ticketPool.liveFromFree }) n = some tk :=
    (Store.get?_set_of_ne d.tickets _ (ne_of_absent hk hm)).trans hk
  rw [copied, freeTicket_eq live]
  rfl

theorem copied_ticket (l : Nat) :
    ticket? (copied n m tk d) l = if l = m then some (copyOf d tk) else if l = n then none else ticket? d l := by
  have hne := ne_of_absent hk hm
  rw [copied_eq hk hm]
  change Store.get? ((d.tickets.set m (copyOf d tk)).erase n) l = _
  by_cases hln : l = n
  · rw [hln, Store.get?_erase_self, if_neg hne, if_pos rfl]
  · rw [Store.get?_erase_of_ne _ hln, if_neg hln]
    split
    · rename_i e
      rw [e, Store.get?_set_self]
    · rename_i e
      exact Store.get?_set_of_ne _ _ e

theorem copied_group (l : Nat) : group? (copied n m tk d) l = (group? d l).map fun gr =>
    if l = tk.group then { gr with tickets := replaceSlot n m gr.tickets } else gr := by
  rw [copied_eq hk hm]
  change Store.get? (Store.update (Store.update d.groups _ _) _ _) l = _
  rw [Store.get?_update, Store.get?_update]
  split
  · rw [Option.map_map]
    refine Option.map_congr fun gr _ => ?_
    simp only [Function.comp_apply, removeNumber_replaceSlot (Ne.symm (ne_of_absent hk hm))]
    rfl
  · exact Option.map_id'.symm

theorem copied_listed (h : Listed d) : Listed (copied n m tk d) := by
  have hne := ne_of_absent hk hm
  have slots : ∀ ts : List Nat, ∀ l ∈ replaceSlot n m ts, l = m ∧ n ∈ ts ∨ l ≠ n ∧ l ∈ ts := by
    intro ts l hl
    obtain ⟨o, ho, rfl⟩ := List.mem_map.mp hl
    split
    · rename_i e
      exact .inl ⟨rfl, e ▸ ho⟩
    · rename_i e
      exact .inr ⟨e, ho⟩
  obtain ⟨home, hhome, hin⟩ := h.listed n tk hk
  have fresh : ∀ l gr, group? d l = some gr → m ∉ gr.tickets := fun l gr hl hin => by
    have := h.members l gr hl m hin
    rw [hm] at this
    cases this
  have elsewhere : ∀ l gr, group? d l = some gr → n ∈ gr.tickets → l = tk.group := fun l gr hl hin => by
    have := h.members l gr hl n hin
    rw [hk] at this
    exact (Option.some.inj this).symm
  refine ⟨fun l gr hl => ?_, fun l gr hl o ho => ?_, fun l o ho => ?_⟩
  · rw [copied_group hk hm] at hl
    obtain ⟨old, hold, rfl⟩ := Option.map_eq_some_iff.mp hl
    have nodup := h.nodup l old hold
    split
    · refine nodup.map_on fun a ha b hb e => ?_
      by_cases hna : a = n <;> by_cases hnb : b = n <;> simp only [hna, hnb, if_true, if_false] at e ⊢
      · exact absurd (e ▸ hb) (fresh l old hold)
      · exact absurd (e ▸ ha) (fresh l old hold)
      · exact e
    · exact nodup
  · rw [copied_group hk hm] at hl
    obtain ⟨old, hold, rfl⟩ := Option.map_eq_some_iff.mp hl
    rw [copied_ticket hk hm]
    have other : o ∈ old.tickets → o ≠ n → (if o = m then some (copyOf d tk) else if o = n then none else ticket? d o).map Ticket.group
        = some l := fun hin hon => by
      have hom : o ≠ m := fun e => fresh l old hold (e ▸ hin)
      rw [if_neg hom, if_neg hon]
      exact h.members l old hold o hin
    split at ho
    · rename_i hlg
      rcases slots _ o ho with ⟨rfl, -⟩ | ⟨hon, hin⟩
      · rw [if_pos rfl, hlg]
        rfl
      · exact other hin hon
    · rename_i hlg
      refine other ho ?_
      rintro rfl
      exact hlg (elsewhere l old hold ho)
  · rw [copied_ticket hk hm] at ho
    split at ho
    · rename_i e
      obtain rfl := Option.some.inj ho
      refine ⟨_, (copied_group hk hm _).trans (by rw [show (copyOf d tk).group = tk.group from rfl, hhome]; rfl), ?_⟩
      simp only [e, if_true]
      exact List.mem_map.mpr ⟨n, hin, if_pos rfl⟩
    · split at ho
      · cases ho
      · rename_i hlm hln
        obtain ⟨gr, hgr, hl⟩ := h.listed l o ho
        refine ⟨_, (copied_group hk hm _).trans (by rw [hgr]; rfl), ?_⟩
        dsimp only
        split
        · exact List.mem_map.mpr ⟨l, hl, if_neg hln⟩
        · exact hl

end

theorem Names.waits {p : Place} (h : Names tk p) : tk.Waits := by
  rcases p with _ | ⟨x, _ | _ | i⟩
  · exact .inl h
  · exact .inr (.inl h.1)
  · exact .inr (.inr (.inl h.1))
  · exact .inr (.inr (.inr h.1))

theorem Told.resting_unplaced (h : Told s) (hk : ticket? s n = some tk) (hw : ¬tk.Waits) : Unplaced s n :=
  fun _ hp => hw (h.names hk hp).waits

theorem Told.absent_unplaced (h : Told s) (hn : ticket? s n = none) : Unplaced s n :=
  h.unplaced fun tk hk => absurd (hn.symm.trans hk) (by simp)

theorem Books.copies (h : Books K X C d) (hk : ticket? d n = some tk) (hm : ticket? d m = none) (hf : 0 < d.ticketPool.free)
    (hX : X = some tk.group ∨ tk.state = .dead) (gen : K.timed → tk.generation ≤ 2) (low : K.timed → m < 4096) :
    Books K X C (copied n m tk d) := by
  have eq := copied_eq hk hm
  have ticket := copied_ticket hk hm
  have group := copied_group hk hm
  have rising : (copied n m tk d).tickets.rising = true := by
    rw [eq]
    exact Store.rising_erase _ (Store.rising_set _ _ h.grouped.tickets)
  have rising' : (copied n m tk d).groups.rising = true := by
    rw [eq]
    exact Store.rising_update _ _ (Store.rising_update _ _ h.grouped.groups)
  have pool : (copied n m tk d).ticketPool = d.ticketPool := by
    rw [eq]
    exact Pool.release_liveFromFree hf
  have back : ∀ l o, ticket? (copied n m tk d) l = some o → l = m ∧ o = copyOf d tk ∨ l ≠ m ∧ l ≠ n ∧ ticket? d l = some o := by
    intro l o ho
    rw [ticket] at ho
    split at ho
    · exact .inl ⟨‹_›, (Option.some.inj ho).symm⟩
    · split at ho
      · cases ho
      · exact .inr ⟨‹_›, ‹_›, ho⟩
  have only : GroupOnly tk.group d (copied n m tk d) := by
    refine ⟨fun l hl => ?_, fun l o ho hne => ?_, fun l o ho hne => ?_, fun c => by rw [eq]; rfl⟩
    · rw [group]
      simp [hl]
    · have hlm : l ≠ m := by
        rintro rfl
        exact absurd (hm.symm.trans ho) (by simp)
      have hln : l ≠ n := by
        rintro rfl
        exact hne (congrArg Ticket.group (Option.some.inj (ho.symm.trans hk)))
      rw [ticket, if_neg hlm, if_neg hln]
      exact ho
    · rcases back l o ho with ⟨-, rfl⟩ | ⟨-, -, ho⟩
      · exact absurd rfl hne
      · exact ho
  have own : ∀ gr, group? (copied n m tk d) tk.group = some gr →
      ∃ old, group? d tk.group = some old ∧ gr = { old with tickets := replaceSlot n m old.tickets } := fun gr hg => by
    rw [group] at hg
    obtain ⟨old, hold, e⟩ := Option.map_eq_some_iff.mp hg
    exact ⟨old, hold, by rw [← e, if_pos rfl]⟩
  have dead : X ≠ some tk.group → ∀ old, group? d tk.group = some old → old.state ≠ .complete := fun hne old hold hst => by
    obtain ⟨old', hold', hin⟩ := h.grouped.listed.listed n tk hk
    obtain rfl := Option.some.inj (hold.symm.trans hold')
    have := (h.grouped.complete _ old hold hne hst).2 n hin
    simp [InState, hk, hX.resolve_left hne] at this
  refine ⟨fun hK => ⟨fun l o ho => ?_, fun l gr hl => ?_⟩, ?_, fun hK => ?_⟩
  · rcases back l o ho with ⟨rfl, rfl⟩ | ⟨-, -, ho⟩
    · have := gen hK
      exact ⟨low hK, show tk.generation + 1 ≤ 3 by omega⟩
    · exact (h.numbered hK).tickets l o ho
  · rw [group] at hl
    obtain ⟨old, hold, -⟩ := Option.map_eq_some_iff.mp hl
    exact (h.numbered hK).groups l old hold
  · refine h.grouped.regrouped only rising rising' (copied_listed hk hm h.grouped.listed) (fun hne gr hg hst => ?_)
      (fun hK hne gr hg => ?_) fun hK l o ho hl gr hg => ?_
    · obtain ⟨old, hold, rfl⟩ := own gr hg
      exact absurd hst (dead hne old hold)
    · obtain ⟨old, hold, rfl⟩ := own gr hg
      obtain ⟨-, assembling, rest⟩ := h.grouped.dies hK _ old hold hne
      refine ⟨fun hst => absurd hst (dead hne old hold), fun hst => ?_, rest⟩
      have dies := assembling hst
      have die : ∀ l, l ≠ m → l ≠ n → dieTime (copied n m tk d) l = dieTime d l := fun l hlm hln =>
        dieTime_congr (by rw [ticket, if_neg hlm, if_neg hln]) only.holds
      have never : dieTime (copied n m tk d) m = none := by
        refine dieTime_of_not_ready (tk := copyOf d tk) (by rw [ticket, if_pos rfl]) ?_
        change TicketState.blocked ≠ .ready
        simp
      have fresh : m ∉ old.tickets := fun hin => by
        have := h.grouped.listed.members _ old hold m hin
        rw [hm] at this
        cases this
      refine ⟨fun e he => ?_, fun l hl e he => ?_⟩
      · obtain ⟨l, hl, hd⟩ := dies.1 e he
        have hln : l ≠ n := by
          rintro rfl
          rw [← dieTime_iff, dieTime_of_not_ready hk (by rw [hX.resolve_left hne]; simp)] at hd
          cases hd
        refine ⟨l, List.mem_map.mpr ⟨l, hl, if_neg hln⟩, ?_⟩
        rw [← dieTime_iff, die l (fun e => fresh (e ▸ hl)) hln, dieTime_iff]
        exact hd
      · obtain ⟨o, ho, rfl⟩ := List.mem_map.mp hl
        split at he
        · rw [← dieTime_iff, never] at he
          cases he
        · rename_i hon
          rw [← dieTime_iff, die o (fun e => fresh (e ▸ ho)) hon, dieTime_iff] at he
          exact dies.2 o ho e he
    · obtain ⟨old, hold, rfl⟩ := own gr hg
      rcases back l o ho with ⟨-, rfl⟩ | ⟨-, -, ho⟩
      · exact h.grouped.same hK n tk hk old hold
      · exact h.grouped.same hK l o ho old (hl ▸ hold)
  · refine (h.counts hK).recounted ⟨by rw [eq], by rw [eq], by rw [eq], by rw [eq], fun u => by rw [eq]; rfl, by rw [eq],
      by rw [pool], by rw [pool], fun l => ?_⟩ h.grouped.groups rising' ?_
    · rw [group, Option.map_map]
      refine Option.map_congr fun gr _ => ?_
      simp only [Function.comp_apply]
      split <;> rfl
    · have removed := Store.total_change (f := fun _ : Ticket => 1) (f' := fun _ : Ticket => 1) h.grouped.tickets
        (Store.rising_set m (copyOf d tk) h.grouped.tickets) m fun l hl => by rw [Store.get?_set_of_ne _ _ hl]
      have erased := Store.total_change (f := fun _ : Ticket => 1) (f' := fun _ : Ticket => 1)
        (Store.rising_set m (copyOf d tk) h.grouped.tickets) (m' := (copied n m tk d).tickets) rising n fun l hl => by
          rw [eq]
          dsimp only
          rw [Store.get?_erase_of_ne _ hl]
      have none' : (copied n m tk d).tickets.get? n = none := by
        rw [eq]
        exact Store.get?_erase_self _ _
      have live : (d.tickets.set m (copyOf d tk)).get? n = some tk := by
        rw [Store.get?_set_of_ne _ _ (ne_of_absent hk hm)]
        exact hk
      have absent : d.tickets.get? m = none := hm
      simp only [Store.total_one, none', live, absent, Store.get?_set_self, Option.map_some, Option.map_none, Option.getD_some,
        Option.getD_none] at removed erased
      rw [pool, (h.counts hK).tickets]
      omega

end Sys2Proof.Machine
end


section
/-!
PROOFS. Remakes, die expiries, refires, and the READY and SPOIL records keep the invariant (R86, R114, R115, R148 to R158).
-/

namespace Sys2Proof.Machine

variable {K : Scope} {F : List Nat} {X C : Option Nat} {g n m x : Nat} {s t d : State} {tk : Ticket} {gr : Group}

/-! ## The request for a copy (R86) -/

theorem firstAbsent_le_length {α : Type} (m : Store α) : m.firstAbsent ≤ m.length := by
  obtain ⟨l, hl, absent⟩ := m.exists_absent
  by_contra hlt
  exact (m.firstAbsent_spec).2 l (by omega) absent

/-- A copy has taken the slot of a ticket that waits no more, and is still to be offered. -/
theorem Kept.copies (h : Kept K [] X C d) (hk : ticket? d n = some tk) (hm : ticket? d m = none) (hw : ¬tk.Waits)
    (hf : 0 < d.ticketPool.free) (hX : X = some tk.group ∨ tk.state = .dead) (gen : K.timed → tk.generation ≤ 2)
    (low : K.timed → m < 4096) : Kept K [m] X C (copied n m tk d) := by
  have told := h.arranged.seated.standing.told
  have hne := ne_of_absent hk hm
  let v : State := { copied n m tk d with tickets := d.tickets.set m (copyOf d tk) }
  have eq := copied_eq hk hm
  have created : RecordOnly m d v := by
    refine ⟨?_, ?_, ?_, ?_, ?_, fun l hl => Store.get?_set_of_ne _ _ hl⟩ <;> simp only [v, eq]
  have now : ticket? v m = some (copyOf d tk) := Store.get?_set_self _ _ _
  have freed : RecordOnly n v (copied n m tk d) := by
    refine ⟨rfl, rfl, rfl, rfl, rfl, fun l hl => ?_⟩
    rw [eq]
    exact Store.get?_erase_of_ne _ hl
  have home : K.whole → tk.homeStation < 24 := fun hK => h.arranged.seated.standing.homes hK n tk hk
  have unplaced := told.absent_unplaced hm
  have first : Seated K [m] v := h.arranged.seated.record created unplaced (fun l hl => by simp [hl])
    (fun hK o ho => by obtain rfl := Option.some.inj (now.symm.trans ho); exact home hK) fun _ _ _ _ => by simp
  have gone : ticket? (copied n m tk d) n = none := by rw [copied_ticket hk hm, if_neg hne, if_pos rfl]
  refine ⟨⟨first.record freed (fun p hp => ?_) (fun _ _ => Iff.rfl) (fun _ o ho => absurd (gone.symm.trans ho) (by simp))
    fun _ o ho => absurd (gone.symm.trans ho) (by simp), fun hK y => ?_⟩, h.books.copies hk hm hf hX gen low⟩
  · exact told.resting_unplaced hk hw p ((created.standsAt n p).mp hp)
  · rw [freed.station, created.station]
    exact h.arranged.fits hK y

/-- What a group shows of its life besides its list. -/
def Group.phase (gr : Group) : GroupState × Option Nat :=
  (gr.state, gr.dieAt)

theorem requestCopy_cases (n : Nat) (tk : Ticket) (s : State) :
    requestCopy n tk s = (s, .noTickets) ∨ (∃ d, OnlyStock s d ∧ requestCopy n tk s = (d, .noStock))
      ∨ ∃ d m, OnlyStock s d ∧ 0 < s.ticketPool.free ∧ m = d.tickets.firstAbsent
        ∧ requestCopy n tk s = ((offer m (copied n m tk d)).1, .made m (offer m (copied n m tk d)).2) := by
  have stock := copyDraw_stock tk.component tk.quantity s
  by_cases hf : s.ticketPool.free = 0
  · exact .inl (by rw [requestCopy, if_pos hf])
  · right
    rcases hd : copyDraw tk.component tk.quantity s with ⟨d, _ | _⟩ <;> rw [hd] at stock
    · exact .inl ⟨d, stock, by rw [requestCopy, if_neg hf, hd]⟩
    · exact .inr ⟨d, _, stock, Nat.pos_of_ne_zero hf, rfl, requestCopy_eq (Nat.pos_of_ne_zero hf) hd⟩

theorem OnlyStock.ticket_get (h : OnlyStock s d) (n : Nat) : ticket? d n = ticket? s n := by
  rw [h.rest]
  rfl

theorem OnlyStock.group_get (h : OnlyStock s d) (g : Nat) : group? d g = group? s g := by
  rw [h.rest]
  rfl

/-- What the request for a copy leaves of the other tickets and of the groups. -/
theorem requestCopy_leaves (hk : ticket? s n = some tk) :
    (∀ l ≠ n, ∀ o, ticket? s l = some o → ticket? (requestCopy n tk s).1 l = some o)
      ∧ ∀ l, (group? (requestCopy n tk s).1 l).map Group.phase = (group? s l).map Group.phase := by
  rcases requestCopy_cases n tk s with e | ⟨d, stock, e⟩ | ⟨d, m, stock, -, hm, e⟩ <;> rw [e]
  · exact ⟨fun _ _ _ ho => ho, fun _ => rfl⟩
  · exact ⟨fun l _ o ho => (stock.ticket_get l).trans ho, fun l => by rw [stock.group_get]⟩
  · have absent : ticket? d m = none := hm ▸ d.tickets.firstAbsent_spec.1
    have live : ticket? d n = some tk := (stock.ticket_get n).trans hk
    refine ⟨fun l hl o ho => ?_, fun l => ?_⟩
    · have ho : ticket? d l = some o := (stock.ticket_get l).trans ho
      have hlm : l ≠ m := by
        rintro rfl
        exact absurd (absent.symm.trans ho) (by simp)
      rw [offer_others _ hlm, copied_ticket live absent, if_neg hlm, if_neg hl]
      exact ho
    · rw [group?, (offer_places m _).groups, ← group?, copied_group live absent, Option.map_map, stock.group_get]
      refine Option.map_congr fun gr _ => ?_
      simp only [Function.comp_apply]
      split <;> rfl

/-- The request for a copy of a ticket that waits no more. -/
theorem Kept.requestsCopy (h : Kept K [] X C s) (hk : ticket? s n = some tk) (hw : ¬tk.Waits)
    (hX : X = some tk.group ∨ tk.state = .dead) (gen : K.timed → tk.generation ≤ 2) : Kept K [] X C (requestCopy n tk s).1 := by
  rcases requestCopy_cases n tk s with e | ⟨d, stock, e⟩ | ⟨d, m, stock, hf, hm, e⟩ <;> rw [e]
  · exact h
  · exact h.stock stock
  · have drawn := h.stock stock
    have absent : ticket? d m = none := hm ▸ d.tickets.firstAbsent_spec.1
    have pool : d.ticketPool = s.ticketPool := by rw [stock.rest]
    have live : ticket? d n = some tk := (stock.ticket_get n).trans hk
    have low : K.timed → m < 4096 := fun hK => by
      have counts := drawn.books.counts (K.timed_whole hK)
      have whole : _ = 4096 := counts.pools.1
      have count := counts.tickets
      have := firstAbsent_le_length d.tickets
      rw [← pool] at hf
      omega
    have made := drawn.copies live absent hw (pool ▸ hf) hX gen low
    exact made.offers (by simp) (tk := copyOf d tk) (by rw [copied_ticket live absent, if_pos rfl]) (.inr (.inl rfl))

/-! ## Automatic remakes (R152, R154) -/

theorem Ticket.not_waits_of_dead (h : tk.state = .dead) : ¬tk.Waits := by
  rintro (e | e | e | e) <;> simp [h] at e

theorem Ticket.not_waits_of_ready (h : tk.state = .ready) : ¬tk.Waits := by
  rintro (e | e | e | e) <;> simp [h] at e

theorem Ticket.not_waits_of_withdrawn (h : tk.state = .withdrawn) : ¬tk.Waits := by
  rintro (e | e | e | e) <;> simp [h] at e

theorem Kept.escalates (g n : Nat) (tk : Ticket) (cause : EscalationCause) (source : RemakeSource) (h : Kept K F X C s) :
    Kept K F X C (escalate g n tk cause source s) := by
  unfold escalate
  refine Kept.notice (h.restatesGroup _ ?_ ?_) _
  · exact fun _ => rfl
  · exact .inr fun _ => ⟨rfl, rfl⟩

/-- An automatic remake of a DEAD ticket. -/
theorem Kept.remakes (g : Nat) (source : RemakeSource) (h : Kept K [] X C s) (hd : ∀ tk, ticket? s n = some tk → tk.state = .dead) :
    Kept K [] X C (automaticRemake g n source s).1 := by
  unfold automaticRemake
  split
  · exact h
  · rename_i tk hk
    have dead := hd tk hk
    split
    · exact h.escalates g n tk _ _
    · rename_i hg
      have asked := h.requestsCopy hk (Ticket.not_waits_of_dead dead) (.inr dead) fun _ => by omega
      split <;> rename_i e <;> rw [e] at asked
      · exact asked
      · exact asked.escalates g n tk _ _
      · exact asked.escalates g n tk _ _

theorem escalate_leaves (g n : Nat) (tk : Ticket) (cause : EscalationCause) (source : RemakeSource) (s : State) (l : Nat) :
    ticket? (escalate g n tk cause source s) l = ticket? s l
      ∧ (group? (escalate g n tk cause source s) l).map Group.phase = (group? s l).map Group.phase := by
  refine ⟨by simp [escalate], ?_⟩
  rw [escalate, pushNotice_group_get]
  refine updGroup_map Group.phase ?_ l
  exact fun _ => rfl

theorem automaticRemake_leaves (g n : Nat) (source : RemakeSource) (s : State) :
    (∀ l ≠ n, ∀ o, ticket? s l = some o → ticket? (automaticRemake g n source s).1 l = some o)
      ∧ ∀ l, (group? (automaticRemake g n source s).1 l).map Group.phase = (group? s l).map Group.phase := by
  unfold automaticRemake
  split
  · exact ⟨fun _ _ _ ho => ho, fun _ => rfl⟩
  · rename_i tk hk
    have escalated := escalate_leaves g n tk
    split
    · exact ⟨fun l _ o ho => (escalated _ _ s l).1.trans ho, fun l => (escalated _ _ s l).2⟩
    · obtain ⟨tickets, groups⟩ := requestCopy_leaves hk
      split <;> rename_i e <;> rw [e] at tickets groups
      · exact ⟨tickets, groups⟩
      · exact ⟨fun l hl o ho => (escalated _ _ _ l).1.trans (tickets l hl o ho), fun l => (escalated _ _ _ l).2.trans (groups l)⟩
      · exact ⟨fun l hl o ho => (escalated _ _ _ l).1.trans (tickets l hl o ho), fun l => (escalated _ _ _ l).2.trans (groups l)⟩

/-- Automatic remakes of DEAD tickets, one after another. -/
theorem Kept.remakesAll (g : Nat) (source : RemakeSource) (ns : List Nat) (h : Kept K [] X C s) (hd : ns.Nodup)
    (hn : ∀ n ∈ ns, ∃ tk, ticket? s n = some tk ∧ tk.state = .dead) :
    Kept K [] X C (automaticRemakes g source ns s).1
      ∧ ∀ l, (group? (automaticRemakes g source ns s).1 l).map Group.phase = (group? s l).map Group.phase := by
  unfold automaticRemakes
  generalize 0 = k
  induction ns generalizing s k with
  | nil => exact ⟨h, fun _ => rfl⟩
  | cons n ns ih =>
    obtain ⟨fresh, hd⟩ := List.nodup_cons.mp hd
    obtain ⟨tk, hk, dead⟩ := hn n (List.mem_cons_self ..)
    have made := h.remakes (n := n) g source fun o ho => by
      obtain rfl := Option.some.inj (hk.symm.trans ho)
      exact dead
    obtain ⟨tickets, groups⟩ := automaticRemake_leaves g n source s
    rw [List.foldl_cons]
    obtain ⟨kept, phases⟩ := ih (s := (automaticRemake g n source s).1) made hd (fun l hl => by
      obtain ⟨o, ho, hdead⟩ := hn l (List.mem_cons_of_mem _ hl)
      exact ⟨o, tickets l (fun e => fresh (e ▸ hl)) o ho, hdead⟩) (if (automaticRemake g n source s).2 then k + 1 else k)
    exact ⟨kept, fun l => (phases l).trans (groups l)⟩

/-! ## Die expiries (R151) -/

theorem makeDead_ticket (g n l : Nat) (s : State) : ticket? (makeDead g n s) l
    = if l = n then (ticket? s l).map fun tk => { tk with state := .dead, readyAt := none } else ticket? s l := by
  rw [makeDead, (sendRecord_only _ _ _).ticket_get, ticket_get_updTicket]

/-- Tickets of a group, at rest, become DEAD one after another. -/
theorem Kept.deadens (ns : List Nat) (h : Kept K [] (some g) C s)
    (hn : ∀ n ∈ ns, ∃ tk, ticket? s n = some tk ∧ tk.group = g ∧ ¬tk.Waits) :
    let t := ns.foldl (fun s n => makeDead g n s) s
    Kept K [] (some g) C t ∧ t.groups = s.groups ∧ ∀ n tk, ticket? s n = some tk →
      ∃ o, ticket? t n = some o ∧ (n ∈ ns ∨ tk.state = .dead → o.state = .dead) := by
  induction ns generalizing s with
  | nil => exact ⟨h, rfl, fun n tk hk => ⟨tk, hk, fun e => e.resolve_left (by simp)⟩⟩
  | cons n ns ih =>
    obtain ⟨tk, hk, hg, hw⟩ := hn n (List.mem_cons_self ..)
    have dead : Kept K [] (some g) C (makeDead g n s) := by
      refine Kept.lines (h.rests _ (fun _ => rfl) hk (h.arranged.seated.standing.told.resting_unplaced hk hw) (fun _ _ => Iff.rfl)
        (Ticket.not_waits_of_dead rfl) (.inl (by rw [hg]))) (sendRecord_only _ _ _)
    obtain ⟨kept, groups, tickets⟩ := ih dead fun l hl => by
      obtain ⟨o, ho, hgo, hwo⟩ := hn l (List.mem_cons_of_mem _ hl)
      rw [makeDead_ticket, ho]
      split
      · exact ⟨_, rfl, hgo, Ticket.not_waits_of_dead rfl⟩
      · exact ⟨o, rfl, hgo, hwo⟩
    refine ⟨kept, groups.trans (sendRecord_only _ _ _).groups, fun l o ho => ?_⟩
    have next : ∃ o', ticket? (makeDead g n s) l = some o' ∧ (l = n ∨ o.state = .dead → o'.state = .dead) := by
      rw [makeDead_ticket, ho]
      split
      · exact ⟨_, rfl, fun _ => rfl⟩
      · exact ⟨o, rfl, fun e => e.resolve_left ‹_›⟩
    obtain ⟨o', ho', hst⟩ := next
    obtain ⟨o'', ho'', hst'⟩ := tickets l o' ho'
    refine ⟨o'', ho'', fun e => hst' ?_⟩
    rcases e with e | e
    · rcases List.mem_cons.mp e with e | e
      · exact .inr (hst (.inl e))
      · exact .inl e
    · exact .inr (hst (.inr e))

/-- The die expiry of a group not COMPLETE. -/
theorem Kept.diesOut (h : Kept K [] none C s)
    (hne : ∀ gr, group? s g = some gr → gr.state ≠ .complete ∧ (K.timed → gr.state = .assembling)) :
    Kept K [] none C (dieExpiry g s) := by
  unfold dieExpiry
  split
  · exact h
  · rename_i gr hg
    have listed := h.books.grouped.listed
    have dying : ∀ n ∈ gr.tickets.filter (hasDied s), ∃ tk, ticket? s n = some tk ∧ tk.group = g ∧ ¬tk.Waits := by
      intro n hn
      obtain ⟨hin, hdied⟩ := List.mem_filter.mp hn
      obtain ⟨d, -, tk, r, c, hk, hst, -⟩ := (hasDied_iff s n).mp hdied
      have hgo := listed.members g gr hg n hin
      rw [hk] at hgo
      exact ⟨tk, hk, Option.some.inj hgo, Ticket.not_waits_of_ready hst⟩
    obtain ⟨dead, groups, tickets⟩ := (h.exempts (some g)).deadens _ dying
    obtain ⟨remade, phases⟩ := dead.remakesAll g .die _ ((listed.nodup g gr hg).filter _) fun n hn => by
      obtain ⟨tk, hk, -⟩ := dying n hn
      obtain ⟨o, ho, hst⟩ := tickets n tk hk
      exact ⟨o, ho, hst (.inl hn)⟩
    dsimp only
    refine ((remade.lines (sendGroupUp_lines g _)).notice _).concludes fun gr' hg' => ?_
    have phase := phases g
    have same : group? ((gr.tickets.filter (hasDied s)).foldl (fun s n => makeDead g n s) s) g = some gr := by
      rw [group?, groups, ← group?, hg]
    rw [same, Option.map_some] at phase
    rw [pushNotice_group_get, group?, (sendGroupUp_lines g _).groups, ← group?] at hg'
    rw [hg', Option.map_some] at phase
    have state : gr'.state = gr.state := congrArg Prod.fst (Option.some.inj phase)
    rw [state]
    exact hne gr hg

theorem dieDue_dieAt (h : dieDue s g = true) (hg : group? s g = some gr) : gr.dieAt ≠ none := by
  intro e
  simp [dieDue, hg, e] at h

/-- A die expiry, if it is due. -/
theorem Kept.diesIfDue (g : Nat) (h : Kept K [] none C s) : Kept K [] none C (dieExpiryIfDue g s) := by
  unfold dieExpiryIfDue
  split
  · rename_i hdue
    refine h.diesOut fun gr hg => ?_
    have some' := dieDue_dieAt hdue hg
    refine ⟨fun hst => some' (h.books.grouped.complete g gr hg (by simp) hst).1, fun hK => ?_⟩
    by_contra hst
    exact some' ((h.books.grouped.dies hK g gr hg (by simp)).2.2 hst)
  · exact h

/-! ## Refires (R157, R158) -/

/-- A group's change after the copy that a REFIRE asked for. -/
theorem Kept.refiresGroup (h : Kept K [] (some g) C s)
    (hp : K.timed → ∀ gr, group? s g = some gr → gr.state = .pending → gr.dieAt = none) : Kept K [] none C (refireGroup g s) := by
  unfold refireGroup
  split
  · rename_i hg
    exact h.closes fun gr e => absurd (hg.symm.trans e) (by simp)
  · rename_i gr hg
    split
    · rename_i hst
      refine h.closes fun gr' e => ?_
      obtain rfl := Option.some.inj (hg.symm.trans e)
      exact ⟨fun e => absurd (hst.symm.trans e) (by simp), fun hK => ⟨fun e => absurd (hst.symm.trans e) (by simp),
        fun e => absurd (hst.symm.trans e) (by simp), fun _ => hp hK gr hg hst⟩⟩
    · rename_i hst
      refine (h.lines (sendGroupUp_lines g _)).concludes fun gr' hg' => ?_
      rw [group?, (sendGroupUp_lines g _).groups, ← group?, hg] at hg'
      obtain rfl := Option.some.inj hg'
      exact ⟨by simp [hst], fun _ => hst⟩
    · have opened : Kept K [] (some g) C (updGroup g (fun gr =>
          { gr with state := .assembling, pickupAt := none, unpickedReported := false }) s) :=
        h.restatesGroup _ (fun _ => rfl) (.inl rfl)
      have waiting := opened.lines (sendRecord_only .pass (.waitGroup g) _)
      refine Kept.diesIfDue g ((waiting.lines (sendGroupUp_lines g _)).concludes fun gr' hg' => ?_)
      rw [group?, (sendGroupUp_lines g _).groups, (sendRecord_only .pass (.waitGroup g) _).groups, ← group?, group_get_updGroup,
        if_pos rfl, hg, Option.map_some] at hg'
      obtain rfl := Option.some.inj hg'
      exact ⟨by simp, fun _ => rfl⟩

/-- A REFIRE of a ticket that can be refired. -/
theorem Kept.refires (h : Kept K [] none C s) (hk : groupTicket s g n = some tk) (hr : refirable tk = true) :
    Kept K [] none C (refireTicket g n tk s).1 := by
  obtain ⟨gr, hg, hin, hk⟩ := groupTicket_eq_some.mp hk
  obtain ⟨hst, gen⟩ := (refirable_iff tk).mp hr
  have hgo : tk.group = g := by
    have := h.books.grouped.listed.members g gr hg n hin
    rw [hk] at this
    exact Option.some.inj this
  have hw : ¬tk.Waits := hst.elim Ticket.not_waits_of_ready Ticket.not_waits_of_dead
  have asked := (h.exempts (some g)).requestsCopy hk hw (.inl (by rw [hgo])) fun _ => gen
  obtain ⟨-, phases⟩ := requestCopy_leaves hk
  unfold refireTicket
  rcases requestCopy_cases n tk s with e | ⟨d, stock, e⟩ | ⟨d, m, stock, hf, hm, e⟩ <;> rw [e] at asked phases ⊢
  · exact h
  · exact h.stock stock
  · refine asked.refiresGroup fun hK gr' hg' hp => ?_
    have phase := phases g
    rw [hg, hg', Option.map_some, Option.map_some] at phase
    have e : gr'.state = gr.state ∧ gr'.dieAt = gr.dieAt := by
      simpa [Group.phase] using phase
    rw [e.2]
    exact (h.books.grouped.dies hK g gr hg (by simp)).2.2 fun hst => by
      rw [e.1, hst] at hp
      cases hp

/-! ## READY and SPOIL (R114, R115, R153) -/

/-- A ticket at a station changes its state, waits no more, and leaves the station. -/
theorem Kept.leavesAs (f : Ticket → Ticket) (hf : Ticket.Restates f) (hw : ¬(f tk).Waits) (h : Kept K [] X C s)
    (hk : ticket? s n = some tk) (hst : tk.state = .queued ∨ tk.state = .onLine) (r : LineRecord)
    (hX : X = some tk.group ∨ tk.state ≠ .ready ∧ tk.state ≠ .withdrawn ∧ (f tk).state ≠ .ready) :
    Kept K [] X C (leaveStation n tk r (updTicket n f s)).1 ∧ ticket? (leaveStation n tk r (updTicket n f s)).1 n = some (f tk) := by
  have seated := h.arranged.seated
  have told := seated.standing.told
  have now : ticket? (updTicket n f s) n = some (f tk) := by rw [ticket_get_updTicket, if_pos rfl, hk, Option.map_some]
  have toldBut : ToldBut n (updTicket n f s) := (Moves.ofTicket n f s).toldBut (told.but n)
  have places : ∀ p, StandsAt (updTicket n f s) n p → Names tk p := fun p hp =>
    told.names hk (((RecordOnly.updTicket n f s).standsAt n p).mp hp)
  have shuffles := leaveStation_shuffles r toldBut places hst
  have home : K.whole → (f tk).homeStation < 24 := fun hK => by
    rw [hf]
    exact seated.standing.homes hK n tk hk
  have rest : ∀ {u : State}, Seated K [n] u ∨ Seated K [] u → Unplaced u n → ticket? u n = some tk → Seated K [] (updTicket n f u) := by
    intro u hs hu hku
    have now : ticket? (updTicket n f u) n = some (f tk) := by rw [ticket_get_updTicket, if_pos rfl, hku, Option.map_some]
    have homes : K.whole → ∀ o, ticket? (updTicket n f u) n = some o → o.homeStation < 24 := fun hK o ho => by
      obtain rfl := Option.some.inj (now.symm.trans ho)
      exact home hK
    have waits : K.whole → ∀ o, ticket? (updTicket n f u) n = some o → o.Waits → n ∈ ([] : List Nat) := fun _ o ho hwo => by
      obtain rfl := Option.some.inj (now.symm.trans ho)
      exact absurd hwo hw
    rcases hs with hs | hs
    · exact hs.record (.updTicket n f u) hu (fun m hm => by simp [hm]) homes waits
    · exact hs.record (.updTicket n f u) hu (fun m hm => Iff.rfl) homes waits
  have standsAtStation : K.whole → ∃ p : Spot, StandsAt s n (.station tk.station p) ∧ Names tk (.station tk.station p) := fun hK => by
    obtain ⟨p, hp⟩ := seated.standing.waits hK n tk hk (hst.elim (fun e => .inr (.inr (.inl e))) fun e => .inr (.inr (.inr e))) (by simp)
    have names := told.names hk hp
    rcases p with _ | ⟨y, _ | _ | i⟩
    · rcases hst with e | e <;> exact absurd (e.symm.trans names) (by simp)
    · rcases hst with e | e <;> exact absurd (e.symm.trans names.1) (by simp)
    · exact ⟨.queue, names.2 ▸ hp, names.1, rfl⟩
    · exact ⟨.position i, names.2.1 ▸ hp, names.1, rfl, names.2.2⟩
  refine ⟨⟨Arranged.leavesStation r hst (fun p names => ?_) (fun ho hp => ?_) h.arranged.fits (fun hK => ?_) fun hK i ho hp => ?_,
    shuffles.books (h.books.restatesTicket f hf hk hX)⟩, shuffles.resting now hw⟩
  · have freed := seated.frees (by simp) hk names
    exact rest (u := updStation tk.station (p.freed n) s) (.inl freed) (freed.standing.floating n (by simp)) hk
  · have unplaced : Unplaced s n := fun p hp' => by
      have names := told.names hk hp'
      rcases p with _ | ⟨y, _ | _ | i⟩
      · exact absurd (ho.symm.trans names) (by simp)
      · exact absurd (ho.symm.trans names.1) (by simp)
      · exact absurd (ho.symm.trans names.1) (by simp)
      · exact absurd (hp.symm.trans names.2.2) (by simp)
    exact ⟨rest (.inr seated) unplaced hk, h.arranged.fits⟩
  · obtain ⟨p, hp, -⟩ := standsAtStation hK
    exact ⟨hp.lt_length, seated.standing.length⟩
  · obtain ⟨p, hp', names⟩ := standsAtStation hK
    have hp' : StandsAt s n (.station tk.station (.position i)) := by
      have named : Names tk (.station tk.station (.position i)) := ⟨ho, rfl, hp⟩
      rwa [← names.unique named]
    exact (List.getElem?_eq_some_iff.mp hp').1

theorem atStation_some (h : atStation s x n = some tk) :
    ticket? s n = some tk ∧ tk.station = x ∧ (tk.state = .queued ∨ tk.state = .onLine) := by
  unfold atStation at h
  split at h
  · split at h
    · rename_i hk hc
      obtain rfl := Option.some.inj h
      exact ⟨hk, hc⟩
    · cases h
  · cases h

/-- A group with a waiting ticket is not COMPLETE. -/
theorem Grouped.not_complete (h : Grouped K none s) (hk : ticket? s n = some tk) (hst : tk.state ≠ .ready ∧ tk.state ≠ .withdrawn)
    (hg : group? s tk.group = some gr) : gr.state ≠ .complete := by
  intro e
  obtain ⟨gr', hg', hin⟩ := h.listed.listed n tk hk
  obtain rfl := Option.some.inj (hg.symm.trans hg')
  have := (h.complete _ gr hg (by simp) e).2 n hin
  simp [InState, hk, hst.1, hst.2] at this

theorem atStation_state (hst : tk.state = .queued ∨ tk.state = .onLine) : tk.state ≠ .ready ∧ tk.state ≠ .withdrawn := by
  rcases hst with e | e <;> simp [e]

theorem Kept.readies (x n : Nat) (h : Kept K [] none C s) : Kept K [] none C (takeReady x n s) := by
  unfold takeReady
  split
  · split
    · rename_i tk hat
      obtain ⟨hk, -, hst⟩ := atStation_some hat
      obtain ⟨left, -⟩ := (h.exempts (some tk.group)).leavesAs
        (fun tk => { tk with state := .ready, readyAt := some s.clock, position := none })
        (fun _ => rfl) (Ticket.not_waits_of_ready rfl) hk hst (.doneTicket n) (.inl rfl)
      unfold applyReady
      dsimp only
      refine (left.arrives n fun gr hg => ?_).drainsIf _ _
      rw [group?, (leaveStation_places n tk _ _).groups, ← group?] at hg
      exact h.books.grouped.not_complete hk (atStation_state hst) hg
    · exact h.lines (sendRecord_only _ _ _)
  · exact h

theorem Kept.showsSpoil (g : Nat) (h : Kept K [] none C s) : Kept K [] none C (showSpoil g s) := by
  unfold showSpoil
  split
  · exact h
  · rename_i gr hg
    split
    · rename_i hst
      have shown := h.lines (sendGroupUp_lines g s)
      have hg : group? (sendGroupUp g s) g = some gr := by rw [group?, (sendGroupUp_lines g s).groups, ← group?, hg]
      exact (shown.exempts (some g)).completes hg hst fun hK => (shown.books.grouped.dies hK g gr hg (by simp)).2.1 hst
    · exact h

theorem Kept.spoils (x n : Nat) (h : Kept K [] none C s) : Kept K [] none C (takeSpoil x n s) := by
  unfold takeSpoil
  split
  · split
    · rename_i tk hat
      obtain ⟨hk, -, hst⟩ := atStation_some hat
      obtain ⟨hr, hwd⟩ := atStation_state hst
      obtain ⟨left, now⟩ := h.leavesAs (fun tk => { tk with state := .dead, position := none }) (fun _ => rfl)
        (Ticket.not_waits_of_dead rfl) hk hst (.doneTicket n) (.inr ⟨hr, hwd, by simp⟩)
      have remade := left.remakes (n := n) tk.group .spoil fun o ho => by
        obtain rfl := Option.some.inj (now.symm.trans ho)
        rfl
      exact (remade.showsSpoil tk.group).drainsIf _ _
    · exact h.lines (sendRecord_only _ _ _)
  · exact h

end Sys2Proof.Machine
end


section
/-!
PROOFS. Withdrawals and freed groups keep the invariant (R87, R100, R163).
-/

namespace Sys2Proof.Machine

variable {K : Scope} {F F' : List Nat} {X C : Option Nat} {g n m x : Nat} {s t : State} {tk : Ticket} {gr : Group} {how : Ending}

/-! ## What a withdrawal undoes (R100) -/

theorem RecordOnly.refl (n : Nat) (s : State) : RecordOnly n s s :=
  ⟨rfl, rfl, rfl, rfl, rfl, fun _ _ => rfl⟩

/-- A ticket that stands nowhere is to be placed. -/
theorem Kept.floats (h : Kept K F X C s) (hu : Unplaced s n) : Kept K (n :: F) X C s :=
  ⟨⟨h.arranged.seated.record (.refl n s) hu (fun _ hm => mem_cons_iff_of_ne hm) (fun hK => h.arranged.seated.standing.homes hK n)
    fun _ _ _ _ => List.mem_cons_self .., h.arranged.fits⟩, h.books⟩

theorem Told.unplaced_of_not_mem (h : Told s) (hk : ticket? s n = some tk) (hst : tk.state = .calendared) (hn : n ∉ s.calendar) :
    Unplaced s n := fun p hp => by
  obtain rfl := (h.names hk hp).unique (q := .calendar) hst
  exact hn hp

theorem leaveCalendar_shuffles (n : Nat) (s : State) : Shuffles s (leaveCalendar n s) :=
  ⟨rfl, rfl, rfl, rfl, rfl, rfl, rfl, fun _ => rfl, fun _ => rfl, id, fun _ => .inl rfl⟩

/-- A CALENDARED ticket leaves the calendar. -/
theorem Kept.leavesCalendar (h : Kept K F X C s) (hk : ticket? s n = some tk) (hst : tk.state = .calendared) :
    Kept K (n :: F) X C (leaveCalendar n s) := by
  by_cases hn : n ∈ s.calendar
  · exact ⟨⟨h.arranged.seated.leavesCalendar hn, h.arranged.fits⟩, (leaveCalendar_shuffles n s).books h.books⟩
  · have same : leaveCalendar n s = s := by
      rw [leaveCalendar, removeNumber, List.filter_eq_self.mpr fun m hm => decide_eq_true (ne_of_mem_of_not_mem hm hn)]
    rw [same]
    exact h.floats (h.arranged.seated.standing.told.unplaced_of_not_mem hk hst hn)

/-- A BLOCKED ticket leaves its home station's list. -/
theorem Kept.unblocks (h : Kept K F X C s) (hn : n ∉ F) (hk : ticket? s n = some tk) (hst : tk.state = .blocked) :
    Kept K (n :: F) X C (leaveBlocked tk.homeStation n s) := by
  refine ⟨⟨h.arranged.seated.frees (p := .blocked) hn hk ⟨hst, rfl⟩, fun hK => fits_updStation (h.arranged.fits hK) fun _ => ?_⟩,
    (leaveBlocked_shuffles _ n s).books h.books⟩
  obtain ⟨positions, queue, full⟩ := h.arranged.fits hK tk.homeStation
  exact ⟨positions, queue, full⟩

/-- A ticket's place and quantity are undone; it is to be placed, and keeps its record. -/
theorem Kept.undoes (h : Kept K F X C s) (hn : n ∉ F) (hk : ticket? s n = some tk) : Kept K (n :: F) X C (undoTicket n tk s).1 := by
  have resting : ¬tk.Waits → Kept K (n :: F) X C s := fun hw => h.floats (h.arranged.seated.standing.told.resting_unplaced hk hw)
  unfold undoTicket
  split
  · exact (h.leavesCalendar hk ‹_›).stock (returnStock_stock _ _ _)
  · exact (h.unblocks hn hk ‹_›).stock (returnStock_stock _ _ _)
  · exact (h.leavesStation hn hk (.inl ‹_›) _).stock (returnStock_stock _ _ _)
  · exact h.leavesStation hn hk (.inr ‹_›) _
  · exact resting (Ticket.not_waits_of_ready ‹_›)
  · exact resting (Ticket.not_waits_of_dead ‹_›)
  · exact resting (Ticket.not_waits_of_withdrawn ‹_›)

/-! ## Withdraw and keep (R100) -/

theorem undoTicket_state (h : Told s) (hk : ticket? s n = some tk) (hr : tk.state ≠ .ready) (hw : tk.state ≠ .withdrawn) :
    ∃ o, ticket? (undoTicket n tk s).1 n = some o ∧ o.state ≠ .ready ∧ o.state ≠ .withdrawn := by
  rcases (undoTicket_carries h hk).1.tickets n with e | ⟨o, o', -, ho', -, hst, -⟩
  · exact ⟨tk, e.trans hk, hr, hw⟩
  · exact ⟨o', ho', atStation_state hst⟩

/-- A ticket is withdrawn and kept. -/
theorem Kept.withdrawsKept (h : Kept K [] X C s) (hk : ticket? s n = some tk) : Kept K [] X C (withdrawKeep n s) := by
  by_cases hpass : tk.state = .ready ∨ tk.state = .withdrawn
  · rw [withdrawKeep_passes hk hpass]
    exact h
  obtain ⟨hr, hw⟩ := not_or.mp hpass
  have told := h.arranged.seated.standing.told
  obtain ⟨o, ho, hr', hw'⟩ := undoTicket_state told hk hr hw
  rw [withdrawKeep_eq hk hr hw]
  exact Kept.drainsAfter _ ((h.undoes (by simp) hk).rests Ticket.kept (fun _ => rfl) ho (undoTicket_carries told hk).2
    (fun l hl => by simp [hl]) (Ticket.not_waits_of_withdrawn rfl) (.inr ⟨hr', hw', by simp [Ticket.kept]⟩))

/-- Tickets are withdrawn and kept, one after another. -/
theorem Kept.withdrawsKeptAll (ns : List Nat) (h : Kept K [] X C s) (hg : group? s g = some gr) (hn : ns ⊆ gr.tickets) :
    Kept K [] X C (ns.foldl (fun s t => withdrawKeep t s) s) := by
  induction ns generalizing s with
  | nil => exact h
  | cons n ns ih =>
    obtain ⟨tk, hk, -⟩ := Option.map_eq_some_iff.mp (h.books.grouped.listed.members g gr hg n (hn (List.mem_cons_self ..)))
    refine ih (h.withdrawsKept hk) ?_ fun l hl => hn (List.mem_cons_of_mem _ hl)
    rw [group?, (withdrawKeep_undoes n s).groups]
    exact hg

/-! ## Freed tickets (R87) -/

/-- A ticket of the group being changed, which stands nowhere, is freed. -/
theorem Kept.freesTicket (h : Kept K F (some g) C s) (hk : ticket? s n = some tk) (hg : tk.group = g) (hu : Unplaced s n)
    (hF : ∀ m ≠ n, m ∈ F' ↔ m ∈ F) : Kept K F' (some g) C (freeTicket n s) := by
  have gone : ticket? (freeTicket n s) n = none := by rw [freeTicket_ticket hk, if_pos rfl]
  have others : ∀ m ≠ n, ticket? (freeTicket n s) m = ticket? s m := fun m hm => by rw [freeTicket_ticket hk, if_neg hm]
  have back : ∀ m o, ticket? (freeTicket n s) m = some o → ticket? s m = some o := fun m o ho => by
    have hm : m ≠ n := by
      rintro rfl
      exact absurd (gone.symm.trans ho) (by simp)
    exact (others m hm).symm.trans ho
  have groups := freeTicket_group hk
  have record : RecordOnly n s (freeTicket n s) := by
    refine ⟨?_, ?_, ?_, ?_, ?_, others⟩ <;> rw [freeTicket_eq hk]
  have tickets : (freeTicket n s).tickets.rising = true := by
    rw [freeTicket_eq hk]
    exact Store.rising_erase n h.books.grouped.tickets
  have rising : (freeTicket n s).groups.rising = true := by
    rw [freeTicket_eq hk]
    exact Store.rising_update _ _ h.books.grouped.groups
  have only : GroupOnly g s (freeTicket n s) := by
    refine ⟨fun l hl => ?_, fun m o ho hne => (others m ?_).trans ho, fun m o ho _ => back m o ho, fun c => by rw [freeTicket_eq hk]; rfl⟩
    · rw [groups, hg]
      simp [hl]
    · rintro rfl
      exact hne (Option.some.inj (hk.symm.trans ho) ▸ hg)
  have was : ∀ l gr, group? (freeTicket n s) l = some gr → ∃ o, group? s l = some o ∧ o.key = gr.key ∧ o.goTime = gr.goTime :=
    fun l gr hl => by
      obtain ⟨o, ho, rfl⟩ := Option.map_eq_some_iff.mp ((groups l).symm.trans hl)
      exact ⟨o, ho, by split <;> rfl, by split <;> rfl⟩
  refine ⟨⟨h.arranged.seated.record record hu hF (fun _ o ho => absurd (gone.symm.trans ho) (by simp))
    fun _ o ho => absurd (gone.symm.trans ho) (by simp), fun hK y => ?_⟩, fun hK => ⟨fun m o ho => ?_, fun l gr hl => ?_⟩, ?_, fun hK => ?_⟩
  · rw [record.station]
    exact h.arranged.fits hK y
  · exact (h.books.numbered hK).tickets m o (back m o ho)
  · obtain ⟨o, ho, -⟩ := was l gr hl
    exact (h.books.numbered hK).groups l o ho
  · refine h.books.grouped.regrouped only tickets rising (h.books.grouped.listed.freed hk gone (fun m hm => by rw [others m hm]) groups)
      (fun hne => absurd rfl hne) (fun _ hne => absurd rfl hne) fun hK m o ho hgo gr hl => ?_
    obtain ⟨gr', hl', key, go⟩ := was g gr hl
    have := h.books.grouped.same hK m o (back m o ho) gr' (hgo ▸ hl')
    rwa [show gr'.wave = gr.wave from congrArg Prod.fst key, show gr'.table = gr.table from congrArg (·.2.1) key, go] at this
  · have counts := h.books.counts hK
    have length : (freeTicket n s).tickets.length + 1 = s.tickets.length :=
      Store.length_of_removed h.books.grouped.tickets tickets (by rw [← ticket?, hk]; rfl) gone fun l hl => congrArg _ (others l hl)
    have live := counts.tickets
    have pool : (freeTicket n s).ticketPool = s.ticketPool.release := by rw [freeTicket_eq hk]
    refine counts.recounted ⟨?_, ?_, ?_, ?_, fun u => ?_, ?_, ?_, ?_, fun l => ?_⟩ h.books.grouped.groups rising ?_
    iterate 6 rw [freeTicket_eq hk]; try rfl
    · rw [pool]
      rfl
    · rw [pool]
      simp only [Pool.release]
      omega
    · rw [groups, Option.map_map]
      refine Option.map_congr fun gr _ => ?_
      simp only [Function.comp_apply]
      split <;> rfl
    · rw [pool]
      simp only [Pool.release]
      omega

/-- What the list of a group is once its first ticket has gone. -/
theorem unlisted_head {ns : List Nat} (hd : (n :: ns).Nodup) : removeNumber n (n :: ns) = ns := by
  obtain ⟨fresh, -⟩ := List.nodup_cons.mp hd
  rw [removeNumber, List.filter_cons_of_neg (by simp)]
  exact List.filter_eq_self.mpr fun m hm => decide_eq_true fun e => fresh (e ▸ hm)

/-- The tickets of the group being changed, which stand nowhere, are freed. -/
theorem Kept.freesTickets (ns : List Nat) (h : Kept K [] (some g) C s) (hg : group? s g = some { gr with tickets := ns })
    (hu : ∀ n ∈ ns, Unplaced s n) :
    let t := ns.foldl (fun s t => freeTicket t s) s
    Kept K [] (some g) C t ∧ group? t g = some { gr with tickets := [] } := by
  induction ns generalizing s with
  | nil => exact ⟨h, hg⟩
  | cons n ns ih =>
    have listed := h.books.grouped.listed
    obtain ⟨tk, hk, hgo⟩ := Option.map_eq_some_iff.mp (listed.members g _ hg n (List.mem_cons_self ..))
    refine ih (h.freesTicket hk hgo (hu n (List.mem_cons_self ..)) fun _ _ => Iff.rfl) ?_ fun m hm p hp => ?_
    · rw [freeTicket_group hk, hg, Option.map_some, if_pos hgo.symm]
      dsimp only
      rw [unlisted_head (listed.nodup g _ hg)]
    · exact hu m (List.mem_cons_of_mem _ hm) p ((freeTicket_standsAt hk m p).mp hp)

/-- A ticket of the group being changed is withdrawn and freed. -/
theorem Kept.withdrawsFree (h : Kept K [] (some g) C s) (hk : ticket? s n = some tk) (hg : tk.group = g) :
    Kept K [] (some g) C (withdrawFree n s) := by
  have told := h.arranged.seated.standing.told
  obtain ⟨tk', hk', hg'⟩ := undoTicket_ticket told hk
  rw [withdrawFree_eq hk]
  exact ((h.undoes (by simp) hk).freesTicket hk' (hg'.trans hg) (undoTicket_carries told hk).2 fun l hl => by simp [hl]).drainsAfter _

/-- The tickets of the group being changed are withdrawn and freed. -/
theorem Kept.withdrawsFreeAll (ns : List Nat) (h : Kept K [] (some g) C s) (hg : group? s g = some { gr with tickets := ns }) :
    let t := ns.foldl (fun s t => withdrawFree t s) s
    Kept K [] (some g) C t ∧ group? t g = some { gr with tickets := [] } := by
  induction ns generalizing s with
  | nil => exact ⟨h, hg⟩
  | cons n ns ih =>
    have listed := h.books.grouped.listed
    obtain ⟨tk, hk, hgo⟩ := Option.map_eq_some_iff.mp (listed.members g _ hg n (List.mem_cons_self ..))
    refine ih (h.withdrawsFree hk hgo) ?_
    rw [(withdrawFree_carries h.arranged.seated.standing.told hk).2.2, hg, Option.map_some, if_pos hgo.symm]
    dsimp only
    rw [unlisted_head (listed.nodup g _ hg)]

end Sys2Proof.Machine
end


section
/-!
PROOFS. Groups that leave their slots keep the invariant (R58, R163).
-/

namespace Sys2Proof.Machine

variable {K : Scope} {F F' : List Nat} {X C : Option Nat} {g n m w x : Nat} {s t : State} {tk : Ticket} {gr : Group} {wv : Wave}
  {how : Ending}

/-! ## A group leaves its slot (R58, R163) -/

/-- The group, without tickets, has left its slot and its table, and its wave counts how it ended. -/
def dropped (g : Nat) (gr : Group) (how : Ending) (s : State) : State :=
  reportEnding gr.wave how { removeLiveCourse gr.table gr.course s with
    groups := s.groups.erase g, groupPool := s.groupPool.release }

theorem dropped_group (l : Nat) : group? (dropped g gr how s) l = if l = g then none else group? s l := by
  change Store.get? (s.groups.erase g) l = _
  split
  · rename_i e
    rw [e, Store.get?_erase_self]
  · exact Store.get?_erase_of_ne _ ‹_›

theorem dropped_wave (w : Nat) : wave? (dropped g gr how s) w
    = (wave? s w).map fun wv => if w = gr.wave then { wv with ending := countEnding how wv.ending } else wv := by
  rw [dropped, reportEnding, wave_get_updWave]
  split
  · rfl
  · exact Option.map_id'.symm

theorem mem_dropped_liveCourses (u c : Nat) : c ∈ (tableRecord (dropped g gr how s) u).liveCourses
    ↔ c ∈ (tableRecord s u).liveCourses ∧ ¬(u = gr.table ∧ c = gr.course) := by
  have record : tableRecord (dropped g gr how s) u = if u = gr.table then
      { tableRecord s gr.table with liveCourses := removeNumber gr.course (tableRecord s gr.table).liveCourses }
      else tableRecord s u := tableRecord_setTableRecord s gr.table u _
  rw [record]
  split
  · rename_i e
    rw [mem_removeNumber, e]
    simp
  · rename_i e
    simp [e]

theorem countEnding_sum (how : Ending) (e : EndingCounts) :
    (countEnding how e).served + (countEnding how e).short + (countEnding how e).cancelled = e.served + e.short + e.cancelled + 1 := by
  cases how <;> simp only [countEnding] <;> omega

/-- A wave of the table as it is once the group has been dropped. -/
theorem dropped_wave_some (h : wave? (dropped g gr how s) w = some wv) : ∃ o, wave? s w = some o ∧ wv = { o with ending := wv.ending }
    ∧ wv.ending.served + wv.ending.short + wv.ending.cancelled
      = o.ending.served + o.ending.short + o.ending.cancelled + if gr.wave = w then 1 else 0 := by
  obtain ⟨o, ho, rfl⟩ := Option.map_eq_some_iff.mp ((dropped_wave w).symm.trans h)
  refine ⟨o, ho, ?_⟩
  by_cases hw : w = gr.wave
  · rw [if_pos hw, if_pos hw.symm]
    exact ⟨rfl, countEnding_sum how o.ending⟩
  · rw [if_neg hw, if_neg (Ne.symm hw)]
    exact ⟨rfl, rfl⟩

theorem dropped_waveState (w : Nat) : waveState (dropped g gr how s) w = waveState s w := by
  unfold waveState
  rw [dropped_wave]
  cases wave? s w with
  | none => rfl
  | some wv => simp only [Option.map_some]; split <;> rfl

theorem dropped_total (h : s.groups.rising = true) (hg : group? s g = some gr) (w : Nat) :
    (dropped g gr how s).groups.total (Group.ofWave w) + (if gr.wave = w then 1 else 0) = s.groups.total (Group.ofWave w) := by
  have change := Store.total_change (f := Group.ofWave w) (f' := Group.ofWave w) h (Store.rising_erase g h) g fun l hl => by
    rw [Store.get?_erase_of_ne _ hl]
  rw [Store.get?_erase_self, show s.groups.get? g = some gr from hg] at change
  simp only [Option.map_some, Option.getD_some, Option.map_none, Option.getD_none, Group.ofWave, decide_eq_true_eq] at change
  exact change

theorem Counts.drops (h : Counts C s) (hs : s.groups.rising = true) (hg : group? s g = some gr) : Counts C (dropped g gr how s) := by
  have live : 0 < s.groups.length := by
    have := Store.length_of_removed hs (Store.rising_erase g hs) (by rw [← group?, hg]; rfl) (Store.get?_erase_self _ _)
      fun l hl => by rw [Store.get?_erase_of_ne _ hl]
    omega
  have length : (s.groups.erase g).length + 1 = s.groups.length :=
    Store.length_of_removed hs (Store.rising_erase g hs) (by rw [← group?, hg]; rfl) (Store.get?_erase_self _ _)
      fun l hl => by rw [Store.get?_erase_of_ne _ hl]
  have pool : (dropped g gr how s).groupPool = s.groupPool.release := rfl
  have count := h.groups
  have whole := h.pools.2
  have reserved : ∀ f : Wave → Nat, (∀ o e, f { o with ending := e } = f o) → (dropped g gr how s).waves.total f = s.waves.total f :=
    fun f hf => Store.total_congr h.waves (Store.rising_update _ _ h.waves) fun w => by
      rw [show Store.get? (dropped g gr how s).waves w = _ from dropped_wave w, ← wave?, Option.map_map]
      refine congrArg (Option.getD · 0) (Option.map_congr fun o _ => ?_)
      simp only [Function.comp_apply]
      split
      · exact hf o _
      · rfl
  have back : ∀ l o, group? (dropped g gr how s) l = some o → l ≠ g ∧ group? s l = some o := fun l o hl => by
    rw [dropped_group] at hl
    split at hl
    · cases hl
    · exact ⟨‹_›, hl⟩
  have forth : ∀ l o, l ≠ g → group? s l = some o → group? (dropped g gr how s) l = some o := fun l o hne hl => by
    rw [dropped_group, if_neg hne]
    exact hl
  refine ⟨Store.rising_update _ _ h.waves, fun w wv hw => ?_, fun w wv hw hC => ?_, fun w hw => ?_, fun hr w hw => ?_, ⟨h.pools.1, ?_⟩,
    h.tickets, ?_, ?_, ?_, fun hC hr w hw wv hwv => ?_, fun l o hl => ?_, fun u c => ?_, fun l l' o o' hl hl' e e' => ?_, fun hm => ?_⟩
  · obtain ⟨o, ho, e, sum⟩ := dropped_wave_some hw
    have fair := h.fair w o ho
    have total := dropped_total (how := how) hs hg w
    have released := fair.released
    rw [e]
    exact ⟨fair.number, fair.taken, fair.hold, fair.reserved, fair.frozen, fair.staged, by dsimp only; omega⟩
  · obtain ⟨o, ho, e, -⟩ := dropped_wave_some hw
    rw [e]
    exact h.engine w o ho hC
  · rw [dropped_waveState]
    exact h.frozen w hw
  · rw [dropped_waveState]
    exact h.running hr w hw
  · rw [pool]
    simp only [Pool.release]
    omega
  · rw [pool]
    change _ = (s.groups.erase g).length
    simp only [Pool.release]
    omega
  · rw [reserved _ fun _ _ => rfl]
    exact h.reservedTickets
  · rw [reserved _ fun _ _ => rfl, pool]
    exact h.reservedGroups
  · obtain ⟨o, ho, e, -⟩ := dropped_wave_some hwv
    rw [e]
    obtain ⟨groups, tickets, tables, courses⟩ := h.provided hC hr w hw o ho
    exact ⟨groups, tickets, tables, fun v hv hc => courses v hv ((mem_dropped_liveCourses _ _).mp hc).1⟩
  · rw [dropped_wave, Option.isSome_map]
    exact h.waved l o (back l o hl).2
  · rw [mem_dropped_liveCourses, h.courses]
    constructor
    · rintro ⟨⟨l, o, hl, rfl, rfl⟩, hne⟩
      refine ⟨l, o, forth l o ?_ hl, rfl, rfl⟩
      rintro rfl
      obtain rfl := Option.some.inj (hg.symm.trans hl)
      exact hne ⟨rfl, rfl⟩
    · rintro ⟨l, o, hl, rfl, rfl⟩
      obtain ⟨hne, hl⟩ := back l o hl
      exact ⟨⟨l, o, hl, rfl, rfl⟩, fun e => hne (h.unique l g o gr hl hg e.1 e.2)⟩
  · exact h.unique l l' o o' (back l o hl).2 (back l' o' hl').2 e e'
  · change Store.update s.waves _ _ = []
    rw [h.setup hm]
    rfl

/-- The group being changed, without tickets, leaves its slot. -/
theorem Kept.drops (h : Kept K F (some g) C s) (hg : group? s g = some gr) (he : gr.tickets = []) :
    Kept K F none C (dropped g gr how s) := by
  have listed := h.books.grouped.listed
  have back : ∀ l o, group? (dropped g gr how s) l = some o → l ≠ g ∧ group? s l = some o := fun l o hl => by
    rw [dropped_group] at hl
    split at hl
    · cases hl
    · exact ⟨‹_›, hl⟩
  have gone : group? (dropped g gr how s) g = none := by rw [dropped_group, if_pos rfl]
  have elsewhere : ∀ n tk, ticket? s n = some tk → tk.group ≠ g := fun n tk hk e => by
    obtain ⟨gr', hg', hn⟩ := listed.listed n tk hk
    obtain rfl := Option.some.inj (hg.symm.trans (e ▸ hg'))
    exact absurd (he ▸ hn) (by simp)
  have still : Still s (dropped g gr how s) :=
    ⟨rfl, rfl, rfl, rfl, rfl, fun _ => rfl, fun _ => rfl, fun _ => rfl, fun _ => rfl, fun _ => rfl, fun _ => rfl⟩
  have only : GroupOnly g s (dropped g gr how s) :=
    ⟨fun l hl => by rw [dropped_group, if_neg hl], fun _ _ hk _ => hk, fun _ _ hk _ => hk, fun _ => rfl⟩
  have stays : Listed (dropped g gr how s) := by
    refine ⟨fun l o hl => listed.nodup l o (back l o hl).2, fun l o hl => listed.members l o (back l o hl).2, fun n tk hk => ?_⟩
    obtain ⟨o, ho, hn⟩ := listed.listed n tk hk
    exact ⟨o, (only.groups _ (elsewhere n tk hk)).trans ho, hn⟩
  refine Kept.closes (g := g) ⟨still.arranged h.arranged, fun hK => ⟨(h.books.numbered hK).tickets, fun l o hl => ?_⟩, ?_,
    fun hK => (h.books.counts hK).drops h.books.grouped.groups hg⟩ fun o ho => absurd (gone.symm.trans ho) (by simp)
  · exact (h.books.numbered hK).groups l o (back l o hl).2
  · refine h.books.grouped.regrouped only h.books.grouped.tickets (Store.rising_erase g h.books.grouped.groups) stays
      (fun hne => absurd rfl hne) (fun _ hne => absurd rfl hne) fun hK n tk hk hgo => absurd hgo (elsewhere n tk hk)

theorem OnlyLines.reportEnding (h : OnlyLines s t) (w : Nat) (how : Ending) :
    OnlyLines (reportEnding w how s) (reportEnding w how t) :=
  ⟨by rw [h.rest]; rfl, h.length, h.config, h.load, h.rushQueue, h.ordinaryQueue, h.positions, h.blocked, h.presence, h.receiver⟩

/-- A group is freed, whose tickets stand nowhere. -/
theorem Kept.freesGroup (how : Ending) (h : Kept K [] (some g) C s) (hg : group? s g = some gr) (hu : ∀ n ∈ gr.tickets, Unplaced s n) :
    Kept K [] none C (freeGroup g how s) := by
  obtain ⟨freed, empty⟩ := h.freesTickets (gr := gr) gr.tickets hg hu
  have left := freed.drops (how := how) empty rfl
  unfold freeGroup
  rw [hg]
  dsimp only
  split
  · exact left.lines ((sendRecord_only _ _ _).reportEnding gr.wave how)
  · exact left

end Sys2Proof.Machine
end


section
/-!
PROOFS. Waves that end, and the engine of a cancelled one, keep the invariant (R15, R35, R39, R55, R57, R59).
-/

namespace Sys2Proof.Machine

variable {K : Scope} {F F' : List Nat} {X C : Option Nat} {g n m w x : Nat} {s t : State} {tk : Ticket} {gr : Group} {wv : Wave}

/-! ## Parts that a change leaves alone -/

/-- Nothing that the invariant reads of tickets and groups has changed. -/
theorem Grouped.congr (h : Grouped K X s) (ht : t.tickets = s.tickets) (hg : t.groups = s.groups)
    (hh : ∀ c, holdWindow t c = holdWindow s c) : Grouped K X t := by
  have ticket_get : ∀ n, ticket? t n = ticket? s n := fun n => by rw [ticket?, ht, ← ticket?]
  have group_get : ∀ g, group? t g = group? s g := fun g => by rw [group?, hg, ← group?]
  refine ⟨ht ▸ h.tickets, hg ▸ h.groups, h.listed.congr (fun n => by rw [ticket_get]) (fun g => by rw [group_get]),
    fun g gr hgr hX => ?_, fun hK g gr hgr hX => ?_, fun hK n tk hk gr hgr => ?_⟩
  · have := h.complete g gr (group_get g ▸ hgr) hX
    simpa only [Complete, InState, ticket_get] using this
  · obtain ⟨served, assembling, others⟩ := h.dies hK g gr (group_get g ▸ hgr) hX
    refine ⟨fun hst => ?_, fun hst => earliestDie_of_dieTime (fun n _ => dieTime_congr (ticket_get n) hh) (assembling hst), others⟩
    simpa only [InState, ticket_get] using served hst
  · exact h.same hK n tk (ticket_get n ▸ hk) gr (group_get _ ▸ hgr)

theorem Numbered.congr (h : Numbered s) (ht : t.tickets = s.tickets) (hg : t.groups = s.groups) : Numbered t :=
  ⟨fun n tk hk => h.tickets n tk (by rw [ticket?, ← ht]; exact hk), fun g gr hgr => h.groups g gr (by rw [group?, ← hg]; exact hgr)⟩

/-- Other waves are frozen. -/
theorem Arranged.refreezes (f : List Nat) (h : Arranged K F s) (ahead : K.timed → Ahead K.lead { s with frozen := f }) :
    Arranged K F { s with frozen := f } := by
  have standing := h.seated.standing
  refine ⟨⟨⟨standing.length, standing.told, standing.floating, standing.calendar, standing.homes, standing.waits, standing.queues,
    standing.classes⟩, fun hK => ?_, h.seated.menu, ahead⟩, h.fits⟩
  exact ⟨(h.seated.order hK).calendar, (h.seated.order hK).blocked⟩

/-! ## A wave that can end (R35) -/

theorem Store.total_eq_zero {α : Type} {f : α → Nat} {m : Store α} (h : m.rising = true) (hz : ∀ n a, m.get? n = some a → f a = 0) :
    m.total f = 0 := by
  have := Store.total_congr (m := ([] : Store α)) (f := f) (f' := f) rfl h fun l => by
    cases hl : m.get? l with
    | none => rfl
    | some a => exact hz l a hl
  exact this

theorem Store.le_total {α : Type} (f : α → Nat) {m : Store α} {a : α} (h : m.rising = true) (hn : m.get? n = some a) :
    f a ≤ m.total f := by
  have change := Store.total_change (f := f) (f' := f) h (Store.rising_erase n h) n fun l hl => by rw [Store.get?_erase_of_ne _ hl]
  rw [Store.get?_erase_self, hn, Option.map_some, Option.getD_some, Option.map_none, Option.getD_none] at change
  omega

/-- Wave `w` can end: no live group is its own, nothing is reserved for it, and the engine does not run for it. -/
structure Spent (w : Nat) (s : State) : Prop where
  groups : ∀ g gr, group? s g = some gr → gr.wave ≠ w
  reserved : ∀ wv, wave? s w = some wv → wv.reservedTickets = 0 ∧ wv.reservedGroups = 0
  engine : s.engine.status = .running → s.engine.wave ≠ some w

theorem Wave.Fair.unreserved (h : wv.Fair s w) (hst : wv.state ≠ .releasing) : wv.reservedTickets = 0 ∧ wv.reservedGroups = 0 := by
  have := h.reserved
  constructor
  · by_contra hr
    exact hst (this (.inl (by omega)))
  · by_contra hr
    exact hst (this (.inr (by omega)))

theorem waveState_of_wave (h : wave? s w = some wv) : waveState s w = wv.state := by
  rw [waveState, h]

theorem Counts.not_running (h : Counts C s) (hst : waveState s w ≠ .releasing) (hr : s.engine.status = .running) :
    s.engine.wave ≠ some w := fun e => hst (h.running hr w e)

/-- A wave that is not RELEASING, and has no more groups released than have ended, can end. -/
theorem Counts.spent (h : Counts C s) (hs : s.groups.rising = true) (hw : wave? s w = some wv) (hst : wv.state ≠ .releasing)
    (hz : wv.release.groups ≤ wv.ending.served + wv.ending.short + wv.ending.cancelled) : Spent w s := by
  have fair := h.fair w wv hw
  refine ⟨fun g gr hg e => ?_, fun o ho => ?_, h.not_running (by rwa [waveState_of_wave hw])⟩
  · have := Store.le_total (Group.ofWave w) hs hg
    rw [Group.ofWave, decide_eq_true e, if_pos rfl] at this
    have := fair.released
    omega
  · obtain rfl := Option.some.inj (hw.symm.trans ho)
    exact fair.unreserved hst

/-- What is said of wave `C` holds of it again. -/
theorem Counts.closes (h : Counts (some w) s) (hr : s.engine.status ≠ .running)
    (hw : ∀ wv, wave? s w = some wv → wv.state ≠ .releasing) : Counts none s :=
  ⟨h.waves, h.fair, fun v wv hv _ => by
    by_cases e : v = w
    · exact iff_of_false (hw wv (e ▸ hv)) fun k => hr k.1
    · exact h.engine v wv hv fun k => e (Option.some.inj k).symm,
    h.frozen, h.running, h.pools, h.tickets, h.groups, h.reservedTickets, h.reservedGroups, fun _ k => absurd k hr, h.waved, h.courses,
    h.unique, h.setup⟩

/-- What holds of the engine's share holds but for one wave. -/
theorem Counts.opens (h : Counts none s) (w : Nat) : Counts (some w) s :=
  ⟨h.waves, h.fair, fun v wv hv _ => h.engine v wv hv (by simp), h.frozen, h.running, h.pools, h.tickets, h.groups, h.reservedTickets,
    h.reservedGroups, fun e => absurd e (by simp), h.waved, h.courses, h.unique, h.setup⟩

/-! ## A wave becomes FREE (R35, R57, R59) -/

theorem wave_get_freeWave (v : Nat) : wave? (freeWave w s) v = if v = w then none else wave? s v := by
  split
  · rename_i e
    rw [e, wave_get_freeWave_self]
  · exact wave_get_freeWave_of_ne _ ‹_›

theorem Counts.freesWave (h : Counts C s) (k : Spent w s) (hC : C = none ∨ C = some w ∧ s.engine.status ≠ .running) :
    Counts none (freeWave w s) := by
  have back : ∀ v wv, wave? (freeWave w s) v = some wv → v ≠ w ∧ wave? s v = some wv := fun v wv hv => by
    rw [wave_get_freeWave] at hv
    split at hv
    · cases hv
    · exact ⟨‹_›, hv⟩
  have state : ∀ v ≠ w, waveState (freeWave w s) v = waveState s v := fun v hv => by
    rw [waveState, waveState, wave_get_freeWave, if_neg hv]
  have member : ∀ v, v ∈ (freeWave w s).frozen ↔ v ∈ s.frozen ∧ v ≠ w := fun v => mem_removeNumber
  have total : ∀ f : Wave → Nat, (∀ wv, wave? s w = some wv → f wv = 0) → (freeWave w s).waves.total f = s.waves.total f := fun f hf =>
    Store.total_congr h.waves (Store.rising_erase w h.waves) fun v => by
      rw [show Store.get? (freeWave w s).waves v = _ from wave_get_freeWave v]
      by_cases e : v = w
      · rw [if_pos e, e]
        cases hw : wave? s w with
        | none => rw [show s.waves.get? w = none from hw]
        | some wv =>
          rw [show s.waves.get? w = some wv from hw]
          exact (hf wv hw).symm
      · rw [if_neg e, wave?]
  refine ⟨Store.rising_erase w h.waves, fun v wv hv => ?_, fun v wv hv _ => ?_, fun v hv => ?_, fun hr v hv => ?_, h.pools, h.tickets,
    h.groups, ?_, ?_, fun _ hr v hv wv hwv => ?_, fun l o hl => ?_, h.courses, h.unique, fun hm => ?_⟩
  · obtain ⟨hne, hv⟩ := back v wv hv
    exact (h.fair v wv hv).congr ((member v).trans (and_iff_left hne)) rfl
  · obtain ⟨hne, hv⟩ := back v wv hv
    refine h.engine v wv hv ?_
    rcases hC with e | ⟨e, -⟩ <;> rw [e]
    · simp
    · exact fun e => hne (Option.some.inj e).symm
  · obtain ⟨hv, hne⟩ := (member v).mp hv
    rw [state v hne]
    exact h.frozen v hv
  · rw [state v fun e => k.engine hr (e ▸ hv)]
    exact h.running hr v hv
  · exact h.reservedTickets.trans (total _ fun wv hw => (k.reserved wv hw).1).symm
  · exact h.reservedGroups.trans (total _ fun wv hw => (k.reserved wv hw).2).symm
  · rcases hC with e | ⟨-, e⟩
    · exact h.provided e hr v hv wv (back v wv hwv).2
    · exact absurd hr e
  · rw [wave_get_freeWave, if_neg (k.groups l o hl)]
    exact h.waved l o hl
  · change Store.erase s.waves w = []
    rw [h.setup hm]
    rfl

/-- A wave that can end becomes FREE. -/
theorem Kept.freesWave (h : Kept K F X C s) (k : K.whole → Spent w s)
    (hC : C = none ∨ C = some w ∧ s.engine.status ≠ .running) : Kept K F X none (freeWave w s) := by
  have ahead : K.timed → Ahead K.lead { s with frozen := removeNumber w s.frozen } := fun hK n hn => by
    refine (h.arranged.seated.ahead hK n hn).imp (fun ⟨tk, hk, hf⟩ => ⟨tk, hk, mem_removeNumber.mpr ⟨hf, fun e => ?_⟩⟩) id
    obtain ⟨gr, hg, -⟩ := h.books.grouped.listed.listed n tk hk
    exact (k (K.timed_whole hK)).groups _ gr hg ((h.books.grouped.same hK n tk hk gr hg).1.symm.trans e)
  have still : Still { s with frozen := removeNumber w s.frozen } (freeWave w s) :=
    ⟨rfl, rfl, rfl, rfl, rfl, fun _ => rfl, fun _ => rfl, fun _ => rfl, fun _ => rfl, fun _ => rfl, fun _ => rfl⟩
  exact ⟨still.arranged (h.arranged.refreezes _ ahead), fun hK => (h.books.numbered hK).congr rfl rfl,
    h.books.grouped.congr rfl rfl fun _ => rfl, fun hK => (h.books.counts hK).freesWave (k hK) hC⟩

/-- A wave that can end becomes FREE with its notice. -/
theorem Kept.endsWave (reason : DoneReason) (h : Kept K F X C s) (k : K.whole → Spent w s)
    (hC : C = none ∨ C = some w ∧ s.engine.status ≠ .running ∧ (wave? s w).isSome = true) :
    Kept K F X none (endWave w reason s) := by
  unfold endWave
  split
  · rename_i hw
    rcases hC with e | ⟨-, -, e⟩
    · exact e ▸ h
    · exact absurd (hw ▸ e) (by simp)
  · exact (h.freesWave k (hC.imp id fun e => ⟨e.1, e.2.1⟩)).notice _

/-- The completion of a wave. -/
theorem Kept.completesWave (w : Nat) (h : Kept K F X none s) : Kept K F X none (completeWave w s) := by
  unfold completeWave
  split
  · exact h
  · rename_i wv hw
    split
    · rename_i hc
      obtain ⟨hst, hz⟩ := hc
      refine h.endsWave _ (fun hK => (h.books.counts hK).spent h.books.grouped.groups hw ?_ ?_) (.inl rfl)
      · rcases hst with e | e <;> simp [e]
      · rw [liveGroupCount] at hz
        omega
    · exact h

/-- The staging lapse of a wave. -/
theorem Kept.lapses (w : Nat) (h : Kept K F X none s) : Kept K F X none (stagingLapse w s) := by
  unfold stagingLapse
  split
  · exact h
  · rename_i wv hw
    split
    · rename_i hd
      have staged : wv.state = .staged := by
        rw [lapseDue, hw] at hd
        exact (of_decide_eq_true hd).1
      refine (h.freesWave (fun hK => (h.books.counts hK).spent h.books.grouped.groups hw ?_ ?_) (.inl rfl)).notice _
      · simp [staged]
      · rw [((h.books.counts hK).fair w wv hw).staged staged]
        exact Nat.zero_le _
    · exact h

/-! ## Pickups and PICKED (R160, R161) -/

theorem Kept.pickups (g : Nat) (h : Kept K F X C s) : Kept K F X C (pickupExpiry g s) := by
  unfold pickupExpiry
  split
  · exact h
  · split
    · split
      · exact (h.notice _).restatesGroup _ (fun _ => rfl) (.inr fun _ => ⟨rfl, rfl⟩)
      · exact h
    · exact h

theorem InState.unplaced {st : TicketState} (ht : Told s) (h : InState s st n) (hw : ∀ tk : Ticket, tk.state = st → ¬tk.Waits) :
    Unplaced s n := by
  obtain ⟨tk, hk, hst⟩ := Option.map_eq_some_iff.mp h
  exact ht.resting_unplaced hk (hw tk hst)

theorem Kept.picks (g : Nat) (h : Kept K [] none none s) : Kept K [] none none (takePicked g s) := by
  unfold takePicked
  split
  · split
    · rename_i gr hg
      split
      · rename_i hc
        have told := h.arranged.seated.standing.told
        obtain ⟨-, states⟩ := h.books.grouped.complete g gr hg (by simp) hc
        refine ((h.exempts (some g)).freesGroup _ hg fun n hn => ?_).completesWave _
        rcases states n hn with e | e
        · exact InState.unplaced told e fun _ => Ticket.not_waits_of_ready
        · exact InState.unplaced told e fun _ => Ticket.not_waits_of_withdrawn
      · exact h.lines (sendRecord_only _ _ _)
    · exact h.lines (sendRecord_only _ _ _)
  · exact h

/-! ## SEND_SHORT (R159) -/

theorem Kept.sendsShort (h : Kept K [] none none s) (hg : group? s g = some gr) : Kept K [] none none (sendShort g gr s).1 := by
  have told := h.arranged.seated.standing.told
  have short : Shortened g gr s (shortened g gr s) := shortened_shortened told h.books.grouped.listed hg
  have marked : Kept K [] none none (updGroup g Group.shortened s) := h.restatesGroup _ (fun _ => rfl) (.inr fun _ => ⟨rfl, rfl⟩)
  have now : group? (shortened g gr s) g = some gr.shortened := by rw [short.groups, if_pos rfl]
  have withdrawn : Kept K [] none none (shortened g gr s) :=
    marked.withdrawsKeptAll (gr := gr.shortened) gr.tickets (by rw [updShort_group hg, if_pos rfl]) (List.Subset.refl _)
  rw [sendShort_eq]
  split
  · have shown := withdrawn.lines (sendGroupUp_lines g _)
    have now : group? (sendGroupUp g (shortened g gr s)) g = some gr.shortened := by
      rw [group?, (sendGroupUp_lines g _).groups, ← group?, now]
    by_cases hst : gr.state = .assembling
    · exact (shown.exempts (some g)).completes now hst fun hK => (shown.books.grouped.dies hK g _ now (by simp)).2.1 hst
    · dsimp only
      rw [completionTest, now]
      dsimp only
      rw [if_neg fun e => hst e.1]
      exact shown
  · rename_i hno
    refine Kept.completesWave _ ((withdrawn.exempts (some g)).freesGroup _ now fun n hn => ?_)
    have live : ticket? s n ≠ none := fun e => by
      have := h.books.grouped.listed.members g gr hg n hn
      simp [e] at this
    refine InState.unplaced withdrawn.arranged.seated.standing.told (short.keeps.named n hn live fun hr => hno ?_)
      fun _ => Ticket.not_waits_of_withdrawn
    exact List.any_eq_true.mpr ⟨n, hn, ticketIs_eq_true.mpr ((short.keeps.ready n).mpr hr)⟩

end Sys2Proof.Machine
end


section
/-!
PROOFS. Cancelled waves and the end of service keep the invariant (R15, R55 to R57, R180, R181).
-/

namespace Sys2Proof.Machine

variable {K : Scope} {F F' : List Nat} {X C : Option Nat} {g n m w x : Nat} {s t : State} {tk : Ticket} {gr : Group} {wv : Wave}

/-! ## The engine is stopped (R15, R55) -/

theorem wave_of_waveState {st : WaveState} (h : waveState s w = st) (hst : st ≠ .free) : ∃ wv, wave? s w = some wv ∧ wv.state = st := by
  rw [waveState] at h
  split at h
  · exact ⟨_, ‹_›, h⟩
  · exact absurd h.symm hst

/-- The engine no longer runs for a RELEASING wave. -/
theorem Counts.halts (e : Engine) (h : Counts none s) (hw : waveState s w = .releasing) (he : e.status ≠ .running) :
    Counts (some w) { s with engine := e } := by
  obtain ⟨wv, hget, hst⟩ := wave_of_waveState hw (by simp)
  have runs := (h.engine w wv hget (by simp)).mp hst
  refine ⟨h.waves, fun v o hv => (h.fair v o hv).congr Iff.rfl rfl,
    fun v o hv hne => iff_of_false (fun hr => hne ?_) fun k => he k.1, h.frozen, fun hr => absurd hr he, h.pools, h.tickets,
    h.groups, h.reservedTickets, h.reservedGroups, fun e => absurd e (by simp), h.waved, h.courses, h.unique, h.setup⟩
  exact (runs.2.symm.trans ((h.engine v o hv (by simp)).mp hr).2)

/-- Nothing is reserved for the wave any more. -/
def unreservedWave (wv : Wave) : Wave :=
  { wv with reservedTickets := 0, reservedGroups := 0 }

theorem Counts.returns (h : Counts (some w) s) : Counts (some w) (returnReservations w s) := by
  unfold returnReservations
  split
  · exact h
  rename_i wv hw
  have hwv : s.waves.get? w = some wv := hw
  have ticketsLe := Store.le_total Wave.reservedTickets h.waves hwv
  have groupsLe := Store.le_total Wave.reservedGroups h.waves hwv
  have rising : (s.waves.update w unreservedWave).rising = true := Store.rising_update _ _ h.waves
  have wave_get : ∀ v, Store.get? (s.waves.update w unreservedWave) v = if v = w then (s.waves.get? v).map unreservedWave
      else s.waves.get? v := fun v => Store.get?_update _ _ _ _
  have total : ∀ f : Wave → Nat, (∀ o, f (unreservedWave o) = 0) → (s.waves.update w unreservedWave).total f + f wv = s.waves.total f :=
    fun f hf => by
      have change := Store.total_change (f := f) (f' := f) h.waves rising w fun l hl => by rw [wave_get, if_neg hl]
      rw [wave_get, if_pos rfl, hwv] at change
      simpa [hf] using change
  have ticketTotal := total Wave.reservedTickets fun _ => rfl
  have groupTotal := total Wave.reservedGroups fun _ => rfl
  have hrt := h.reservedTickets
  have hrg := h.reservedGroups
  obtain ⟨wholeTickets, wholeGroups⟩ := h.pools
  have back : ∀ v o, Store.get? (s.waves.update w unreservedWave) v = some o → ∃ o', wave? s v = some o'
      ∧ (o = o' ∨ o = unreservedWave o') := fun v o hv => by
    rw [wave_get] at hv
    split at hv
    · obtain ⟨o', ho', e⟩ := Option.map_eq_some_iff.mp hv
      exact ⟨o', ho', .inr e.symm⟩
    · exact ⟨o, hv, .inl rfl⟩
  have state : ∀ v, waveState (updWave w unreservedWave s) v = waveState s v := waveState_updWave _ _ fun _ => rfl
  refine ⟨rising, fun v o hv => ?_, fun v o hv hne => ?_, fun v hv => ?_, fun hr v hv => ?_, ⟨?_, ?_⟩, h.tickets, h.groups, ?_, ?_,
    fun e => absurd e (by simp), fun l o hl => ?_, h.courses, h.unique, fun hm => ?_⟩
  · obtain ⟨o', ho', e⟩ := back v o hv
    have fair := h.fair v o' ho'
    rcases e with rfl | rfl
    · exact fair.congr Iff.rfl rfl
    · exact ⟨fair.number, fair.taken, fair.hold, fun e => absurd e (by simp [unreservedWave]), fair.frozen, fair.staged, fair.released⟩
  · obtain ⟨o', ho', e⟩ := back v o hv
    have law := h.engine v o' ho' hne
    rcases e with rfl | rfl <;> exact law
  · exact (state v).trans (h.frozen v hv)
  · exact (state v).trans (h.running hr v hv)
  · change (Pool.unreserve _ _).free + (Pool.unreserve _ _).reserved + (Pool.unreserve _ _).live = _
    simp only [Pool.unreserve]
    omega
  · change (Pool.unreserve _ _).free + (Pool.unreserve _ _).reserved + (Pool.unreserve _ _).live = _
    simp only [Pool.unreserve]
    omega
  · change (Pool.unreserve _ _).reserved = (s.waves.update w unreservedWave).total _
    simp only [Pool.unreserve]
    omega
  · change (Pool.unreserve _ _).reserved = (s.waves.update w unreservedWave).total _
    simp only [Pool.unreserve]
    omega
  · change (Store.get? (s.waves.update w unreservedWave) _).isSome = true
    rw [Store.isSome_get?_update]
    exact h.waved l o hl
  · change Store.update s.waves _ _ = []
    rw [h.setup hm]
    rfl

/-- Neither tickets, groups, places nor what they read have changed. -/
theorem Kept.recounts {C' : Option Nat} (h : Kept K F X C s)
    (k : t = { s with
      pending := t.pending, link := t.link, courses := t.courses, waves := t.waves, engine := t.engine
      ticketPool := t.ticketPool, groupPool := t.groupPool, passLine := t.passLine, straps := t.straps })
    (counts : K.whole → Counts C' t) : Kept K F X C' t := by
  have still : Still s t := by
    rw [k]
    exact ⟨rfl, rfl, rfl, rfl, rfl, fun _ => rfl, fun _ => rfl, fun _ => rfl, fun _ => rfl, fun _ => rfl, fun _ => rfl⟩
  have groups : t.groups = s.groups := by rw [k]
  exact ⟨still.arranged h.arranged, fun hK => (h.books.numbered hK).congr still.tickets groups,
    h.books.grouped.congr still.tickets groups fun c => by rw [k]; rfl, counts⟩

theorem Kept.returns (h : Kept K F X (some w) s) : Kept K F X (some w) (returnReservations w s) := by
  refine h.recounts ?_ fun hK => (h.books.counts hK).returns
  unfold returnReservations
  split <;> rfl

theorem returnTables_stock (vs : List ServedTable) (s : State) : OnlyStock s (vs.foldl (fun s v => returnTable v s) s) := by
  have table : ∀ (es : List (Nat × Nat)) (s : State), OnlyStock s (es.foldl (fun s e => returnStock e.1 e.2 s) s) := by
    intro es
    induction es with
    | nil => exact fun s => .refl s
    | cons e es ih => exact fun s => (returnStock_stock e.1 e.2 s).trans (ih _)
  induction vs generalizing s with
  | nil => exact .refl s
  | cons v vs ih => exact (table v.tickets s).trans (ih _)

/-- A cancel stops the engine of a RELEASING wave. -/
theorem Kept.stopsEngine (h : Kept K F X none s) (hw : waveState s w = .releasing) : Kept K F X (some w) (stopEngine w s) := by
  unfold stopEngine
  rw [if_pos hw]
  have halted : Kept K F X (some w) { s with engine := { status := .aborted, wave := some w, plan := [], next := 0 } } :=
    h.recounts (s := s) rfl fun hK => (h.books.counts hK).halts _ hw (by simp)
  exact (halted.stock (returnTables_stock _ _)).returns

/-! ## The groups of a wave are withdrawn (R56) -/

theorem Kept.withdrawsGroup (g : Nat) (h : Kept K [] none C s) : Kept K [] none C (withdrawGroup g s) := by
  unfold withdrawGroup groupTickets
  cases hg : group? s g with
  | none =>
    rw [List.foldl_nil, freeGroup, hg]
    exact h
  | some gr =>
    obtain ⟨withdrawn, empty⟩ := (h.exempts (some g)).withdrawsFreeAll (gr := gr) gr.tickets hg
    exact withdrawn.freesGroup _ empty fun n hn => absurd hn (by simp)

theorem Kept.withdrawsGroups (gs : List Nat) (h : Kept K [] none C s) : Kept K [] none C (gs.foldl (fun s g => withdrawGroup g s) s) := by
  induction gs generalizing s with
  | nil => exact h
  | cons g gs ih => exact ih (h.withdrawsGroup g)

/-- What is reserved for the wave. -/
def Wave.hoard (wv : Wave) : Nat × Nat :=
  (wv.reservedTickets, wv.reservedGroups)

theorem withdrawGroup_hoard (g v : Nat) (s : State) : (wave? (withdrawGroup g s) v).map Wave.hoard = (wave? s v).map Wave.hoard := by
  have withdrawn := OnlyWithdraws.foldl (f := fun s t => withdrawFree t s) (fun s n => withdrawFree_withdraws n s) (groupTickets s g) s
  unfold withdrawGroup
  generalize (groupTickets s g).foldl (fun s t => withdrawFree t s) s = u at *
  have waves : u.waves = s.waves := by rw [withdrawn.rest]
  have same : wave? u v = wave? s v := by rw [wave?, waves, ← wave?]
  rw [← same]
  cases hg : group? u g with
  | none => rw [freeGroup, hg]
  | some gr =>
    have freed := OnlyWithdraws.foldl (f := fun s t => freeTicket t s) (fun s n => freeTicket_withdraws n s) gr.tickets u
    have cleared : (clearGroup g gr u).waves = u.waves := by
      rw [clearGroup]
      dsimp only
      rw [removeLiveCourse_waves, freed.rest]
    rw [freeGroup_eq hg, reportEnding, wave_get_updWave]
    have sent : ∀ c : State, c.waves = u.waves → (if v = gr.wave then
        (wave? c v).map (fun wv => { wv with ending := countEnding .cancelled wv.ending }) else wave? c v).map Wave.hoard
        = (wave? u v).map Wave.hoard := by
      intro c hc
      rw [wave?, hc, ← wave?]
      split
      · rw [Option.map_map]
        rfl
      · rfl
    refine sent _ ?_
    split
    · exact (sendRecord_only _ _ _).waves.trans cleared
    · exact cleared

theorem withdrawGroups_hoard (gs : List Nat) (v : Nat) (s : State) :
    (wave? (gs.foldl (fun s g => withdrawGroup g s) s) v).map Wave.hoard = (wave? s v).map Wave.hoard := by
  induction gs generalizing s with
  | nil => rfl
  | cons g gs ih => exact (ih _).trans (withdrawGroup_hoard g v s)

theorem returnReservations_hoard (hw : wave? (returnReservations w s) w = some wv) : wv.hoard = (0, 0) := by
  unfold returnReservations at hw
  split at hw
  · rename_i e
    exact absurd (e.symm.trans hw) (by simp)
  · rw [wave_get_updWave, if_pos rfl] at hw
    obtain ⟨o, -, rfl⟩ := Option.map_eq_some_iff.mp hw
    rfl

theorem stopEngine_idle (h : waveState s w ≠ .releasing) : stopEngine w s = s :=
  if_neg h

/-- The wave once its engine is stopped has nothing reserved, and the engine does not run for it. -/
theorem stopEngine_spends (h : Counts none s) :
    (∀ wv, wave? (stopEngine w s) w = some wv → wv.hoard = (0, 0))
      ∧ ((stopEngine w s).engine.status = .running → (stopEngine w s).engine.wave ≠ some w) := by
  by_cases hst : waveState s w = .releasing
  · refine ⟨fun wv hw => ?_, fun hr => ?_⟩
    · unfold stopEngine at hw
      rw [if_pos hst] at hw
      exact returnReservations_hoard hw
    · rw [(stopEngine_only w s).rest] at hr
      simp [hst] at hr
  · rw [stopEngine_idle hst]
    refine ⟨fun wv hw => ?_, h.not_running hst⟩
    obtain ⟨tickets, groups⟩ := (h.fair w wv hw).unreserved (by rwa [← waveState_of_wave hw])
    rw [Wave.hoard, tickets, groups]

/-- The cancellation of a wave. -/
theorem Kept.cancels (w : Nat) (h : Kept K [] none none s) : Kept K [] none none (cancelWave w s).1 := by
  have rising : (stopEngine w s).groups.rising = true := by
    rw [(stopEngine_only w s).rest]
    exact h.books.grouped.groups
  have mine : ∀ g ∈ waveGroups (stopEngine w s) w, ∀ gr, group? (stopEngine w s) g = some gr → gr.wave = w := fun g hg gr hgr => by
    obtain ⟨o, ho, e⟩ := (mem_waveGroups rising w g).mp hg
    obtain rfl := Option.some.inj (hgr.symm.trans ho)
    exact e
  have only := withdrawGroups_only (w := w) (waveGroups (stopEngine w s) w) mine
  have hoard := withdrawGroups_hoard (waveGroups (stopEngine w s) w) w (stopEngine w s)
  have stopped : ∃ C, Kept K [] none C (stopEngine w s)
      ∧ (C = none ∨ C = some w ∧ (stopEngine w s).engine.status ≠ .running ∧ (wave? s w).isSome = true) := by
    by_cases hst : waveState s w = .releasing
    · refine ⟨some w, h.stopsEngine hst, .inr ⟨rfl, ?_, ?_⟩⟩
      · rw [(stopEngine_only w s).rest]
        simp [hst]
      · obtain ⟨wv, hw, -⟩ := wave_of_waveState hst (by simp)
        rw [hw]
        rfl
    · exact ⟨none, by rwa [stopEngine_idle hst], .inl rfl⟩
  obtain ⟨C, stopped, hC⟩ := stopped
  have withdrawn := stopped.withdrawsGroups (waveGroups (stopEngine w s) w)
  have some' := (stopEngine_only w s).wave
  unfold cancelWave
  dsimp only
  have spends : K.whole → _ := fun hK => stopEngine_spends (w := w) (h.books.counts hK)
  generalize (waveGroups (stopEngine w s) w).foldl (fun s g => withdrawGroup g s) (stopEngine w s) = t at *
  have engine : t.engine = (stopEngine w s).engine := by rw [only.rest]
  refine withdrawn.endsWave _ (fun hK => ⟨fun g gr hg e => ?_, fun wv hw => ?_, ?_⟩) (hC.imp id fun ⟨e, hr, hs⟩ => ⟨e, ?_, ?_⟩)
  · have unlisted := only.groups g
    rw [hg, Option.map_some] at unlisted
    split at unlisted
    · cases unlisted
    · rename_i out
      obtain ⟨o, ho, eq⟩ := Option.map_eq_some_iff.mp unlisted.symm
      exact out ((mem_waveGroups rising w g).mpr ⟨o, ho, (congrArg Group.wave eq).trans e⟩)
  · rw [hw, Option.map_some] at hoard
    obtain ⟨o, ho, eq⟩ := Option.map_eq_some_iff.mp hoard.symm
    have := (spends hK).1 o ho
    rw [eq] at this
    exact ⟨congrArg Prod.fst this, congrArg Prod.snd this⟩
  · rw [engine]
    exact (spends hK).2
  · rwa [engine]
  · rw [only.wave, some', hs]

theorem Kept.cancelsAll (ws : List Nat) (h : Kept K [] none none s) : Kept K [] none none (cancelWaves ws s).1 := by
  have each : ∀ (ws : List Nat) (r : State × Nat × Nat × Nat), Kept K [] none none r.1 → Kept K [] none none (ws.foldl (fun r w =>
      match cancelWave w r.1 with
      | (s, groups, tickets) => (s, r.2.1 + 1, r.2.2.1 + groups, r.2.2.2 + tickets)) r).1 := by
    intro ws
    induction ws with
    | nil => exact fun _ k => k
    | cons w ws ih => exact fun r k => ih _ (k.cancels w)
  exact each ws _ h

/-! ## The end of service (R181) -/

theorem Kept.endsLoads (xs : List Nat) (h : Kept K F X C s) : Kept K F X C (xs.foldl (fun s x => endLoad x s) s) := by
  induction xs generalizing s with
  | nil => exact h
  | cons x xs ih => exact ih (h.endsLoad x)

/-- Every wave has been cancelled. -/
theorem Counts.cancelled (h : Counts none s) (k : Counts none (cancelWaves (wavesNotFree s) s).1) :
    (cancelWaves (wavesNotFree s) s).1.waves = [] := by
  refine Store.eq_nil_of_get? fun v => ?_
  have free : waveState (cancelWaves (wavesNotFree s) s).1 v = .free := by
    rw [cancelWaves_waveState]
    split
    · rfl
    · rename_i out
      by_contra hne
      obtain ⟨wv, hw, -⟩ := wave_of_waveState rfl hne
      exact out (List.mem_filter.mpr ⟨List.mem_range.mpr (h.fair v wv hw).number, decide_eq_true hne⟩)
  by_contra hne
  obtain ⟨wv, hw⟩ := Option.ne_none_iff_exists'.mp hne
  exact (k.fair v wv hw).taken ((waveState_of_wave hw).symm.trans free)

/-- With no wave left the engine is idle. -/
theorem Counts.idles (h : Counts none s) (hw : s.waves = []) : Counts none { s with engine := {} } := by
  have none' : ∀ v wv, wave? s v ≠ some wv := fun v wv hv => by simp [wave?, hw] at hv
  exact ⟨h.waves, fun v wv hv => absurd hv (none' v wv), fun v wv hv => absurd hv (none' v wv), h.frozen, fun hr => absurd hr (by simp),
    h.pools, h.tickets, h.groups, h.reservedTickets, h.reservedGroups, fun _ hr => absurd hr (by simp), h.waved, h.courses, h.unique,
    h.setup⟩

/-- With no wave left the mode may change. -/
theorem Counts.remodes {l : HostLink} (h : Counts C s) (hw : l.mode = .setup → s.waves = []) : Counts C { s with link := l } :=
  ⟨h.waves, fun v o hv => (h.fair v o hv).congr Iff.rfl rfl, h.engine, h.frozen, h.running, h.pools, h.tickets, h.groups,
    h.reservedTickets, h.reservedGroups, h.provided, h.waved, h.courses, h.unique, hw⟩

theorem Kept.finishes (h : Kept K [] none none s) (hw : K.whole → s.waves = []) : Kept K [] none none (finishService s) := by
  have idle : Kept K [] none none { s with engine := {} } :=
    h.recounts (s := s) rfl fun hK => (h.books.counts hK).idles (hw hK)
  have ended := idle.endsLoads (List.range Config.stations)
  have waves := (endLoads_load (List.range Config.stations) { s with engine := {} }).2.1
  unfold finishService
  dsimp only
  generalize (List.range Config.stations).foldl (fun s x => endLoad x s) { s with engine := {} } = t at *
  exact ended.recounts (s := t) rfl fun hK => (ended.books.counts hK).remodes fun _ => waves.trans (hw hK)

theorem Kept.endsService (h : Kept K [] none none s) : Kept K [] none none (finishService (cancelWaves (wavesNotFree s) s).1) :=
  have cancelled := h.cancelsAll (wavesNotFree s)
  cancelled.finishes fun hK => (h.books.counts hK).cancelled (cancelled.books.counts hK)

end Sys2Proof.Machine
end


section
/-!
PROOFS. The visits of a release keep the invariant (R45, R47, R85, R147).
-/

namespace Sys2Proof.Machine

variable {K : Scope} {F F' : List Nat} {X C : Option Nat} {g i n m w x table go : Nat} {s t : State} {tk : Ticket} {gr : Group}
  {wv : Wave} {v : ServedTable} {e : Nat × Nat}

/-! ## A visit's group (R45, R147) -/

theorem mem_openGroup_liveCourses (u c : Nat) : c ∈ (tableRecord (openGroup w i wv v s) u).liveCourses
    ↔ c ∈ (tableRecord s u).liveCourses ∨ u = v.table ∧ c = wv.course := by
  rw [openGroup_table]
  split
  · rename_i e
    rw [mem_insertNumber]
    simp [e, or_comm]
  · rename_i e
    simp [e]

theorem openGroup_absent (s : State) : group? s s.groups.firstAbsent = none :=
  s.groups.firstAbsent_spec.1

/-- A store that has gained one record. -/
theorem Store.length_of_added {α β : Type} {m : Store α} {m' : Store β} (h : m.rising = true) (h' : m'.rising = true)
    (hn : m.get? n = none) (hn' : (m'.get? n).isSome = true) (hg : ∀ l ≠ n, (m'.get? l).isSome = (m.get? l).isSome) :
    m'.length = m.length + 1 :=
  (Store.length_of_removed h' h hn' hn fun l hl => (hg l hl).symm).symm

theorem openGroup_risingWaves (h : s.waves.rising = true) : (openGroup w i wv v s).waves.rising = true :=
  Store.rising_update _ _ h

theorem openGroup_risingGroups (h : s.groups.rising = true) : (openGroup w i wv v s).groups.rising = true :=
  Store.rising_set _ _ h

theorem openGroup_waveState (y : Nat) : waveState (openGroup w i wv v s) y = waveState s y :=
  waveState_updWave Wave.opened _ (fun _ => rfl) y

/-- A group is the one that was opened or an earlier one. -/
theorem openGroup_oldOrNew {l : Nat} {o : Group} (hl : group? (openGroup w i wv v s) l = some o) :
    l = s.groups.firstAbsent ∧ o = openedGroup s w i wv v ∨ group? s l = some o := by
  rw [openGroup_group] at hl
  split at hl
  · exact .inl ⟨‹_›, (Option.some.inj hl).symm⟩
  · exact .inr hl

theorem openGroup_stays {l : Nat} {o : Group} (hl : group? s l = some o) : group? (openGroup w i wv v s) l = some o := by
  have hne : l ≠ s.groups.firstAbsent := by
    rintro rfl
    exact absurd ((openGroup_absent s).symm.trans hl) (by simp)
  rw [openGroup_group, if_neg hne]
  exact hl

theorem openGroup_oldWave (hw : wave? s w = some wv) {y : Nat} {o : Wave} (hy : wave? (openGroup w i wv v s) y = some o) :
    y = w ∧ o = wv.opened ∨ y ≠ w ∧ wave? s y = some o := by
  rw [openGroup_wave] at hy
  split at hy
  · rename_i e
    rw [e, hw] at hy
    exact .inl ⟨e, (Option.some.inj hy).symm⟩
  · exact .inr ⟨‹_›, hy⟩

theorem openGroup_length (hs : s.groups.rising = true) : (openGroup w i wv v s).groups.length = s.groups.length + 1 :=
  Store.length_of_added hs (openGroup_risingGroups hs) (openGroup_absent s) (by rw [← group?, openGroup_group, if_pos rfl]; rfl)
    fun l hl => by rw [← group?, openGroup_group, if_neg hl, group?]

theorem openGroup_ofWave (hs : s.groups.rising = true) (y : Nat) : (openGroup w i wv v s).groups.total (Group.ofWave y)
    = s.groups.total (Group.ofWave y) + if w = y then 1 else 0 := by
  have change := Store.total_change (f := Group.ofWave y) (f' := Group.ofWave y) hs (openGroup_risingGroups (w := w) (i := i)
    (wv := wv) (v := v) hs) s.groups.firstAbsent fun l hl => by rw [← group?, openGroup_group, if_neg hl, group?]
  rw [← group?, ← group?, openGroup_group, if_pos rfl, openGroup_absent] at change
  simpa [Group.ofWave, openedGroup] using change

/-- The figures of the waves change with the visited wave's record. -/
theorem openGroup_total (h : s.waves.rising = true) (hw : wave? s w = some wv) (f : Wave → Nat) :
    (openGroup w i wv v s).waves.total f + f wv = s.waves.total f + f wv.opened := by
  have change := Store.total_change (f := f) (f' := f) h (openGroup_risingWaves (w := w) (i := i) (wv := wv) (v := v) h) w
    fun l hl => by rw [← wave?, openGroup_wave, if_neg hl, wave?]
  rw [← wave?, ← wave?, openGroup_wave, if_pos rfl, hw] at change
  simpa using change

theorem Counts.openGroup_courses (h : Counts C s) (u c : Nat) : c ∈ (tableRecord (openGroup w i wv v s) u).liveCourses
    ↔ ∃ l o, group? (openGroup w i wv v s) l = some o ∧ o.table = u ∧ o.course = c := by
  rw [mem_openGroup_liveCourses, h.courses]
  constructor
  · rintro (⟨l, o, hl, rfl, rfl⟩ | ⟨rfl, rfl⟩)
    · exact ⟨l, o, openGroup_stays hl, rfl, rfl⟩
    · exact ⟨_, _, (openGroup_group w i wv v s _).trans (if_pos rfl), rfl, rfl⟩
  · rintro ⟨l, o, hl, rfl, rfl⟩
    rcases openGroup_oldOrNew hl with ⟨-, rfl⟩ | hl
    · exact .inr ⟨rfl, rfl⟩
    · exact .inl ⟨l, o, hl, rfl, rfl⟩

theorem Counts.openGroup_unique (h : Counts C s) (hc : wv.course ∉ (tableRecord s v.table).liveCourses) {l l' : Nat} {o o' : Group}
    (hl : group? (openGroup w i wv v s) l = some o) (hl' : group? (openGroup w i wv v s) l' = some o') (ht : o.table = o'.table)
    (hcs : o.course = o'.course) : l = l' := by
  have fresh : ∀ l o, group? s l = some o → o.table = v.table → o.course ≠ wv.course := fun l o hl ht hcs =>
    hc ((h.courses v.table wv.course).mpr ⟨l, o, hl, ht, hcs⟩)
  rcases openGroup_oldOrNew hl with ⟨rfl, rfl⟩ | old <;> rcases openGroup_oldOrNew hl' with ⟨rfl, rfl⟩ | old'
  · rfl
  · exact absurd hcs.symm (fresh l' o' old' ht.symm)
  · exact absurd hcs (fresh l o old ht)
  · exact h.unique l l' o o' old old' ht hcs

theorem Counts.openGroup_fair (h : Counts none s) (hs : s.groups.rising = true) (hw : wave? s w = some wv)
    (hst : wv.state = .releasing) {y : Nat} {o : Wave} (hy : wave? (openGroup w i wv v s) y = some o) :
    o.Fair (openGroup w i wv v s) y := by
  rcases openGroup_oldWave hw hy with ⟨rfl, rfl⟩ | ⟨hne, hy⟩
  · have fair := h.fair y wv hw
    have released := fair.released
    have more := openGroup_ofWave (w := y) (i := i) (wv := wv) (v := v) hs y
    rw [if_pos rfl] at more
    refine ⟨fair.number, fair.taken, fair.hold, fun _ => hst, fair.frozen, fun e => absurd (hst.symm.trans e) (by simp), ?_⟩
    simp only [Wave.opened]
    omega
  · refine (h.fair y o hy).congr Iff.rfl ?_
    rw [openGroup_ofWave hs, if_neg fun e => hne e.symm]
    rfl

theorem Counts.opensGroup (h : Counts none s) (hs : s.groups.rising = true) (hw : wave? s w = some wv) (hst : wv.state = .releasing)
    (hr : 1 ≤ wv.reservedGroups) (hc : wv.course ∉ (tableRecord s v.table).liveCourses) :
    Counts (some w) (openGroup w i wv v s) := by
  have pool : (openGroup w i wv v s).groupPool = s.groupPool.liveFromReserved := rfl
  have length := openGroup_length (w := w) (i := i) (wv := wv) (v := v) hs
  have tickets := openGroup_total (i := i) (v := v) h.waves hw Wave.reservedTickets
  have opened := openGroup_total (i := i) (v := v) h.waves hw Wave.reservedGroups
  have atMost := Store.le_total Wave.reservedGroups h.waves hw
  have hrg := h.reservedGroups
  have hrt := h.reservedTickets
  have live := h.groups
  obtain ⟨wholeTickets, wholeGroups⟩ := h.pools
  simp only [Wave.opened] at tickets opened
  refine ⟨openGroup_risingWaves h.waves, fun _ _ hy => h.openGroup_fair hs hw hst hy, fun y o hy hne => ?_, fun y hy => ?_,
    fun hrun y hy => ?_, ⟨wholeTickets, ?_⟩, h.tickets, ?_, ?_, ?_, fun e => absurd e (by simp), fun l o hl => ?_,
    h.openGroup_courses, fun _ _ _ _ hl hl' ht hcs => h.openGroup_unique hc hl hl' ht hcs, fun hm => ?_⟩
  · rcases openGroup_oldWave hw hy with ⟨rfl, rfl⟩ | ⟨-, hy⟩
    · exact absurd rfl hne
    · exact h.engine y o hy (by simp)
  · rw [openGroup_waveState]
    exact h.frozen y hy
  · rw [openGroup_waveState]
    exact h.running hrun y hy
  · rw [pool]
    simp only [Pool.liveFromReserved]
    omega
  · rw [pool, length]
    simp only [Pool.liveFromReserved]
    omega
  · change s.ticketPool.reserved = _
    omega
  · rw [pool]
    simp only [Pool.liveFromReserved]
    omega
  · rw [openGroup_wave]
    rcases openGroup_oldOrNew hl with ⟨-, rfl⟩ | hl
    · rw [show (openedGroup s w i wv v).wave = w from rfl, if_pos rfl, hw]
      rfl
    · have := h.waved l o hl
      split
      · rw [Option.isSome_map]
        exact this
      · exact this
  · rw [wave?, h.setup hm] at hw
    exact absurd hw (by simp [Store.get?])

/-- A PENDING group without tickets takes a free slot. -/
theorem Grouped.opens (h : Grouped K none s) (i : Nat) (wv : Wave) (v : ServedTable) : Grouped K none (openGroup w i wv v s) := by
  have absent := openGroup_absent s
  have groups := openGroup_group w i wv v s
  have listed := h.listed
  have elsewhere : ∀ n tk, ticket? s n = some tk → tk.group ≠ s.groups.firstAbsent := fun n tk hk e => by
    obtain ⟨gr, hg, -⟩ := listed.listed n tk hk
    exact absurd (absent.symm.trans (e ▸ hg)) (by simp)
  have new : ∀ o, group? (openGroup w i wv v s) s.groups.firstAbsent = some o → o = openedGroup s w i wv v := fun o ho => by
    rw [groups, if_pos rfl] at ho
    exact (Option.some.inj ho).symm
  refine h.regrouped (g := s.groups.firstAbsent) ⟨fun l hl => by rw [groups, if_neg hl], fun _ _ hk _ => hk, fun _ _ hk _ => hk,
    fun _ => rfl⟩ h.tickets (Store.rising_set _ _ h.groups) ⟨fun l o hl => ?_, fun l o hl => ?_, fun n tk hk => ?_⟩
    (fun _ o ho => ?_) (fun _ _ o ho => ?_) fun _ n tk hk hg => absurd hg (elsewhere n tk hk)
  · rw [groups] at hl
    split at hl
    · obtain rfl := Option.some.inj hl
      exact List.nodup_nil
    · exact listed.nodup l o hl
  · rw [groups] at hl
    split at hl
    · obtain rfl := Option.some.inj hl
      exact fun n hn => absurd hn (by simp [openedGroup])
    · exact listed.members l o hl
  · obtain ⟨gr, hg, hn⟩ := listed.listed n tk hk
    exact ⟨gr, by rw [groups, if_neg (elsewhere n tk hk)]; exact hg, hn⟩
  · obtain rfl := new o ho
    exact fun e => absurd e (by simp [openedGroup])
  · obtain rfl := new o ho
    exact ⟨fun e => absurd e (by simp [openedGroup]), fun e => absurd e (by simp [openedGroup]), fun _ => rfl⟩

/-- A visit creates its group. -/
theorem Kept.opensGroup (h : Kept K F none none s)
    (hw : K.whole → wave? s w = some wv ∧ wv.state = .releasing ∧ 1 ≤ wv.reservedGroups
      ∧ wv.course ∉ (tableRecord s v.table).liveCourses) : Kept K F none (some w) (openGroup w i wv v s) := by
  have still : Still s (openGroup w i wv v s) :=
    ⟨rfl, rfl, rfl, rfl, rfl, fun _ => rfl, fun _ => rfl, fun _ => rfl, fun _ => rfl, fun _ => rfl, fun _ => rfl⟩
  refine ⟨still.arranged h.arranged, fun hK => ⟨(h.books.numbered hK).tickets, fun l o hl => ?_⟩, h.books.grouped.opens i wv v,
    fun hK => ?_⟩
  · rw [openGroup_group] at hl
    split at hl
    · rename_i e
      have counts := h.books.counts (K.timed_whole hK)
      obtain ⟨hwv, -, hr, -⟩ := hw (K.timed_whole hK)
      have atMost := Store.le_total Wave.reservedGroups counts.waves hwv
      have low := firstAbsent_le_length s.groups
      have whole : _ = 1024 := counts.pools.2
      have := counts.groups
      have := counts.reservedGroups
      omega
    · exact (h.books.numbered hK).groups l o hl
  · obtain ⟨hwv, hst, hr, hc⟩ := hw hK
    exact (h.books.counts hK).opensGroup h.books.grouped.groups hwv hst hr hc

end Sys2Proof.Machine
end


section
/-!
PROOFS. Tickets of a release and the end of a release keep the invariant (R45, R47, R85).
-/

namespace Sys2Proof.Machine

variable {K : Scope} {F F' : List Nat} {X C C' : Option Nat} {g i n m w x table go : Nat} {s t : State} {tk : Ticket} {gr : Group}
  {wv o : Wave} {v : ServedTable} {e : Nat × Nat}

/-! ## A change of one wave's record -/

/-- What the counts read of waves and groups is as it was, but for the record of wave `w` and whether it is frozen. -/
structure Rewaves (w : Nat) (s t : State) : Prop where
  waves : t.waves.rising = true
  groups : t.groups.rising = true
  others : ∀ v ≠ w, wave? t v = wave? s v
  here : (wave? t w).isSome = true
  fair : ∀ wv, wave? t w = some wv → wv.Fair t w
  frozen : ∀ v ≠ w, v ∈ t.frozen ↔ v ∈ s.frozen
  mode : t.link.mode ≠ .setup
  courses : ∀ u, (tableRecord t u).liveCourses = (tableRecord s u).liveCourses
  keys : ∀ g, (group? t g).map Group.key = (group? s g).map Group.key

theorem Rewaves.total (h : Rewaves w s t) (hs : s.waves.rising = true) (f : Wave → Nat) :
    t.waves.total f + ((wave? s w).map f).getD 0 = s.waves.total f + ((wave? t w).map f).getD 0 :=
  Store.total_change hs h.waves w fun l hl => by rw [← wave?, h.others l hl, wave?]

theorem total_ofWave_congr (hs : s.groups.rising = true) (ht : t.groups.rising = true)
    (h : ∀ g, (group? t g).map Group.key = (group? s g).map Group.key) (w : Nat) :
    t.groups.total (Group.ofWave w) = s.groups.total (Group.ofWave w) :=
  Store.total_congr hs ht fun g => by
    have := congrArg (Option.map fun k : Nat × Nat × Nat => if decide (k.1 = w) then 1 else 0) (h g)
    simp only [Option.map_map] at this
    exact congrArg (Option.getD · 0) this

theorem Counts.rewaved (h : Counts C s) (hs : s.groups.rising = true) (k : Rewaves w s t)
    (engine : ∀ v wv, wave? t v = some wv → C' ≠ some v →
      (wv.state = .releasing ↔ t.engine.status = .running ∧ t.engine.wave = some v))
    (running : t.engine.status = .running → ∀ v ∈ t.engine.wave, waveState t v = .releasing)
    (pools : PoolsWhole t) (tickets : t.ticketPool.live = t.tickets.length) (groups : t.groupPool.live = t.groups.length)
    (reservedTickets : t.ticketPool.reserved = t.waves.total Wave.reservedTickets)
    (reservedGroups : t.groupPool.reserved = t.waves.total Wave.reservedGroups)
    (provided : C' = none → VisitsProvided t) : Counts C' t := by
  have back : ∀ g gr, group? t g = some gr → ∃ o, group? s g = some o ∧ o.key = gr.key := fun g gr hg =>
    Option.map_eq_some_iff.mp ((k.keys g).symm.trans (by rw [hg]; rfl))
  have forth : ∀ g gr, group? s g = some gr → ∃ o, group? t g = some o ∧ o.key = gr.key := fun g gr hg =>
    Option.map_eq_some_iff.mp ((k.keys g).trans (by rw [hg]; rfl))
  refine ⟨k.waves, fun v o hv => ?_, engine, fun v hv => ?_, running, pools, tickets, groups, reservedTickets, reservedGroups, provided,
    fun l o hl => ?_, fun u c => ?_, fun l l' o o' hl hl' ht hcs => ?_, fun hm => absurd hm k.mode⟩
  · by_cases e : v = w
    · subst e
      exact k.fair o hv
    · exact (h.fair v o (k.others v e ▸ hv)).congr (k.frozen v e) (total_ofWave_congr hs k.groups k.keys v)
  · by_cases e : v = w
    · subst e
      obtain ⟨o, ho⟩ := Option.isSome_iff_exists.mp k.here
      rw [waveState_of_wave ho]
      exact ((k.fair o ho).frozen).mpr hv
    · rw [waveState, k.others v e, ← waveState]
      exact h.frozen v ((k.frozen v e).mp hv)
  · obtain ⟨o', ho', e⟩ := back l o hl
    by_cases hw : o.wave = w
    · rw [hw]
      exact k.here
    · rw [k.others _ hw, ← show o'.wave = o.wave from congrArg Prod.fst e]
      exact h.waved l o' ho'
  · rw [k.courses, h.courses]
    constructor
    · rintro ⟨l, o, ho, rfl, rfl⟩
      obtain ⟨gr, hg, e⟩ := forth l o ho
      exact ⟨l, gr, hg, congrArg (·.2.1) e, congrArg (·.2.2) e⟩
    · rintro ⟨l, o, ho, rfl, rfl⟩
      obtain ⟨gr, hg, e⟩ := back l o ho
      exact ⟨l, gr, hg, congrArg (·.2.1) e, congrArg (·.2.2) e⟩
  · obtain ⟨p, hp, k⟩ := back l o hl
    obtain ⟨p', hp', k'⟩ := back l' o' hl'
    refine h.unique l l' p p' hp hp' ?_ ?_
    · exact ((congrArg (·.2.1) k).trans ht).trans (congrArg (·.2.1) k').symm
    · exact ((congrArg (·.2.2) k).trans hcs).trans (congrArg (·.2.2) k').symm

theorem Counts.mode (h : Counts C s) (hw : wave? s w = some wv) : s.link.mode ≠ .setup := fun e => by
  rw [wave?, h.setup e] at hw
  cases hw

/-! ## One ticket of a visit (R45, R85) -/

theorem Counts.createsTicket (h : Counts (some w) s) (hs : s.groups.rising = true) (ht : s.tickets.rising = true)
    (hw : wave? s w = some wv) (hst : wv.state = .releasing) (hr : 1 ≤ wv.reservedTickets) :
    Counts (some w) (created w g table go e s) := by
  let c := wv.counted s.clock (visitTicket s w g table go e).fireTime
  have records := created_record w g table go e s
  have groups := created_group w g table go e s
  have waves := created_wave w g table go e s
  have now : wave? (created w g table go e s) w = some c := by rw [waves, hw, Option.map_some, if_pos rfl]
  have keys : ∀ l, (group? (created w g table go e s) l).map Group.key = (group? s l).map Group.key := fun l => by
    rw [groups, Option.map_map]
    refine Option.map_congr fun o _ => ?_
    simp only [Function.comp_apply]
    split <;> rfl
  have risingGroups : (created w g table go e s).groups.rising = true := Store.rising_update _ _ hs
  have others : ∀ y ≠ w, wave? (created w g table go e s) y = wave? s y := fun y hy => by simp [waves, hy]
  have rewaves : Rewaves w s (created w g table go e s) := by
    refine ⟨Store.rising_update _ _ h.waves, risingGroups, others, by rw [now]; rfl, fun o ho => ?_, fun _ _ => Iff.rfl, h.mode hw,
      fun _ => rfl, keys⟩
    obtain rfl := Option.some.inj (now.symm.trans ho)
    have fair := h.fair w wv hw
    refine ⟨fair.number, fair.taken, fair.hold, fun _ => hst, fair.frozen, fair.staged, ?_⟩
    rw [total_ofWave_congr hs risingGroups keys]
    exact fair.released
  have tickets := rewaves.total h.waves Wave.reservedTickets
  have reservedGroups := rewaves.total h.waves Wave.reservedGroups
  rw [now, hw] at tickets reservedGroups
  simp only [Option.map_some, Option.getD_some] at tickets reservedGroups
  have atMost := Store.le_total Wave.reservedTickets h.waves hw
  have length : (created w g table go e s).tickets.length = s.tickets.length + 1 :=
    Store.length_of_added ht (Store.rising_set _ _ ht) s.tickets.firstAbsent_spec.1 (by rw [← ticket?, records, if_pos rfl]; rfl)
      fun l hl => by rw [← ticket?, records, if_neg hl, ticket?]
  have pool : (created w g table go e s).ticketPool = s.ticketPool.liveFromReserved := rfl
  have one : c.reservedTickets = wv.reservedTickets - 1 := rfl
  have same : c.reservedGroups = wv.reservedGroups := rfl
  have live := h.tickets
  have hrt := h.reservedTickets
  obtain ⟨wholeTickets, wholeGroups⟩ := h.pools
  have state : ∀ y, waveState (created w g table go e s) y = waveState s y :=
    fun y => waveState_updWave (Wave.counted _ _) _ (fun _ => rfl) y
  refine h.rewaved hs rewaves (fun y o hy hne => ?_) (fun hrun y hy => (state y).trans (h.running hrun y hy)) ⟨?_, wholeGroups⟩ ?_ ?_ ?_ ?_
    fun e => absurd e (by simp)
  · exact h.engine y o (others y (fun e => hne (by rw [e])) ▸ hy) hne
  · rw [pool]
    simp only [Pool.liveFromReserved]
    omega
  · rw [pool, length]
    simp only [Pool.liveFromReserved]
    omega
  · exact h.groups.trans (Store.length_congr hs risingGroups fun l => by simpa [group?] using (congrArg Option.isSome (keys l)).symm)
  · rw [pool]
    simp only [Pool.liveFromReserved]
    omega
  · have := h.reservedGroups
    change s.groupPool.reserved = _
    omega

/-- A new ticket stands in its PENDING group's list. -/
theorem Grouped.createsTicket (h : Grouped K none s) (hg : group? s g = some gr) (hp : gr.state = .pending)
    (hsame : gr.wave = w ∧ gr.table = table ∧ gr.goTime = go) : Grouped K none (created w g table go e s) := by
  have absent := s.tickets.firstAbsent_spec.1
  have records := created_record w g table go e s
  have groups := created_group w g table go e s
  have listed := h.listed
  have back : ∀ l o, ticket? (created w g table go e s) l = some o →
      l = s.tickets.firstAbsent ∧ o = visitTicket s w g table go e ∨ l ≠ s.tickets.firstAbsent ∧ ticket? s l = some o := fun l o hl => by
    rw [records] at hl
    split at hl
    · exact .inl ⟨‹_›, (Option.some.inj hl).symm⟩
    · exact .inr ⟨‹_›, hl⟩
  have ne_new : ∀ l o, ticket? s l = some o → l ≠ s.tickets.firstAbsent := fun l o hl e =>
    absurd (absent.symm.trans (e ▸ hl)) (by simp)
  have stays : ∀ l o, ticket? s l = some o → ticket? (created w g table go e s) l = some o := fun l o hl => by
    rw [records, if_neg (ne_new l o hl)]
    exact hl
  have now : group? (created w g table go e s) g = some { gr with tickets := gr.tickets ++ [s.tickets.firstAbsent] } := by
    rw [groups, hg, Option.map_some, if_pos rfl]
  have unlike : ∀ l ≠ g, group? (created w g table go e s) l = group? s l := fun l hl => by simp [groups, hl]
  have out : s.tickets.firstAbsent ∉ gr.tickets := fun hn => by
    have := listed.members g gr hg _ hn
    rw [show ticket? s s.tickets.firstAbsent = none from absent] at this
    cases this
  refine h.regrouped (g := g) ⟨unlike, fun l o hl _ => stays l o hl, fun l o hl hne => ?_, fun _ => rfl⟩ (Store.rising_set _ _ h.tickets)
    (Store.rising_update _ _ h.groups) ⟨fun l o hl => ?_, fun l o hl n hn => ?_, fun l o hl => ?_⟩ (fun _ o ho => ?_)
    (fun hK _ o ho => ?_) fun hK l o hl hgo gr' hg' => ?_
  · rcases back l o hl with ⟨-, rfl⟩ | ⟨-, hl⟩
    · exact absurd rfl hne
    · exact hl
  · by_cases hlg : l = g
    · subst hlg
      obtain rfl := Option.some.inj (now.symm.trans hl)
      exact List.nodup_append.mpr ⟨listed.nodup l gr hg, List.nodup_singleton _, fun a ha b hb e =>
        out (List.mem_singleton.mp hb ▸ e ▸ ha)⟩
    · exact listed.nodup l o (unlike l hlg ▸ hl)
  · have old : ∀ p, group? s l = some p → n ∈ p.tickets → (ticket? (created w g table go e s) n).map Ticket.group = some l :=
      fun p hp' hn => by
        have := listed.members l p hp' n hn
        obtain ⟨q, hq, -⟩ := Option.map_eq_some_iff.mp this
        rw [stays n q hq, ← hq]
        exact this
    by_cases hlg : l = g
    · subst hlg
      obtain rfl := Option.some.inj (now.symm.trans hl)
      rcases List.mem_append.mp hn with hn | hn
      · exact old gr hg hn
      · rw [List.mem_singleton.mp hn, records, if_pos rfl]
        rfl
    · exact old o (unlike l hlg ▸ hl) hn
  · rcases back l o hl with ⟨rfl, rfl⟩ | ⟨-, hl⟩
    · exact ⟨_, now, List.mem_append_right _ (List.mem_singleton.mpr rfl)⟩
    · obtain ⟨p, hp', hn⟩ := listed.listed l o hl
      by_cases hlg : o.group = g
      · obtain rfl := Option.some.inj (hg.symm.trans (hlg ▸ hp'))
        exact ⟨_, by rw [hlg]; exact now, List.mem_append_left _ hn⟩
      · exact ⟨p, (unlike _ hlg).trans hp', hn⟩
  · obtain rfl := Option.some.inj (now.symm.trans ho)
    exact fun e => absurd (hp.symm.trans e) (by simp)
  · obtain rfl := Option.some.inj (now.symm.trans ho)
    exact ⟨fun e => absurd (hp.symm.trans e) (by simp), fun e => absurd (hp.symm.trans e) (by simp),
      fun _ => (h.dies hK g gr hg (by simp)).2.2 (by simp [hp])⟩
  · obtain rfl := Option.some.inj (now.symm.trans hg')
    rcases back l o hl with ⟨-, rfl⟩ | ⟨-, hl⟩
    · exact ⟨hsame.1.symm, hsame.2.1.symm, hsame.2.2.symm⟩
    · exact h.same hK l o hl gr (hgo ▸ hg)

theorem Seated.home (h : Seated K F s) (hK : K.whole) (c : Nat) : componentStation s c < 24 := by
  rw [componentStation]
  split
  · exact h.menu hK c _ ‹_›
  · decide

/-- A new ticket of a visit is still to be placed. -/
theorem Kept.created (h : Kept K [] none (some w) s) (hg : group? s g = some gr) (hp : gr.state = .pending)
    (hsame : gr.wave = w ∧ gr.table = table ∧ gr.goTime = go)
    (hw : K.whole → ∃ wv, wave? s w = some wv ∧ wv.state = .releasing ∧ 1 ≤ wv.reservedTickets) :
    Kept K [s.tickets.firstAbsent] none (some w) (created w g table go e s) := by
  have absent := s.tickets.firstAbsent_spec.1
  have records := created_record w g table go e s
  have now : ticket? (Machine.created w g table go e s) s.tickets.firstAbsent = some (visitTicket s w g table go e) :=
    (records _).trans (if_pos rfl)
  have record : RecordOnly s.tickets.firstAbsent s (Machine.created w g table go e s) :=
    ⟨rfl, rfl, rfl, rfl, rfl, fun l hl => (records l).trans (if_neg hl)⟩
  refine ⟨⟨h.arranged.seated.record record (h.arranged.seated.standing.told.absent_unplaced absent) (fun l hl => by simp [hl])
    (fun hK o ho => ?_) fun _ _ _ _ => List.mem_cons_self .., h.arranged.fits⟩, fun hK => ⟨fun l o hl => ?_, fun l o hl => ?_⟩,
    h.books.grouped.createsTicket hg hp hsame, fun hK => ?_⟩
  · obtain rfl := Option.some.inj (now.symm.trans ho)
    exact h.arranged.seated.home hK e.1
  · rw [records] at hl
    split at hl
    · rename_i e
      obtain rfl := Option.some.inj hl
      have counts := h.books.counts (K.timed_whole hK)
      obtain ⟨wv, hwv, -, hr⟩ := hw (K.timed_whole hK)
      have atMost := Store.le_total Wave.reservedTickets counts.waves hwv
      have low := firstAbsent_le_length s.tickets
      have whole : _ = 4096 := counts.pools.1
      have := counts.tickets
      have := counts.reservedTickets
      exact ⟨by omega, Nat.zero_le _⟩
    · exact (h.books.numbered hK).tickets l o hl
  · rw [created_group] at hl
    obtain ⟨o', ho', -⟩ := Option.map_eq_some_iff.mp hl
    exact (h.books.numbered hK).groups l o' ho'
  · obtain ⟨wv, hwv, hst, hr⟩ := hw hK
    exact (h.books.counts hK).createsTicket h.books.grouped.groups h.books.grouped.tickets hwv hst hr

theorem joinCalendar_shuffles (hk : ticket? s n = some tk) (hw : tk.Waits) : Shuffles s (joinCalendar n s) := by
  refine ⟨rfl, rfl, rfl, rfl, rfl, rfl, rfl, fun _ => rfl, fun _ => rfl, Store.rising_update _ _, fun l => ?_⟩
  by_cases hl : l = n
  · subst hl
    refine .inr ⟨tk, { tk with state := .calendared }, hk, ?_, hw, .inl rfl, rfl⟩
    change ticket? (updTicket l _ s) l = _
    rw [ticket_get_updTicket, if_pos rfl, hk]
    rfl
  · refine .inl ?_
    change ticket? (updTicket n _ s) l = _
    rw [ticket_get_updTicket, if_neg hl]

/-- A ticket of a visit is created and placed. -/
theorem Kept.creates (h : Kept K [] none (some w) s) (hg : group? s g = some gr) (hp : gr.state = .pending)
    (hsame : gr.wave = w ∧ gr.table = table ∧ gr.goTime = go)
    (hw : K.whole → ∃ wv, wave? s w = some wv ∧ wv.state = .releasing ∧ 1 ≤ wv.reservedTickets) :
    Kept K [] none (some w) (createReleased w g table go e s) := by
  have made := h.created (e := e) hg hp hsame hw
  have now : ticket? (Machine.created w g table go e s) s.tickets.firstAbsent = some (visitTicket s w g table go e) :=
    (created_record w g table go e s _).trans (if_pos rfl)
  have waits : (visitTicket s w g table go e).Waits := .inr (.inl rfl)
  rw [createReleased_eq]
  split
  · rename_i later
    refine ⟨made.arranged.calendars (by simp) now fun _ => .inr ?_, (joinCalendar_shuffles now waits).books made.books⟩
    have := K.lead_le
    change (s.clock : Int) + K.lead ≤ _
    omega
  · exact made.offers (by simp) now waits

/-- The tickets of a visit are created and placed, one after another. -/
theorem Kept.createsAll (es : List (Nat × Nat)) (h : Kept K [] none (some w) s) (hg : group? s g = some gr) (hp : gr.state = .pending)
    (hsame : gr.wave = w ∧ gr.table = table ∧ gr.goTime = go)
    (hw : K.whole → ∃ wv, wave? s w = some wv ∧ wv.state = .releasing ∧ es.length ≤ wv.reservedTickets) :
    Kept K [] none (some w) (es.foldl (fun s e => createReleased w g table go e s) s) := by
  induction es generalizing s gr with
  | nil => exact h
  | cons e es ih =>
    have made := createReleased_made w g table go e s
    refine ih (h.creates hg hp hsame fun hK => ?_) (gr := { gr with tickets := gr.tickets ++ [s.tickets.firstAbsent] }) ?_ hp hsame
      fun hK => ?_
    · obtain ⟨wv, hwv, hst, hr⟩ := hw hK
      exact ⟨wv, hwv, hst, by rw [List.length_cons] at hr; omega⟩
    · rw [made.groups, hg, Option.map_some, if_pos rfl]
    · obtain ⟨wv, hwv, hst, hr⟩ := hw hK
      refine ⟨wv.counted s.clock (visitTicket s w g table go e).fireTime, by rw [made.waves, hwv, Option.map_some, if_pos rfl], hst, ?_⟩
      rw [List.length_cons] at hr
      simp only [Wave.counted]
      omega

end Sys2Proof.Machine
end


section
/-!
PROOFS. The release engine's visits and the end of a release keep the invariant (R45, R47).
-/

namespace Sys2Proof.Machine

variable {K : Scope} {F F' : List Nat} {X C C' : Option Nat} {g i n m w x table go : Nat} {s t : State} {tk : Ticket} {gr : Group}
  {wv o : Wave} {v : ServedTable} {e : Nat × Nat} {en : Engine}

/-! ## The end of a release (R47) -/

/-- The wave is ACTIVE, and the engine has ended with it. -/
def activated (w : Nat) (s : State) : State :=
  { updWave w (fun wv => { wv with state := .active }) s with engine := { status := .done, wave := some w, plan := [], next := 0 } }

theorem Counts.activates (h : Counts (some w) s) (hs : s.groups.rising = true) (hw : wave? s w = some wv) (hst : wv.state = .releasing)
    (hz : wv.reservedTickets = 0 ∧ wv.reservedGroups = 0) (he : s.engine.status = .running → s.engine.wave = some w) :
    Counts none (activated w s) := by
  have waves : ∀ y, wave? (activated w s) y = if y = w then (wave? s y).map fun wv => { wv with state := .active } else wave? s y :=
    fun y => wave_get_updWave _ _ _ _
  have now : wave? (activated w s) w = some { wv with state := .active } := by rw [waves, if_pos rfl, hw, Option.map_some]
  have others : ∀ y ≠ w, wave? (activated w s) y = wave? s y := fun y hy => by rw [waves, if_neg hy]
  have rewaves : Rewaves w s (activated w s) := by
    refine ⟨Store.rising_update _ _ h.waves, hs, others, by rw [now]; rfl, fun o ho => ?_, fun _ _ => Iff.rfl, h.mode hw,
      fun _ => rfl, fun _ => rfl⟩
    obtain rfl := Option.some.inj (now.symm.trans ho)
    have fair := h.fair w wv hw
    refine ⟨fair.number, by simp, ?_, fun e => ?_, ?_, fun e => absurd e (by simp), fair.released⟩
    · rw [fair.hold, hst]
      simp
    · dsimp only at e
      omega
    · refine Iff.trans ?_ fair.frozen
      rw [hst]
      simp
  have total : ∀ f : Wave → Nat, (∀ o : Wave, f { o with state := .active } = f o) → (activated w s).waves.total f = s.waves.total f :=
    fun f hf => by
      have := rewaves.total h.waves f
      rw [now, hw, Option.map_some, Option.map_some, hf] at this
      omega
  refine h.rewaved hs rewaves (fun y o hy _ => iff_of_false (fun hr => ?_) fun k => absurd k.1 (by simp [activated]))
    (fun hr => absurd hr (by simp [activated])) h.pools h.tickets h.groups ?_ ?_ fun _ hr => absurd hr (by simp [activated])
  · by_cases hyw : y = w
    · subst hyw
      obtain rfl := Option.some.inj (now.symm.trans hy)
      exact absurd hr (by simp)
    · rw [others y hyw] at hy
      obtain ⟨run, eq⟩ := (h.engine y o hy fun e => hyw (Option.some.inj e).symm).mp hr
      exact hyw (Option.some.inj (eq.symm.trans (he run)))
  · exact h.reservedTickets.trans (total _ fun _ => rfl).symm
  · exact h.reservedGroups.trans (total _ fun _ => rfl).symm

theorem returnReservations_wave (hw : wave? s w = some wv) : wave? (returnReservations w s) w = some (unreservedWave wv) := by
  unfold returnReservations
  rw [hw]
  dsimp only
  rw [wave_get_updWave, if_pos rfl]
  change (wave? s w).map _ = _
  rw [hw]
  rfl

/-- The end of a release. -/
theorem Kept.endsRelease (h : Kept K F none (some w) s)
    (hw : K.whole → waveState s w = .releasing ∧ (s.engine.status = .running → s.engine.wave = some w)) :
    Kept K F none none (endRelease w s) := by
  have active : Kept K F none none (activated w (returnReservations w s)) := by
    refine h.returns.recounts rfl fun hK => ?_
    obtain ⟨hst, he⟩ := hw hK
    obtain ⟨wv, hwv, hst⟩ := wave_of_waveState hst (by simp)
    refine (h.returns.books.counts hK).activates h.returns.books.grouped.groups (returnReservations_wave hwv) hst ⟨rfl, rfl⟩ ?_
    rw [(returnReservations_only w s).1]
    exact he
  unfold endRelease
  refine Kept.completesWave w ?_
  change Kept K F none none (match wave? (activated w (returnReservations w s)) w with
    | some wv => pushNotice _ (activated w (returnReservations w s))
    | none => activated w (returnReservations w s))
  split
  · exact active.notice _
  · exact active

/-! ## A visit (R45) -/

/-- The engine goes on for the same wave. -/
theorem Counts.proceeds (h : Counts (some w) s) (hs : en.status = s.engine.status) (hw : en.wave = s.engine.wave) :
    Counts (some w) { s with engine := en } :=
  ⟨h.waves, fun v o hv => (h.fair v o hv).congr Iff.rfl rfl, fun v o hv hne => by rw [hs, hw]; exact h.engine v o hv hne, h.frozen,
    fun hr v hv => h.running (hs ▸ hr) v (hw ▸ hv), h.pools, h.tickets, h.groups, h.reservedTickets, h.reservedGroups,
    fun e => absurd e (by simp), h.waved, h.courses, h.unique, h.setup⟩

/-- The engine runs for the wave, and what it still holds covers the visits to come. -/
theorem Counts.goesOn (h : Counts (some w) s) (hst : waveState s w = .releasing) (hr : s.engine.status = .running)
    (he : s.engine.wave = some w) (provided : VisitsProvided s) : Counts none s :=
  ⟨h.waves, h.fair, fun v o hv _ => by
    by_cases e : v = w
    · refine iff_of_true ?_ ⟨hr, e ▸ he⟩
      rw [← waveState_of_wave hv, e]
      exact hst
    · exact h.engine v o hv fun k => e (Option.some.inj k).symm,
    h.frozen, h.running, h.pools, h.tickets, h.groups, h.reservedTickets, h.reservedGroups, fun _ => provided, h.waved, h.courses,
    h.unique, h.setup⟩

theorem drop_of_getElem? {α : Type} {l : List α} {a : α} (h : l[i]? = some a) : l.drop i = a :: l.drop (i + 1) :=
  List.drop_eq_getElem?_toList_append.trans (by rw [h]; rfl)

/-- What the engine's wave still holds covers the visits after this one. -/
theorem Visited.provided {ns : List Nat} (k : Visited w s.engine.next v wv g ns s t) (h : VisitsProvided s)
    (hr : s.engine.status = .running) (he : s.engine.wave = some w) (hw : wave? s w = some wv)
    (hv : s.engine.plan[s.engine.next]? = some v) :
    VisitsProvided { t with engine := { s.engine with next := s.engine.next + 1 } } := by
  intro _ y hy o ho
  obtain rfl : w = y := Option.some.inj (he.symm.trans hy)
  obtain rfl := Option.some.inj (k.wave.symm.trans ho)
  obtain ⟨groups, tickets, tables, courses⟩ := h hr w he wv hw
  rw [drop_of_getElem? hv] at groups tickets tables courses
  simp only [List.length_cons, List.map_cons, List.sum_cons] at groups tickets
  obtain ⟨fresh, tables⟩ := List.nodup_cons.mp tables
  rw [Wave.countedAll_eq]
  simp only [Wave.opened, List.length_map]
  refine ⟨by omega, by omega, tables, fun u hu hc => courses u (List.mem_cons_of_mem _ hu) ?_⟩
  have hne : u.table ≠ v.table := fun e => fresh (e ▸ List.mem_map_of_mem hu)
  change _ ∈ (tableRecord t u.table).liveCourses at hc
  rw [k.tables, if_neg hne] at hc
  exact hc

/-- A visit of the release engine. -/
theorem Kept.visits (h : Kept K [] none none s) (hr : s.engine.status = .running) (he : s.engine.wave = some w)
    (hw : wave? s w = some wv) (hv : s.engine.plan[s.engine.next]? = some v) : Kept K [] none none (releaseVisit s) := by
  have releasing : K.whole → wv.state = .releasing := fun hK => by
    rw [← waveState_of_wave hw]
    exact (h.books.counts hK).running hr w he
  have provided : K.whole → v.tickets.length ≤ wv.reservedTickets ∧ 1 ≤ wv.reservedGroups
      ∧ wv.course ∉ (tableRecord s v.table).liveCourses := fun hK => by
    obtain ⟨groups, tickets, -, courses⟩ := (h.books.counts hK).provided rfl hr w he wv hw
    rw [drop_of_getElem? hv] at groups tickets courses
    simp only [List.length_cons, List.map_cons, List.sum_cons] at groups tickets
    exact ⟨by omega, by omega, courses v (List.mem_cons_self ..)⟩
  have opened : Kept K [] none (some w) (openGroup w s.engine.next wv v s) :=
    h.opensGroup fun hK => ⟨hw, releasing hK, (provided hK).2⟩
  have made : Kept K [] none (some w) (visitTable w s.engine.next wv v s) := by
    rw [visitTable_eq]
    refine opened.createsAll v.tickets ((openGroup_group ..).trans (if_pos rfl)) rfl ⟨rfl, rfl, rfl⟩ fun hK => ?_
    exact ⟨wv.opened, by rw [openGroup_wave, if_pos rfl, hw, Option.map_some], releasing hK, (provided hK).1⟩
  obtain ⟨ns, visited⟩ := visitTable_visited (i := s.engine.next) (v := v) hw
  rw [releaseVisit_eq hr he rfl hv hw]
  generalize visitTable w s.engine.next wv v s = t at *
  have engine : t.engine = s.engine := by rw [visited.rest]
  have moved : Kept K [] none (some w) { t with engine := { s.engine with next := s.engine.next + 1 } } :=
    made.recounts (s := t) rfl fun hK => (made.books.counts hK).proceeds (by rw [engine]) (by rw [engine])
  have state : K.whole → waveState { t with engine := { s.engine with next := s.engine.next + 1 } } w = .releasing := fun hK => by
    refine (waveState_of_wave visited.wave).trans ?_
    rw [Wave.countedAll_eq]
    exact releasing hK
  split
  · exact moved.endsRelease fun hK => ⟨state hK, fun _ => he⟩
  · refine moved.recounts rfl fun hK => (moved.books.counts hK).goesOn (state hK) hr he ?_
    exact visited.provided ((h.books.counts hK).provided rfl) hr he hw hv

theorem Kept.releases (h : Kept K [] none none s) : Kept K [] none none (releaseVisit s) := by
  cases hr : s.engine.status <;> cases he : s.engine.wave <;> try (rw [releaseVisit, hr, he]; exact h)
  rename_i w
  cases hw : wave? s w with
  | none =>
    rw [releaseVisit, hr, he]
    dsimp only
    rw [hw]
    exact h
  | some wv =>
    cases hv : s.engine.plan[s.engine.next]? with
    | none =>
      rw [releaseVisit, hr, he]
      dsimp only
      rw [hw]
      dsimp only
      rw [hv]
      have opened : Kept K [] none (some w) s := ⟨h.arranged, h.books.numbered, h.books.grouped, fun hK => (h.books.counts hK).opens w⟩
      exact opened.endsRelease fun hK => ⟨(h.books.counts hK).running hr w he, fun _ => he⟩
    | some v => exact h.visits hr he hw hv

end Sys2Proof.Machine
end


section
/-!
PROOFS. STAGE_WAVE, RELEASE_WAVE and HOLD_WAVE keep the invariant (R36 to R43, R48).
-/

namespace Sys2Proof.Machine

variable {K : Scope} {F F' : List Nat} {X C C' : Option Nat} {g i n m w x : Nat} {s t : State} {wv o : Wave}

/-! ## Waves that a request changes -/

theorem Counts.absent_of_free (h : Counts C s) (hw : waveState s w = .free) : wave? s w = none := by
  by_contra hne
  obtain ⟨wv, hwv⟩ := Option.ne_none_iff_exists'.mp hne
  exact (h.fair w wv hwv).taken ((waveState_of_wave hwv).symm.trans hw)

/-- A wave in none of the engine's states changes to another such state. -/
theorem Counts.rewrites (h : Counts none s) (hs : s.groups.rising = true) (k : Rewaves w s t) (engine : t.engine = s.engine)
    (pools : t.ticketPool = s.ticketPool ∧ t.groupPool = s.groupPool) (live : t.tickets.length = s.tickets.length)
    (before : waveState s w ≠ .releasing) (after : ∀ wv, wave? t w = some wv → wv.state ≠ .releasing) : Counts none t := by
  have idle : ∀ f : Wave → Nat, (∀ u v wv, wave? u v = some wv → wv.Fair u v → wv.state ≠ .releasing → f wv = 0) →
      t.waves.total f = s.waves.total f := fun f hf => by
    have total := k.total h.waves f
    obtain ⟨new, hnew⟩ := Option.isSome_iff_exists.mp k.here
    have zero := hf t w new hnew (k.fair new hnew) (after new hnew)
    rw [hnew, Option.map_some, Option.getD_some, zero] at total
    cases hold : wave? s w with
    | none =>
      rw [hold] at total
      simpa using total
    | some old =>
      have zero' := hf s w old hold (h.fair w old hold) (by rwa [← waveState_of_wave hold])
      rw [hold, Option.map_some, Option.getD_some, zero'] at total
      exact total
  have groups : t.groups.length = s.groups.length := Store.length_congr k.groups hs fun l => by
    simpa [group?] using congrArg Option.isSome (k.keys l)
  have notW : s.engine.status = .running → ∀ v ∈ s.engine.wave, v ≠ w := fun hr v hv e => before (h.running hr w (e ▸ hv))
  refine h.rewaved hs k (fun v o hv _ => ?_) (fun hr v hv => ?_) (by rw [PoolsWhole, pools.1, pools.2]; exact h.pools) ?_ ?_ ?_ ?_
    fun _ hr v hv o ho => ?_
  · rw [engine]
    by_cases e : v = w
    · subst e
      exact iff_of_false (after o hv) fun k => notW k.1 v k.2 rfl
    · exact h.engine v o (k.others v e ▸ hv) (by simp)
  · rw [engine] at hr hv
    rw [waveState, k.others v (notW hr v hv), ← waveState]
    exact h.running hr v hv
  · rw [pools.1, live]
    exact h.tickets
  · rw [pools.2, groups]
    exact h.groups
  · rw [pools.1]
    exact h.reservedTickets.trans (idle _ fun _ _ _ _ hf hst => (hf.unreserved hst).1).symm
  · rw [pools.2]
    exact h.reservedGroups.trans (idle _ fun _ _ _ _ hf hst => (hf.unreserved hst).2).symm
  · rw [engine] at hr hv
    have provided := h.provided rfl hr v hv o (k.others v (notW hr v hv) ▸ ho)
    simpa only [engine, k.courses] using provided

/-! ## STAGE_WAVE (R36 to R38) -/

theorem Kept.stages (b : List Byte) (h : Kept K F none none s) : Kept K F none none (stageWaveRequest b s).1 := by
  unfold stageWaveRequest
  split
  · exact h
  rename_i f _
  dsimp only
  split_ifs with inRange last mode noSuch taken empty <;> try exact h
  refine h.recounts (s := s) rfl fun hK => ?_
  have counts := h.books.counts hK
  have rising := h.books.grouped.groups
  have absent := counts.absent_of_free (not_not.mp taken)
  generalize hp : stagedWave s f (plannedTables s f.course (servedTables s f.course f.skipMark f.region)) = p
  have staged : p.state = .staged ∧ p.holdSince = none ∧ p.reservedTickets = 0 ∧ p.reservedGroups = 0 ∧ p.release = {}
      ∧ p.ending = {} := by
    rw [← hp]
    exact ⟨rfl, rfl, rfl, rfl, rfl, rfl⟩
  obtain ⟨hst, hold, tickets, groups, release, ending⟩ := staged
  have now : wave? { s with waves := s.waves.set f.wave p } f.wave = some p := Store.get?_set_self _ _ _
  have thawed : f.wave ∉ s.frozen := fun e => by
    have := counts.frozen _ e
    rw [waveState, absent] at this
    cases this
  have inRange : f.wave < 64 := by
    simp only [stageFormInRange, Bool.not_eq_false, Bool.and_eq_true, decide_eq_true_eq] at inRange
    exact inRange.1.1.1
  refine counts.rewrites rising ⟨Store.rising_set _ _ counts.waves, rising, fun v hv => Store.get?_set_of_ne _ _ hv, by rw [now]; rfl,
    fun o ho => ?_, fun _ _ => Iff.rfl, mode, fun _ => rfl, fun _ => rfl⟩ rfl ⟨rfl, rfl⟩ rfl (not_not.mp taken ▸ by simp)
    fun o ho => ?_
  · obtain rfl := Option.some.inj (now.symm.trans ho)
    refine ⟨inRange, by simp [hst], by simp [hst, hold], by simp [tickets, groups], by simp [hst, thawed],
      fun _ => by rw [release], ?_⟩
    rw [release, ending]
    refine (Nat.zero_add _).symm.trans (congrArg (0 + ·) (Store.total_eq_zero rising fun l gr hl => ?_).symm)
    have some' := counts.waved l gr hl
    refine if_neg fun e => ?_
    rw [of_decide_eq_true e, absent] at some'
    cases some'
  · obtain rfl := Option.some.inj (now.symm.trans ho)
    simp [hst]

/-! ## HOLD_WAVE (R48) -/

theorem Kept.holds (b : List Byte) (h : Kept K F none none s) : Kept K F none none (holdWaveRequest b s).1 := by
  unfold holdWaveRequest
  split
  · exact h
  rename_i w _
  split_ifs with inRange mode state
  · exact h
  · exact h
  · exact h
  obtain ⟨wv, hw, hst⟩ := wave_of_waveState (not_not.mp state) (by simp)
  have waves : ∀ v, wave? (holdWave w s) v
      = if v = w then (wave? s v).map fun wv => { wv with state := .held, holdSince := some s.clock } else wave? s v :=
    fun v => wave_get_updWave _ _ _ _
  have now : wave? (holdWave w s) w = some { wv with state := .held, holdSince := some s.clock } := by
    rw [waves, if_pos rfl, hw, Option.map_some]
  have member : ∀ v, v ∈ (holdWave w s).frozen ↔ v = w ∨ v ∈ s.frozen := fun v => mem_insertNumber
  have ahead : K.timed → Ahead K.lead { s with frozen := insertNumber w s.frozen } := fun hK n hn =>
    (h.arranged.seated.ahead hK n hn).imp (fun ⟨tk, hk, hf⟩ => ⟨tk, hk, mem_insertNumber.mpr (.inr hf)⟩) id
  have still : Still { s with frozen := insertNumber w s.frozen } (holdWave w s) :=
    ⟨rfl, rfl, rfl, rfl, rfl, fun _ => rfl, fun _ => rfl, fun _ => rfl, fun _ => rfl, fun _ => rfl, fun _ => rfl⟩
  refine ⟨still.arranged (h.arranged.refreezes _ ahead), fun hK => (h.books.numbered hK).congr rfl rfl,
    h.books.grouped.congr rfl rfl fun _ => rfl, fun hK => ?_⟩
  change Counts none (holdWave w s)
  have counts := h.books.counts hK
  have fair := counts.fair w wv hw
  have idle := fair.unreserved (by simp [hst])
  refine counts.rewrites h.books.grouped.groups ⟨Store.rising_update _ _ counts.waves, h.books.grouped.groups,
    fun v hv => by rw [waves, if_neg hv], by rw [now]; rfl, fun o ho => ?_, fun v hv => (member v).trans (or_iff_right hv), mode,
    fun _ => rfl, fun _ => rfl⟩ rfl ⟨rfl, rfl⟩ rfl (by rw [waveState_of_wave hw, hst]; simp) fun o ho => ?_
  · obtain rfl := Option.some.inj (now.symm.trans ho)
    exact ⟨fair.number, by simp, by simp, fun e => by dsimp only at e; omega,
      iff_of_true rfl ((member w).mpr (.inl rfl)), fun e => absurd e (by simp), fair.released⟩
  · obtain rfl := Option.some.inj (now.symm.trans ho)
    simp

/-! ## RELEASE_WAVE (R41 to R43) -/

theorem segments_nodup (c : Nat) (fl : Floor) (p : Placement) (hc : c = fl.columns) :
    (segments c (clipPlacement fl p)).flatten.Nodup := by
  subst hc
  have ascends : (∀ row column width height, clipPlacement fl p = .rect row column width height → column + width ≤ fl.columns) →
      (segments fl.columns (clipPlacement fl p)).flatten.Nodup := fun h => (segments_rows h).ascends.imp Nat.ne_of_lt
  cases p with
  | linear start count => exact ascends fun _ _ _ _ e => by cases e
  | rect row column width height =>
    by_cases inside : column ≤ fl.columns
    · refine ascends fun _ _ _ _ e => ?_
      cases e
      omega
    · have empty : (segments fl.columns (clipPlacement fl (.rect row column width height))).flatten = [] := by
        refine List.eq_nil_of_length_eq_zero ?_
        rw [clipPlacement, length_segments_rect, Nat.sub_eq_zero_of_le (by omega)]
        simp
      rw [empty]
      exact List.nodup_nil

/-- A walk visits no table twice. -/
theorem walk_nodup (fl : Floor) (r : Region) : (walkOrder fl r).Nodup :=
  (walkOrder_perm fl r).nodup_iff.mpr (segments_nodup _ fl r.placement rfl)

theorem plannedTables_table (s : State) (course : Nat) (served : List Nat) :
    (plannedTables s course served).map ServedTable.table = served := by
  rw [plannedTables, List.map_map]
  exact List.map_id' served

theorem foldl_add_eq_sum {α : Type} (f : α → Nat) (l : List α) (k : Nat) : l.foldl (fun n a => n + f a) k = k + (l.map f).sum := by
  induction l generalizing k with
  | nil => rfl
  | cons a l ih => rw [List.foldl_cons, ih, List.map_cons, List.sum_cons, Nat.add_assoc]

/-- The tables of a release's walk are other tables, at which the course is not live. -/
theorem releasePlan_tables (s : State) (wv : Wave) : ((releasePlan s wv).map ServedTable.table).Nodup
    ∧ ∀ v ∈ releasePlan s wv, wv.course ∉ (tableRecord s v.table).liveCourses := by
  refine ⟨?_, fun v hv => ?_⟩
  · rw [releasePlan, plannedTables_table]
    exact (walk_nodup _ _).filter _
  · have served : v.table ∈ servedTables s wv.course wv.skipMark wv.region := by
      rw [← plannedTables_table s wv.course (servedTables s wv.course wv.skipMark wv.region)]
      exact List.mem_map_of_mem hv
    exact ((skipTest_served_iff _ _ _).mp (of_decide_eq_true (List.mem_filter.mp served).2)).2.2

theorem startRelease_wave (before : State) (plan : List ServedTable) (hw : wave? s w = some wv) :
    ∃ new, wave? (startRelease before w wv plan s) w = some new ∧ new = { wv with
      state := .releasing, plan := new.plan, release := {}
      reservedTickets := (plan.map fun v => v.tickets.length).sum, reservedGroups := plan.length } := by
  let counts := planCounts before wv.course wv.skipMark wv.region plan
  refine ⟨{ wv with
    state := .releasing, plan := counts, release := {}, reservedTickets := counts.tickets, reservedGroups := counts.groups }, ?_, ?_⟩
  · change wave? (updWave w _ _) w = _
    rw [wave_get_updWave, if_pos rfl]
    change Option.map _ (wave? s w) = _
    rw [hw, Option.map_some]
  · simp only [counts, planCounts, foldl_add_eq_sum, Nat.zero_add]

theorem Counts.startsRelease {before : State} {plan : List ServedTable} (h : Counts none s) (hs : s.groups.rising = true)
    (hw : wave? s w = some wv) (hst : wv.state = .staged) (mode : s.link.mode ≠ .setup) (idle : s.engine.status ≠ .running)
    (hft : (planCounts before wv.course wv.skipMark wv.region plan).tickets ≤ s.ticketPool.free)
    (hfg : (planCounts before wv.course wv.skipMark wv.region plan).groups ≤ s.groupPool.free)
    (tables : (plan.map ServedTable.table).Nodup ∧ ∀ v ∈ plan, wv.course ∉ (tableRecord s v.table).liveCourses) :
    Counts none (startRelease before w wv plan s) := by
  obtain ⟨new, now, eq⟩ := startRelease_wave before plan hw
  have fair := h.fair w wv hw
  have others : ∀ v ≠ w, wave? (startRelease before w wv plan s) v = wave? s v := fun v hv => by
    change wave? (updWave w _ _) v = _
    rw [wave_get_updWave, if_neg hv]
    rfl
  have state : new.state = .releasing := by rw [eq]
  have tickets : new.reservedTickets = (plan.map fun v => v.tickets.length).sum := by rw [eq]
  have groups : new.reservedGroups = plan.length := by rw [eq]
  have rewaves : Rewaves w s (startRelease before w wv plan s) := by
    refine ⟨Store.rising_update _ _ h.waves, hs, others, by rw [now]; rfl, fun o ho => ?_, fun _ _ => Iff.rfl, mode, fun _ => rfl,
      fun _ => rfl⟩
    obtain rfl := Option.some.inj (now.symm.trans ho)
    have zero := fair.staged hst
    have released := fair.released
    refine ⟨fair.number, by simp [state], ?_, fun _ => state, ?_, fun e => absurd (state.symm.trans e) (by simp), ?_⟩
    · rw [eq]
      refine fair.hold.trans ?_
      simp [hst]
    · refine Iff.trans ?_ fair.frozen
      simp [hst, state]
    · change _ = new.ending.served + new.ending.short + new.ending.cancelled + s.groups.total (Group.ofWave w)
      rw [eq]
      simp only
      omega
  have counts : (planCounts before wv.course wv.skipMark wv.region plan).tickets = (plan.map fun v => v.tickets.length).sum
      ∧ (planCounts before wv.course wv.skipMark wv.region plan).groups = plan.length :=
    ⟨(foldl_add_eq_sum _ _ _).trans (Nat.zero_add _), rfl⟩
  rw [counts.1] at hft
  rw [counts.2] at hfg
  have pool : (startRelease before w wv plan s).ticketPool = s.ticketPool.reserve (plan.map fun v => v.tickets.length).sum := by
    rw [← counts.1]
    rfl
  have pool' : (startRelease before w wv plan s).groupPool = s.groupPool.reserve plan.length := rfl
  have unreserved := fair.unreserved (by simp [hst])
  have ticketTotal := rewaves.total h.waves Wave.reservedTickets
  have groupTotal := rewaves.total h.waves Wave.reservedGroups
  rw [now, hw, Option.map_some, Option.map_some, Option.getD_some, Option.getD_some] at ticketTotal groupTotal
  have hrt := h.reservedTickets
  have hrg := h.reservedGroups
  obtain ⟨wholeTickets, wholeGroups⟩ := h.pools
  refine h.rewaved hs rewaves (fun v o hv _ => ?_) (fun _ v hv => ?_) ⟨?_, ?_⟩ ?_ ?_ ?_ ?_ fun _ _ v hv o ho => ?_
  · by_cases e : v = w
    · subst e
      obtain rfl := Option.some.inj (now.symm.trans hv)
      exact iff_of_true state ⟨rfl, rfl⟩
    · rw [others v e] at hv
      exact iff_of_false (fun hr => idle ((h.engine v o hv (by simp)).mp hr).1) fun k => e (Option.some.inj k.2).symm
  · obtain rfl : w = v := Option.some.inj hv
    rw [waveState_of_wave now]
    exact state
  · rw [pool]
    simp only [Pool.reserve]
    omega
  · rw [pool']
    simp only [Pool.reserve]
    omega
  · rw [pool]
    exact h.tickets
  · rw [pool']
    exact h.groups
  · rw [pool]
    simp only [Pool.reserve]
    omega
  · rw [pool']
    simp only [Pool.reserve]
    omega
  · obtain rfl : w = v := Option.some.inj hv
    obtain rfl := Option.some.inj (now.symm.trans ho)
    refine ⟨groups, tickets, tables.1, fun v hv => ?_⟩
    rw [eq]
    exact tables.2 v hv

theorem OnlyStock.wave_get (h : OnlyStock s t) (v : Nat) : wave? t v = wave? s v := by
  rw [h.rest]
  rfl

theorem Kept.releasesWave (b : List Byte) (h : Kept K F none none s) : Kept K F none none (releaseWaveRequest b s).1 := by
  unfold releaseWaveRequest
  split
  · exact h
  rename_i w _
  split
  · exact h
  split
  · split_ifs <;> exact h
  rename_i wv hw
  dsimp only
  split_ifs with late mode state empty
  · exact h
  · exact h
  · exact h
  · exact h
  have hst := not_not.mp state
  unfold releaseStaged
  dsimp only
  split_ifs with busy noTickets noGroups
  · exact h
  · exact h
  · exact h
  have stock := waveDraw_stock (stockNeed s (releasePlan s wv)) s
  split <;> rename_i drawn hd <;> rw [hd] at stock
  · exact h.stock stock
  have kept := h.stock stock
  have link : drawn.link.mode = s.link.mode := by
    rw [stock.link]
  have rest := stock.rest
  refine kept.recounts (s := drawn) rfl fun hK => ?_
  have tables := releasePlan_tables s wv
  refine (kept.books.counts hK).startsRelease kept.books.grouped.groups ((stock.wave_get w).trans hw) hst (by rwa [link]) ?_ ?_ ?_
    ⟨tables.1, fun v hv => ?_⟩
  · rw [rest]
    exact busy
  · rw [rest]
    exact Nat.not_lt.mp noTickets
  · rw [rest]
    exact Nat.not_lt.mp noGroups
  · rw [rest]
    exact tables.2 v hv

end Sys2Proof.Machine
end


section
/-!
PROOFS. Waiting tickets that leave their places, and those that join the calendar instead, at a resume (R52, R53).
-/

namespace Sys2Proof.Machine

variable {K : Scope} {F : List Nat} {X C : Option Nat} {g n m w x : Nat} {s t u : State} {tk : Ticket} {ns ms : List Nat}

/-! ## Waiting tickets leave their places -/

/-- Tickets have left the blocked lists of their home stations; the controllers are otherwise as they were. -/
structure Vacates (ns : List Nat) (s t : State) : Prop where
  length : t.stations.length = s.stations.length
  rest : ∀ y, station t y = { station s y with blocked := (station t y).blocked }
  sublist : ∀ y, (station t y).blocked.Sublist (station s y).blocked
  blocked : ∀ y n, n ∈ (station t y).blocked
    ↔ n ∈ (station s y).blocked ∧ ¬(n ∈ ns ∧ (ticket? s n).map Ticket.homeStation = some y)

theorem Vacates.nil (s : State) : Vacates [] s s :=
  ⟨rfl, fun _ => rfl, fun _ => .refl _, fun y n => by simp⟩

theorem Vacates.trans (h : Vacates ns s t) (k : Vacates ms t u)
    (homes : ∀ n, (ticket? t n).map Ticket.homeStation = (ticket? s n).map Ticket.homeStation) : Vacates (ns ++ ms) s u where
  length := k.length.trans h.length
  rest y := by rw [k.rest, h.rest]
  sublist y := (k.sublist y).trans (h.sublist y)
  blocked y n := by
    rw [k.blocked, h.blocked, homes, List.mem_append]
    tauto

theorem Vacates.congr (h : Vacates ns s t) (hs : t.stations = u.stations) : Vacates ns s u := by
  have same : ∀ y, station u y = station t y := fun y => by rw [Machine.station, ← hs, ← Machine.station]
  exact ⟨hs ▸ h.length, fun y => by rw [same]; exact h.rest y, fun y => by rw [same]; exact h.sublist y,
    fun y n => by rw [same]; exact h.blocked y n⟩

theorem leaveWaiting_eq (hk : ticket? s n = some tk) : leaveWaiting n s = leaveCalendar n (leaveBlocked tk.homeStation n s) := by
  rw [leaveWaiting, hk]

theorem leaveWaiting_vacates (hk : ticket? s n = some tk) : Vacates [n] s (leaveWaiting n s) := by
  have stations : ∀ y, station (leaveWaiting n s) y = if y = tk.homeStation ∧ tk.homeStation < s.stations.length then
      { station s y with blocked := removeNumber n (station s y).blocked } else station s y := fun y => by
    rw [leaveWaiting_eq hk]
    exact station_updStation _ _ _ _
  refine ⟨?_, fun y => ?_, fun y => ?_, fun y m => ?_⟩
  · rw [leaveWaiting_eq hk]
    exact updStation_stations_length ..
  · rw [stations]
    split <;> rfl
  · rw [stations]
    split
    · exact List.filter_sublist
    · exact .refl _
  · rw [stations]
    split
    · rename_i e
      rw [mem_removeNumber, List.mem_singleton]
      refine and_congr_right fun _ => not_congr ⟨fun e' => ⟨e', ?_⟩, And.left⟩
      rw [e', hk, e.1]
      rfl
    · rename_i e
      refine (and_iff_left_of_imp fun hm ⟨hn, hy⟩ => e ?_).symm
      obtain rfl := List.mem_singleton.mp hn
      rw [hk] at hy
      have hy : tk.homeStation = y := Option.some.inj hy
      refine ⟨hy.symm, ?_⟩
      rw [hy]
      by_contra hle
      rw [station_of_length_le (Nat.not_lt.mp hle)] at hm
      exact absurd hm (by simp)

theorem leaveWaiting_rest (n : Nat) (s : State) :
    leaveWaiting n s = { s with calendar := (leaveWaiting n s).calendar, stations := (leaveWaiting n s).stations } := by
  unfold leaveWaiting
  split <;> rfl

theorem leaveWaiting_ticket_get (n m : Nat) (s : State) : ticket? (leaveWaiting n s) m = ticket? s m := by
  rw [leaveWaiting_rest]
  rfl

/-- Waiting tickets leave their places, one after another. -/
theorem leaveWaitings_spec (ns : List Nat) (s : State) (live : ∀ n ∈ ns, ∃ tk, ticket? s n = some tk) :
    let t := ns.foldl (fun s n => leaveWaiting n s) s
    t = { s with calendar := t.calendar, stations := t.stations } ∧ t.calendar.Sublist s.calendar
      ∧ (∀ m, m ∈ t.calendar ↔ m ∈ s.calendar ∧ m ∉ ns) ∧ Vacates ns s t := by
  induction ns generalizing s with
  | nil => exact ⟨rfl, .refl _, fun m => by simp, .nil s⟩
  | cons n ns ih =>
    obtain ⟨tk, hk⟩ := live n (List.mem_cons_self ..)
    obtain ⟨rest, sub, mem, vacates⟩ := ih (leaveWaiting n s) fun m hm => by
      rw [leaveWaiting_ticket_get]
      exact live m (List.mem_cons_of_mem _ hm)
    have left : (leaveWaiting n s).calendar = removeNumber n s.calendar := by rw [leaveWaiting_eq hk]; rfl
    rw [List.foldl_cons]
    refine ⟨?_, sub.trans (left ▸ List.filter_sublist), fun m => ?_,
      (leaveWaiting_vacates hk).trans vacates fun m => by rw [leaveWaiting_ticket_get]⟩
    · rw [rest]
      rw [leaveWaiting_rest]
    · rw [mem, left, mem_removeNumber, List.mem_cons]
      tauto

/-! ## Waiting tickets join the calendar -/

/-- The record of a ticket that has joined the calendar. -/
def Ticket.shelved (tk : Ticket) : Ticket :=
  { tk with state := .calendared }

theorem joinCalendar_record (n m : Nat) (s : State) :
    ticket? (joinCalendar n s) m = if m = n then (ticket? s m).map Ticket.shelved else ticket? s m :=
  ticket_get_updTicket s n m _

/-- Waiting tickets leave their places and join the calendar, one after another. -/
theorem shelves_spec (ns : List Nat) (s : State) (live : ∀ n ∈ ns, ∃ tk, ticket? s n = some tk) (nodup : s.calendar.Nodup)
    (known : ∀ m ∈ s.calendar, ∃ tk, ticket? s m = some tk) (sorted : s.calendar.Pairwise (FiresAhead s)) :
    let t := ns.foldl (fun s n => joinCalendar n (leaveWaiting n s)) s
    t = { s with tickets := t.tickets, calendar := t.calendar, stations := t.stations }
      ∧ (s.tickets.rising = true → t.tickets.rising = true)
      ∧ (∀ m, ticket? t m = if m ∈ ns then (ticket? s m).map Ticket.shelved else ticket? s m)
      ∧ (∀ m, m ∈ t.calendar ↔ m ∈ s.calendar ∨ m ∈ ns) ∧ t.calendar.Nodup ∧ t.calendar.Pairwise (FiresAhead t)
      ∧ Vacates ns s t := by
  induction ns generalizing s with
  | nil => exact ⟨rfl, id, fun m => by simp, fun m => by simp, nodup, sorted, .nil s⟩
  | cons n ns ih =>
    obtain ⟨tk, hk⟩ := live n (List.mem_cons_self ..)
    let v := joinCalendar n (leaveWaiting n s)
    have records : ∀ m, ticket? v m = if m = n then (ticket? s m).map Ticket.shelved else ticket? s m := fun m => by
      rw [joinCalendar_record, leaveWaiting_ticket_get]
    have left : (leaveWaiting n s).calendar = removeNumber n s.calendar := by rw [leaveWaiting_eq hk]; rfl
    have calendar : v.calendar = insertBefore (calendarBefore (updTicket n Ticket.shelved (leaveWaiting n s))) n
        (removeNumber n s.calendar) := by rw [← left]; rfl
    have rest : v = { s with tickets := v.tickets, calendar := v.calendar, stations := v.stations } := by
      change { leaveWaiting n s with tickets := v.tickets, calendar := v.calendar } = _
      rw [leaveWaiting_rest]
      rfl
    have now : ticket? v n = some tk.shelved := by rw [records, if_pos rfl, hk, Option.map_some]
    have lives : ∀ m o, ticket? s m = some o → ∃ o', ticket? v m = some o' := fun m o ho => by
      rw [records]
      split
      · exact ⟨_, by rw [ho, Option.map_some]⟩
      · exact ⟨o, ho⟩
    have vnodup : v.calendar.Nodup := by
      rw [calendar]
      exact (insertBefore_perm _ _ _).nodup_iff.mpr (List.nodup_cons.mpr ⟨by simp, nodup.filter _⟩)
    have vmem : ∀ m, m ∈ v.calendar ↔ m ∈ s.calendar ∨ m = n := fun m => by
      rw [calendar, mem_insertBefore, mem_removeNumber]
      tauto
    have others : ∀ m ≠ n, ticket? v m = ticket? s m := fun m hm => by rw [records, if_neg hm]
    have vsorted : v.calendar.Pairwise (FiresAhead v) := by
      rw [calendar]
      change (insertBefore (calendarBefore v) n (removeNumber n s.calendar)).Pairwise (FiresAhead v)
      refine insertBefore_calendar now (fun m hm => ?_) ?_
      · obtain ⟨hm, hne⟩ := mem_removeNumber.mp hm
        obtain ⟨o, ho⟩ := known m hm
        exact ⟨hne, o, (others m hne).trans ho⟩
      · refine (sorted.sublist (l₁ := removeNumber n s.calendar) List.filter_sublist).imp_of_mem fun {a b} ha hb hab => ?_
        exact (firesAhead_congr (others a (mem_removeNumber.mp ha).2) (others b (mem_removeNumber.mp hb).2)).mpr hab
    obtain ⟨rest', rising, tickets, mem, nodup', sorted', vacates⟩ := ih v (fun m hm => by
        obtain ⟨o, ho⟩ := live m (List.mem_cons_of_mem _ hm)
        exact lives m o ho) vnodup
      (fun m hm => by
        rcases (vmem m).mp hm with hm | rfl
        · obtain ⟨o, ho⟩ := known m hm
          exact lives m o ho
        · exact ⟨_, now⟩) vsorted
    have vacated : Vacates [n] s v := (leaveWaiting_vacates hk).congr rfl
    rw [List.foldl_cons]
    refine ⟨?_, fun hr => rising ?_, fun m => ?_, fun m => ?_, nodup', sorted', vacated.trans vacates fun m => ?_⟩
    · rw [rest']
      rw [rest]
    · have same : (leaveWaiting n s).tickets = s.tickets := by rw [leaveWaiting_rest]
      exact Store.rising_update _ _ (same ▸ hr)
    · rw [tickets, records]
      by_cases hm : m ∈ ns <;> by_cases hmn : m = n
      · subst hmn
        simp only [hm, if_true, List.mem_cons, true_or, Option.map_map]
        rfl
      · simp [hm, hmn]
      · subst hmn
        simp [hm]
      · simp [hm, hmn]
    · rw [mem, vmem, List.mem_cons]
      tauto
    · rw [records]
      split
      · rw [Option.map_map]
        rfl
      · rfl

/-! ## Tickets retimed, and placed anew -/

/-- The records differ in go time, fire time and due-ready time alone. -/
def Retimed (o o' : Ticket) : Prop :=
  o' = { o with goTime := o'.goTime, fireTime := o'.fireTime, dueReady := o'.dueReady }

/-- Of CALENDARED and BLOCKED tickets with other times, `D` have left their places and `M`, BLOCKED before, have joined the calendar. -/
structure Replans (M D : List Nat) (s u : State) : Prop where
  vacates : Vacates (M ++ D) s u
  tickets : ∀ n, ticket? u n = ticket? s n ∧ n ∉ M ∨ ∃ o o', ticket? s n = some o ∧ (o.state = .calendared ∨ o.state = .blocked)
    ∧ Retimed o o' ∧ ticket? u n = some (if n ∈ M then o'.shelved else o')
  moved : ∀ n ∈ M, n ∉ D ∧ ∃ o, ticket? s n = some o ∧ o.state = .blocked
  due : ∀ n ∈ D, ∃ o, ticket? s n = some o ∧ (o.state = .calendared ∨ o.state = .blocked)
  calendar : ∀ n, n ∈ u.calendar ↔ (n ∈ s.calendar ∨ n ∈ M) ∧ n ∉ D
  nodup : u.calendar.Nodup

variable {M D : List Nat}

/-- What a ticket's record shows as it stands after the re-timing. -/
theorem Replans.record (h : Replans M D s u) (hk : ticket? u n = some tk) : ∃ o, ticket? s n = some o
    ∧ tk.station = o.station ∧ tk.homeStation = o.homeStation ∧ tk.position = o.position ∧ tk.rush = o.rush
    ∧ tk.state = (if n ∈ M then .calendared else o.state) := by
  rcases h.tickets n with ⟨e, hn⟩ | ⟨o, o', ho, -, hr, hu⟩
  · exact ⟨tk, e ▸ hk, rfl, rfl, rfl, rfl, by rw [if_neg hn]⟩
  · obtain rfl := Option.some.inj (hu.symm.trans hk)
    refine ⟨o, ho, ?_⟩
    rw [hr]
    split <;> exact ⟨rfl, rfl, rfl, rfl, rfl⟩

theorem Replans.live (h : Replans M D s u) {o : Ticket} (ho : ticket? s n = some o) : ∃ tk, ticket? u n = some tk := by
  rcases h.tickets n with ⟨e, -⟩ | ⟨-, o', -, -, -, hu⟩
  · exact ⟨o, e.trans ho⟩
  · exact ⟨_, hu⟩

theorem Replans.standing (h : Replans M D s u) (k : Standing K [] s) : Standing K D u := by
  have queues : ∀ y, wholeQueue (station u y) = wholeQueue (station s y) := fun y => by rw [h.vacates.rest]; rfl
  have classes : ∀ y b, (station u y).class b = (station s y).class b := fun y b => by rw [h.vacates.rest]; rfl
  have blocked : ∀ y n, n ∈ (station u y).blocked ↔ n ∈ (station s y).blocked ∧ n ∉ M ++ D := fun y n => by
    rw [h.vacates.blocked]
    refine and_congr_right fun hn => not_congr (and_iff_left ?_)
    obtain ⟨o, ho, names⟩ := k.told n (.station y .blocked) hn
    rw [ho, ← names.2]
    rfl
  have places : ∀ n y (q : Spot), q ≠ .blocked → (q.Holds (station u y) n ↔ q.Holds (station s y) n) := fun n y q hq => by
    cases q with
    | blocked => exact absurd rfl hq
    | queue => rw [Spot.Holds, queues, Spot.Holds]
    | position i => rw [Spot.Holds, h.vacates.rest, Spot.Holds]
  have waiting : ∀ n ∈ M ++ D, ∃ o, ticket? s n = some o ∧ (o.state = .calendared ∨ o.state = .blocked) := fun n hn =>
    (List.mem_append.mp hn).elim (fun hm => (h.moved n hm).2.imp fun o e => ⟨e.1, .inr e.2⟩) (h.due n)
  refine ⟨h.vacates.length.trans k.length, fun n p hp => ?_, fun n hn p hp => ?_, h.nodup, fun hK n tk hk => ?_,
    fun hK n tk hk hw hn => ?_, fun hK y => by rw [queues]; exact k.queues hK y, fun hK y b n hn tk hk => ?_⟩
  · rcases p with _ | ⟨y, q⟩
    · obtain ⟨hc | hm, -⟩ := (h.calendar n).mp hp
      · obtain ⟨o, ho, names⟩ := k.told n .calendar hc
        obtain ⟨tk, hk⟩ := h.live ho
        obtain ⟨o', ho', -, -, -, -, hst⟩ := h.record hk
        obtain rfl := Option.some.inj (ho.symm.trans ho')
        refine ⟨tk, hk, hst.trans ?_⟩
        split
        · rfl
        · exact names
      · obtain ⟨-, o, ho, -⟩ := h.moved n hm
        obtain ⟨tk, hk⟩ := h.live ho
        obtain ⟨_, _, _, _, _, _, hst⟩ := h.record hk
        exact ⟨tk, hk, hst.trans (if_pos hm)⟩
    · by_cases hq : q = .blocked
      · subst hq
        obtain ⟨hb, hn⟩ := (blocked y n).mp hp
        obtain ⟨o, ho, names⟩ := k.told n (.station y .blocked) hb
        obtain ⟨tk, hk⟩ := h.live ho
        obtain ⟨o', ho', -, hhome, -, -, hst⟩ := h.record hk
        obtain rfl := Option.some.inj (ho.symm.trans ho')
        rw [if_neg fun hm => hn (List.mem_append_left _ hm)] at hst
        exact ⟨tk, hk, hst.trans names.1, hhome.trans names.2⟩
      · have hs := (places n y q hq).mp hp
        obtain ⟨o, ho, names⟩ := k.told n (.station y q) hs
        obtain ⟨tk, hk⟩ := h.live ho
        obtain ⟨o', ho', hstation, -, hposition, -, hst⟩ := h.record hk
        obtain rfl := Option.some.inj (ho.symm.trans ho')
        have out : n ∉ M := fun hm => by
          obtain ⟨-, o', ho', hb⟩ := h.moved n hm
          obtain rfl := Option.some.inj (ho.symm.trans ho')
          cases q with
          | blocked => exact hq rfl
          | queue => exact absurd (names.1.symm.trans hb) (by simp)
          | position i => exact absurd (names.1.symm.trans hb) (by simp)
        rw [if_neg out] at hst
        refine ⟨tk, hk, ?_⟩
        cases q with
        | blocked => exact absurd rfl hq
        | queue => exact ⟨hst.trans names.1, hstation.trans names.2⟩
        | position i => exact ⟨hst.trans names.1, hstation.trans names.2.1, hposition.trans names.2.2⟩
  · obtain ⟨o, ho, hst⟩ := h.due n hn
    rcases p with _ | ⟨y, q⟩
    · exact ((h.calendar n).mp hp).2 hn
    · by_cases hq : q = .blocked
      · subst hq
        exact ((blocked y n).mp hp).2 (List.mem_append_right _ hn)
      · have names := k.told.names ho (p := .station y q) ((places n y q hq).mp hp)
        cases q with
        | blocked => exact hq rfl
        | queue => rcases hst with e | e <;> exact absurd (names.1.symm.trans e) (by simp)
        | position i => rcases hst with e | e <;> exact absurd (names.1.symm.trans e) (by simp)
  · obtain ⟨o, ho, -, hhome, -⟩ := h.record hk
    rw [hhome]
    exact k.homes hK n o ho
  · obtain ⟨o, ho, -, -, -, -, hst⟩ := h.record hk
    by_cases hm : n ∈ M
    · exact ⟨.calendar, (h.calendar n).mpr ⟨.inr hm, hn⟩⟩
    · rw [if_neg hm] at hst
      have hwo : o.Waits := by rwa [Ticket.Waits, ← hst]
      obtain ⟨p, hp⟩ := k.waits hK n o ho hwo (by simp)
      refine ⟨p, ?_⟩
      rcases p with _ | ⟨y, q⟩
      · exact (h.calendar n).mpr ⟨.inl hp, hn⟩
      · by_cases hq : q = .blocked
        · subst hq
          exact (blocked y n).mpr ⟨hp, fun e => (List.mem_append.mp e).elim hm hn⟩
        · exact (places n y q hq).mpr hp
  · obtain ⟨o, ho, -, -, -, hrush, -⟩ := h.record hk
    rw [hrush]
    exact k.classes hK y b n (classes y b ▸ hn) o ho

/-- The tickets left in a blocked list are as they were, if those with other times have left it. -/
theorem Replans.blocked (h : Replans M D s u) (k : Told s) (hb : ∀ n, ticket? u n ≠ ticket? s n → ∀ o, ticket? s n = some o →
    o.state = .blocked → n ∈ M ∨ n ∈ D) (y : Nat) (ho : (station s y).blocked.Pairwise (BlockedAhead s)) :
    (station u y).blocked.Pairwise (BlockedAhead u) := by
  have same : ∀ n ∈ (station u y).blocked, ticket? u n = ticket? s n := fun n hn => by
    obtain ⟨hin, out⟩ := (h.vacates.blocked y n).mp hn
    obtain ⟨o, hget, names⟩ := k n (.station y .blocked) hin
    by_contra hne
    refine out ⟨List.mem_append.mpr (hb n hne o hget names.1), ?_⟩
    rw [hget, ← names.2]
    rfl
  exact (ho.sublist (h.vacates.sublist y)).imp_of_mem fun ha hb hab => (blockedAhead_congr (same _ ha) (same _ hb)).mpr hab

end Sys2Proof.Machine
end


section
/-!
PROOFS. RESUME_WAVE keeps the invariant (R51 to R54).
-/

namespace Sys2Proof.Machine

variable {K : Scope} {F : List Nat} {X C : Option Nat} {g n m w x go : Nat} {s t u : State} {tk o : Ticket} {gr : Group} {wv : Wave}
  {ns ms : List Nat}

/-! ## Groups that are re-timed (R52) -/

/-- The record with the go time of its group, and the times it has with it at its home station. -/
def Ticket.regone (s : State) (go : Nat) (tk : Ticket) : Ticket :=
  { tk with
    goTime := go
    fireTime := fireTimeAt s tk.homeStation tk.component go
    dueReady := dueReadyAt s tk.homeStation go }

theorem Retimed.refl (o : Ticket) : Retimed o o := rfl

theorem Retimed.trans {o o' o'' : Ticket} (h : Retimed o o') (k : Retimed o' o'') : Retimed o o'' := by
  rw [Retimed] at *
  rw [k, h]

theorem regone_retimed (s : State) (go : Nat) (tk : Ticket) : Retimed tk (tk.regone s go) := rfl

theorem resumeTicket_spec (go n : Nat) (s : State) :
    resumeTicket go n s = { s with tickets := (resumeTicket go n s).tickets }
      ∧ ∀ m, ticket? (resumeTicket go n s) m = (ticket? s m).map fun tk => if m = n then tk.regone s go else tk := by
  unfold resumeTicket
  split
  · rename_i tk hk
    refine ⟨rfl, fun m => ?_⟩
    by_cases hm : m = n
    · subst hm
      rw [ticket_get_setTicket_self, hk, Option.map_some, if_pos rfl]
      rfl
    · rw [ticket_get_setTicket_of_ne _ _ hm]
      simp [hm]
  · rename_i hk
    refine ⟨rfl, fun m => ?_⟩
    by_cases hm : m = n
    · subst hm
      rw [hk]
      rfl
    · simp [hm]

theorem resumeTickets_spec (go : Nat) (ts : List Nat) (s : State) :
    let t := ts.foldl (fun s n => resumeTicket go n s) s
    t = { s with tickets := t.tickets } ∧ (s.tickets.rising = true → t.tickets.rising = true)
      ∧ ∀ m, ticket? t m = (ticket? s m).map fun tk => if m ∈ ts then tk.regone s go else tk := by
  induction ts generalizing s with
  | nil => exact ⟨rfl, id, fun m => by simp⟩
  | cons n ts ih =>
    obtain ⟨rest, tickets⟩ := resumeTicket_spec go n s
    have rising := (resumeTicket_runs go n s).ticketsRising
    rw [List.foldl_cons]
    generalize resumeTicket go n s = v at *
    obtain ⟨rest', rising', tickets'⟩ := ih v
    refine ⟨by rw [rest', rest], fun h => rising' (rising h), fun m => ?_⟩
    have same : ∀ tk : Ticket, tk.regone v go = tk.regone s go := fun tk => by rw [rest]; rfl
    rw [tickets', tickets, Option.map_map]
    refine Option.map_congr fun tk _ => ?_
    have twice : (tk.regone s go).regone s go = tk.regone s go := rfl
    simp only [Function.comp_apply, same, List.mem_cons]
    by_cases hm : m = n
    · simp [hm, twice]
    · simp [hm]

theorem resumeGroup_spec (waveGo stagger g : Nat) (s : State) :
    let t := resumeGroup waveGo stagger g s
    let go := goTimeAt waveGo stagger (orderIndexOf s g)
    t = { s with tickets := t.tickets, groups := t.groups } ∧ (s.tickets.rising = true → t.tickets.rising = true)
      ∧ (s.groups.rising = true → t.groups.rising = true)
      ∧ (∀ m, ticket? t m = (ticket? s m).map fun tk => if m ∈ groupTickets s g then tk.regone s go else tk)
      ∧ ∀ l, group? t l = (group? s l).map fun gr => if l = g then { gr with goTime := go } else gr := by
  intro t go
  obtain ⟨rest, rising, tickets⟩ := resumeTickets_spec go (groupTickets s g) (updGroup g (fun gr => { gr with goTime := go }) s)
  have eq : t = (groupTickets s g).foldl (fun s n => resumeTicket go n s) (updGroup g (fun gr => { gr with goTime := go }) s) := rfl
  rw [← eq] at rest rising tickets
  clear_value t
  have groups : t.groups = s.groups.update g fun gr => { gr with goTime := go } := by
    rw [rest]
    rfl
  refine ⟨?_, rising, fun h => by rw [groups]; exact Store.rising_update _ _ h, tickets, fun l => ?_⟩
  · rw [rest]
    rfl
  · rw [group?, groups, Store.get?_update]
    split
    · rfl
    · exact Option.map_id'.symm

theorem groupTickets_eq (s : State) (g : Nat) : groupTickets s g = ((group? s g).map Group.tickets).getD [] := by
  rw [groupTickets]
  cases group? s g <;> rfl

theorem groupTickets_congr (h : (group? t g).map Group.tickets = (group? s g).map Group.tickets) :
    groupTickets t g = groupTickets s g := by
  rw [groupTickets_eq, h, groupTickets_eq]

theorem Listed.member (h : Listed s) (hn : n ∈ groupTickets s g) :
    ∃ tk gr, ticket? s n = some tk ∧ tk.group = g ∧ group? s g = some gr ∧ n ∈ gr.tickets := by
  unfold groupTickets at hn
  split at hn
  · rename_i gr hg
    obtain ⟨tk, hk, hgo⟩ := Option.map_eq_some_iff.mp (h.members g gr hg n hn)
    exact ⟨tk, gr, hk, hgo, hg, hn⟩
  · cases hn

theorem groupTickets_of_group (hg : group? s g = some gr) : groupTickets s g = gr.tickets := by
  rw [groupTickets, hg]

theorem groupTickets_nodup (h : Listed s) (g : Nat) : (groupTickets s g).Nodup := by
  unfold groupTickets
  split
  · exact h.nodup g _ ‹_›
  · exact List.nodup_nil

/-- A re-timed group and its tickets have their new times. -/
theorem Books.resumesGroup (waveGo stagger g : Nat) (h : Books K none C s) : Books K none C (resumeGroup waveGo stagger g s) := by
  obtain ⟨rest, risingTickets, risingGroups, tickets, groups⟩ := resumeGroup_spec waveGo stagger g s
  generalize resumeGroup waveGo stagger g s = t at *
  generalize goTimeAt waveGo stagger (orderIndexOf s g) = go at *
  have listed := h.grouped.listed
  have back : ∀ n tk, ticket? t n = some tk → ∃ o, ticket? s n = some o ∧ Retimed o tk := fun n tk hk => by
    obtain ⟨o, ho, rfl⟩ := Option.map_eq_some_iff.mp ((tickets n).symm.trans hk)
    exact ⟨o, ho, by split <;> rfl⟩
  have keeps : ∀ {α : Type} (f : Ticket → α), (∀ o o', Retimed o o' → f o' = f o) → ∀ n, (ticket? t n).map f = (ticket? s n).map f :=
    fun f hf n => by
      rw [tickets, Option.map_map]
      refine Option.map_congr fun tk _ => hf _ _ ?_
      split <;> rfl
  have states : ∀ n st, InState t st n ↔ InState s st n := fun n st => by
    rw [InState, InState, keeps Ticket.state (fun _ _ e => by rw [e])]
  have dieTimes : ∀ n, dieTime t n = dieTime s n := fun n => by
    have hold : ∀ c, holdWindow t c = holdWindow s c := fun c => by rw [rest]; rfl
    cases hk : ticket? s n with
    | none =>
      have gone : ticket? t n = none := by rw [tickets, hk, Option.map_none]
      simp only [dieTime, hk, gone]
    | some tk =>
      have now : ticket? t n = some (if n ∈ groupTickets s g then tk.regone s go else tk) := by rw [tickets, hk, Option.map_some]
      split at now <;> simp only [dieTime, hk, now, hold, Ticket.regone]
  have mine : ∀ n tk, ticket? s n = some tk → tk.group ≠ g → n ∉ groupTickets s g := fun n tk hk hne hn => by
    obtain ⟨o, -, ho, hgo, -⟩ := listed.member hn
    exact hne (Option.some.inj (hk.symm.trans ho) ▸ hgo)
  have only : GroupOnly g s t := by
    refine ⟨fun l hl => by simp [groups, hl], fun n tk hk hne => ?_, fun n tk hk hne => ?_, fun c => by rw [rest]; rfl⟩
    · rw [tickets, hk, Option.map_some, if_neg (mine n tk hk hne)]
    · obtain ⟨o, ho, e⟩ := back n tk hk
      have hgo : o.group = tk.group := by rw [e]
      rw [tickets, ho, Option.map_some, if_neg (mine n o ho (hgo ▸ hne))] at hk
      exact ho.trans hk
  have keys : ∀ l, (group? t l).map Group.key = (group? s l).map Group.key := fun l => by
    rw [groups, Option.map_map]
    refine Option.map_congr fun gr _ => ?_
    simp only [Function.comp_apply]
    split <;> rfl
  have now : ∀ gr, group? t g = some gr → ∃ o, group? s g = some o ∧ gr = { o with goTime := go } := fun gr hg => by
    obtain ⟨o, ho, rfl⟩ := Option.map_eq_some_iff.mp ((groups g).symm.trans hg)
    exact ⟨o, ho, if_pos rfl⟩
  refine ⟨fun hK => ⟨fun n tk hk => ?_, fun l gr hl => ?_⟩, h.grouped.regrouped only (risingTickets h.grouped.tickets)
    (risingGroups h.grouped.groups) (listed.congr (keeps Ticket.group fun _ _ e => by rw [e]) fun l => ?_) (fun _ gr hg => ?_)
    (fun hK _ gr hg => ?_) fun hK n tk hk hgo gr hg => ?_, fun hK => ?_⟩
  · obtain ⟨o, ho, e⟩ := back n tk hk
    rw [e]
    exact (h.numbered hK).tickets n o ho
  · obtain ⟨o, ho, -⟩ := Option.map_eq_some_iff.mp ((groups l).symm.trans hl)
    exact (h.numbered hK).groups l o ho
  · rw [groups, Option.map_map]
    refine Option.map_congr fun gr _ => ?_
    simp only [Function.comp_apply]
    split <;> rfl
  · obtain ⟨o, ho, rfl⟩ := now gr hg
    simpa only [Complete, states] using h.grouped.complete g o ho (by simp)
  · obtain ⟨o, ho, rfl⟩ := now gr hg
    obtain ⟨served, assembling, others⟩ := h.grouped.dies hK g o ho (by simp)
    refine ⟨fun hst => ?_, fun hst => earliestDie_of_dieTime (fun n _ => dieTimes n) (assembling hst), others⟩
    simpa only [states] using served hst
  · obtain ⟨o, ho, rfl⟩ := now gr hg
    obtain ⟨p, hp, e⟩ := back n tk hk
    have hpg : p.group = g := by rw [← hgo, e]
    obtain ⟨o', ho', hn⟩ := listed.listed n p hp
    obtain rfl := Option.some.inj (ho.symm.trans (hpg ▸ ho'))
    rw [tickets, hp, Option.map_some, if_pos (by rw [groupTickets_of_group ho]; exact hn)] at hk
    obtain rfl := Option.some.inj hk
    obtain ⟨wave, table, -⟩ := h.grouped.same hK n p hp o (hpg ▸ ho)
    exact ⟨wave, table, rfl⟩
  · have counts := h.counts hK
    refine counts.recounted ⟨?_, ?_, ?_, ?_, fun u => ?_, ?_, ?_, ?_, keys⟩ h.grouped.groups (risingGroups h.grouped.groups) ?_
    iterate 8 rw [rest]; try rfl
    have pool : t.ticketPool = s.ticketPool := by rw [rest]
    rw [pool, counts.tickets]
    refine Store.length_congr h.grouped.tickets (risingTickets h.grouped.tickets) fun n => ?_
    have := tickets n
    rw [ticket?, ticket?] at this
    rw [this, Option.isSome_map]

/-- Groups that are re-timed, one after another. -/
theorem Books.resumesGroups (waveGo stagger : Nat) (gs : List Nat) (h : Books K none C s) :
    let t := gs.foldl (fun s g => resumeGroup waveGo stagger g s) s
    Books K none C t ∧ t = { s with tickets := t.tickets, groups := t.groups } ∧ (∀ l, groupTickets t l = groupTickets s l)
      ∧ ∀ n, ticket? t n = ticket? s n ∨ (∃ g ∈ gs, n ∈ groupTickets s g)
        ∧ ∃ o o', ticket? s n = some o ∧ Retimed o o' ∧ ticket? t n = some o' := by
  induction gs generalizing s with
  | nil => exact ⟨h, rfl, fun _ => rfl, fun _ => .inl rfl⟩
  | cons g gs ih =>
    obtain ⟨rest, -, -, tickets, groups⟩ := resumeGroup_spec waveGo stagger g s
    have first := h.resumesGroup waveGo stagger g
    rw [List.foldl_cons]
    generalize resumeGroup waveGo stagger g s = v at *
    obtain ⟨books, rest', lists', tickets'⟩ := ih first
    have lists : ∀ l, groupTickets v l = groupTickets s l := fun l => groupTickets_congr (by
      rw [groups, Option.map_map]
      refine Option.map_congr fun gr _ => ?_
      simp only [Function.comp_apply]
      split <;> rfl)
    have step : ∀ n, ticket? v n = ticket? s n ∨ n ∈ groupTickets s g
        ∧ ∃ o o', ticket? s n = some o ∧ Retimed o o' ∧ ticket? v n = some o' := fun n => by
      by_cases hn : n ∈ groupTickets s g
      · obtain ⟨tk, -, hk, -⟩ := h.grouped.listed.member hn
        exact .inr ⟨hn, tk, _, hk, regone_retimed s _ tk, by rw [tickets, hk, Option.map_some, if_pos hn]⟩
      · exact .inl (by simp [tickets, hn])
    refine ⟨books, ?_, fun l => (lists' l).trans (lists l), fun n => ?_⟩
    · rw [rest']
      rw [rest]
    · rcases tickets' n with e | ⟨⟨l, hl, hn⟩, o, o', ho, hr, ho'⟩
      · rw [e]
        exact (step n).imp id fun ⟨hn, k⟩ => ⟨⟨g, List.mem_cons_self .., hn⟩, k⟩
      · refine .inr ⟨⟨l, List.mem_cons_of_mem _ hl, lists l ▸ hn⟩, ?_⟩
        rcases step n with e | ⟨-, p, p', hp, hr', hp'⟩
        · exact ⟨o, o', e ▸ ho, hr, ho'⟩
        · obtain rfl := Option.some.inj (ho.symm.trans hp')
          exact ⟨p, o', hp, hr'.trans hr, ho'⟩

end Sys2Proof.Machine
end


section
/-!
PROOFS. The placing of a resumed wave's tickets keeps the invariant (R51 to R54).
-/

namespace Sys2Proof.Machine

variable {K : Scope} {F : List Nat} {X C : Option Nat} {g n m w x go : Nat} {s t u v : State} {tk o : Ticket} {gr : Group} {wv : Wave}
  {retimed kept gs hs : List Nat}

/-! ## Lists of tickets, group by group -/

theorem nodup_flatMap_tickets (h : Listed s) (hd : gs.Nodup) {f : Nat → List Nat} (hf : ∀ g, (f g).Sublist (groupTickets s g)) :
    (gs.flatMap f).Nodup := by
  refine List.nodup_flatMap.mpr ⟨fun g _ => (hf g).nodup (groupTickets_nodup h g), hd.imp fun {a b} hab n ha hb => ?_⟩
  obtain ⟨o, -, ho, rfl, -⟩ := h.member ((hf a).subset ha)
  obtain ⟨o', -, ho', e, -⟩ := h.member ((hf b).subset hb)
  obtain rfl := Option.some.inj (ho.symm.trans ho')
  exact hab e

theorem disjoint_flatMap_tickets (h : Listed s) (hd : ∀ g ∈ gs, g ∉ hs) {f k : Nat → List Nat}
    (hf : ∀ g, (f g).Sublist (groupTickets s g)) (hk : ∀ g, (k g).Sublist (groupTickets s g)) (hn : n ∈ gs.flatMap f) :
    n ∉ hs.flatMap k := by
  intro hn'
  obtain ⟨a, ha, hna⟩ := List.mem_flatMap.mp hn
  obtain ⟨b, hb, hnb⟩ := List.mem_flatMap.mp hn'
  obtain ⟨o, -, ho, rfl, -⟩ := h.member ((hf a).subset hna)
  obtain ⟨o', -, ho', rfl, -⟩ := h.member ((hk b).subset hnb)
  obtain rfl := Option.some.inj (ho.symm.trans ho')
  exact hd _ ha hb

/-! ## The placing (R52, R53) -/

/-- The wave's live groups before it is placed anew, and their tickets with the new times. -/
structure Retiming (w : Nat) (retimed kept : List Nat) (s v : State) : Prop where
  rest : v = { s with waves := v.waves, frozen := removeNumber w s.frozen, tickets := v.tickets, groups := v.groups }
  lists : ∀ g, groupTickets v g = groupTickets s g
  tickets : ∀ n, ticket? v n = ticket? s n ∨ (∃ g ∈ retimed, n ∈ groupTickets s g)
    ∧ ∃ o o', ticket? s n = some o ∧ Retimed o o' ∧ ticket? v n = some o'
  waiting : ∀ g ∈ retimed, ∀ n ∈ groupTickets s g, ∃ o, ticket? s n = some o ∧ (o.state = .calendared ∨ o.state = .blocked)
  apart : ∀ g ∈ retimed, g ∉ kept
  nodup : retimed.Nodup ∧ kept.Nodup
  all : ∀ g gr, group? s g = some gr → gr.wave = w → g ∈ retimed ∨ g ∈ kept

theorem Retiming.record (h : Retiming w retimed kept s v) (ho : ticket? s n = some o) :
    ∃ o', Retimed o o' ∧ ticket? v n = some o' := by
  rcases h.tickets n with e | ⟨-, p, o', hp, hr, ho'⟩
  · exact ⟨o, .refl o, e.trans ho⟩
  · obtain rfl := Option.some.inj (ho.symm.trans hp)
    exact ⟨o', hr, ho'⟩

theorem Retiming.inState (h : Retiming w retimed kept s v) (n : Nat) (st : TicketState) : InState v st n ↔ InState s st n := by
  rcases h.tickets n with e | ⟨-, o, o', ho, hr, ho'⟩
  · rw [InState, InState, e]
  · rw [InState, InState, ho, ho', hr]
    rfl

/-- The tickets that enter the calendar from the blocked lists. -/
def movedOf (retimed : List Nat) (v : State) : List Nat :=
  retimed.flatMap (retimedFromBlocked v)

/-- The tickets that are due, in the order in which they are offered. -/
def dueOf (retimed kept : List Nat) (v : State) : List Nat :=
  sortBefore (calendarBefore v) (retimed.flatMap (retimedDue v) ++ kept.flatMap (keptDue v))

theorem mem_movedOf (h : Retiming w retimed kept s v) : n ∈ movedOf retimed v
    ↔ (∃ g ∈ retimed, n ∈ groupTickets s g) ∧ InState s .blocked n ∧ isDue v n = false := by
  simp only [movedOf, retimedFromBlocked, List.mem_flatMap, List.mem_filter, Bool.and_eq_true, Bool.not_eq_true', h.lists,
    ticketIs_eq_true, h.inState]
  exact ⟨fun ⟨g, hg, hn, k⟩ => ⟨⟨g, hg, hn⟩, k⟩, fun ⟨⟨g, hg, hn⟩, k⟩ => ⟨g, hg, hn, k⟩⟩

theorem mem_dueOf (h : Retiming w retimed kept s v) : n ∈ dueOf retimed kept v
    ↔ (∃ g ∈ retimed, n ∈ groupTickets s g) ∧ isDue v n = true
      ∨ (∃ g ∈ kept, n ∈ groupTickets s g) ∧ (InState s .calendared n ∧ isDue v n = true ∨ InState s .blocked n) := by
  simp only [dueOf, mem_sortBefore, List.mem_append, retimedDue, keptDue, List.mem_flatMap, List.mem_filter, Bool.and_eq_true,
    Bool.or_eq_true, h.lists, ticketIs_eq_true, h.inState]
  constructor
  · rintro (⟨g, hg, hn, k⟩ | ⟨g, hg, hn, k⟩)
    · exact .inl ⟨⟨g, hg, hn⟩, k⟩
    · exact .inr ⟨⟨g, hg, hn⟩, k⟩
  · rintro (⟨⟨g, hg, hn⟩, k⟩ | ⟨⟨g, hg, hn⟩, k⟩)
    · exact .inl ⟨g, hg, hn, k⟩
    · exact .inr ⟨g, hg, hn, k⟩

theorem dueOf_nodup (h : Retiming w retimed kept s v) (listed : Listed v) : (dueOf retimed kept v).Nodup := by
  have subR : ∀ g, (retimedDue v g).Sublist (groupTickets v g) := fun _ => List.filter_sublist
  have subK : ∀ g, (keptDue v g).Sublist (groupTickets v g) := fun _ => List.filter_sublist
  refine (sortBefore_perm _ _).nodup_iff.mpr (List.nodup_append.mpr ⟨nodup_flatMap_tickets listed h.nodup.1 subR,
    nodup_flatMap_tickets listed h.nodup.2 subK, fun a ha b hb e => ?_⟩)
  exact disjoint_flatMap_tickets listed h.apart subR subK (e ▸ ha) hb

theorem movedOf_not_due (h : Retiming w retimed kept s v) (listed : Listed s) (hn : n ∈ movedOf retimed v) :
    n ∉ dueOf retimed kept v := by
  obtain ⟨⟨g, hg, hng⟩, -, notDue⟩ := (mem_movedOf h).mp hn
  intro hd
  rcases (mem_dueOf h).mp hd with ⟨-, due⟩ | ⟨⟨l, hl, hnl⟩, -⟩
  · rw [notDue] at due
    cases due
  · obtain ⟨o, -, ho, rfl, -⟩ := listed.member hng
    obtain ⟨o', -, ho', rfl, -⟩ := listed.member hnl
    obtain rfl := Option.some.inj (ho.symm.trans ho')
    exact h.apart _ hg hl

theorem dueOf_waiting (h : Retiming w retimed kept s v) (hn : n ∈ dueOf retimed kept v) :
    ∃ o, ticket? s n = some o ∧ (o.state = .calendared ∨ o.state = .blocked) := by
  rcases (mem_dueOf h).mp hn with ⟨⟨g, hg, hng⟩, -⟩ | ⟨-, ⟨hst, -⟩ | hst⟩
  · exact h.waiting g hg n hng
  · exact (Option.map_eq_some_iff.mp hst).imp fun o e => ⟨e.1, .inl e.2⟩
  · exact (Option.map_eq_some_iff.mp hst).imp fun o e => ⟨e.1, .inr e.2⟩

/-- The state in which the due tickets have left their places, and those not due have joined the calendar. -/
def planned (retimed kept : List Nat) (v : State) : State :=
  (dueOf retimed kept v).foldl (fun s t => leaveWaiting t s)
    ((movedOf retimed v).foldl (fun s t => joinCalendar t (leaveWaiting t s))
      { v with calendar := sortBefore (calendarBefore v) v.calendar })

theorem placeResumed_eq (retimed kept : List Nat) (v : State) :
    (placeResumed retimed kept v).1 = offerAll (dueOf retimed kept v) (planned retimed kept v) := rfl

/-- What the state of the plan is. -/
structure Planned (retimed kept : List Nat) (v u : State) : Prop where
  rest : u = { v with tickets := u.tickets, calendar := u.calendar, stations := u.stations }
  rising : v.tickets.rising = true → u.tickets.rising = true
  tickets : ∀ m, ticket? u m = if m ∈ movedOf retimed v then (ticket? v m).map Ticket.shelved else ticket? v m
  calendar : ∀ m, m ∈ u.calendar ↔ (m ∈ v.calendar ∨ m ∈ movedOf retimed v) ∧ m ∉ dueOf retimed kept v
  nodup : u.calendar.Nodup
  sorted : u.calendar.Pairwise (FiresAhead u)
  vacates : Vacates (movedOf retimed v ++ dueOf retimed kept v) v u

theorem planned_spec (nodup : v.calendar.Nodup) (known : ∀ m ∈ v.calendar, ∃ tk, ticket? v m = some tk)
    (moved : ∀ n ∈ movedOf retimed v, ∃ tk, ticket? v n = some tk) (due : ∀ n ∈ dueOf retimed kept v, ∃ tk, ticket? v n = some tk) :
    Planned retimed kept v (planned retimed kept v) := by
  let a : State := { v with calendar := sortBefore (calendarBefore v) v.calendar }
  have anodup : a.calendar.Nodup := (sortBefore_perm _ _).nodup_iff.mpr nodup
  have amem : ∀ m, m ∈ a.calendar ↔ m ∈ v.calendar := fun m => mem_sortBefore
  have asorted : a.calendar.Pairwise (FiresAhead a) := sortBefore_calendar (s := v) nodup fun n hn => by
    obtain ⟨tk, hk⟩ := known n hn
    rw [hk]
    rfl
  obtain ⟨rest, rising, tickets, mem, bnodup, bsorted, vacates⟩ := shelves_spec (movedOf retimed v) a moved anodup
    (fun m hm => known m ((amem m).mp hm)) asorted
  unfold planned
  change Planned retimed kept v ((dueOf retimed kept v).foldl (fun s t => leaveWaiting t s)
    ((movedOf retimed v).foldl (fun s t => joinCalendar t (leaveWaiting t s)) a))
  generalize (movedOf retimed v).foldl (fun s t => joinCalendar t (leaveWaiting t s)) a = b at *
  have blive : ∀ n tk, ticket? v n = some tk → ∃ tk, ticket? b n = some tk := fun n tk hk => by
    have hk : ticket? a n = some tk := hk
    rw [tickets, hk]
    split <;> exact ⟨_, rfl⟩
  obtain ⟨rest', sub, mem', vacates'⟩ := leaveWaitings_spec (dueOf retimed kept v) b fun n hn => by
    obtain ⟨tk, hk⟩ := due n hn
    exact blive n tk hk
  generalize (dueOf retimed kept v).foldl (fun s t => leaveWaiting t s) b = u at *
  have same : ∀ m, ticket? u m = ticket? b m := fun m => by rw [rest']; rfl
  refine ⟨?_, fun hr => ?_, fun m => (same m).trans (tickets m), fun m => ?_, sub.nodup bnodup, ?_, ?_⟩
  · rw [rest', rest]
  · rw [rest']
    exact rising hr
  · rw [mem', mem, amem]
  · exact (bsorted.sublist sub).imp fun h => (firesAhead_congr (same _) (same _)).mpr h
  · refine Vacates.trans (s := v) ⟨vacates.length, vacates.rest, vacates.sublist, vacates.blocked⟩ vacates' fun n => ?_
    rw [tickets]
    split
    · rw [Option.map_map]
      rfl
    · rfl

theorem Retiming.replans (h : Retiming w retimed kept s v) (k : Planned retimed kept v u) (listed : Listed s) :
    Replans (movedOf retimed v) (dueOf retimed kept v) s u := by
  have stations : ∀ y, station v y = station s y := fun y => by rw [h.rest]; rfl
  have homes : ∀ n, (ticket? v n).map Ticket.homeStation = (ticket? s n).map Ticket.homeStation := fun n => by
    rcases h.tickets n with e | ⟨-, o, o', ho, hr, ho'⟩
    · rw [e]
    · rw [ho, ho', hr]
      rfl
  have blockedOf : ∀ n ∈ movedOf retimed v, ∃ o, ticket? s n = some o ∧ o.state = .blocked := fun n hn =>
    Option.map_eq_some_iff.mp ((mem_movedOf h).mp hn).2.1
  refine ⟨⟨?_, fun y => ?_, fun y => ?_, fun y n => ?_⟩, fun n => ?_, fun n hn => ⟨movedOf_not_due h listed hn, blockedOf n hn⟩,
    fun n hn => dueOf_waiting h hn, fun n => ?_, k.nodup⟩
  · rw [k.vacates.length, h.rest]
  · rw [k.vacates.rest, stations]
  · rw [← stations]
    exact k.vacates.sublist y
  · rw [k.vacates.blocked, stations, homes]
  · rw [k.tickets]
    rcases h.tickets n with e | ⟨⟨g, hg, hn⟩, o, o', ho, hr, ho'⟩
    · by_cases hm : n ∈ movedOf retimed v
      · obtain ⟨o, ho, hst⟩ := blockedOf n hm
        refine .inr ⟨o, o, ho, .inr hst, .refl o, ?_⟩
        rw [if_pos hm, if_pos hm, e, ho, Option.map_some]
      · exact .inl ⟨by rw [if_neg hm, e], hm⟩
    · obtain ⟨p, hp, hst⟩ := h.waiting g hg n hn
      obtain rfl := Option.some.inj (ho.symm.trans hp)
      refine .inr ⟨o, o', ho, hst, hr, ?_⟩
      rw [ho']
      split <;> rfl
  · rw [k.calendar, h.rest]

theorem isDue_of_record (hk : ticket? s n = some tk) : isDue s n = decide (tk.fireTime ≤ (s.clock : Int)) := by
  rw [isDue, hk]

/-- A resumed wave's tickets in the calendar that are not due stay ahead of the clock. -/
theorem Retiming.ahead (h : Retiming w retimed kept s v) (k : Planned retimed kept v u) (standing : Standing K [] s)
    (grouped : Grouped K none s) (hK : K.timed) (ahead : Ahead K.lead s) : Ahead K.lead u := by
  have clock : v.clock = s.clock := by rw [h.rest]
  have uclock : u.clock = v.clock := by rw [k.rest]
  have listed := grouped.listed
  have lead := K.lead_le
  intro n hn
  have inCalendar := (k.calendar n).mp hn
  obtain ⟨tk, hk⟩ : ∃ tk, ticket? v n = some tk := by
    rcases inCalendar.1 with hc | hm
    · obtain ⟨o, ho, -⟩ := standing.told n .calendar (show n ∈ s.calendar by rw [h.rest] at hc; exact hc)
      exact (h.record ho).imp fun _ => And.right
    · obtain ⟨o, ho, -⟩ := Option.map_eq_some_iff.mp ((mem_movedOf h).mp hm).2.1
      exact (h.record ho).imp fun _ => And.right
  obtain ⟨tk', hk', hf, hw⟩ : ∃ tk', ticket? u n = some tk' ∧ tk'.fireTime = tk.fireTime ∧ tk'.wave = tk.wave := by
    rw [k.tickets, hk]
    split <;> exact ⟨_, rfl, rfl, rfl⟩
  have due := isDue_of_record hk
  by_cases hd : isDue v n = true
  swap
  · rw [due, decide_eq_true_eq] at hd
    exact .inr ⟨tk', hk', by rw [hf, uclock]; omega⟩
  have notMoved : n ∉ movedOf retimed v := fun hm => by
    rw [((mem_movedOf h).mp hm).2.2] at hd
    cases hd
  have notRetimed : ¬∃ g ∈ retimed, n ∈ groupTickets s g := fun e => inCalendar.2 ((mem_dueOf h).mpr (.inl ⟨e, hd⟩))
  have old : n ∈ s.calendar := by
    have := inCalendar.1.resolve_right notMoved
    rw [h.rest] at this
    exact this
  have same : ticket? s n = some tk := by
    rcases h.tickets n with e | ⟨e, -⟩
    · exact e.symm.trans hk
    · exact absurd e notRetimed
  refine (ahead n old).imp (fun ⟨o, ho, hfrozen⟩ => ?_) fun ⟨o, ho, hfire⟩ => ?_
  · obtain rfl := Option.some.inj (same.symm.trans ho)
    refine ⟨tk', hk', ?_⟩
    have frozen : u.frozen = removeNumber w s.frozen := by
      rw [k.rest]
      exact congrArg State.frozen h.rest
    rw [frozen, hw]
    refine mem_removeNumber.mpr ⟨hfrozen, fun e => inCalendar.2 ((mem_dueOf h).mpr (.inr ⟨?_, .inl ⟨?_, hd⟩⟩))⟩
    · obtain ⟨gr, hg, hin⟩ := listed.listed n tk same
      have lists : n ∈ groupTickets s tk.group := by rwa [groupTickets_of_group hg]
      refine ⟨tk.group, (h.all _ gr hg ?_).resolve_left fun hr => notRetimed ⟨_, hr, lists⟩, lists⟩
      exact (grouped.same hK n tk same gr hg).1.symm.trans e
    · rw [InState, same]
      exact congrArg some (standing.told.names same (p := .calendar) old)
  · obtain rfl := Option.some.inj (same.symm.trans ho)
    exact ⟨tk', hk', by rw [hf, uclock, clock]; exact hfire⟩

/-- The placing of a resumed wave's tickets. -/
theorem Kept.placesResumed (h : Kept K [] none none s) (k : Retiming w retimed kept s v) (books : Books K none none v) :
    Kept K [] none none (placeResumed retimed kept v).1 := by
  have standing := h.arranged.seated.standing
  have listed := h.books.grouped.listed
  have live : ∀ n o, ticket? s n = some o → ∃ tk, ticket? v n = some tk := fun n o ho => (k.record ho).imp fun _ => And.right
  have calendar : v.calendar = s.calendar := by rw [k.rest]
  have planned : Planned retimed kept v (planned retimed kept v) := by
    refine planned_spec (calendar ▸ standing.calendar) (fun n hn => ?_) (fun n hn => ?_) fun n hn => ?_
    · obtain ⟨o, ho, -⟩ := standing.told n .calendar (show n ∈ s.calendar from calendar ▸ hn)
      exact live n o ho
    · obtain ⟨o, ho, -⟩ := Option.map_eq_some_iff.mp ((mem_movedOf k).mp hn).2.1
      exact live n o ho
    · obtain ⟨o, ho, -⟩ := dueOf_waiting k hn
      exact live n o ho
  rw [placeResumed_eq]
  generalize Machine.planned retimed kept v = u at *
  have replans := k.replans planned listed
  have stays : ∀ n o, ticket? s n = some o → (o.state = .calendared ∨ o.state = .blocked) → ∃ tk, ticket? u n = some tk ∧ tk.Waits :=
    fun n o ho hst => by
      obtain ⟨tk, hk⟩ := replans.live ho
      obtain ⟨o', ho', _, _, _, _, e⟩ := replans.record hk
      obtain rfl := Option.some.inj (ho.symm.trans ho')
      refine ⟨tk, hk, ?_⟩
      split at e
      · exact .inl e
      · exact hst.imp (e.trans ·) fun hb => .inl (e.trans hb)
  have arranged : Arranged K (dueOf retimed kept v) u := by
    refine ⟨⟨replans.standing standing, fun hK => ⟨planned.sorted, fun y => ?_⟩, fun hK => ?_, fun hK => ?_⟩, fun hK y => ?_⟩
    · refine replans.blocked standing.told (fun n hne o ho hst => ?_) y ((h.arranged.seated.order hK).blocked y)
      by_cases hm : n ∈ movedOf retimed v
      · exact .inl hm
      rcases k.tickets n with e | ⟨hr, -⟩
      · exact absurd (by rw [planned.tickets, if_neg hm, e]) hne
      · right
        refine (mem_dueOf k).mpr (.inl ⟨hr, ?_⟩)
        by_contra hd
        refine hm ((mem_movedOf k).mpr ⟨hr, ?_, Bool.not_eq_true _ ▸ hd⟩)
        rw [InState, ho]
        exact congrArg some hst
    · rw [planned.rest]
      change ∀ c r, v.components.get? c = some r → _
      rw [k.rest]
      exact h.arranged.seated.menu hK
    · exact k.ahead planned standing h.books.grouped hK (h.arranged.seated.ahead hK)
    · obtain ⟨positions, queue, full⟩ := h.arranged.fits hK y
      rw [replans.vacates.rest]
      exact ⟨positions, queue, full⟩
  have shuffles : Shuffles v u := by
    refine ⟨?_, ?_, ?_, ?_, ?_, ?_, ?_, fun y => ?_, fun c => ?_, planned.rising, fun n => ?_⟩
    case refine_10 =>
      rw [planned.tickets]
      split
      · rename_i hm
        obtain ⟨o, ho, hst⟩ := Option.map_eq_some_iff.mp ((mem_movedOf k).mp hm).2.1
        obtain ⟨o', hr, ho'⟩ := k.record ho
        have blocked : o'.state = .blocked := by rw [hr]; exact hst
        exact .inr ⟨o', o'.shelved, ho', by rw [ho', Option.map_some], .inr (.inl blocked), .inl rfl, rfl⟩
      · exact .inl rfl
    all_goals rw [planned.rest]
    all_goals rfl
  have kept' : Kept K (dueOf retimed kept v ++ []) none none u := by
    rw [List.append_nil]
    exact ⟨arranged, shuffles.books books⟩
  refine kept'.offersAll _ (dueOf_nodup k books.grouped.listed) (fun n _ => by simp) fun n hn => ?_
  obtain ⟨o, ho, hst⟩ := dueOf_waiting k hn
  exact stays n o ho hst

/-! ## RESUME_WAVE (R51 to R54) -/

theorem isRetimedGroup_waiting (h : isRetimedGroup s g = true) (hn : n ∈ groupTickets s g) :
    ∃ o, ticket? s n = some o ∧ (o.state = .calendared ∨ o.state = .blocked) := by
  have := List.all_eq_true.mp h n hn
  split at this
  · exact ⟨_, ‹_›, (of_decide_eq_true this).1⟩
  · cases this

/-- The wave is ACTIVE again with its new go time. -/
def reactivated (w go : Nat) (s : State) : State :=
  let s := updWave w (fun wv => { wv with goTime := go, holdSince := none, state := .active }) s
  { s with frozen := removeNumber w s.frozen }

theorem Books.reactivates (go : Nat) (h : Books K none none s) (hw : wave? s w = some wv) (hst : wv.state = .held) :
    Books K none none (reactivated w go s) := by
  refine ⟨fun hK => (h.numbered hK).congr rfl rfl, h.grouped.congr rfl rfl fun _ => rfl, fun hK => ?_⟩
  have counts := h.counts hK
  have waves : ∀ v, wave? (reactivated w go s) v = if v = w then
      (wave? s v).map fun wv => { wv with goTime := go, holdSince := none, state := .active } else wave? s v :=
    fun v => wave_get_updWave _ _ _ _
  have now : wave? (reactivated w go s) w = some { wv with goTime := go, holdSince := none, state := .active } := by
    rw [waves, if_pos rfl, hw, Option.map_some]
  have fair := counts.fair w wv hw
  have idle := fair.unreserved (by simp [hst])
  refine counts.rewrites h.grouped.groups ⟨Store.rising_update _ _ counts.waves, h.grouped.groups, fun v hv => by rw [waves, if_neg hv],
    by rw [now]; rfl, fun o ho => ?_, fun v hv => mem_removeNumber.trans (and_iff_left hv), counts.mode hw, fun _ => rfl,
    fun _ => rfl⟩ rfl ⟨rfl, rfl⟩ rfl (by rw [waveState_of_wave hw, hst]; simp) fun o ho => ?_
  · obtain rfl := Option.some.inj (now.symm.trans ho)
    exact ⟨fair.number, by simp, by simp, fun e => by dsimp only at e; omega,
      iff_of_false (by simp) fun e => (mem_removeNumber.mp e).2 rfl, fun e => absurd e (by simp), fair.released⟩
  · obtain rfl := Option.some.inj (now.symm.trans ho)
    simp

theorem Kept.resumes (go : Nat) (h : Kept K [] none none s) (hw : wave? s w = some wv) (hst : wv.state = .held) :
    Kept K [] none none (resumeWave w wv go s).1 := by
  have active := h.books.reactivates go hw hst
  have rising : (reactivated w go s).groups.rising = true := h.books.grouped.groups
  let retimed := (waveGroups (reactivated w go s) w).filter (isRetimedGroup (reactivated w go s))
  let kept := (waveGroups (reactivated w go s) w).filter fun g => !isRetimedGroup (reactivated w go s) g
  obtain ⟨books, rest, lists, tickets⟩ := active.resumesGroups go wv.stagger retimed
  have nodup := waveGroups_nodup rising w
  change Kept K [] none none (placeResumed retimed kept (retimed.foldl (fun s g => resumeGroup go wv.stagger g s) (reactivated w go s))).1
  generalize retimed.foldl (fun s g => resumeGroup go wv.stagger g s) (reactivated w go s) = v at *
  refine h.placesResumed (w := w) ⟨?_, lists, tickets, fun g hg n hn => ?_, fun g hg hg' => ?_, ⟨nodup.filter _, nodup.filter _⟩,
    fun g gr hg e => ?_⟩ books
  · rw [rest]
    rfl
  · exact isRetimedGroup_waiting (s := reactivated w go s) (List.mem_filter.mp hg).2 hn
  · have yes := (List.mem_filter.mp hg).2
    have no := (List.mem_filter.mp hg').2
    rw [yes] at no
    cases no
  · have mine : g ∈ waveGroups (reactivated w go s) w := (mem_waveGroups rising w g).mpr ⟨gr, hg, e⟩
    cases hr : isRetimedGroup (reactivated w go s) g
    · exact .inr (List.mem_filter.mpr ⟨mine, by rw [hr]; rfl⟩)
    · exact .inl (List.mem_filter.mpr ⟨mine, hr⟩)

theorem Kept.resumesWave (b : List Byte) (h : Kept K [] none none s) : Kept K [] none none (resumeWaveRequest b s).1 := by
  unfold resumeWaveRequest
  split
  · exact h
  rename_i w given _
  split
  · exact h
  split
  · split_ifs <;> exact h
  rename_i wv hw
  dsimp only
  split
  · exact h
  split
  · exact h
  split
  · exact h
  rename_i state
  exact h.resumes _ hw (not_not.mp state)

end Sys2Proof.Machine
end


section
/-!
PROOFS. What a part without waves is, and the changes of the menu, the floor and the stations that SETUP alone allows keep the invariant (R1 to
R5, R18, R20, R28, R65, R142).
-/

namespace Sys2Proof.Machine

variable {K : Scope} {F : List Nat} {X C : Option Nat} {s t : State}

/-! ## A part in SETUP -/

/-- A state without waves, groups and tickets, in which no place is taken. -/
structure Idle (s : State) : Prop where
  waves : ∀ w, wave? s w = none
  groups : ∀ g, group? s g = none
  tickets : ∀ n, ticket? s n = none
  places : ∀ n p, ¬StandsAt s n p

theorem Kept.idle (h : Kept K F X C s) (hm : s.link.mode = .setup) (hK : K.whole) : Idle s := by
  have counts := h.books.counts hK
  have waves : ∀ w, wave? s w = none := fun w => by rw [wave?, counts.setup hm]; rfl
  have groups : ∀ g, group? s g = none := fun g => by
    refine Option.eq_none_iff_forall_ne_some.mpr fun gr hg => ?_
    have := counts.waved g gr hg
    rw [waves] at this
    cases this
  have tickets : ∀ n, ticket? s n = none := fun n => by
    refine Option.eq_none_iff_forall_ne_some.mpr fun tk hk => ?_
    obtain ⟨gr, hg, -⟩ := h.books.grouped.listed.listed n tk hk
    rw [groups] at hg
    cases hg
  refine ⟨waves, groups, tickets, fun n p hp => ?_⟩
  obtain ⟨tk, hk, -⟩ := h.arranged.seated.standing.told n p hp
  rw [tickets] at hk
  cases hk

theorem Idle.calendar (h : Idle s) : s.calendar = [] :=
  List.eq_nil_iff_forall_not_mem.mpr fun n => h.places n .calendar

theorem Idle.blocked (h : Idle s) (x : Nat) : (station s x).blocked = [] :=
  List.eq_nil_iff_forall_not_mem.mpr fun n => h.places n (.station x .blocked)

theorem Idle.wholeQueue (h : Idle s) (x : Nat) : wholeQueue (station s x) = [] :=
  List.eq_nil_iff_forall_not_mem.mpr fun n => h.places n (.station x .queue)

/-- A change that SETUP allows: of the clock, the menu's components, the floor, the stations' definitions and the host link. -/
structure SetsUp (s t : State) : Prop where
  rest : t = { s with clock := t.clock, components := t.components, floor := t.floor, link := t.link, stations := t.stations }
  length : t.stations.length = s.stations.length
  places : ∀ n p, StandsAt t n p → StandsAt s n p
  courses : ∀ u, (tableRecord t u).liveCourses ⊆ (tableRecord s u).liveCourses

section
variable (k : SetsUp s t)
include k

theorem SetsUp.ticket_get (n : Nat) : ticket? t n = ticket? s n := by
  rw [k.rest]
  rfl

theorem SetsUp.group_get (g : Nat) : group? t g = group? s g := by
  rw [k.rest]
  rfl

theorem SetsUp.wave_get (w : Nat) : wave? t w = wave? s w := by
  rw [k.rest]
  rfl

theorem SetsUp.idle (h : Idle s) : Idle t :=
  ⟨fun w => (k.wave_get w).trans (h.waves w), fun g => (k.group_get g).trans (h.groups g), fun n => (k.ticket_get n).trans (h.tickets n),
    fun n p hp => h.places n p (k.places n p hp)⟩

theorem SetsUp.told (h : Told s) : Told t := fun n p hp => by
  rw [k.ticket_get]
  exact h n p (k.places n p hp)

theorem SetsUp.standing (idle : K.whole → Idle s) (h : Standing K F s) : Standing K F t where
  length := k.length.trans h.length
  told := k.told h.told
  floating n hn p hp := h.floating n hn p (k.places n p hp)
  calendar := by
    rw [k.rest]
    exact h.calendar
  homes hK n tk hk := h.homes hK n tk (k.ticket_get n ▸ hk)
  waits hK n tk hk := by simp [(k.idle (idle hK)).tickets] at hk
  queues hK x := by
    rw [(k.idle (idle hK)).wholeQueue]
    exact List.nodup_nil
  classes hK x b n hn := absurd (mem_wholeQueue.mpr ⟨b, hn⟩) (by simp [(k.idle (idle hK)).wholeQueue])

theorem SetsUp.grouped (idle : K.whole → Idle s) (h : Grouped K X s) : Grouped K X t where
  tickets := by rw [k.rest]; exact h.tickets
  groups := by rw [k.rest]; exact h.groups
  listed := by
    rw [k.rest]
    exact ⟨h.listed.nodup, h.listed.members, h.listed.listed⟩
  complete g gr hg hX := by
    rw [k.group_get] at hg
    have := h.complete g gr hg hX
    rw [k.rest]
    exact this
  dies hK g gr hg := by simp [(k.idle (idle (K.timed_whole hK))).groups] at hg
  same hK n tk hk := by simp [(k.idle (idle (K.timed_whole hK))).tickets] at hk

theorem SetsUp.counts (hm : s.link.mode = .setup) (idle : Idle s) (h : Counts C s) : Counts C t := by
  have none := k.idle idle
  have waves : t.waves = [] := by
    rw [k.rest]
    exact h.setup hm
  have courses : ∀ u c, c ∈ (tableRecord t u).liveCourses ↔ ∃ g gr, group? t g = some gr ∧ gr.table = u ∧ gr.course = c := by
    intro u c
    constructor
    · intro hc
      obtain ⟨g, gr, hg, -⟩ := (h.courses u c).mp (k.courses u hc)
      simp [idle.groups] at hg
    · rintro ⟨g, gr, hg, -⟩
      simp [none.groups] at hg
  have held : ∀ w, waveState t w = waveState s w := fun w => by rw [waveState, k.wave_get, ← waveState]
  refine ⟨by rw [waves]; rfl, fun w wv hw => by simp [none.waves] at hw, fun w wv hw => by simp [none.waves] at hw, fun w hw => ?_,
    fun hr w hw => ?_, ?_, ?_, ?_, ?_, ?_, fun _ _ w _ wv hw => by simp [none.waves] at hw, fun g gr hg => by simp [none.groups] at hg,
    courses, fun g _ gr _ hg => by simp [none.groups] at hg, fun _ => waves⟩
  · rw [held]
    exact h.frozen w (by rw [k.rest] at hw; exact hw)
  · rw [held]
    rw [k.rest] at hr hw
    exact h.running hr w hw
  all_goals rw [k.rest]
  · exact h.pools
  · exact h.tickets
  · exact h.groups
  · exact h.reservedTickets
  · exact h.reservedGroups

end

/-- The changes that SETUP allows keep the invariant: without waves there is nothing that they could break. -/
theorem Kept.sets (h : Kept K F X C s) (hm : s.link.mode = .setup) (k : SetsUp s t)
    (menu : K.whole → ∀ c r, t.components.get? c = some r → r.station < 24)
    (fits : K.timed → Idle s → ∀ x, (station t x).Fits) : Kept K F X C t where
  arranged :=
    { seated :=
        { standing := k.standing (h.idle hm) h.arranged.seated.standing
          order := fun hK => by
            have idle := k.idle (h.idle hm hK)
            exact ⟨by rw [idle.calendar]; exact .nil, fun x => by rw [idle.blocked]; exact .nil⟩
          menu := menu
          ahead := fun hK n hn => by
            rw [(k.idle (h.idle hm (K.timed_whole hK))).calendar] at hn
            cases hn }
      fits := fun hK => fits hK (h.idle hm (K.timed_whole hK)) }
  books :=
    { numbered := fun hK => by
        have idle := k.idle (h.idle hm (K.timed_whole hK))
        exact ⟨fun n tk hk => by simp [idle.tickets] at hk, fun g gr hg => by simp [idle.groups] at hg⟩
      grouped := k.grouped (h.idle hm) h.books.grouped
      counts := fun hK => k.counts hm (h.idle hm hK) (h.books.counts hK) }

end Sys2Proof.Machine
end


section
/-!
PROOFS. The handling of every request keeps the invariant (R2, R5, R8 to R22, R28, R60, R65, R102, R105, R127, R138, R140 to R144, R158).
-/

namespace Sys2Proof.Machine

variable {K : Scope} {F : List Nat} {X C : Option Nat} {s t : State}

/-- A request's handling keeps the invariant, whatever its body. -/
abbrev Handled (K : Scope) (handle : List Byte → State → State × Answer) : Prop :=
  ∀ b s, Kept K [] none none s → Kept K [] none none (handle b s).1

/-- A request refused under a condition, and otherwise one that keeps the invariant. -/
theorem Kept.unless (h : Kept K F X C s) (r : Reason) (c : Prop) [Decidable c] {x : State × Answer} (hx : ¬c → Kept K F X C x.1) :
    Kept K F X C (if c then refuse r s else x).1 := by
  split
  · exact h
  · exact hx ‹_›

theorem mode_setup_of_not_service (hm : ¬s.link.mode = .service) : s.link.mode = .setup := by
  cases h : s.link.mode
  · rfl
  · exact absurd h hm

/-! ## The host link's own requests -/

theorem identifyRequest_handled : Handled K identifyRequest := fun b s h => by
  unfold identifyRequest
  split <;> exact h

theorem restartRequest_handled : Handled K restartRequest := fun b s h => by
  unfold restartRequest
  split
  · exact h
  · exact h.aside rfl rfl

theorem queryClockRequest_handled : Handled K queryClockRequest := fun b s h => by
  unfold queryClockRequest
  split <;> exact h

theorem setClockRequest_handled : Handled K setClockRequest := fun b s h => by
  unfold setClockRequest
  split
  · exact h
  refine h.unless _ _ fun _ => h.unless _ _ fun hm => ?_
  exact h.sets (s := s) (mode_setup_of_not_service hm) ⟨rfl, rfl, fun _ _ => id, fun _ _ => id⟩ h.arranged.seated.menu
    fun hK _ => h.arranged.fits hK

/-! ## BEGIN_SERVICE and END_SERVICE -/

/-- The start of a service changes the stations' load records alone. -/
theorem station_beginService (limit : Nat) (s : State) (x : Nat) :
    ∃ load, station (beginService limit s) x = { station s x with load := load } := by
  by_cases hx : x < s.stations.length
  · exact ⟨(startLoad s.clock (station s x)).load, by simp [station, beginService, hx, startLoad]⟩
  · have hx := Nat.le_of_not_lt hx
    exact ⟨(station s x).load, by rw [station_of_length_le (by simpa [beginService] using hx), station_of_length_le hx]⟩

theorem beginService_sets (limit : Nat) (s : State) : SetsUp s (beginService limit s) where
  rest := rfl
  length := List.length_map ..
  places n p hp := by
    cases p with
    | calendar => exact hp
    | station x q =>
      obtain ⟨load, e⟩ := station_beginService limit s x
      rw [StandsAt, e] at hp
      cases q <;> exact hp
  courses _ := fun _ => id

theorem Kept.beginsService (h : Kept K F X C s) (hm : s.link.mode = .setup) (limit : Nat) : Kept K F X C (beginService limit s) := by
  refine h.sets hm (beginService_sets limit s) h.arranged.seated.menu fun hK _ x => ?_
  obtain ⟨load, e⟩ := station_beginService limit s x
  obtain ⟨positions, queue, full⟩ := h.arranged.fits hK x
  exact e ▸ ⟨positions, queue, full⟩

theorem beginServiceRequest_handled : Handled K beginServiceRequest := fun b s h => by
  unfold beginServiceRequest
  split
  · exact h
  exact h.unless _ _ fun _ => h.unless _ _ fun hm => h.unless _ _ fun _ => h.beginsService (mode_setup_of_not_service hm) _

theorem endServiceRequest_handled : Handled K endServiceRequest := fun b s h => by
  unfold endServiceRequest
  split
  · exact h
  refine h.unless _ _ fun _ => h.unless _ _ fun _ => h.unless _ _ fun _ => ?_
  have ended := h.endsService
  split
  rename_i e
  rw [e] at ended
  dsimp only [accept] at ended ⊢
  exact ended

/-! ## The definitions -/

/-- A station controller is defined: its positions are free. -/
theorem updStation_defined_sets (x : Nat) (c : StationConfig) (s : State) :
    SetsUp s (updStation x (fun st => { st with config := some c, positions := List.replicate c.positions none }) s) where
  rest := rfl
  length := updStation_stations_length ..
  places n p hp := by
    rcases standsAt_updStation hp with ⟨hp, -⟩ | ⟨q, rfl, hq⟩
    · exact hp
    · cases q with
      | blocked => exact hq
      | queue => exact hq
      | position i => simp [Spot.Holds, List.getElem?_replicate] at hq
  courses _ := fun _ => id

theorem Kept.definesStation (h : Kept K F X C s) (hm : s.link.mode = .setup) (x : Nat) (c : StationConfig) :
    Kept K F X C (defineStation x c s) := by
  have defined : Kept K F X C
      (updStation x (fun st => { st with config := some c, positions := List.replicate c.positions none }) s) := by
    refine h.sets hm (updStation_defined_sets x c s) h.arranged.seated.menu fun hK idle y => ?_
    rw [station_updStation]
    split
    · have empty : wholeQueue { station s y with config := some c, positions := List.replicate c.positions none } = [] :=
        idle.wholeQueue y
      exact ⟨List.length_replicate, by simp [empty], fun hq => absurd empty hq⟩
    · exact h.arranged.fits hK y
  unfold defineStation
  dsimp only
  split
  · exact defined.lines (askRefresh_only _ _)
  · exact defined

theorem defineStationRequest_handled : Handled K defineStationRequest := fun b s h => by
  unfold defineStationRequest
  split
  · exact h
  exact h.unless _ _ fun _ => h.unless _ _ fun hm => h.definesStation (mode_setup_of_not_service hm) _ _

/-- The station of a DEFINE_COMPONENT in its range (R2). -/
theorem station_lt_of_inRange {c : Nat} {r : Component} (h : ¬componentFormInRange c r = false) : r.station < 24 := by
  simp only [componentFormInRange, Bool.not_eq_false, Bool.and_eq_true, decide_eq_true_eq] at h
  exact h.1.1.2.1

theorem defineComponentRequest_handled : Handled K defineComponentRequest := fun b s h => by
  unfold defineComponentRequest
  split
  · exact h
  rename_i c r _
  refine h.unless _ _ fun hr => h.unless _ _ fun hm => h.unless _ _ fun _ => ?_
  refine h.sets (s := s) (mode_setup_of_not_service hm) ⟨rfl, rfl, fun _ _ => id, fun _ _ => id⟩ (fun hK d r' hd => ?_)
    fun hK _ => h.arranged.fits hK
  by_cases e : d = c
  · subst e
    cases (Store.get?_set_self s.components d r).symm.trans hd
    exact station_lt_of_inRange hr
  · exact h.arranged.seated.menu hK d r' ((Store.get?_set_of_ne _ _ e).symm.trans hd)

theorem defineCourseRequest_handled : Handled K defineCourseRequest := fun b s h => by
  unfold defineCourseRequest
  split
  · exact h
  exact h.unless _ _ fun _ => h.unless _ _ fun _ => h.unless _ _ fun _ => h.aside rfl rfl

theorem defineFloorRequest_handled : Handled K defineFloorRequest := fun b s h => by
  unfold defineFloorRequest
  split
  · exact h
  refine h.unless _ _ fun _ => h.unless _ _ fun hm => ?_
  exact h.sets (s := s) (mode_setup_of_not_service hm) ⟨rfl, rfl, fun _ _ => id, fun _ => List.nil_subset _⟩ h.arranged.seated.menu
    fun hK _ => h.arranged.fits hK

/-! ## The floor and the stock -/

/-- Table records change that keep their live courses. -/
theorem Kept.tables (h : Kept K F X C s) (k : t = { s with floor := t.floor })
    (courses : ∀ u, (tableRecord t u).liveCourses = (tableRecord s u).liveCourses) : Kept K F X C t := by
  rw [k] at courses ⊢
  refine ⟨Still.arranged (s := s) ?_ h.arranged, Shuffles.books (s := s) ?_ h.books⟩
  · exact ⟨rfl, rfl, rfl, rfl, rfl, fun _ => rfl, fun _ => rfl, fun _ => rfl, fun _ => rfl, fun _ => rfl, fun _ => rfl⟩
  · exact ⟨rfl, rfl, rfl, rfl, rfl, rfl, rfl, courses, fun _ => rfl, id, fun _ => .inl rfl⟩

theorem Kept.setsTable (h : Kept K F X C s) (u : Nat) {r : TableRecord} (hr : r.liveCourses = (tableRecord s u).liveCourses) :
    Kept K F X C (setTableRecord u r s) := by
  refine h.tables rfl fun v => ?_
  rw [tableRecord_setTableRecord]
  split
  · rename_i e
    rw [hr, e]
  · rfl

theorem setTableRequest_handled : Handled K setTableRequest := fun b s h => by
  unfold setTableRequest
  split
  · exact h
  exact h.unless _ _ fun _ => h.unless _ _ fun _ => h.unless _ _ fun _ => h.unless _ _ fun _ => h.unless _ _ fun _ => h.setsTable _ rfl

/-- A step that keeps the invariant, taken for each entry of a list. -/
theorem Kept.folds {α : Type} {f : State → α → State} (hf : ∀ s a, Kept K F X C s → Kept K F X C (f s a)) (l : List α)
    (h : Kept K F X C s) : Kept K F X C (l.foldl f s) := by
  induction l generalizing s with
  | nil => exact h
  | cons a l ih => exact ih (hf s a h)

theorem markTablesRequest_handled : Handled K markTablesRequest := fun b s h => by
  unfold markTablesRequest
  split
  · exact h
  exact h.unless _ _ fun _ => h.unless _ _ fun _ => h.unless _ _ fun _ => h.folds (f := markTable _) (fun _ u h => h.setsTable u rfl) _

theorem restockRequest_handled : Handled K restockRequest := fun b s h => by
  unfold restockRequest
  split
  · exact h
  refine h.unless _ _ fun _ => ?_
  split
  · exact h
  · split
    · exact h
    · exact h.stock (setStock_stock _ _ s)
    · exact h.stock (setStock_stock _ _ s)

/-! ## The queries -/

theorem queryStationRequest_handled : Handled K queryStationRequest := fun b s h => by
  unfold queryStationRequest
  split
  · exact h
  refine h.unless _ _ fun _ => ?_
  split <;> exact h

theorem queryComponentRequest_handled : Handled K queryComponentRequest := fun b s h => by
  unfold queryComponentRequest
  split
  · exact h
  refine h.unless _ _ fun _ => ?_
  split <;> exact h

theorem queryTableRequest_handled : Handled K queryTableRequest := fun b s h => by
  unfold queryTableRequest
  split
  · exact h
  exact h.unless _ _ fun _ => h.unless _ _ fun _ => h

theorem queryWaveRequest_handled : Handled K queryWaveRequest := fun b s h => by
  unfold queryWaveRequest
  split
  · exact h
  exact h.unless _ _ fun _ => h

theorem queryGroupRequest_handled : Handled K queryGroupRequest := fun b s h => by
  unfold queryGroupRequest
  split
  · exact h
  exact h.unless _ _ fun _ => h

theorem queryTicketRequest_handled : Handled K queryTicketRequest := fun b s h => by
  unfold queryTicketRequest
  split
  · exact h
  exact h.unless _ _ fun _ => h

/-! ## The service's requests -/

theorem cancelWaveRequest_handled : Handled K cancelWaveRequest := fun b s h => by
  unfold cancelWaveRequest
  split
  · exact h
  exact h.unless _ _ fun _ => h.unless _ _ fun _ => h.unless _ _ fun _ => h.cancels _

theorem rearmStationRequest_handled : Handled K rearmStationRequest := fun b s h => by
  unfold rearmStationRequest
  split
  · exact h
  refine h.unless _ _ fun _ => h.unless _ _ fun _ => ?_
  split
  · exact h
  exact h.unless _ _ fun _ => h.unless _ _ fun _ => h.changesLoad _ _

theorem refireRequest_handled : Handled K refireRequest := fun b s h => by
  unfold refireRequest
  split
  · exact h
  rename_i g n _
  refine h.unless _ _ fun _ => h.unless _ _ fun _ => ?_
  split
  · exact h
  rename_i tk hk
  refine h.unless _ _ fun hr => ?_
  have refired := h.refires hk ((Bool.not_eq_false _).mp hr)
  split <;> rename_i e <;> rw [e] at refired <;> exact refired

theorem sendShortRequest_handled : Handled K sendShortRequest := fun b s h => by
  unfold sendShortRequest
  split
  · exact h
  refine h.unless _ _ fun _ => h.unless _ _ fun _ => ?_
  split
  · exact h
  rename_i gr hg
  exact h.unless _ _ fun _ => h.sendsShort hg

end Sys2Proof.Machine
end


section
/-!
PROOFS. The reset state meets the invariant, and the commands of the links, the lines and the clock keep it (R66, R88, R112, R121 to R125, R163,
R165, R166, R175, R185).
-/

namespace Sys2Proof.Machine

variable {K : Scope} {F : List Nat} {X C : Option Nat} {s t : State}

/-! ## The reset state (R185) -/

/-- A controller of the part after a reset has its line's presence alone. -/
theorem station_resetPart (levels : List Presence) (level : Presence) (s : State) (x : Nat) :
    ∃ line, station (resetPart levels level s) x = { line := line } := by
  by_cases hx : x < 24
  · exact ⟨{ presence := levels.getD x .absent }, by simp [station, resetPart_stations, Config.stations, hx]⟩
  · exact ⟨{}, station_of_length_le (by simp [resetPart_stations, Config.stations]; omega)⟩

theorem not_standsAt_resetPart (levels : List Presence) (level : Presence) (s : State) (n : Nat) (p : Place) :
    ¬StandsAt (resetPart levels level s) n p := by
  cases p with
  | calendar => simp [StandsAt, resetPart, State.reset]
  | station x q =>
    obtain ⟨line, e⟩ := station_resetPart levels level s x
    rw [StandsAt, e]
    cases q <;> simp [Spot.Holds, wholeQueue]

theorem resetPart_idle (levels : List Presence) (level : Presence) (s : State) : Idle (resetPart levels level s) :=
  ⟨fun _ => rfl, fun _ => rfl, fun _ => rfl, not_standsAt_resetPart levels level s⟩

theorem resetPart_counts (levels : List Presence) (level : Presence) (s : State) : Counts none (resetPart levels level s) where
  waves := rfl
  fair w wv hw := by cases hw
  engine w wv hw := by cases hw
  frozen w hw := by cases hw
  running hr := by cases hr
  pools := ⟨rfl, rfl⟩
  tickets := rfl
  groups := rfl
  reservedTickets := rfl
  reservedGroups := rfl
  provided _ hr := by cases hr
  waved g gr hg := by cases hg
  courses u c := ⟨fun hc => (by cases hc), fun ⟨g, gr, hg, _⟩ => (by cases hg)⟩
  unique g _ gr _ hg := by cases hg
  setup _ := rfl

theorem resetPart_standing (levels : List Presence) (level : Presence) (s : State) : Standing K [] (resetPart levels level s) where
  length := by simp [resetPart_stations, Config.stations]
  told n p hp := absurd hp (not_standsAt_resetPart levels level s n p)
  floating n hn := by cases hn
  calendar := List.nodup_nil
  homes _ n tk hk := by cases hk
  waits _ n tk hk := by cases hk
  queues _ x := (resetPart_idle levels level s).wholeQueue x ▸ List.nodup_nil
  classes _ x b n hn tk hk := by cases hk

theorem resetPart_grouped (levels : List Presence) (level : Presence) (s : State) : Grouped K X (resetPart levels level s) where
  tickets := rfl
  groups := rfl
  listed := ⟨fun g gr hg => (by cases hg), fun g gr hg => (by cases hg), fun n tk hk => (by cases hk)⟩
  complete g gr hg := by cases hg
  dies _ g gr hg := by cases hg
  same _ n tk hk := by cases hk

theorem kept_resetPart (levels : List Presence) (level : Presence) (s : State) : Kept K [] none none (resetPart levels level s) where
  arranged :=
    { seated :=
        { standing := resetPart_standing levels level s
          order := fun _ => ⟨.nil, fun x => (resetPart_idle levels level s).blocked x ▸ .nil⟩
          menu := fun _ c r hc => by cases hc
          ahead := fun _ n hn => by cases hn }
      fits := fun _ x => by
        obtain ⟨line, e⟩ := station_resetPart levels level s x
        exact e ▸ ⟨rfl, Nat.le_refl 0, fun h => absurd rfl h⟩ }
  books :=
    { numbered := fun _ => ⟨fun n tk hk => (by cases hk), fun g gr hg => (by cases hg)⟩
      grouped := resetPart_grouped levels level s
      counts := fun _ => resetPart_counts levels level s }

/-! ## The host link (R170 to R176) -/

theorem Kept.choosesHostFrame (h : Kept K F X C s) : Kept K F X C (chooseHostFrame s) := by
  unfold chooseHostFrame
  split <;> exact h.aside rfl rfl

theorem Kept.takesFrame (h : Kept K [] none none s) (f : Frame) {handle : List Byte → State → State × Answer} (hh : Handled K handle) :
    Kept K [] none none (takeFrame f handle s) := by
  have dequeued : Kept K [] none none { s with link := { s.link with input := s.link.input.tail } } := h.aside rfl rfl
  exact ((hh f.body _ dequeued).aside (t := pushReply _ _) rfl rfl).settle

theorem Kept.takesRequest (h : Kept K [] none none s) (kind : Byte) {handle : List Byte → State → State × Answer}
    (hh : Handled K handle) : Kept K [] none none (takeRequest kind handle s) := by
  unfold takeRequest
  split
  · split
    · exact h.takesFrame _ hh
    · exact h
  · exact h

theorem Kept.takesGood (h : Kept K F X C s) (f : Frame) : Kept K F X C (takeGood f s) := by
  unfold takeGood
  split
  · exact h.aside rfl rfl
  · exact h.notice _

theorem Kept.takesJudged (h : Kept K F X C s) (j : Judged) : Kept K F X C (takeJudged j s) := by
  cases j with
  | nothing => exact h
  | bad fault => exact (h.notice _).settle
  | good f => exact (h.takesGood f).settle

theorem Kept.hostByte (h : Kept K F X C s) (b : Byte) : Kept K F X C (hostByte b s) := by
  have received : Kept K F X C { s with link := { s.link with receiver := (receiveByte b s.link.receiver).1 } } := h.aside rfl rfl
  exact received.takesJudged _

/-! ## The lines (R112, R121 to R125, R165, R166) -/

theorem Kept.asksRefresh (h : Kept K F X C s) (l : LineId) : Kept K F X C (askRefresh l s) :=
  h.lines (askRefresh_only l s)

theorem Kept.sendsRecord (h : Kept K F X C s) (l : LineId) (r : LineRecord) : Kept K F X C (sendRecord l r s) :=
  h.lines (sendRecord_only l r s)

theorem Kept.resyncs (h : Kept K F X C s) (x : Nat) : Kept K F X C (takeResync x s) := by
  unfold takeResync
  split
  · exact h.asksRefresh _
  · exact h

theorem Kept.passResyncs (h : Kept K F X C s) : Kept K F X C (takePassResync s) := by
  unfold takePassResync
  split
  · exact h.asksRefresh _
  · exact h

theorem Kept.passRefires (h : Kept K [] none C s) (g n : Nat) : Kept K [] none C (takePassRefire g n s) := by
  unfold takePassRefire
  split
  · split
    · rename_i tk hk
      split
      · rename_i hr
        have refired := h.refires hk hr
        split <;> rename_i e <;> rw [e] at refired
        · exact refired
        · exact refired.sendsRecord _ _
        · exact refired.sendsRecord _ _
      · exact h.sendsRecord _ _
    · exact h.sendsRecord _ _
  · exact h

theorem Kept.takesLineFrame (h : Kept K [] none none s) (l : LineId) (f : Frame) : Kept K [] none none (takeLineFrame l f s) := by
  cases l with
  | station x =>
    unfold takeLineFrame
    dsimp only
    split_ifs
    · split
      · exact h.readies x _
      · exact h
    · split
      · exact h.spoils x _
      · exact h
    · split
      · exact h.resyncs x
      · exact h
    · exact h
  | pass =>
    unfold takeLineFrame
    dsimp only
    split_ifs
    · split
      · exact h.picks _
      · exact h
    · split
      · exact h.passRefires _ _
      · exact h
    · split
      · exact h.passResyncs
      · exact h
    · exact h

theorem Kept.lineByte (h : Kept K [] none none s) (l : LineId) (b : Byte) : Kept K [] none none (lineByte l b s) := by
  have received := h.line l fun ln => { ln with receiver := (receiveByte b (lineOf s l).receiver).1 }
  unfold Machine.lineByte
  dsimp only
  split
  · exact received
  · exact received
  · exact (received.takesLineFrame _ _).settle

/-! ## The clock (R66, R88) -/

/-- With the fire times at the clock expired, the clock may advance. -/
theorem Kept.advances (hl : K.lead = 0) (h : Kept K.fired F X C s) : Kept K F X C (advanceClock s) := by
  have standing : Standing K F s := h.arranged.seated.standing.scope id
  have clock : (advanceClock s).clock ≤ s.clock + 1 := by
    dsimp only [advanceClock]
    split <;> omega
  have ahead : K.timed → Ahead K.lead (advanceClock s) := fun hK n hn => by
    refine (h.arranged.seated.ahead hK n hn).imp id ?_
    rintro ⟨tk, hk, hf⟩
    have lead : K.fired.lead = 1 := rfl
    exact ⟨tk, hk, by omega⟩
  have books := Shuffles.books (s := s) (t := advanceClock s) ⟨rfl, rfl, rfl, rfl, rfl, rfl, rfl, fun _ => rfl, fun _ => rfl, id,
    fun _ => .inl rfl⟩ h.books
  have grouped := books.grouped
  exact
    { arranged :=
        { seated :=
            { standing := ⟨standing.length, standing.told, standing.floating, standing.calendar, standing.homes, standing.waits,
                standing.queues, standing.classes⟩
              order := fun hK => ⟨(h.arranged.seated.order hK).calendar, (h.arranged.seated.order hK).blocked⟩
              menu := h.arranged.seated.menu
              ahead := ahead }
          fits := h.arranged.fits }
      books := ⟨books.numbered, ⟨grouped.tickets, grouped.groups, grouped.listed, grouped.complete, grouped.dies, grouped.same⟩,
        books.counts⟩ }

/-- The expiries that are due: once that of the fire times has been taken, every CALENDARED ticket fires after the clock. -/
theorem Kept.expires (h : Kept K [] none none s) : Kept K.fired [] none none (takeDueExpiries s) := by
  unfold takeDueExpiries
  refine Kept.folds (fun _ g hu => (hu.pickups g).settle) _ ?_
  refine Kept.folds (fun _ g hu => (hu.diesIfDue g).settle) _ ?_
  refine Kept.folds (fun _ x hu => (hu.samples x).settle) _ ?_
  exact (Kept.folds (fun _ w hu => (hu.lapses w).settle) _ h).fireExpires.settle

end Sys2Proof.Machine
end


section
/-!
PROOFS. Every command keeps the invariant, and so every step keeps places and tickets agreeing, the counts, the bounds and the times (R23, R35,
R80 to R88, R96, R107, R108, R145 to R152).
-/

namespace Sys2Proof.Machine

variable {K : Scope} {s t : State}

/-! ## Commands -/

theorem kept_of_next {u : State} (hu : Kept K [] none none u) (e : (Host.Outcome.next u : Result) = .next t) : Kept K [] none none t := by
  cases e
  exact hu

/-- A command that names a unit of the part is taken only where the unit is one. -/
theorem kept_of_guarded {c : Prop} [Decidable c] {x : Result} (hx : x = .next t → Kept K [] none none t)
    (e : (if c then x else .fault .noSuchUnit) = Host.Outcome.next t) : Kept K [] none none t := by
  split at e
  · exact hx e
  · cases e

theorem Kept.execHostFrameEnd (h : Kept K [] none none s) (e : execHostFrameEnd s = .next t) : Kept K [] none none t := by
  unfold Machine.execHostFrameEnd at e
  split at e
  · exact kept_of_next h e
  · exact kept_of_next h.choosesHostFrame e
  · split at e
    · exact kept_of_next (kept_resetPart _ _ s) e
    · exact kept_of_next h.choosesHostFrame e

theorem Kept.execUnknownKind (h : Kept K [] none none s) (e : execUnknownKind s = .next t) : Kept K [] none none t := by
  unfold Machine.execUnknownKind at e
  split at e
  · split at e
    · exact kept_of_next h e
    · exact kept_of_next (h.takesFrame _ fun _ _ hu => hu) e
  · exact kept_of_next h e

theorem Kept.execPassPresenceFall (h : Kept K [] none none s) (e : exec .passPresenceFall s = .next t) : Kept K [] none none t := by
  have e : (if s.passLine.presence = .present then Host.Outcome.next (lineFalls .pass s) else .next s : Result) = .next t := e
  split at e
  · exact kept_of_next (h.line .pass _) e
  · exact kept_of_next h e

theorem Kept.execPassPresenceRise (h : Kept K [] none none s) (e : exec .passPresenceRise s = .next t) : Kept K [] none none t := by
  have e : (if s.passLine.presence = .absent then Host.Outcome.next (askRefresh .pass (lineRises .pass s)) else .next s : Result)
      = .next t := e
  split at e
  · exact kept_of_next (Kept.asksRefresh (h.line .pass _) .pass) e
  · exact kept_of_next h e

/-- Every command keeps the invariant of a scope in which CALENDARED tickets may fire at the clock. -/
theorem Kept.exec (hl : K.lead = 0) (h : Kept K [] none none s) (i : Instr) (e : exec i s = .next t) : Kept K [] none none t := by
  cases i with
  | reset levels pass => exact kept_of_guarded (kept_of_next (kept_resetPart _ _ s)) e
  | clockTick => exact kept_of_next (h.expires.advances hl) e
  | hostFrameArrival bytes => exact kept_of_next (Kept.folds (fun _ b hu => hu.hostByte b) bytes h) e
  | hostFrameEnd => exact h.execHostFrameEnd e
  | unknownKind => exact h.execUnknownKind e
  | identify => exact kept_of_next (h.takesRequest _ identifyRequest_handled) e
  | restart => exact kept_of_next (h.takesRequest _ restartRequest_handled) e
  | setClock => exact kept_of_next (h.takesRequest _ setClockRequest_handled) e
  | queryClock => exact kept_of_next (h.takesRequest _ queryClockRequest_handled) e
  | beginService => exact kept_of_next (h.takesRequest _ beginServiceRequest_handled) e
  | endService => exact kept_of_next (h.takesRequest _ endServiceRequest_handled) e
  | defineStation => exact kept_of_next (h.takesRequest _ defineStationRequest_handled) e
  | defineComponent => exact kept_of_next (h.takesRequest _ defineComponentRequest_handled) e
  | defineCourse => exact kept_of_next (h.takesRequest _ defineCourseRequest_handled) e
  | defineFloor => exact kept_of_next (h.takesRequest _ defineFloorRequest_handled) e
  | setTable => exact kept_of_next (h.takesRequest _ setTableRequest_handled) e
  | markTables => exact kept_of_next (h.takesRequest _ markTablesRequest_handled) e
  | restock => exact kept_of_next (h.takesRequest _ restockRequest_handled) e
  | queryStation => exact kept_of_next (h.takesRequest _ queryStationRequest_handled) e
  | queryComponent => exact kept_of_next (h.takesRequest _ queryComponentRequest_handled) e
  | queryTable => exact kept_of_next (h.takesRequest _ queryTableRequest_handled) e
  | queryWave => exact kept_of_next (h.takesRequest _ queryWaveRequest_handled) e
  | queryGroup => exact kept_of_next (h.takesRequest _ queryGroupRequest_handled) e
  | queryTicket => exact kept_of_next (h.takesRequest _ queryTicketRequest_handled) e
  | stageWave => exact kept_of_next (h.takesRequest _ fun b _ hu => hu.stages b) e
  | releaseWave => exact kept_of_next (h.takesRequest _ fun b _ hu => hu.releasesWave b) e
  | holdWave => exact kept_of_next (h.takesRequest _ fun b _ hu => hu.holds b) e
  | resumeWave => exact kept_of_next (h.takesRequest _ fun b _ hu => hu.resumesWave b) e
  | cancelWave => exact kept_of_next (h.takesRequest _ cancelWaveRequest_handled) e
  | rearmStation => exact kept_of_next (h.takesRequest _ rearmStationRequest_handled) e
  | refire => exact kept_of_next (h.takesRequest _ refireRequest_handled) e
  | sendShort => exact kept_of_next (h.takesRequest _ sendShortRequest_handled) e
  | stagingLapse w => exact kept_of_guarded (kept_of_next (h.lapses w).settle) e
  | releaseVisit => exact kept_of_next h.releases.settle e
  | fireExpiry => exact kept_of_next h.fireExpires.unfired.settle e
  | loadSample x => exact kept_of_guarded (kept_of_next (h.samples x).settle) e
  | dieExpiry g => exact kept_of_guarded (kept_of_next (h.diesIfDue g).settle) e
  | pickupExpiry g => exact kept_of_guarded (kept_of_next (h.pickups g).settle) e
  | ready x n => exact kept_of_guarded (kept_of_next (h.readies x _).settle) e
  | spoil x n => exact kept_of_guarded (kept_of_next (h.spoils x _).settle) e
  | resync x => exact kept_of_guarded (kept_of_next (h.resyncs x)) e
  | lineFrameDiscard l bytes => exact kept_of_guarded (kept_of_next (Kept.folds (fun _ b hu => hu.lineByte l b) bytes h)) e
  | picked g => exact kept_of_next (h.picks _).settle e
  | passRefire g n => exact kept_of_next (h.passRefires _ _).settle e
  | passResync => exact kept_of_next h.passResyncs e
  | presenceFall x => exact kept_of_guarded (kept_of_next (h.falls x).settle) e
  | presenceRise x => exact kept_of_guarded (kept_of_next (h.rises x).settle) e
  | passPresenceFall => exact h.execPassPresenceFall e
  | passPresenceRise => exact h.execPassPresenceRise e
  | lineFrameEnd l =>
    refine kept_of_guarded (fun e => ?_) e
    split at e
    · exact kept_of_next (h.lines (chooseLineFrame_only l s)) e
    · exact kept_of_next h e
    · exact kept_of_next h e
  | refreshRunEnd l =>
    refine kept_of_guarded (fun e => ?_) e
    split at e
    · exact kept_of_next (h.lines (chooseLineFrame_only l s)) e
    · exact kept_of_next h e
    · exact kept_of_next h e
  | refreshBegin l => exact kept_of_guarded (kept_of_next (h.lines (beginRefresh_only l s))) e

/-- So does every step, which takes the command at the front of those that wait. -/
theorem Kept.step (hl : K.lead = 0) (h : Kept K [] none none s) (e : step s = .next t) : Kept K [] none none t := by
  unfold Machine.step at e
  split at e
  · exact kept_of_next h e
  · rename_i rest _
    have taken : Kept K [] none none { s with pending := rest } := h.aside rfl rfl
    exact taken.exec hl _ e

/-! ## The obligation -/

theorem storesCanonical_of_step (h : StoresCanonical s) (e : step s = .next t) : StoresCanonical t :=
  (step_runs e).keeps (fun _ _ => Changes.storesCanonical) h

theorem coherent_of_step (h : Coherent s) (e : step s = .next t) : Coherent t := by
  have kept : Kept .coherent [] none none s := .intro h False.elim False.elim
  exact (kept.step rfl e).coherent

theorem sound_of_step (h : Sound s) (hc : StoresCanonical s) (e : step s = .next t) : Sound t := by
  have kept : Kept .sound [] none none s := .intro h.1 (fun _ => h) False.elim
  exact (kept.step rfl e).sound trivial (storesCanonical_of_step hc e)

theorem bounds_and_times_of_step (h : Sound s) (hb : WithinBounds s) (ht : TimesTrue s) (e : step s = .next t) :
    WithinBounds t ∧ TimesTrue t := by
  have kept : Kept .full [] none none s := .intro h.1 (fun _ => h) fun _ => ⟨hb, ht, rfl⟩
  exact (kept.step rfl e).bounds trivial

/-- Settles O59: one invariant holds the places, the records and their counts together; each of the three scopes of it is kept by every
step. -/
theorem ticketPlacesStayCoherent : Obligations.TicketPlacesStayCoherent := by
  refine ⟨fun s t h e => coherent_of_step h e, fun s t ⟨h, hc⟩ e => ⟨sound_of_step h hc e, storesCanonical_of_step hc e⟩, ?_⟩
  rintro s t ⟨h, -, hb, ht⟩ e
  exact bounds_and_times_of_step h hb ht e

end Sys2Proof.Machine
end
